-- ==== Sys2Proof/Word.lean ====
section
/-! DEFINITION. The word types of the block (00 R10: registers are 32 bits; 10 R36, R37, R41, R42). -/

namespace Sys2Proof

/-- A register of the window, or an address of system memory (00 R10, 20 R62). -/
abbrev Word := BitVec 32

/-- A byte of system memory, a Huffman symbol, a byte-wide register field. -/
abbrev Byte := BitVec 8

/-- A 16-bit coefficient, predictor or quantizer entry (10 R37, R41, R42). -/
abbrev Half := BitVec 16

end Sys2Proof
end

