-- ==== Sys2Proof/Config.lean ====
section
/-! DEFINITION. What an implementation or a platform fixes (00 R9), and the free values: constants with no body,
so nothing can be proved about the value of one (93 part 2, treatment `any value`). -/

namespace Sys2Proof

/-- P_EXTEND, the reading of "bitwise complement" (43 R160). -/
inductive PExtend where
  | negComplement
  | bitNot
  deriving DecidableEq, Repr

/-- P_DEQ_ALIGN, the dequantizer's "matching position" (44 R181). -/
inductive PDeqAlign where
  | freq
  | index
  deriving DecidableEq, Repr

/-- P_IDCT, the inverse DCT function (45 R190). -/
inductive PIdct where
  | t81Exact
  | literalSeparableExact
  | impl
  deriving DecidableEq, Repr

/-- P_CC_G, the green formula (46 R202). -/
inductive PCcG where
  | coherent
  | literal
  deriving DecidableEq, Repr

/-- P_BUS, what a rejected DMA access does (20 R66). -/
inductive PBus where
  | error
  | stall
  deriving DecidableEq, Repr

/-- What a configuration register write does in DONE and ERROR: 40 R104, R129 and 70 R244 say that it is taken, 60 R228
that it is ignored with STATUS.IGN (log 32). -/
inductive PCfgWrites where
  | taken
  | ignored
  deriving DecidableEq, Repr

/-- The named parameters of 00 R9, and the reading of the model's own for 60 R228 (log 32). The state carries them as
constants (log 1). -/
structure Params where
  /-- ID_VALUE (10 R21). -/
  idValue : Word
  /-- MMIO_BASE, the first byte address of the 64 KiB register window (20 R60). -/
  mmioBase : Nat
  pExtend : PExtend
  /-- P_ZIGZAG: the natural index of each zigzag position (44 R180). -/
  pZigzag : Vector (Fin 64) 64
  pDeqAlign : PDeqAlign
  pIdct : PIdct
  pCcG : PCcG
  pBus : PBus
  pCfgWrites : PCfgWrites
  deriving DecidableEq, Repr

/-- A range of system memory in which the platform rejects DMA reads, DMA writes or both (20 R66, log 13). -/
structure Region where
  base : Nat
  size : Nat
  rejectsReads : Bool
  rejectsWrites : Bool
  deriving DecidableEq, Repr

namespace Config

/-- ID_VALUE, OPEN (10 R21, 92 D1; DESIGN CHOICE log 2, safe). -/
opaque idValue : Word

/-- MMIO_BASE, OPEN (00 R9, 92 D3; DESIGN CHOICE log 2, safe). -/
opaque mmioBase : Nat

/-- A 32-bit free value for each draw (93 S3, S6; log 6, safe). -/
opaque freeWord : Nat → BitVec 32

/-- A 16-bit free value for each draw (93 S3, S6; log 6, safe). -/
opaque freeHalf : Nat → BitVec 16

/-- An 8-bit free value for each draw (93 S4, S5, S6; log 6, safe). -/
opaque freeByte : Nat → BitVec 8

/-- A 1-bit free value for each draw (93 S6; log 6, safe). -/
opaque freeBit : Nat → Bool

/-- The count an unwritten HT_BITS entry holds, by reset and by entry `16·t + i` (93 S1; log 7). -/
opaque stagedCount : Nat → Nat → BitVec 8

/-- The symbol an unwritten HT_VAL entry holds, by reset and by entry `256·t + v` (93 S1, S2; log 7). -/
opaque stagedValue : Nat → Nat → BitVec 8

/-- The entry an unwritten QT_RAM entry holds, by reset and by entry `64·q + k` (93 S1; log 7). -/
opaque stagedQuant : Nat → Nat → BitVec 16

/-- IMPL(f): which of the integers within 1 of the exact value f gives, by block and by sample (45 R190, 93 S18; log 23, safe). -/
opaque implPick : List Int → Nat → Nat

end Config

end Sys2Proof
end

