-- ==== Sys2Proof/Syntax.lean ====
section
/-! DEFINITION. The instructions: one constructor per row of spec/opcode_table.json (30 R80 to R95), and what the
outside world can do to the block (00 R13, 20 R70, 70 R240). -/

namespace Sys2Proof

/-- The 38 rows of the opcode table, in its order: 22 of format `mmio`, 9 of format `cmd`, 3 of format `dc_symbol`,
4 of format `ac_symbol`. Operands a row ignores are kept, so that every encoding is one instruction. -/
inductive Instr where
  /-- RD_STATUS (40 R107). -/
  | rdStatus
  /-- RD_INPOS (40 R108). -/
  | rdInpos
  /-- RD_MCUCNT (40 R108). -/
  | rdMcucnt
  /-- RD_PREDj (40 R108). -/
  | rdPred (j : Fin 4)
  /-- RD at every other offset (40 R101). -/
  | rd (off : BitVec 16)
  /-- WR_CTRL (40 R103). -/
  | wrCtrl (d : Word)
  /-- WR_CMD (40 R109). -/
  | wrCmd (d : Word)
  /-- WR_FRAME_DIM (40 R104). -/
  | wrFrameDim (d : Word)
  /-- WR_FRAME_CFG (40 R104). -/
  | wrFrameCfg (d : Word)
  /-- WR_FCOMP0 (40 R104). -/
  | wrFcomp0 (d : Word)
  /-- WR_FCOMP1 (40 R104). -/
  | wrFcomp1 (d : Word)
  /-- WR_FCOMP2 (40 R104). -/
  | wrFcomp2 (d : Word)
  /-- WR_FCOMP3 (40 R104). -/
  | wrFcomp3 (d : Word)
  /-- WR_SCAN_CFG (40 R104). -/
  | wrScanCfg (d : Word)
  /-- WR_SCOMPj (40 R104). -/
  | wrScomp (j : Fin 4) (d : Word)
  /-- WR_IN_BASE (40 R104). -/
  | wrInBase (d : Word)
  /-- WR_IN_LEN (40 R104). -/
  | wrInLen (d : Word)
  /-- WR_OUT_BASE (40 R104). -/
  | wrOutBase (d : Word)
  /-- WR_HT_BITS (40 R105). -/
  | wrHtBits (t : Fin 8) (i : Fin 16) (d : Word)
  /-- WR_HT_VAL (40 R105). -/
  | wrHtVal (t : Fin 8) (v : Fin 256) (d : Word)
  /-- WR_QT_RAM (40 R106). -/
  | wrQtRam (q : Fin 4) (k : Fin 64) (d : Word)
  /-- WR at every other offset (40 R102). -/
  | wr (off : BitVec 16) (d : Word)
  /-- NOP; the 24 ignored bits are the hint space (40 R110). -/
  | nop (hint : BitVec 24)
  /-- START (40 R111). -/
  | start
  /-- ABORT; ARGH and ARG8 are ignored (40 R124). -/
  | abort (arg : BitVec 24)
  /-- ACK; ARGH and ARG8 are ignored (40 R125). -/
  | ack (arg : BitVec 24)
  /-- HT_COMMIT with the table header byte (40 R126). -/
  | htCommit (a8 : Byte)
  /-- QT_COMMIT with the table header byte (40 R127). -/
  | qtCommit (a8 : Byte)
  /-- START with a nonzero ARGH or ARG8 (40 R128). -/
  | illegalStart (arg : BitVec 24)
  /-- HT_COMMIT (`qt` false) or QT_COMMIT (`qt` true) with a nonzero ARGH (40 R128). -/
  | illegalCommit (qt : Bool) (argh : Half) (a8 : Byte)
  /-- A reserved opcode (40 R128). -/
  | reserved (op : Byte) (argh : Half) (a8 : Byte)
  /-- DC_SIZE0: difference 0 (43 R162). -/
  | dcSize0
  /-- DC_SIZE: s in 1..15 additional bits (43 R162). -/
  | dcSize (s : BitVec 4)
  /-- DC_BAD: a size above 15 (43 R162). -/
  | dcBad (byte : Byte)
  /-- EOB (43 R166). -/
  | eob
  /-- ZRL (43 R167). -/
  | zrl
  /-- RUN_ZERO: R in 1..14, S = 0 (43 R168). -/
  | runZero (r : BitVec 4)
  /-- RUN_SIZE: S in 1..15 additional bits (43 R168). -/
  | runSize (r s : BitVec 4)
  deriving DecidableEq, Repr

/-- The direction of a register access (30 R81). -/
inductive Dir where
  | rd
  | wr
  deriving DecidableEq, Repr

/-- A register access as the host makes it: direction, byte offset from MMIO_BASE, width in bytes, and data (writes
only; 0 for a read). The block admits only aligned accesses of 4 bytes (20 R61, 30 R81). -/
structure Access where
  dir : Dir
  off : BitVec 16
  bytes : Nat
  data : Word
  deriving DecidableEq, Repr

/-- An instruction word in its format (30 R80). -/
inductive Encoded where
  | mmio (a : Access)
  | cmd (w : Word)
  | dcSymbol (b : Byte)
  | acSymbol (b : Byte)
  deriving DecidableEq, Repr

/-- What the outside world does next, or that it is the block's turn (log 3). -/
inductive Event where
  /-- One register access (30 R81, R93 `WR` and `RD`). -/
  | access (a : Access)
  /-- One command word written to CMD (30 R82, R93 `CMD`). -/
  | command (w : Word)
  /-- The block takes its next step (70 R254). -/
  | block
  /-- Another agent reads a byte of system memory (20 R70). -/
  | memRead (a : Word)
  /-- Another agent writes a byte of system memory (20 R74). -/
  | memWrite (a : Word) (v : Byte)
  /-- The platform asserts the reset input (70 R240). -/
  | resetOn
  /-- The platform releases the reset input (70 R240). -/
  | resetOff
  /-- The platform changes which DMA accesses it rejects (20 R66). -/
  | platform (rejected : List Region)
  deriving DecidableEq, Repr

end Sys2Proof
end

