-- ==== Sys2Proof/WellFormed.lean ====
section
/-! DEFINITION. Which instructions have an encoding: the operand ranges of the opcode table's rows and, for the
catch-all rows, that no earlier row of the table takes the encoding (30 R83, R86, R88, R89, R95). -/

namespace Sys2Proof

/-- An aligned offset that no row of the table before RD takes (30 R81, R95). -/
def rdOffsetFree (off : BitVec 16) : Bool :=
  off &&& 0x3#16 == 0#16 && off != 0x00C#16 && off != 0x01C#16 && off != 0x020#16 && off &&& 0xFFF3#16 != 0x060#16

/-- An aligned offset that no row of the table before WR takes (30 R81, R95). -/
def wrOffsetFree (off : BitVec 16) : Bool :=
  off &&& 0x3#16 == 0#16 && off != 0x004#16 && off != 0x008#16 && off != 0x024#16 && off != 0x028#16
    && off != 0x02C#16 && off != 0x030#16 && off != 0x034#16 && off != 0x038#16 && off != 0x03C#16
    && off &&& 0xFFF3#16 != 0x040#16 && off != 0x050#16 && off != 0x054#16 && off != 0x058#16
    && off &&& 0xC7C3#16 != 0x4000#16 && off &&& 0xC403#16 != 0x4400#16 && off &&& 0xFC03#16 != 0x8000#16

/-- OP in 0x04..0x0F or 0x12..0xFF (30 R83, R86). -/
def reservedOp (op : Byte) : Bool :=
  (0x04#8 ≤ op && op ≤ 0x0F#8) || 0x12#8 ≤ op

/-- The instructions that are the decoding of some word. -/
def Instr.wellFormed : Instr → Bool
  | .rd off => rdOffsetFree off
  | .wr off _ => wrOffsetFree off
  | .illegalStart arg => arg != 0#24
  | .illegalCommit _ argh _ => argh != 0#16
  | .reserved op _ _ => reservedOp op
  | .dcSize s => s != 0#4
  | .dcBad b => 0x10#8 ≤ b
  | .runZero r => r != 0#4 && r != 15#4
  | .runSize _ s => s != 0#4
  | .rdStatus | .rdInpos | .rdMcucnt | .rdPred _ | .wrCtrl _ | .wrCmd _ | .wrFrameDim _ | .wrFrameCfg _
  | .wrFcomp0 _ | .wrFcomp1 _ | .wrFcomp2 _ | .wrFcomp3 _ | .wrScanCfg _ | .wrScomp _ _ | .wrInBase _ | .wrInLen _
  | .wrOutBase _ | .wrHtBits _ _ _ | .wrHtVal _ _ _ | .wrQtRam _ _ _ | .nop _ | .start | .abort _ | .ack _
  | .htCommit _ | .qtCommit _ | .dcSize0 | .eob | .zrl => true

end Sys2Proof
end

