-- ==== Sys2Proof/Decode.lean ====
section
/-! DEFINITION. The decoder: total on every register access, command word and symbol byte, rejecting by name the
accesses the block does not admit; then the encoder, written from the same tables (30 R81 to R89, R95). -/

namespace Sys2Proof

/-- Why a register access has no instruction (20 R61). -/
inductive Reject where
  /-- The access is not 32 bits wide. -/
  | notWordWide
  /-- The offset is not a multiple of 4. -/
  | misaligned
  deriving DecidableEq, Repr

/-- Bits [lo+w-1 : lo] of an offset as a number below n (30 R95). -/
def offField (n : Nat) [NeZero n] (off : BitVec 16) (lo : Nat) : Fin n :=
  Fin.ofNat n (off >>> lo).toNat

/-- The `mmio` rows with dir = RD, in table order (30 R95). -/
def decodeRd (off : BitVec 16) : Instr :=
  if off = 0x00C#16 then .rdStatus
  else if off = 0x01C#16 then .rdInpos
  else if off = 0x020#16 then .rdMcucnt
  else if off &&& 0xFFF3#16 = 0x060#16 then .rdPred (offField 4 off 2)
  else .rd off

/-- The `mmio` rows with dir = WR, in table order (30 R95). -/
def decodeWr (off : BitVec 16) (d : Word) : Instr :=
  if off = 0x004#16 then .wrCtrl d
  else if off = 0x008#16 then .wrCmd d
  else if off = 0x024#16 then .wrFrameDim d
  else if off = 0x028#16 then .wrFrameCfg d
  else if off = 0x02C#16 then .wrFcomp0 d
  else if off = 0x030#16 then .wrFcomp1 d
  else if off = 0x034#16 then .wrFcomp2 d
  else if off = 0x038#16 then .wrFcomp3 d
  else if off = 0x03C#16 then .wrScanCfg d
  else if off &&& 0xFFF3#16 = 0x040#16 then .wrScomp (offField 4 off 2) d
  else if off = 0x050#16 then .wrInBase d
  else if off = 0x054#16 then .wrInLen d
  else if off = 0x058#16 then .wrOutBase d
  else if off &&& 0xC7C3#16 = 0x4000#16 then .wrHtBits (offField 8 off 11) (offField 16 off 2) d
  else if off &&& 0xC403#16 = 0x4400#16 then .wrHtVal (offField 8 off 11) (offField 256 off 2) d
  else if off &&& 0xFC03#16 = 0x8000#16 then .wrQtRam (offField 4 off 8) (offField 64 off 2) d
  else .wr off d

/-- A register access (30 R81); an access that is not an aligned 32-bit word is rejected (20 R61). -/
def decodeAccess (a : Access) : Except Reject Instr :=
  if a.bytes ≠ 4 then .error .notWordWide
  else if a.off &&& 0x3#16 ≠ 0#16 then .error .misaligned
  else match a.dir with
    | .rd => .ok (decodeRd a.off)
    | .wr => .ok (decodeWr a.off a.data)

/-- The opcode of a command word (30 R82). -/
def cmdOp (w : Word) : Byte := w.extractLsb' 24 8

/-- ARGH of a command word (30 R82). -/
def cmdArgh (w : Word) : Half := w.extractLsb' 8 16

/-- ARG8 of a command word (30 R82). -/
def cmdArg8 (w : Word) : Byte := w.extractLsb' 0 8

/-- ARGH and ARG8 of a command word together. -/
def cmdArg (w : Word) : BitVec 24 := w.extractLsb' 0 24

/-- A command word; every word is some row (30 R83, R86, R95). -/
def decodeCommand (w : Word) : Instr :=
  if cmdOp w = 0x00#8 then .nop (cmdArg w)
  else if w = 0x01000000#32 then .start
  else if cmdOp w = 0x02#8 then .abort (cmdArg w)
  else if cmdOp w = 0x03#8 then .ack (cmdArg w)
  else if cmdOp w = 0x10#8 ∧ cmdArgh w = 0#16 then .htCommit (cmdArg8 w)
  else if cmdOp w = 0x11#8 ∧ cmdArgh w = 0#16 then .qtCommit (cmdArg8 w)
  else if cmdOp w = 0x01#8 then .illegalStart (cmdArg w)
  else if cmdOp w = 0x10#8 then .illegalCommit false (cmdArgh w) (cmdArg8 w)
  else if cmdOp w = 0x11#8 then .illegalCommit true (cmdArgh w) (cmdArg8 w)
  else .reserved (cmdOp w) (cmdArgh w) (cmdArg8 w)

/-- The low nibble of a symbol byte: the size (30 R88, R89). -/
def symLow (b : Byte) : BitVec 4 := b.extractLsb' 0 4

/-- The high nibble of a symbol byte: the run (30 R89). -/
def symHigh (b : Byte) : BitVec 4 := b.extractLsb' 4 4

/-- A byte decoded by MATCH from a DC table; every byte is some row (30 R88). -/
def decodeDc (b : Byte) : Instr :=
  if b = 0x00#8 then .dcSize0
  else if symHigh b = 0#4 then .dcSize (symLow b)
  else .dcBad b

/-- A byte decoded by MATCH from an AC table; every byte is some row (30 R89). -/
def decodeAc (b : Byte) : Instr :=
  if b = 0x00#8 then .eob
  else if b = 0xF0#8 then .zrl
  else if symLow b = 0#4 then .runZero (symHigh b)
  else .runSize (symHigh b) (symLow b)

/-- The decoder over all four formats (30 R80). -/
def decode : Encoded → Except Reject Instr
  | .mmio a => decodeAccess a
  | .cmd w => .ok (decodeCommand w)
  | .dcSymbol b => .ok (decodeDc b)
  | .acSymbol b => .ok (decodeAc b)

/-- A read of the register at an offset. -/
def encRd (off : BitVec 16) : Encoded := .mmio ⟨.rd, off, 4, 0#32⟩

/-- A write of the register at an offset. -/
def encWr (off : BitVec 16) (d : Word) : Encoded := .mmio ⟨.wr, off, 4, d⟩

/-- A command word from its fields (30 R82). -/
def cmdWord (op : Byte) (argh : Half) (a8 : Byte) : Word := op ++ argh ++ a8

/-- The encoder: the access, command word or symbol byte of an instruction (30 R83, R88, R89; 10 R20, R36, R37). -/
def encode : Instr → Encoded
  | .rdStatus => encRd 0x00C#16
  | .rdInpos => encRd 0x01C#16
  | .rdMcucnt => encRd 0x020#16
  | .rdPred j => encRd (BitVec.ofNat 16 (0x060 + 4 * j.val))
  | .rd off => encRd off
  | .wrCtrl d => encWr 0x004#16 d
  | .wrCmd d => encWr 0x008#16 d
  | .wrFrameDim d => encWr 0x024#16 d
  | .wrFrameCfg d => encWr 0x028#16 d
  | .wrFcomp0 d => encWr 0x02C#16 d
  | .wrFcomp1 d => encWr 0x030#16 d
  | .wrFcomp2 d => encWr 0x034#16 d
  | .wrFcomp3 d => encWr 0x038#16 d
  | .wrScanCfg d => encWr 0x03C#16 d
  | .wrScomp j d => encWr (BitVec.ofNat 16 (0x040 + 4 * j.val)) d
  | .wrInBase d => encWr 0x050#16 d
  | .wrInLen d => encWr 0x054#16 d
  | .wrOutBase d => encWr 0x058#16 d
  | .wrHtBits t i d => encWr (BitVec.ofNat 16 (0x4000 + 0x800 * t.val + 4 * i.val)) d
  | .wrHtVal t v d => encWr (BitVec.ofNat 16 (0x4000 + 0x800 * t.val + 0x400 + 4 * v.val)) d
  | .wrQtRam q k d => encWr (BitVec.ofNat 16 (0x8000 + 0x100 * q.val + 4 * k.val)) d
  | .wr off d => encWr off d
  | .nop hint => .cmd (0x00#8 ++ hint)
  | .start => .cmd (cmdWord 0x01#8 0#16 0#8)
  | .abort arg => .cmd (0x02#8 ++ arg)
  | .ack arg => .cmd (0x03#8 ++ arg)
  | .htCommit a8 => .cmd (cmdWord 0x10#8 0#16 a8)
  | .qtCommit a8 => .cmd (cmdWord 0x11#8 0#16 a8)
  | .illegalStart arg => .cmd (0x01#8 ++ arg)
  | .illegalCommit qt argh a8 => .cmd (cmdWord (if qt then 0x11#8 else 0x10#8) argh a8)
  | .reserved op argh a8 => .cmd (cmdWord op argh a8)
  | .dcSize0 => .dcSymbol 0x00#8
  | .dcSize s => .dcSymbol (0#4 ++ s)
  | .dcBad b => .dcSymbol b
  | .eob => .acSymbol 0x00#8
  | .zrl => .acSymbol 0xF0#8
  | .runZero r => .acSymbol (r ++ 0#4)
  | .runSize r s => .acSymbol (r ++ s)

/-- The access key of an `mmio` row, `(dir << 16) | off` (30 R95), as an access of the admitted width; the data is not
part of the key and is 0. -/
def accessOfKey (w : Nat) : Access :=
  ⟨if w / 0x10000 % 2 = 1 then .wr else .rd, BitVec.ofNat 16 w, 4, 0#32⟩

/-- Which format a lone symbol byte is read in. The table's two symbol formats share all 256 bytes and the sequencer's
phase tells them apart (30 R88, R89); with no phase at hand, sizes 0..15 are read as DC terms and the rest as AC terms
(DESIGN CHOICE log 20). -/
def symbolOfByte (b : Byte) : Encoded :=
  if symHigh b = 0#4 then .dcSymbol b else .acSymbol b

/-- The encoded item whose bits spec/opcode_table.json numbers as `w`: 24 bits hold a 17-bit access key, 32 bits a
command word, 8 bits a symbol byte. -/
def encodedOfTableWord (nbits w : Nat) : Option Encoded :=
  if nbits = 24 ∧ w < 0x20000 then some (.mmio (accessOfKey w))
  else if nbits = 32 then some (.cmd (BitVec.ofNat 32 w))
  else if nbits = 8 then some (symbolOfByte (BitVec.ofNat 8 w))
  else none

/-- The instruction the decoder reads from a table word. -/
def decodeTableWord (nbits w : Nat) : Option Instr :=
  match encodedOfTableWord nbits w with
  | some e => (match decode e with
    | .ok i => some i
    | .error _ => none)
  | none => none

end Sys2Proof
end

