-- ==== Sys2Proof/Machine/Params.lean ====
section
/-! DEFINITION. The defaults of the named parameters (00 R9), the zigzag table among them (44 R180). -/

namespace Sys2Proof.Machine

/-- `ZZ_NAT[0..63]` as numbers: the natural index of each zigzag position (44 R180). -/
def zzNatList : List (Fin 64) :=
  [ 0,  1,  8, 16,  9,  2,  3, 10] ++
  [17, 24, 32, 25, 18, 11,  4,  5] ++
  [12, 19, 26, 33, 40, 48, 41, 34] ++
  [27, 20, 13,  6,  7, 14, 21, 28] ++
  [35, 42, 49, 56, 57, 50, 43, 36] ++
  [29, 22, 15, 23, 30, 37, 44, 51] ++
  [58, 59, 52, 45, 38, 31, 39, 46] ++
  [53, 60, 61, 54, 47, 55, 62, 63]

/-- `ZZ_NAT`, the default of P_ZIGZAG (44 R180). -/
def zzNat : Vector (Fin 64) 64 := ⟨zzNatList.toArray, rfl⟩

/-- The spec's defaults; ID_VALUE and MMIO_BASE stay open (00 R9; log 1, log 2), and configuration writes in DONE and ERROR
are taken, as 40 R104 says (log 32). -/
def defaultParams : Params where
  idValue := Config.idValue
  mmioBase := Config.mmioBase
  pExtend := .negComplement
  pZigzag := zzNat
  pDeqAlign := .freq
  pIdct := .t81Exact
  pCcG := .coherent
  pBus := .error
  pCfgWrites := .taken

end Sys2Proof.Machine
end

