-- ==== Sys2Proof/Machine/State.lean ====
section
/-! DEFINITION. The state: every register, table, buffer and position the spec gives the block (10_state.md), system
memory and the platform's answers (20_memory.md), and the model's own fields (log 3, 5, 6, 7, 11, 12). Reset is 70 R241. -/

namespace Sys2Proof.Machine

/-- The sequencer's top-level state, STATUS.STATE (10 R24, R39). -/
inductive SeqState where
  | idle
  | busy
  | done
  | error
  deriving DecidableEq, Repr

/-- The phase of the sequencer's position (10 R39). -/
inductive Phase where
  | dc
  | ac
  | recon
  | drain
  deriving DecidableEq, Repr

/-- The destuffer's end record (10 R40). -/
structure EndRec where
  ended : Bool
  pos : Nat
  marker : Bool
  mbyte : Byte
  deriving DecidableEq, Repr

/-- One Huffman code: the `len`-bit string whose `bits_to_uint` is `code` decodes to `value` (42 R150). -/
structure Code where
  len : Nat
  code : Nat
  value : Byte
  deriving DecidableEq, Repr

/-- An active Huffman table HT_ACT[t] (10 R36). -/
structure HtTable where
  valid : Bool
  bits : List Byte
  vals : List Byte
  maxlen : Nat
  codes : List Code
  deriving DecidableEq, Repr

/-- The precision of a quantization table, 8 or 16 (10 R37). -/
inductive Precision where
  | bits8
  | bits16
  deriving DecidableEq, Repr

/-- An active quantization table QT_ACT[q] (10 R37). -/
structure QtTable where
  valid : Bool
  precision : Precision
  q : Vector Half 64
  deriving DecidableEq, Repr

/-- The machine's state. -/
structure State where
  /-- The named parameters of 00 R9; no step changes them (log 1). -/
  params : Params
  /-- CTRL.RGB_EN (10 R22). -/
  rgbEn : Bool
  /-- CTRL.SAT (10 R22). -/
  sat : Bool
  /-- CTRL.IRQ_EN (10 R22). -/
  irqEn : Bool
  /-- STATUS.STATE (10 R24, R39). -/
  seq : SeqState
  /-- STATUS.IGN (10 R24). -/
  ign : Bool
  /-- STATUS.MKR_VALID (10 R24). -/
  mkrValid : Bool
  /-- STATUS.MKR (10 R24). -/
  mkr : Byte
  /-- ERRCODE.CODE (10 R25). -/
  errcode : BitVec 4
  /-- ERRINFO (10 R26). -/
  errinfo : Word
  /-- ERRPOS (10 R27). -/
  errpos : Word
  /-- INPOS (10 R34). -/
  inpos : Word
  /-- MCUCNT (10 R34). -/
  mcucnt : Word
  /-- FRAME_DIM (10 R28). -/
  frameDim : Word
  /-- FRAME_CFG (10 R29). -/
  frameCfg : Word
  /-- FCOMP0..FCOMP3 (10 R30). -/
  fcomp : Vector Word 4
  /-- SCAN_CFG (10 R31). -/
  scanCfg : Word
  /-- SCOMP0..SCOMP3 (10 R32). -/
  scomp : Vector Word 4
  /-- IN_BASE (10 R33). -/
  inBase : Word
  /-- IN_LEN (10 R33). -/
  inLen : Word
  /-- OUT_BASE (10 R33). -/
  outBase : Word
  /-- PRED[0..3] (10 R35, R41). -/
  pred : Vector Half 4
  /-- Which draw the unwritten staging entries hold (log 7). -/
  stageSeed : Nat
  /-- The written HT_BITS staging entries, keyed `16·t + i`, keys rising (10 R36, R47; log 7). -/
  htBits : List (Nat × Byte)
  /-- The written HT_VAL staging entries, keyed `256·t + v`, keys rising (10 R36, R47; log 7). -/
  htVal : List (Nat × Byte)
  /-- The written QT_RAM staging entries, keyed `64·q + k`, keys rising (10 R37, R47; log 7). -/
  qtRam : List (Nat × Half)
  /-- HT_ACT[0..7] (10 R36). -/
  htAct : Vector HtTable 8
  /-- QT_ACT[0..3] (10 R37). -/
  qtAct : Vector QtTable 4
  /-- Position: the MCU index m (10 R39). -/
  m : Nat
  /-- Position: the scan component j (10 R39). -/
  j : Fin 4
  /-- Position: the next zigzag position k, 0..64 (10 R39). -/
  k : Nat
  /-- Position: the phase (10 R39). -/
  phase : Phase
  /-- Position within RECON: how many reconstructions and output writes of the MCU are made (43 R171; log 22). -/
  sub : Nat
  /-- Destuffer: the offset of the next input byte (10 R40). -/
  ip : Nat
  /-- Destuffer: the destuffed bit string D (10 R40). -/
  dbits : List Bool
  /-- Destuffer: the input offset of each destuffed byte (10 R40). -/
  src : List Nat
  /-- Destuffer: the end record END (10 R40). -/
  endRec : EndRec
  /-- The cursor: how many bits of D are consumed (10 R42). -/
  cur : Nat
  /-- The cursor at the start of the current symbol's code (43 introduction; log 11). -/
  c0 : Nat
  /-- ZZ[j], in zigzag order (10 R42). -/
  zz : Vector (Vector Half 64) 4
  /-- F[j], in natural order (10 R43). -/
  fbuf : Vector (Vector Int 64) 4
  /-- S[j], in sample order (10 R43). -/
  sbuf : Vector (Vector Int 64) 4
  /-- A DMA access that never completes is in progress (20 R66; log 12). -/
  stalled : Bool
  /-- The reset input is asserted (70 R240; log 25). -/
  resetAsserted : Bool
  /-- System memory: the bytes that differ from what an unlisted address reads as (20 R62; log 8). -/
  mem : List Host.Cell
  /-- System memory as it stood when the decode was launched (20 R70 item 5; log 15). -/
  before : List Host.Cell
  /-- Where the platform rejects DMA accesses (20 R66; log 13). -/
  busMap : List Region
  /-- What the outside world does, and when it is the block's turn (log 3). -/
  agenda : List Event
  /-- The value the last register read returned to the host (log 5). -/
  readData : Word
  /-- The value the last host read of system memory returned (log 5). -/
  memData : Byte
  /-- How many free values have been drawn (log 6). -/
  draws : Nat
  deriving DecidableEq, Repr

/-- Why the machine stops. -/
inductive Fault where
  /-- Raised by the block's turn (Machine/Block.lean) in a BUSY state whose registers and tables do not pass START's
  checks. Safe: no run reaches such a state (log 18). -/
  | launchInvalid
  deriving DecidableEq, Repr

/-- Why the model gives an action no meaning. -/
inductive Refusal where
  /-- Raised by a dispatch arm of an instruction that has no meaning yet. Safe. -/
  | notModelled (mnemonic : String)
  /-- Raised by the fetch and by RD and WR for a register access that is not an aligned 32-bit word, which 20 R61 gives
  no meaning. Safe (log 17). -/
  | accessNotAdmitted
  /-- Raised by START when the input and output ranges overlap, a broken premise of 20 R74. Safe (log 14). -/
  | rangesOverlap
  /-- Raised by START when the input or the output range overlaps the register window, a broken premise of 20 R74.
  Safe (log 14). -/
  | windowOverlap
  /-- Raised by a memory write of another agent into the input range while BUSY, a broken premise of 20 R74. Safe
  (log 16). -/
  | inputWritten
  /-- Raised by a memory write of another agent into the output range while BUSY, a broken premise of 20 R74. Safe
  (log 16). -/
  | outputWritten
  /-- Raised by a scan symbol run where the sequencer is not decoding a term of its class. Safe: no step does this
  (log 19). -/
  | symbolOutsideDecode
  deriving DecidableEq, Repr

/-- What a meaning answers. -/
abbrev Result := Host.Outcome State Fault Refusal

/-- An end record with nothing found yet (41 R141). -/
def EndRec.clear : EndRec := ⟨false, 0, false, 0#8⟩

/-- An active Huffman table after reset: not valid; its contents are never read (10 R36; log 9). -/
def HtTable.empty : HtTable := ⟨false, [], [], 0, []⟩

/-- An active quantization table after reset: not valid; its contents are never read (10 R37; log 9). -/
def QtTable.empty : QtTable := ⟨false, .bits8, Vector.replicate 64 0#16⟩

/-- The machine right after reset (70 R241). -/
def State.reset : State where
  params := defaultParams
  rgbEn := false
  sat := true
  irqEn := false
  seq := .idle
  ign := false
  mkrValid := false
  mkr := 0#8
  errcode := 0#4
  errinfo := 0#32
  errpos := 0#32
  inpos := 0#32
  mcucnt := 0#32
  frameDim := 0#32
  frameCfg := 0#32
  fcomp := Vector.replicate 4 0#32
  scanCfg := 0#32
  scomp := Vector.replicate 4 0#32
  inBase := 0#32
  inLen := 0#32
  outBase := 0#32
  pred := Vector.replicate 4 0#16
  stageSeed := 0
  htBits := []
  htVal := []
  qtRam := []
  htAct := Vector.replicate 8 HtTable.empty
  qtAct := Vector.replicate 4 QtTable.empty
  m := 0
  j := 0
  k := 0
  phase := .dc
  sub := 0
  ip := 0
  dbits := []
  src := []
  endRec := EndRec.clear
  cur := 0
  c0 := 0
  zz := Vector.replicate 4 (Vector.replicate 64 0#16)
  fbuf := Vector.replicate 4 (Vector.replicate 64 0)
  sbuf := Vector.replicate 4 (Vector.replicate 64 0)
  stalled := false
  resetAsserted := false
  mem := []
  before := []
  busMap := []
  agenda := []
  readData := 0#32
  memData := 0#8
  draws := 0

end Sys2Proof.Machine
end

