-- ==== Sys2Proof/Machine/Operands.lean ====
section
/-! DEFINITION. The operand forms: fields of the configuration registers (10 R28 to R33), of the command words (30 R84,
R85), bit strings (00 R12), the signed value of additional bits (43 R160), and the register map (10 R20, 20 R60). -/

namespace Sys2Proof.Machine

/-! ### Fields of the frame, scan and buffer registers -/

/-- FRAME_DIM.X, the width (10 R28). -/
def frameX (s : State) : Nat := (s.frameDim.extractLsb' 0 16).toNat

/-- FRAME_DIM.Y, the height (10 R28). -/
def frameY (s : State) : Nat := (s.frameDim.extractLsb' 16 16).toNat

/-- FRAME_CFG.P, the sample precision (10 R29). -/
def frameP (s : State) : Byte := s.frameCfg.extractLsb' 0 8

/-- FRAME_CFG.NF as a byte (10 R29). -/
def frameNfByte (s : State) : Byte := s.frameCfg.extractLsb' 8 8

/-- FRAME_CFG.NF, the component count (10 R29). -/
def frameNf (s : State) : Nat := (frameNfByte s).toNat

/-- FCOMPc.C, the component id (10 R30). -/
def fcompId (s : State) (c : Fin 4) : Byte := (s.fcomp.get c).extractLsb' 0 8

/-- FCOMPc.V, the vertical sampling factor (10 R30). -/
def fcompV (s : State) (c : Fin 4) : BitVec 4 := (s.fcomp.get c).extractLsb' 8 4

/-- FCOMPc.H, the horizontal sampling factor (10 R30). -/
def fcompH (s : State) (c : Fin 4) : BitVec 4 := (s.fcomp.get c).extractLsb' 12 4

/-- FCOMPc.TQ, the quantization table id (10 R30). -/
def fcompTq (s : State) (c : Fin 4) : Nat := ((s.fcomp.get c).extractLsb' 16 8).toNat

/-- SCAN_CFG.NS as a byte (10 R31). -/
def scanNsByte (s : State) : Byte := s.scanCfg.extractLsb' 0 8

/-- SCAN_CFG.NS, the scan component count (10 R31). -/
def scanNs (s : State) : Nat := (scanNsByte s).toNat

/-- SCOMPj.CS, the component id (10 R32). -/
def scompId (s : State) (j : Fin 4) : Byte := (s.scomp.get j).extractLsb' 0 8

/-- SCOMPj.TA, the AC table id (10 R32). -/
def scompTa (s : State) (j : Fin 4) : Nat := ((s.scomp.get j).extractLsb' 8 4).toNat

/-- SCOMPj.TD, the DC table id (10 R32). -/
def scompTd (s : State) (j : Fin 4) : Nat := ((s.scomp.get j).extractLsb' 12 4).toNat

/-- The four component positions, in order. -/
def comps : List (Fin 4) := [0, 1, 2, 3]

/-- The scan components 0..NS-1. -/
def scanComps (s : State) : List (Fin 4) := comps.filter fun j => j.val < scanNs s

/-- The frame components 0..NF-1. -/
def frameComps (s : State) : List (Fin 4) := comps.filter fun c => c.val < frameNf s

/-- fc(j): the frame component that scan component j names (40 R119). -/
def fcOf? (s : State) (j : Fin 4) : Option (Fin 4) :=
  (frameComps s).find? fun c => fcompId s c == scompId s j

/-- sc(c): the scan component that names frame component c (46 R204). -/
def scOf? (s : State) (c : Fin 4) : Option (Fin 4) :=
  (scanComps s).find? fun j => scompId s j == fcompId s c

/-- MX, the MCU columns of the frame (43 R172). -/
def mcuCols (s : State) : Nat := (frameX s + 7) / 8

/-- MY, the MCU rows of the frame (43 R172). -/
def mcuRows (s : State) : Nat := (frameY s + 7) / 8

/-- NMCU (43 R171, R172). -/
def mcuTotal (s : State) : Nat := mcuCols s * mcuRows s

/-- X·Y·NF, the size of the output buffer (20 R64). -/
def outSize (s : State) : Nat := frameX s * frameY s * frameNf s

/-- The address `base + o`. START refuses launches where the sum could wrap (40 R122; log 29). -/
def addrAt (base : Word) (o : Nat) : Nat := (base.toNat + o) % 2 ^ 32

/-! ### Bit strings and signed values -/

/-- `uint_to_bits(v, n)`, leftmost bit most significant (00 R12). -/
def uintToBits (v n : Nat) : List Bool := (List.range n).map fun i => v.testBit (n - 1 - i)

/-- `bits_to_uint` (00 R12). -/
def bitsToUint (w : List Bool) : Nat := w.foldl (fun acc b => 2 * acc + b.toNat) 0

/-- EXTEND(v, s) (43 R160). -/
def extend (mode : PExtend) (v s : Nat) : Int :=
  if s = 0 then 0
  else if 2 ^ (s - 1) ≤ v then (v : Int)
  else match mode with
    | .negComplement => -((2 ^ s - 1 : Int) - v)
    | .bitNot => -(v : Int) - 1

/-! ### Operand bytes of the commits -/

/-- HT_COMMIT: ARG8[7:5], which must be 0 (30 R84). -/
def htHeaderMbz (a8 : Byte) : BitVec 3 := a8.extractLsb' 5 3

/-- HT_COMMIT: TH = ARG8[3:0] (30 R84). -/
def htHeaderTh (a8 : Byte) : Nat := (a8.extractLsb' 0 4).toNat

/-- HT_COMMIT: TC = ARG8[4] (30 R84). -/
def htHeaderTc (a8 : Byte) : Nat := (a8.extractLsb' 4 1).toNat

/-- HT_COMMIT: the table index t = 4·TC + TH, when TH ≤ 3 (30 R84, 10 R36). -/
def htIndex (a8 : Byte) : Fin 8 := Fin.ofNat 8 (4 * htHeaderTc a8 + htHeaderTh a8)

/-- QT_COMMIT: PQ = ARG8[7:4] (30 R85). -/
def qtHeaderPq (a8 : Byte) : Nat := (a8.extractLsb' 4 4).toNat

/-- QT_COMMIT: TQ = ARG8[3:0] (30 R85). -/
def qtHeaderTq (a8 : Byte) : Nat := (a8.extractLsb' 0 4).toNat

/-- QT_COMMIT: the table index, when TQ ≤ 3 (30 R85). -/
def qtIndex (a8 : Byte) : Fin 4 := Fin.ofNat 4 (qtHeaderTq a8)

/-! ### Fields of the entropy decoder's table ids -/

/-- The DC table of scan component j, HT_ACT[TD] (43 R162). -/
def dcTable (s : State) (j : Fin 4) : HtTable := s.htAct.get (Fin.ofNat 8 (scompTd s j))

/-- The AC table of scan component j, HT_ACT[4 + TA] (43 R165). -/
def acTable (s : State) (j : Fin 4) : HtTable := s.htAct.get (Fin.ofNat 8 (4 + scompTa s j))

/-- The frame component of scan component j; START has checked that there is one (40 R119). -/
def fcOf (s : State) (j : Fin 4) : Fin 4 := (fcOf? s j).getD 0

/-- The scan component of frame component c; START has checked that there is one (40 R119). -/
def scOf (s : State) (c : Fin 4) : Fin 4 := (scOf? s c).getD 0

/-- The quantization table of scan component j, QT_ACT[FCOMP(fc(j)).TQ] (44 R183). -/
def quantTable (s : State) (j : Fin 4) : QtTable := s.qtAct.get (Fin.ofNat 4 (fcompTq s (fcOf s j)))

/-! ### The register map -/

/-- What an aligned offset of the window names (10 R20). -/
inductive Reg where
  | id
  | ctrl
  | cmd
  | status
  | errcode
  | errinfo
  | errpos
  | inpos
  | mcucnt
  | frameDim
  | frameCfg
  | fcomp (c : Fin 4)
  | scanCfg
  | scomp (j : Fin 4)
  | inBase
  | inLen
  | outBase
  | tvalid
  | pred (j : Fin 4)
  | htBits (t : Fin 8) (i : Fin 16)
  | htVal (t : Fin 8) (v : Fin 256)
  | qtRam (q : Fin 4) (k : Fin 64)
  | reserved
  deriving DecidableEq, Repr

/-- The register at an offset; every other offset is reserved (10 R20, 20 R60). -/
def regAt (off : BitVec 16) : Reg :=
  let o := off.toNat
  if o % 4 ≠ 0 then .reserved
  else if o < 0x070 then
    match o / 4 with
    | 0 => .id
    | 1 => .ctrl
    | 2 => .cmd
    | 3 => .status
    | 4 => .errcode
    | 5 => .errinfo
    | 6 => .errpos
    | 7 => .inpos
    | 8 => .mcucnt
    | 9 => .frameDim
    | 10 => .frameCfg
    | 11 => .fcomp 0
    | 12 => .fcomp 1
    | 13 => .fcomp 2
    | 14 => .fcomp 3
    | 15 => .scanCfg
    | 16 => .scomp 0
    | 17 => .scomp 1
    | 18 => .scomp 2
    | 19 => .scomp 3
    | 20 => .inBase
    | 21 => .inLen
    | 22 => .outBase
    | 23 => .tvalid
    | 24 => .pred 0
    | 25 => .pred 1
    | 26 => .pred 2
    | 27 => .pred 3
    | _ => .reserved
  else if o < 0x4000 then .reserved
  else if o < 0x8000 then
    let t := Fin.ofNat 8 ((o - 0x4000) / 0x800)
    let r := (o - 0x4000) % 0x800
    if r < 0x040 then .htBits t (Fin.ofNat 16 (r / 4))
    else if r < 0x400 then .reserved
    else .htVal t (Fin.ofNat 256 ((r - 0x400) / 4))
  else if o < 0x8400 then .qtRam (Fin.ofNat 4 ((o - 0x8000) / 0x100)) (Fin.ofNat 64 ((o - 0x8000) % 0x100 / 4))
  else .reserved

/-- The bits of a configuration register that are stored; reserved bits are stored as 0 (40 R104). -/
def fieldMask : Reg → Word
  | .frameCfg => 0x0000FFFF#32
  | .fcomp _ => 0x00FFFFFF#32
  | .scanCfg => 0x000000FF#32
  | .scomp _ => 0x0000FFFF#32
  | _ => 0xFFFFFFFF#32

end Sys2Proof.Machine
end

