-- ==== Sys2Proof/Machine/Flags.lean ====
section
/-! DEFINITION. The status fields: the STATUS word, the interrupt line, the sticky IGN flag and TVALID (10 R24, R38,
R44; 40 R107; 60 R226). -/

namespace Sys2Proof.Machine

/-- enc(STATE) (40 R107). -/
def encSeq : SeqState → BitVec 2
  | .idle => 0#2
  | .busy => 1#2
  | .done => 2#2
  | .error => 3#2

/-- The level of the interrupt output, IRQ_EN ∧ (DONE ∨ ERROR) (60 R226). -/
def irq (s : State) : Bool := s.irqEn && (s.seq == .done || s.seq == .error)

/-- status_word(): MKR in [15:8], MKR_VALID in [4], IGN in [3], IRQ in [2], STATE in [1:0] (40 R107). -/
def statusWord (s : State) : Word :=
  0#16 ++ s.mkr ++ 0#3 ++ BitVec.ofBool s.mkrValid ++ BitVec.ofBool s.ign ++ BitVec.ofBool (irq s) ++ encSeq s.seq

/-- CTRL as a word (10 R22). -/
def ctrlWord (s : State) : Word :=
  0#29 ++ BitVec.ofBool s.irqEn ++ BitVec.ofBool s.sat ++ BitVec.ofBool s.rgbEn

/-- The number whose bit i is the i-th element of the list. -/
def bitsLE : List Bool → Nat
  | [] => 0
  | b :: t => b.toNat + 2 * bitsLE t

/-- TVALID: HT_ACT[t].valid in bit t, QT_ACT[q].valid in bit 8 + q (10 R38). -/
def tvalidWord (s : State) : Word :=
  BitVec.ofNat 32 (bitsLE (s.htAct.toList.map HtTable.valid ++ s.qtAct.toList.map QtTable.valid))

/-- `STATUS.IGN <- 1` and no other effect: a write or a command the state does not accept (40 R104, R109). -/
def ignored (s : State) : State := { s with ign := true }

end Sys2Proof.Machine
end

