-- ==== Sys2Proof/Machine/Ops.lean ====
section
/-! DEFINITION. The shared operations: system memory (20 R62), the staging RAMs (10 R36, R37), free values (93 part 2),
the platform's answers (20 R66), error entry and the return from it (60 R224, R228), and the outcomes of a decode step. -/

namespace Sys2Proof.Machine

/-! ### System memory -/

/-- System memory: address and byte, addresses strictly rising, no entry equal to an unlisted byte (log 8). -/
abbrev Memory := List Host.Cell

/-- What an unlisted address reads as (DESIGN CHOICE log 8, unsafe). -/
def blankByte : Byte := 0#8

/-- The canonical form, and that every listed address is one of the 2^32 (20 R62). -/
abbrev Memory.wf (m : Memory) : Prop :=
  m.Pairwise (fun a b => a.1 < b.1) ∧ ∀ c ∈ m, c.2 ≠ blankByte ∧ c.1 < 2 ^ 32

/-- MemRead: the byte at an address (20 R62). -/
def Memory.read : Memory → Nat → Byte
  | [], _ => blankByte
  | (b, v) :: t, a => if b = a then v else Memory.read t a

/-- MemWrite: store a byte at an address, keeping the canonical form (20 R62). -/
def Memory.write : Memory → Nat → Byte → Memory
  | [], a, v => if v = blankByte then [] else [(a, v)]
  | (b, w) :: t, a, v =>
    if a < b then (if v = blankByte then (b, w) :: t else (a, v) :: (b, w) :: t)
    else if a = b then (if v = blankByte then t else (a, v) :: t)
    else (b, w) :: Memory.write t a v

/-- Free values in the n bytes at base, from draw d on (93 S5). -/
def fillFree (m : Memory) (base : Word) (d : Nat) : Nat → Memory
  | 0 => m
  | n + 1 => (fillFree m base d n).write (addrAt base n) (Config.freeByte (d + n))

/-! ### The staging RAMs -/

/-- A staging entry: what was last written, or the value the unwritten entry holds (10 R47). -/
def ramRead {w : Nat} (ram : List (Nat × BitVec w)) (key : Nat) (unwritten : BitVec w) : BitVec w :=
  match ram with
  | [] => unwritten
  | (b, v) :: t => if b = key then v else ramRead t key unwritten

/-- Write a staging entry, keys rising. -/
def ramWrite {w : Nat} (ram : List (Nat × BitVec w)) (key : Nat) (v : BitVec w) : List (Nat × BitVec w) :=
  match ram with
  | [] => [(key, v)]
  | (b, x) :: t =>
    if key < b then (key, v) :: (b, x) :: t
    else if key = b then (key, v) :: t
    else (b, x) :: ramWrite t key v

/-- The key of HT_BITS[t][i]. -/
def countKey (t : Fin 8) (i : Nat) : Nat := 16 * t.val + i

/-- The key of HT_VAL[t][v]. -/
def valueKey (t : Fin 8) (v : Nat) : Nat := 256 * t.val + v

/-- The key of QT_RAM[q][k]. -/
def quantKey (q : Fin 4) (k : Nat) : Nat := 64 * q.val + k

/-- HT_BITS[t][i] as the host or a commit reads it (10 R36, R47). -/
def stagedCountOf (s : State) (t : Fin 8) (i : Nat) : Byte :=
  ramRead s.htBits (countKey t i) (Config.stagedCount s.stageSeed (countKey t i))

/-- HT_VAL[t][v] as the host or a commit reads it (10 R36, R47). -/
def stagedValueOf (s : State) (t : Fin 8) (v : Nat) : Byte :=
  ramRead s.htVal (valueKey t v) (Config.stagedValue s.stageSeed (valueKey t v))

/-- QT_RAM[q][k] as the host or a commit reads it (10 R37, R47). -/
def stagedQuantOf (s : State) (q : Fin 4) (k : Nat) : Half :=
  ramRead s.qtRam (quantKey q k) (Config.stagedQuant s.stageSeed (quantKey q k))

/-! ### The platform's answers -/

/-- Whether the platform rejects the DMA read or write of address a (20 R66). -/
def busRejects (s : State) (write : Bool) (a : Nat) : Bool :=
  s.busMap.any fun r =>
    decide (r.base ≤ a) && decide (a < r.base + r.size) && (if write then r.rejectsWrites else r.rejectsReads)

/-! ### Errors -/

/-- The error codes (60 R221). -/
inductive ErrorCode where
  | malformedHeader
  | truncated
  | unsupportedFeature
  | malformedTable
  | corruptBitstream
  | missingTable
  | overflow
  | illegalCommand
  | addressRange
  | busError
  deriving DecidableEq, Repr

/-- ERRCODE.CODE of an error code (60 R221). -/
def ErrorCode.num : ErrorCode → BitVec 4
  | .malformedHeader => 1#4
  | .truncated => 2#4
  | .unsupportedFeature => 3#4
  | .malformedTable => 4#4
  | .corruptBitstream => 5#4
  | .missingTable => 6#4
  | .overflow => 7#4
  | .illegalCommand => 8#4
  | .addressRange => 9#4
  | .busError => 10#4

/-- Where an error was raised (60 R220, R222). -/
inductive Origin where
  | startCheck
  | tableCommit
  | decode
  | illegalCommand
  | dma
  deriving DecidableEq, Repr

/-- ERRINFO.ORIGIN (60 R222). -/
def Origin.num : Origin → Byte
  | .startCheck => 1#8
  | .tableCommit => 2#8
  | .decode => 3#8
  | .illegalCommand => 4#8
  | .dma => 5#8

/-- Whether the error happened during a decode: origin 3 or 5 (60 R224). -/
def Origin.inDecode : Origin → Bool
  | .decode => true
  | .dma => true
  | .startCheck => false
  | .tableCommit => false
  | .illegalCommand => false

/-- What a raise names: the code, ERRINFO's fields and ERRPOS (00 R13). -/
structure Err where
  code : ErrorCode
  origin : Origin
  detail : Byte
  unit : Byte
  pos : Word
  deriving DecidableEq, Repr

/-- ERRINFO = (ORIGIN << 24) | (DETAIL << 8) | UNIT (60 R222). -/
def Err.info (e : Err) : Word := e.origin.num ++ 0#8 ++ e.detail ++ e.unit

/-- Every byte of the output range takes a free value (20 R64, 93 S5). -/
def drawOutput (s : State) : State :=
  { s with mem := fillFree s.mem s.outBase s.draws (outSize s), draws := s.draws + outSize s }

/-- What error entry adds when the error happened during a decode: INPOS, MKR_VALID and MKR as the lazy destuffing left
them, and the output range unspecified (60 R224). -/
def endFailedDecode (s : State) : State :=
  drawOutput { s with
    inpos := BitVec.ofNat 32 s.ip
    mkrValid := s.endRec.ended && s.endRec.marker
    mkr := if s.endRec.ended then s.endRec.mbyte else 0#8 }

/-- ERROR_ENTRY: the one operation by which every error is taken (60 R224). -/
def raiseErr (e : Err) (s : State) : State :=
  let s1 := { s with errcode := e.code.num, errinfo := e.info, errpos := e.pos }
  let s2 := if e.origin.inDecode then endFailedDecode s1 else s1
  { s2 with seq := .error }

/-- The return from DONE or ERROR, and the end of an ABORT: STATE becomes IDLE and nothing else (60 R228, 40 R124, R125). -/
def returnToIdle (s : State) : State := { s with seq := .idle }

/-! ### The outcomes of a decode step -/

/-- A decode operation completes, raises an error (in the state the lazy destuffing has left, 60 R224), or waits for
ever on a DMA access that never completes (20 R66, P_BUS = STALL). -/
inductive Decoded (α : Type) where
  | ok (a : α) (s : State)
  | err (e : Err) (s : State)
  | stall (s : State)
  deriving DecidableEq, Repr

/-- The state a decode operation leaves, however it ends. -/
def leftBy {α : Type} (r : Decoded α) : State :=
  match r with
  | .ok _ s => s
  | .err _ s => s
  | .stall s => s

/-- Go on with the value and the state of a completed operation. -/
def andThen {α β : Type} (r : Decoded α) (f : α → State → Decoded β) : Decoded β :=
  match r with
  | .ok a s => f a s
  | .err e s => .err e s
  | .stall s => .stall s

/-- What a decode operation leaves as the next state. -/
def settle (r : Decoded Unit) : Result :=
  match r with
  | .ok _ s => .next s
  | .err e s => .next (raiseErr e s)
  | .stall s => .next { s with stalled := true }

/-- A DMA access the platform rejects: BusError at the given position, or no completion (20 R66). -/
def rejectedAccess {α : Type} (unit : Byte) (pos : Nat) (s : State) : Decoded α :=
  match s.params.pBus with
  | .error => .err ⟨.busError, .dma, 0#8, unit, BitVec.ofNat 32 pos⟩ s
  | .stall => .stall s

/-! ### Decodes cut short -/

/-- What ABORT does to a running decode, and what a reset does to its output: no DMA access takes effect afterwards, and
INPOS, MCUCNT, PRED, MKR_VALID, MKR and the output range take free values (40 R124, 93 S5, S6). -/
def cutDecode (s : State) : State :=
  drawOutput { s with
    inpos := Config.freeWord s.draws
    mcucnt := Config.freeWord (s.draws + 1)
    pred := #v[Config.freeHalf (s.draws + 2), Config.freeHalf (s.draws + 3), Config.freeHalf (s.draws + 4),
      Config.freeHalf (s.draws + 5)]
    mkrValid := Config.freeBit (s.draws + 6)
    mkr := Config.freeByte (s.draws + 7)
    draws := s.draws + 8 }

end Sys2Proof.Machine
end

