-- ==== Sys2Proof/Machine/RegRead.lean ====
section
/-! DEFINITION. The register reads of format `mmio` (40 R101, R107, R108). A read leaves the value in `readData` (log 5)
and changes nothing else but the count of free values drawn. -/

namespace Sys2Proof.Machine

/-- The read returns a value. -/
def answer (v : Word) (s : State) : State := { s with readData := v }

/-- A read of a progress register: exact, or a free value while BUSY (40 R108, 93 S3). -/
def answerProgress (exact free : Word) (s : State) : State :=
  if s.seq = .busy then { s with readData := free, draws := s.draws + 1 } else answer exact s

/-- RD STATUS (40 R107). -/
def readStatus (s : State) : State := answer (statusWord s) s

/-- RD INPOS (40 R108). -/
def readInpos (s : State) : State := answerProgress s.inpos (Config.freeWord s.draws) s

/-- RD MCUCNT (40 R108). -/
def readMcucnt (s : State) : State := answerProgress s.mcucnt (Config.freeWord s.draws) s

/-- RD PREDj: the predictor, sign-extended (10 R35, 40 R108). -/
def readPred (j : Fin 4) (s : State) : State :=
  answerProgress ((s.pred.get j).signExtend 32) ((Config.freeHalf s.draws).signExtend 32) s

/-- RD of the register an offset names; a reserved offset reads 0 (40 R101). -/
def readReg (r : Reg) (s : State) : State :=
  match r with
  | .id => answer s.params.idValue s
  | .ctrl => answer (ctrlWord s) s
  | .cmd => answer 0#32 s
  | .status => readStatus s
  | .errcode => answer (s.errcode.zeroExtend 32) s
  | .errinfo => answer s.errinfo s
  | .errpos => answer s.errpos s
  | .inpos => readInpos s
  | .mcucnt => readMcucnt s
  | .frameDim => answer s.frameDim s
  | .frameCfg => answer s.frameCfg s
  | .fcomp c => answer (s.fcomp.get c) s
  | .scanCfg => answer s.scanCfg s
  | .scomp j => answer (s.scomp.get j) s
  | .inBase => answer s.inBase s
  | .inLen => answer s.inLen s
  | .outBase => answer s.outBase s
  | .tvalid => answer (tvalidWord s) s
  | .pred j => readPred j s
  | .htBits t i => answer ((stagedCountOf s t i.val).zeroExtend 32) s
  | .htVal t v => answer ((stagedValueOf s t v.val).zeroExtend 32) s
  | .qtRam q k => answer ((stagedQuantOf s q k.val).zeroExtend 32) s
  | .reserved => answer 0#32 s

/-- Whether an offset is one of an aligned word (20 R61). -/
def aligned (off : BitVec 16) : Bool := off &&& 0x3#16 == 0#16

/-- RD_STATUS (40 R107). -/
def execRdStatus (s : State) : Result := .next (readStatus s)

/-- RD_INPOS (40 R108). -/
def execRdInpos (s : State) : Result := .next (readInpos s)

/-- RD_MCUCNT (40 R108). -/
def execRdMcucnt (s : State) : Result := .next (readMcucnt s)

/-- RD_PREDj (40 R108). -/
def execRdPred (j : Fin 4) (s : State) : Result := .next (readPred j s)

/-- RD (40 R101); an offset that is not aligned has no meaning (20 R61). -/
def execRd (off : BitVec 16) (s : State) : Result :=
  if aligned off then .next (readReg (regAt off) s) else .refused .accessNotAdmitted

end Sys2Proof.Machine
end

