-- ==== Sys2Proof/Machine/RegWrite.lean ====
section
/-! DEFINITION. The register writes of format `mmio` but for WR_CMD and WR (40 R103 to R106). -/

namespace Sys2Proof.Machine

/-- WR_CTRL(d): while BUSY only IRQ_EN is taken, and a change of the other bits is reported in IGN (40 R103). -/
def writeCtrl (d : Word) (s : State) : State :=
  if s.seq = .busy then
    { s with
      irqEn := d.getLsbD 2
      ign := s.ign || (d.getLsbD 0 != s.rgbEn) || (d.getLsbD 1 != s.sat) }
  else { s with rgbEn := d.getLsbD 0, sat := d.getLsbD 1, irqEn := d.getLsbD 2 }

/-- reg(off) <- v, for a configuration register (40 R104). -/
def setConfig (r : Reg) (v : Word) (s : State) : State :=
  match r with
  | .frameDim => { s with frameDim := v }
  | .frameCfg => { s with frameCfg := v }
  | .fcomp c => { s with fcomp := s.fcomp.set c.val v }
  | .scanCfg => { s with scanCfg := v }
  | .scomp j => { s with scomp := s.scomp.set j.val v }
  | .inBase => { s with inBase := v }
  | .inLen => { s with inLen := v }
  | .outBase => { s with outBase := v }
  | _ => s

/-- Whether a configuration write is ignored: while BUSY (40 R104), and in DONE and ERROR only on a block set to the
sentence of 60 R228; the default takes the write, as 40 R104 says (DESIGN CHOICE log 32). -/
def configIgnored (s : State) : Bool :=
  match s.seq with
  | .idle => false
  | .busy => true
  | .done => s.params.pCfgWrites == .ignored
  | .error => s.params.pCfgWrites == .ignored

/-- WR_CFG(off, d): ignored with IGN, or stored with the reserved bits 0 (40 R104). 40 R104 and 60 R228 disagree on DONE
and ERROR, and the default follows 40 R104 (DESIGN CHOICE log 32). -/
def writeConfig (r : Reg) (d : Word) (s : State) : State :=
  if configIgnored s then ignored s else setConfig r (d &&& fieldMask r) s

/-- WR_HT for HT_BITS[t][i], taken in every state (40 R105). -/
def writeCount (t : Fin 8) (i : Fin 16) (d : Word) (s : State) : State :=
  { s with htBits := ramWrite s.htBits (countKey t i.val) (d.extractLsb' 0 8) }

/-- WR_HT for HT_VAL[t][v], taken in every state (40 R105). -/
def writeValue (t : Fin 8) (v : Fin 256) (d : Word) (s : State) : State :=
  { s with htVal := ramWrite s.htVal (valueKey t v.val) (d.extractLsb' 0 8) }

/-- WR_QT for QT_RAM[q][k], taken in every state (40 R106). -/
def writeQuant (q : Fin 4) (k : Fin 64) (d : Word) (s : State) : State :=
  { s with qtRam := ramWrite s.qtRam (quantKey q k.val) (d.extractLsb' 0 16) }

/-- WR_CTRL (40 R103). -/
def execWrCtrl (d : Word) (s : State) : Result := .next (writeCtrl d s)

/-- WR_FRAME_DIM (40 R104). -/
def execWrFrameDim (d : Word) (s : State) : Result := .next (writeConfig .frameDim d s)

/-- WR_FRAME_CFG (40 R104). -/
def execWrFrameCfg (d : Word) (s : State) : Result := .next (writeConfig .frameCfg d s)

/-- WR_FCOMP0 (40 R104). -/
def execWrFcomp0 (d : Word) (s : State) : Result := .next (writeConfig (.fcomp 0) d s)

/-- WR_FCOMP1 (40 R104). -/
def execWrFcomp1 (d : Word) (s : State) : Result := .next (writeConfig (.fcomp 1) d s)

/-- WR_FCOMP2 (40 R104). -/
def execWrFcomp2 (d : Word) (s : State) : Result := .next (writeConfig (.fcomp 2) d s)

/-- WR_FCOMP3 (40 R104). -/
def execWrFcomp3 (d : Word) (s : State) : Result := .next (writeConfig (.fcomp 3) d s)

/-- WR_SCAN_CFG (40 R104). -/
def execWrScanCfg (d : Word) (s : State) : Result := .next (writeConfig .scanCfg d s)

/-- WR_SCOMPj (40 R104). -/
def execWrScomp (j : Fin 4) (d : Word) (s : State) : Result := .next (writeConfig (.scomp j) d s)

/-- WR_IN_BASE (40 R104). -/
def execWrInBase (d : Word) (s : State) : Result := .next (writeConfig .inBase d s)

/-- WR_IN_LEN (40 R104). -/
def execWrInLen (d : Word) (s : State) : Result := .next (writeConfig .inLen d s)

/-- WR_OUT_BASE (40 R104). -/
def execWrOutBase (d : Word) (s : State) : Result := .next (writeConfig .outBase d s)

/-- WR_HT_BITS (40 R105). -/
def execWrHtBits (t : Fin 8) (i : Fin 16) (d : Word) (s : State) : Result := .next (writeCount t i d s)

/-- WR_HT_VAL (40 R105). -/
def execWrHtVal (t : Fin 8) (v : Fin 256) (d : Word) (s : State) : Result := .next (writeValue t v d s)

/-- WR_QT_RAM (40 R106). -/
def execWrQtRam (q : Fin 4) (k : Fin 64) (d : Word) (s : State) : Result := .next (writeQuant q k d s)

end Sys2Proof.Machine
end

