-- ==== Sys2Proof/Machine/Destuffer.lean ====
section
/-! DEFINITION. The bit destuffer: input bytes, destuffer steps, FILL, PEEK, READ and ENDERR (41_bit_destuffer.md). -/

namespace Sys2Proof.Machine

/-- IB[i] = MemRead(IN_BASE + i, 1), or the rejected read of offset i (41 R140). -/
def inputByte (i : Nat) (s : State) : Decoded Byte :=
  if busRejects s false (addrAt s.inBase i) then rejectedAccess 0#8 i s
  else .ok (Memory.read s.mem (addrAt s.inBase i)) s

/-- END <- {1, pos, marker, mbyte} (41 R141). -/
def endAt (pos : Nat) (marker : Bool) (mbyte : Byte) (s : State) : State :=
  { s with endRec := ⟨true, pos, marker, mbyte⟩ }

/-- Append the 8 bits of a byte, most significant first, that came from the n input bytes at ip (41 R141, R142). -/
def pushByte (b : Byte) (n : Nat) (s : State) : State :=
  { s with dbits := s.dbits ++ uintToBits b.toNat 8, src := s.src ++ [s.ip], ip := s.ip + n }

/-- DSTEP, one destuffer step (41 R141). -/
def dstep (s : State) : Decoded Unit :=
  if s.inLen.toNat ≤ s.ip then .ok () (endAt s.inLen.toNat false 0#8 s)
  else andThen (inputByte s.ip s) fun b s =>
    if b ≠ 0xFF#8 then .ok () (pushByte b 1 s)
    else if s.inLen.toNat ≤ s.ip + 1 then .ok () (endAt s.ip false 0#8 s)
    else andThen (inputByte (s.ip + 1) s) fun c s =>
      if c = 0x00#8 then .ok () (pushByte 0xFF#8 2 s)
      else .ok () (endAt s.ip true c s)

/-- Destuffer steps until D holds n bits past the cursor or the data has ended; the fuel is one more than the bits that
are missing, and each step that does not end the data adds 8 (41 R143). -/
def fillLoop (n : Nat) : Nat → State → Decoded Unit
  | 0, s => .ok () s
  | fuel + 1, s =>
    if s.cur + n ≤ s.dbits.length ∨ s.endRec.ended then .ok () s
    else andThen (dstep s) fun _ s => fillLoop n fuel s

/-- FILL(n) (41 R143). -/
def fill (n : Nat) (s : State) : Decoded Unit :=
  fillLoop n (s.cur + n - s.dbits.length + 1) s

/-- The byte of a number held in a register field of the error context. -/
def byteOf (n : Nat) : Byte := BitVec.ofNat 8 n

/-- Whether the data ended at a restart marker 0xFF 0xD0..0xD7 (41 R143, R144). -/
def endedAtRestart (e : EndRec) : Bool := e.marker && decide (0xD0#8 ≤ e.mbyte) && decide (e.mbyte ≤ 0xD7#8)

/-- ENDERR(): the data ended before the field did (41 R143, R144). -/
def endErr (s : State) : Err where
  code := if endedAtRestart s.endRec then .unsupportedFeature else .truncated
  origin := .decode
  detail := byteOf s.k
  unit := byteOf s.j.val
  pos := BitVec.ofNat 32 s.endRec.pos

/-- PEEK(n): n bits past the cursor, which does not move (41 R143). -/
def peek (n : Nat) (s : State) : Decoded (List Bool) :=
  andThen (fill n s) fun _ s =>
    if s.dbits.length < s.cur + n then .err (endErr s) s
    else .ok ((s.dbits.drop s.cur).take n) s

/-- READ(n): n bits as an unsigned number, and the cursor moves past them (41 R143). -/
def readBits (n : Nat) (s : State) : Decoded Nat :=
  if n = 0 then .ok 0 s
  else andThen (peek n s) fun w s => .ok (bitsToUint w) { s with cur := s.cur + n }

/-- The input offset of the byte that holds bit c0 of D, or ip when D has no such bit yet (41 R147). -/
def srcOffset (s : State) (c0 : Nat) : Nat :=
  if c0 < s.dbits.length then s.src.getD (c0 / 8) 0 else s.ip

/-- The error of a failing term, at the start of its code (41 R147; 43 introduction). -/
def termErr (code : ErrorCode) (s : State) : Err where
  code := code
  origin := .decode
  detail := byteOf s.k
  unit := byteOf s.j.val
  pos := BitVec.ofNat 32 (srcOffset s s.c0)

end Sys2Proof.Machine
end

