-- ==== Sys2Proof/Machine/Matcher.lean ====
section
/-! DEFINITION. The variable-length code matcher: BUILD, run by HT_COMMIT, and MATCH, run for every term
(42_code_matcher.md). -/

namespace Sys2Proof.Machine

/-! ### BUILD -/

/-- The f codes of length b: bc, bc+1, ..., with the next values of the value list (42 R150, R151). -/
def codesOfLength (b bc : Nat) : (f : Nat) → List Byte → List Code
  | 0, _ => []
  | f + 1, vals => ⟨b, bc, vals.headD 0#8⟩ :: codesOfLength b (bc + 1) f vals.tail

/-- The loop of BUILD over the lengths b, b+1, ...: the codes, or none where a code would not fit its length
(42 R150, R152). -/
def buildCodes (b bc : Nat) : (counts : List Nat) → List Byte → Option (List Code)
  | [], _ => some []
  | f :: rest, vals =>
    if 2 ^ b < 2 * bc + f then none
    else (buildCodes (b + 1) (2 * bc + f) rest (vals.drop f)).map fun cs => codesOfLength b (2 * bc) f vals ++ cs

/-- The largest b with bits[b-1] ≠ 0, or 0 (42 R153). -/
def maxLength : (b : Nat) → (counts : List Nat) → Nat
  | _, [] => 0
  | b, f :: rest => max (if f = 0 then 0 else b) (maxLength (b + 1) rest)

/-- The sum of the counts, N (42 R150). -/
def totalCodes (bits : List Byte) : Nat := (bits.map BitVec.toNat).sum

/-- BUILD: an active table, or fail(d) with d = 3 or 4 (42 R150). -/
def build (bits vals : List Byte) : Except Byte HtTable :=
  if 256 < totalCodes bits then .error 3#8
  else match buildCodes 1 0 (bits.map BitVec.toNat) vals with
    | none => .error 4#8
    | some codes => .ok ⟨true, bits, vals.take (totalCodes bits), maxLength 1 (bits.map BitVec.toNat), codes⟩

/-! ### MATCH -/

/-- The value of the code of length L whose number is w, if the table has one (42 R156). -/
def findCode (codes : List Code) (L w : Nat) : Option Byte :=
  (codes.find? fun c => c.len == L && c.code == w).map Code.value

/-- The search of MATCH over the lengths L, L+1, ..., `fuel` of them (42 R156). -/
def matchFrom (codes : List Code) : (fuel L : Nat) → State → Decoded Byte
  | 0, _, s => .err (termErr .corruptBitstream s) s
  | fuel + 1, L, s =>
    andThen (peek L s) fun w s =>
      match findCode codes L (bitsToUint w) with
      | some v => .ok v { s with cur := s.cur + L }
      | none => matchFrom codes fuel (L + 1) s

/-- MATCH(T): the next symbol byte, the cursor past its code, and c0 at the code's start (42 R156). -/
def matchCode (t : HtTable) (s : State) : Decoded Byte :=
  matchFrom t.codes t.maxlen 1 { s with c0 := s.cur }

end Sys2Proof.Machine
end

