-- ==== Sys2Proof/Machine/Entropy.lean ====
section
/-! DEFINITION. The DC predictor and the AC run expander: the meanings of the scan symbols, each run after MATCH has
read its code (43_entropy_decoder.md). -/

namespace Sys2Proof.Machine

/-- A symbol runs only where the sequencer decodes a term of its class (10 R39; log 19). -/
def inTerm (p : Phase) (s : State) (r : Result) : Result :=
  if s.seq = .busy ∧ s.phase = p then r else .refused .symbolOutsideDecode

/-- ZZ[j][n] <- v for the current component (10 R42). -/
def setCoef (n : Nat) (v : Half) (s : State) : State :=
  if h : n < 64 then { s with zz := s.zz.set s.j.val ((s.zz.get s.j).set n v) } else s

/-- A value in its 16-bit form; the rules that store one check that it fits (43 R161, R163). -/
def coef (v : Int) : Half := BitVec.ofInt 16 v

/-! ### DC terms -/

/-- What follows a DC symbol of size n: read the additional bits, add the difference to the predictor, refuse a sum
outside 16 bits, store it as the predictor and as coefficient 0, and go on to the AC terms (43 R162, R163, R171). -/
def dcTerm (n : Nat) (s : State) : Decoded Unit :=
  andThen (readBits n s) fun v s =>
    let p := (s.pred.get s.j).toInt + extend s.params.pExtend v n
    if p < -32768 ∨ 32767 < p then .err (termErr .overflow s) s
    else .ok () (setCoef 0 (coef p) { s with pred := s.pred.set s.j.val (coef p), phase := .ac, k := 1 })

/-- DC_SIZE0: the difference is 0 (43 R162). -/
def execDcSize0 (s : State) : Result := inTerm .dc s (settle (dcTerm 0 s))

/-- DC_SIZE: n additional bits give the difference (43 R162). -/
def execDcSize (n : BitVec 4) (s : State) : Result := inTerm .dc s (settle (dcTerm n.toNat s))

/-- DC_BAD: a size above MAX_SIZE = 15, refused before any additional bit is read (43 R162). -/
def execDcBad (_byte : Byte) (s : State) : Result :=
  inTerm .dc s (settle (.err (termErr .corruptBitstream s) s))

/-! ### AC terms -/

/-- The block of component j is complete: the next component's DC term, or reconstruction after the last one
(43 R169, R171). -/
def endBlock (s : State) : State :=
  if s.j.val + 1 < scanNs s then { s with j := s.j + 1, k := 0, phase := .dc } else { s with phase := .recon }

/-- k <- n: the next AC term, or the end of a block whose position 63 is filled (43 R165, R169). -/
def advanceTo (n : Nat) (s : State) : State :=
  if n ≤ 63 then { s with k := n } else endBlock { s with k := n }

/-- What follows an AC symbol of run r and size n: skip r zeros and place the value (43 R165, R168). -/
def acTerm (r n : Nat) (s : State) : Decoded Unit :=
  if 63 < s.k + r then .err (termErr .corruptBitstream s) s
  else andThen (readBits n s) fun v s =>
    .ok () (advanceTo (s.k + r + 1) (setCoef (s.k + r) (coef (extend s.params.pExtend v n)) s))

/-- EOB: the rest of the block stays zero (43 R166). -/
def execEob (s : State) : Result := inTerm .ac s (.next (endBlock s))

/-- ZRL: 16 zeros, the last of which must not lie past 63 (43 R167). -/
def execZrl (s : State) : Result :=
  inTerm .ac s (settle (if 63 < s.k + 15 then .err (termErr .corruptBitstream s) s
    else .ok () (advanceTo (s.k + 16) s)))

/-- RUN_ZERO: r zeros, then the value 0 with no bits read (43 R168). -/
def execRunZero (r : BitVec 4) (s : State) : Result := inTerm .ac s (settle (acTerm r.toNat 0 s))

/-- RUN_SIZE: r zeros, then the value of n additional bits (43 R168). -/
def execRunSize (r n : BitVec 4) (s : State) : Result := inTerm .ac s (settle (acTerm r.toNat n.toNat s))

end Sys2Proof.Machine
end

