-- ==== Sys2Proof/Machine/Start.lean ====
section
/-! DEFINITION. The START checks 1 to 11, the memory premises of a launch, and the launch (40 R111 to R123, 20 R74). -/

namespace Sys2Proof.Machine

/-- The error of START check `detail` (40 R111). -/
def startErr (code : ErrorCode) (detail : Byte) (unit : Byte) : Err := ⟨code, .startCheck, detail, unit, 0#32⟩

/-- Check 1, sample precision (40 R112). -/
def check1 (s : State) : Option Err :=
  if frameP s ≠ 8#8 then some (startErr .unsupportedFeature 1#8 0#8) else none

/-- Check 2, component count (40 R113). -/
def check2 (s : State) : Option Err :=
  if frameNf s ≠ 1 ∧ frameNf s ≠ 3 ∧ frameNf s ≠ 4 then some (startErr .unsupportedFeature 2#8 (frameNfByte s))
  else none

/-- Check 3, dimensions (40 R114). -/
def check3 (s : State) : Option Err :=
  if frameX s = 0 ∨ frameY s = 0 then some (startErr .unsupportedFeature 3#8 0#8) else none

/-- Check 4, distinct frame component ids (40 R115). -/
def check4 (s : State) : Option Err :=
  ((frameComps s).find? fun c => comps.any fun c' => decide (c' < c) && fcompId s c == fcompId s c').map
    fun c => startErr .malformedHeader 4#8 (byteOf c.val)

/-- Check 5, sampling factors (40 R116). -/
def check5 (s : State) : Option Err :=
  ((frameComps s).find? fun c => fcompH s c != 1#4 || fcompV s c != 1#4).map
    fun c => startErr .unsupportedFeature 5#8 (byteOf c.val)

/-- Check 6, quantization table ids (40 R117). -/
def check6 (s : State) : Option Err :=
  ((frameComps s).find? fun c => decide (3 < fcompTq s c)).map fun c => startErr .malformedTable 6#8 (byteOf c.val)

/-- Check 7, scan component count (40 R118). -/
def check7 (s : State) : Option Err :=
  if scanNs s < 1 ∨ 4 < scanNs s then some (startErr .malformedHeader 7#8 (scanNsByte s))
  else if scanNs s ≠ frameNf s then some (startErr .unsupportedFeature 7#8 (scanNsByte s))
  else none

/-- Check 8, scan component ids (40 R119). -/
def check8 (s : State) : Option Err :=
  ((scanComps s).find? fun j =>
      !((frameComps s).any fun c => fcompId s c == scompId s j)
        || comps.any fun j' => decide (j' < j) && scompId s j' == scompId s j).map
    fun j => startErr .malformedHeader 8#8 (byteOf j.val)

/-- Check 9, Huffman table ids (40 R120). -/
def check9 (s : State) : Option Err :=
  ((scanComps s).find? fun j => decide (3 < scompTd s j) || decide (3 < scompTa s j)).map
    fun j => startErr .malformedTable 9#8 (byteOf j.val)

/-- Check 10 for one component: its DC table, then its AC table, then its quantization table (40 R121). -/
def missingTable (s : State) (j : Fin 4) : Option Err :=
  if !(dcTable s j).valid then some (startErr .missingTable 10#8 (byteOf j.val))
  else if !(acTable s j).valid then some (startErr .missingTable 10#8 (byteOf (0x10 + j.val)))
  else if !(quantTable s j).valid then some (startErr .missingTable 10#8 (byteOf (0x20 + j.val)))
  else none

/-- Check 10, tables present (40 R121). -/
def check10 (s : State) : Option Err := (scanComps s).findSome? (missingTable s)

/-- Check 11, address ranges, the sums exact (40 R122). -/
def check11 (s : State) : Option Err :=
  if 2 ^ 32 < s.inBase.toNat + s.inLen.toNat then some (startErr .addressRange 11#8 0#8)
  else if 2 ^ 32 < s.outBase.toNat + outSize s then some (startErr .addressRange 11#8 1#8)
  else none

/-- CHECK_1() ... CHECK_11(), in order; the first failure is raised (40 R111, 60 R225). -/
def startChecks (s : State) : Option Err :=
  [check1, check2, check3, check4, check5, check6, check7, check8, check9, check10, check11].findSome? fun c => c s

/-- Whether the n-byte range at a and the k-byte range at b share an address. -/
def rangesMeet (a n b k : Nat) : Bool := decide (0 < n) && decide (0 < k) && decide (a < b + k) && decide (b < a + n)

/-- Whether an address lies in the input range (20 R63). -/
def inInput (s : State) (a : Nat) : Bool := decide (s.inBase.toNat ≤ a) && decide (a < s.inBase.toNat + s.inLen.toNat)

/-- Whether an address lies in the output range (20 R64). -/
def inOutput (s : State) (a : Nat) : Bool := decide (s.outBase.toNat ≤ a) && decide (a < s.outBase.toNat + outSize s)

/-- The size of the register window (20 R60). -/
def windowSize : Nat := 0x10000

/-- The premise of 20 R74 that a launch breaks, if any: the ranges must be disjoint, and neither may overlap the
register window (log 14). -/
def brokenPremise (s : State) : Option Refusal :=
  if rangesMeet s.inBase.toNat s.inLen.toNat s.outBase.toNat (outSize s) then some .rangesOverlap
  else if rangesMeet s.inBase.toNat s.inLen.toNat s.params.mmioBase windowSize
      || rangesMeet s.outBase.toNat (outSize s) s.params.mmioBase windowSize then some .windowOverlap
  else none

/-- What START clears before its checks (40 R111). -/
def clearForStart (s : State) : State :=
  { s with
    ign := false
    mkrValid := false
    mkr := 0#8
    errcode := 0#4
    errinfo := 0#32
    errpos := 0#32
    inpos := 0#32
    mcucnt := 0#32
    pred := Vector.replicate 4 0#16 }

/-- LAUNCH(): BUSY, the destuffer reset, the position at the first DC term (40 R123, 41 R141); memory is remembered as it
stands (log 15). -/
def launch (s : State) : State :=
  { s with
    seq := .busy
    ip := 0
    dbits := []
    src := []
    endRec := EndRec.clear
    cur := 0
    c0 := 0
    m := 0
    j := 0
    k := 0
    phase := .dc
    sub := 0
    stalled := false
    before := s.mem }

/-- START() in IDLE (40 R111). -/
def runStart (s : State) : Result :=
  let s1 := clearForStart s
  match startChecks s1 with
  | some e => .next (raiseErr e s1)
  | none => (match brokenPremise s1 with
    | some r => .refused r
    | none => .next (launch s1))

end Sys2Proof.Machine
end

