-- ==== Sys2Proof/Machine/Command.lean ====
section
/-! DEFINITION. The commands of format `cmd` with their acceptance by the sequencer state, WR_CMD and the general WR
(40 R102, R109 to R111, R124 to R128). -/

namespace Sys2Proof.Machine

/-- A command that runs only in IDLE; in every other state it is ignored with IGN (40 R109). -/
def inIdle (s : State) (r : Result) : Result := if s.seq = .idle then r else .next (ignored s)

/-- NOP (40 R110). -/
def execNop (_hint : BitVec 24) (s : State) : Result := .next s

/-- START (40 R111). -/
def execStart (s : State) : Result := inIdle s (runStart s)

/-- ABORT, in every state (40 R124). -/
def execAbort (_arg : BitVec 24) (s : State) : Result :=
  .next (returnToIdle (if s.seq = .busy then cutDecode s else s))

/-- ACK: ignored with IGN while BUSY, no effect in IDLE (40 R109, R125). -/
def execAck (_arg : BitVec 24) (s : State) : Result :=
  match s.seq with
  | .busy => .next (ignored s)
  | .idle => .next s
  | .done => .next (returnToIdle { s with ign := false })
  | .error => .next (returnToIdle { s with ign := false })

/-- The error of a commit (40 R126, R127). -/
def commitErr (detail unit : Byte) : Err := ⟨.malformedTable, .tableCommit, detail, unit, 0#32⟩

/-- The staged counts of table t (10 R36). -/
def stagedCounts (s : State) (t : Fin 8) : List Byte := (List.range 16).map (stagedCountOf s t)

/-- The staged values of table t (10 R36). -/
def stagedValues (s : State) (t : Fin 8) : List Byte := (List.range 256).map (stagedValueOf s t)

/-- HT_ACT[t] <- u (40 R126). -/
def setHt (t : Fin 8) (u : HtTable) (s : State) : State := { s with htAct := s.htAct.set t.val u }

/-- QT_ACT[q] <- u (40 R127). -/
def setQt (q : Fin 4) (u : QtTable) (s : State) : State := { s with qtAct := s.qtAct.set q.val u }

/-- HT_ACT[t].valid <- 0 (40 R126). -/
def invalidateHt (t : Fin 8) (s : State) : State := setHt t { s.htAct.get t with valid := false } s

/-- QT_ACT[q].valid <- 0 (40 R127). -/
def invalidateQt (q : Fin 4) (s : State) : State := setQt q { s.qtAct.get q with valid := false } s

/-- HT_COMMIT(a8) in IDLE (40 R126). -/
def runHtCommit (a8 : Byte) (s : State) : State :=
  if htHeaderMbz a8 ≠ 0#3 then raiseErr (commitErr 1#8 a8) s
  else if 3 < htHeaderTh a8 then raiseErr (commitErr 2#8 a8) s
  else match build (stagedCounts s (htIndex a8)) (stagedValues s (htIndex a8)) with
    | .error d => raiseErr (commitErr d (byteOf (htIndex a8).val)) (invalidateHt (htIndex a8) s)
    | .ok t => setHt (htIndex a8) t s

/-- HT_COMMIT (40 R126). -/
def execHtCommit (a8 : Byte) (s : State) : Result := inIdle s (.next (runHtCommit a8 s))

/-- QT_ACT[q] as a commit of precision PQ makes it (40 R127). -/
def committedQuant (s : State) (q : Fin 4) (p : Precision) : QtTable :=
  ⟨true, p, ⟨((List.range 64).map (stagedQuantOf s q)).toArray, by simp⟩⟩

/-- Whether some staged entry does not fit 8 bits (40 R127). -/
def quantTooWide (s : State) (q : Fin 4) : Bool := (List.range 64).any fun k => decide (255 < (stagedQuantOf s q k).toNat)

/-- QT_COMMIT(a8) in IDLE (40 R127). -/
def runQtCommit (a8 : Byte) (s : State) : State :=
  if 1 < qtHeaderPq a8 then raiseErr (commitErr 1#8 a8) s
  else if 3 < qtHeaderTq a8 then raiseErr (commitErr 2#8 a8) s
  else if qtHeaderPq a8 = 0 ∧ quantTooWide s (qtIndex a8) then
    raiseErr (commitErr 3#8 (byteOf (qtIndex a8).val)) (invalidateQt (qtIndex a8) s)
  else setQt (qtIndex a8) (committedQuant s (qtIndex a8) (if qtHeaderPq a8 = 0 then .bits8 else .bits16)) s

/-- QT_COMMIT (40 R127). -/
def execQtCommit (a8 : Byte) (s : State) : Result := inIdle s (.next (runQtCommit a8 s))

/-- IllegalCommand: UNIT is the opcode, DETAIL 0 for a reserved opcode, 1 for nonzero must-be-zero bits (40 R128). -/
def illegalErr (op detail : Byte) : Err := ⟨.illegalCommand, .illegalCommand, detail, op, 0#32⟩

/-- START with a nonzero ARGH or ARG8 (40 R128). -/
def execIllegalStart (_arg : BitVec 24) (s : State) : Result :=
  inIdle s (.next (raiseErr (illegalErr 0x01#8 1#8) s))

/-- HT_COMMIT or QT_COMMIT with a nonzero ARGH (40 R128). -/
def execIllegalCommit (qt : Bool) (_argh : Half) (_a8 : Byte) (s : State) : Result :=
  inIdle s (.next (raiseErr (illegalErr (if qt then 0x11#8 else 0x10#8) 1#8) s))

/-- A reserved opcode (40 R128). -/
def execReserved (op : Byte) (_argh : Half) (_a8 : Byte) (s : State) : Result :=
  inIdle s (.next (raiseErr (illegalErr op 0#8) s))

/-- DISPATCH(d): a write to CMD performs the command the word encodes, by OP and the must-be-zero bits; each command
tests the state itself (40 R109). -/
def dispatchCommand (d : Word) (s : State) : Result :=
  if cmdOp d = 0x00#8 then execNop (cmdArg d) s
  else if cmdOp d = 0x02#8 then execAbort (cmdArg d) s
  else if cmdOp d = 0x03#8 then execAck (cmdArg d) s
  else if cmdOp d = 0x01#8 then (if cmdArg d ≠ 0#24 then execIllegalStart (cmdArg d) s else execStart s)
  else if cmdOp d = 0x10#8 then
    (if cmdArgh d ≠ 0#16 then execIllegalCommit false (cmdArgh d) (cmdArg8 d) s else execHtCommit (cmdArg8 d) s)
  else if cmdOp d = 0x11#8 then
    (if cmdArgh d ≠ 0#16 then execIllegalCommit true (cmdArgh d) (cmdArg8 d) s else execQtCommit (cmdArg8 d) s)
  else execReserved (cmdOp d) (cmdArgh d) (cmdArg8 d) s

/-- WR_CMD (40 R109). -/
def execWrCmd (d : Word) (s : State) : Result := dispatchCommand d s

/-- WR(off, d), the dispatch over the register map; a write to a read-only or reserved offset has no effect (40 R102). -/
def writeReg (r : Reg) (d : Word) (s : State) : Result :=
  match r with
  | .ctrl => .next (writeCtrl d s)
  | .cmd => dispatchCommand d s
  | .htBits t i => .next (writeCount t i d s)
  | .htVal t v => .next (writeValue t v d s)
  | .qtRam q k => .next (writeQuant q k d s)
  | .frameDim => .next (writeConfig .frameDim d s)
  | .frameCfg => .next (writeConfig .frameCfg d s)
  | .fcomp c => .next (writeConfig (.fcomp c) d s)
  | .scanCfg => .next (writeConfig .scanCfg d s)
  | .scomp j => .next (writeConfig (.scomp j) d s)
  | .inBase => .next (writeConfig .inBase d s)
  | .inLen => .next (writeConfig .inLen d s)
  | .outBase => .next (writeConfig .outBase d s)
  | .id => .next s
  | .status => .next s
  | .errcode => .next s
  | .errinfo => .next s
  | .errpos => .next s
  | .inpos => .next s
  | .mcucnt => .next s
  | .tvalid => .next s
  | .pred _ => .next s
  | .reserved => .next s

/-- WR (40 R102); an offset that is not aligned has no meaning (20 R61). -/
def execWr (off : BitVec 16) (d : Word) (s : State) : Result :=
  if aligned off then writeReg (regAt off) d s else .refused .accessNotAdmitted

end Sys2Proof.Machine
end

