-- ==== Sys2Proof/Machine/Surd.lean ====
section
/-! DEFINITION. The exact arithmetic of the inverse DCT (45 R190: "exact, over the reals"). Every product of two weights
of the transform is a number a + b·√(2+√(2+√2)) with a, b of the form c + d·√(2+√2) with c, d of the form e + f·√2 with
e, f integers; such numbers are added, multiplied and compared with 0 exactly (log 24). -/

namespace Sys2Proof.Machine

/-- The sign of a + b·√d from the signs of a, of b and of a² - b²·d (d > 0 and not a square of the field below). -/
def surdSign (sa sb sd : Int) : Int :=
  if sa = 0 then sb else if sb = 0 ∨ sa = sb then sa else sa * sd

/-- a + b·√2. -/
structure Surd1 where
  a : Int
  b : Int
  deriving DecidableEq, Repr

/-- a + b·√(2+√2). -/
structure Surd2 where
  a : Surd1
  b : Surd1
  deriving DecidableEq, Repr

/-- a + b·√(2+√(2+√2)). -/
structure Surd3 where
  a : Surd2
  b : Surd2
  deriving DecidableEq, Repr

def Surd1.add (x y : Surd1) : Surd1 := ⟨x.a + y.a, x.b + y.b⟩

def Surd1.sub (x y : Surd1) : Surd1 := ⟨x.a - y.a, x.b - y.b⟩

def Surd1.mul (x y : Surd1) : Surd1 := ⟨x.a * y.a + 2 * (x.b * y.b), x.a * y.b + x.b * y.a⟩

def Surd1.scale (n : Int) (x : Surd1) : Surd1 := ⟨n * x.a, n * x.b⟩

/-- The number n. -/
def Surd1.ofInt (n : Int) : Surd1 := ⟨n, 0⟩

/-- x·(2+√2), the number under the root of `Surd2`. -/
def Surd1.timesRadicand (x : Surd1) : Surd1 := ⟨2 * x.a + 2 * x.b, x.a + 2 * x.b⟩

/-- The sign of a + b·√2. -/
def Surd1.sign (x : Surd1) : Int :=
  surdSign (Int.sign x.a) (Int.sign x.b) (Int.sign (x.a * x.a - 2 * (x.b * x.b)))

def Surd2.add (x y : Surd2) : Surd2 := ⟨x.a.add y.a, x.b.add y.b⟩

def Surd2.sub (x y : Surd2) : Surd2 := ⟨x.a.sub y.a, x.b.sub y.b⟩

def Surd2.mul (x y : Surd2) : Surd2 :=
  ⟨(x.a.mul y.a).add (x.b.mul y.b).timesRadicand, (x.a.mul y.b).add (x.b.mul y.a)⟩

def Surd2.scale (n : Int) (x : Surd2) : Surd2 := ⟨x.a.scale n, x.b.scale n⟩

/-- The number n. -/
def Surd2.ofInt (n : Int) : Surd2 := ⟨.ofInt n, .ofInt 0⟩

/-- x·(2+√(2+√2)), the number under the root of `Surd3`. -/
def Surd2.timesRadicand (x : Surd2) : Surd2 :=
  ⟨(x.a.scale 2).add x.b.timesRadicand, x.a.add (x.b.scale 2)⟩

/-- The sign of a + b·√(2+√2). -/
def Surd2.sign (x : Surd2) : Int :=
  surdSign x.a.sign x.b.sign ((x.a.mul x.a).sub (x.b.mul x.b).timesRadicand).sign

def Surd3.add (x y : Surd3) : Surd3 := ⟨x.a.add y.a, x.b.add y.b⟩

def Surd3.sub (x y : Surd3) : Surd3 := ⟨x.a.sub y.a, x.b.sub y.b⟩

def Surd3.mul (x y : Surd3) : Surd3 :=
  ⟨(x.a.mul y.a).add (x.b.mul y.b).timesRadicand, (x.a.mul y.b).add (x.b.mul y.a)⟩

def Surd3.scale (n : Int) (x : Surd3) : Surd3 := ⟨x.a.scale n, x.b.scale n⟩

/-- The number n. -/
def Surd3.ofInt (n : Int) : Surd3 := ⟨.ofInt n, .ofInt 0⟩

/-- The sign of a + b·√(2+√(2+√2)). -/
def Surd3.sign (x : Surd3) : Int :=
  surdSign x.a.sign x.b.sign ((x.a.mul x.a).sub (x.b.mul x.b).timesRadicand).sign

/-- 2·cos(k·π/16) for k = 0..8. -/
def twoCosOctant : Nat → Surd3
  | 0 => ⟨⟨⟨2, 0⟩, ⟨0, 0⟩⟩, ⟨⟨0, 0⟩, ⟨0, 0⟩⟩⟩
  | 1 => ⟨⟨⟨0, 0⟩, ⟨0, 0⟩⟩, ⟨⟨1, 0⟩, ⟨0, 0⟩⟩⟩
  | 2 => ⟨⟨⟨0, 0⟩, ⟨1, 0⟩⟩, ⟨⟨0, 0⟩, ⟨0, 0⟩⟩⟩
  | 3 => ⟨⟨⟨0, 0⟩, ⟨0, 0⟩⟩, ⟨⟨-1, 0⟩, ⟨1, 0⟩⟩⟩
  | 4 => ⟨⟨⟨0, 1⟩, ⟨0, 0⟩⟩, ⟨⟨0, 0⟩, ⟨0, 0⟩⟩⟩
  | 5 => ⟨⟨⟨0, 0⟩, ⟨0, 0⟩⟩, ⟨⟨1, 1⟩, ⟨-1, 0⟩⟩⟩
  | 6 => ⟨⟨⟨0, 0⟩, ⟨-1, 1⟩⟩, ⟨⟨0, 0⟩, ⟨0, 0⟩⟩⟩
  | 7 => ⟨⟨⟨0, 0⟩, ⟨0, 0⟩⟩, ⟨⟨-1, -1⟩, ⟨0, 1⟩⟩⟩
  | _ => ⟨⟨⟨0, 0⟩, ⟨0, 0⟩⟩, ⟨⟨0, 0⟩, ⟨0, 0⟩⟩⟩

/-- 2·cos(n·π/16), by the symmetries of the cosine. -/
def twoCos (n : Nat) : Surd3 :=
  let k := n % 32
  if k ≤ 8 then twoCosOctant k
  else if k ≤ 16 then (twoCosOctant (16 - k)).scale (-1)
  else if k ≤ 24 then (twoCosOctant (k - 16)).scale (-1)
  else twoCosOctant (32 - k)

end Sys2Proof.Machine
end

