-- ==== Sys2Proof/Machine/Reconstruct.lean ====
section
/-! DEFINITION. Reconstruction: the dequantizer (44), the inverse DCT (45), the colour converter and the pixel assembler
(46), the RECON and DRAIN phases of the sequencer (43 R171). -/

namespace Sys2Proof.Machine

/-- The 64 values of a function of the index. -/
def mkBlock {α : Type} (f : Fin 64 → α) : Vector α 64 :=
  ⟨((List.finRange 64).map f).toArray, by simp⟩

/-! ### Dequantizer -/

/-- The product for zigzag position k, whose natural index is n (44 R181). -/
def dequantTerm (align : PDeqAlign) (zz q : Vector Half 64) (k n : Fin 64) : Int :=
  match align with
  | .freq => (zz.get k).toInt * (q.get k).toNat
  | .index => (zz.get k).toInt * (q.get n).toNat

/-- One round of DEQUANT's loop: F[ZZ_NAT[k]] <- the product of position k (44 R181). -/
def dequantRound (p : Params) (zz q : Vector Half 64) (F : Vector Int 64) (k : Fin 64) : Vector Int 64 :=
  F.set (p.pZigzag.get k).val (dequantTerm p.pDeqAlign zz q k (p.pZigzag.get k))

/-- DEQUANT (44 R181). -/
def dequant (p : Params) (zz q : Vector Half 64) : Vector Int 64 :=
  (List.finRange 64).foldl (dequantRound p zz q) (Vector.replicate 64 0)

/-! ### Inverse DCT -/

/-- Twice the weight of one dimension: 2·C(w)·cos((2z+1)·w·π/16), or with W(w) for the literal reading (45 R190). -/
def twoWeight (literal : Bool) (w z : Nat) : Surd3 :=
  if w = 0 then (if literal then .ofInt 1 else twoCosOctant 4) else twoCos ((2 * z + 1) * w)

/-- Sixteen times the exact value at column x and row y: Σ F[8v+u]·2C(u)cos(..)·2C(v)cos(..) (45 R190). -/
def idctSum (literal : Bool) (F : Vector Int 64) (x y : Nat) : Surd3 :=
  (List.finRange 64).foldl (fun acc n =>
    if F.get n = 0 then acc
    else acc.add (((twoWeight literal (n.val % 8) x).mul (twoWeight literal (n.val / 8) y)).scale (F.get n)))
    (.ofInt 0)

/-- The largest number below acc + 2^bits, on from acc, that sixteenfold is at most the (nonnegative) sum. -/
def floorSixteenth (a : Surd3) : (bits : Nat) → (acc : Nat) → Nat
  | 0, acc => acc
  | b + 1, acc =>
    if 0 ≤ (a.sub (.ofInt (16 * (acc + 2 ^ b : Nat)))).sign then floorSixteenth a b (acc + 2 ^ b)
    else floorSixteenth a b acc

/-- Σ |F[n]|, a bound on the magnitude of every exact value (45 R194). -/
def absSum (F : Vector Int 64) : Nat := (F.toList.map Int.natAbs).sum

/-- The integer part of the magnitude of a sixteenth of the sum. -/
def magnitude (F : Vector Int 64) (a : Surd3) : Nat :=
  floorSixteenth (a.scale a.sign) (Nat.log2 (absSum F) + 1) 0

/-- trunc0 of a sixteenth of the sum: rounded once, toward zero (45 R191). -/
def truncSixteenth (F : Vector Int 64) (a : Surd3) : Int := a.sign * magnitude F a

/-- Whether a sixteenth of the sum is an integer. -/
def isWhole (F : Vector Int 64) (a : Surd3) : Bool :=
  (a.sub (.ofInt (16 * truncSixteenth F a))).sign == 0

/-- The smallest integer that is at least a sixteenth of the sum, less 1. -/
def implLow (F : Vector Int 64) (a : Surd3) : Int :=
  (if isWhole F a ∨ a.sign < 0 then truncSixteenth F a else truncSixteenth F a + 1) - 1

/-- IMPL(f): an integer within 1 of the exact value, which one is free (45 R190, 93 S18; log 23). -/
def implSample (F : Vector Int 64) (a : Surd3) (i : Nat) : Int :=
  implLow F a + (Config.implPick F.toList i % (if isWhole F a then 3 else 2) : Nat)

/-- The sample at index i = 8y + x (45 R190). -/
def idctAt (mode : PIdct) (F : Vector Int 64) (i : Fin 64) : Int :=
  let x := i.val % 8
  let y := i.val / 8
  match mode with
  | .t81Exact => truncSixteenth F (idctSum false F x y)
  | .literalSeparableExact => truncSixteenth F (idctSum true F x y)
  | .impl => implSample F (idctSum false F x y) i.val

/-- IDCT (45 R190). -/
def idct (mode : PIdct) (F : Vector Int 64) : Vector Int 64 := mkBlock (idctAt mode F)

/-! ### Colour converter -/

/-- trunc0 of the quotient n / d (00 R11). -/
def truncDiv (n : Int) (d : Int) : Int := n.tdiv d

/-- SAT8: clamp, or wrap modulo 256 (46 R203). -/
def sat8 (sat : Bool) (v : Int) : Byte :=
  if sat then BitVec.ofInt 8 (min (max v 0) 255) else BitVec.ofInt 8 (v % 256)

/-- R' (46 R202). -/
def redOf (y cr : Int) : Int := truncDiv (1000 * (y + 128) + 1402 * cr) 1000

/-- B' (46 R202). -/
def blueOf (y cb : Int) : Int := truncDiv (1000 * (y + 128) + 1772 * cb) 1000

/-- G', from the truncated and not yet saturated R' and B' (46 R202). -/
def greenOf (mode : PCcG) (y cb cr : Int) : Int :=
  match mode with
  | .coherent => truncDiv (1000 * (y + 128) - 114 * blueOf y cb - 299 * redOf y cr) 587
  | .literal => truncDiv (1000 * y - 114 * blueOf y cb - 299 * redOf y cr) 587

/-- The block converts to RGB when NF = 3 and CTRL.RGB_EN = 1 (46 R200). -/
def rgbMode (s : State) : Bool := frameNf s == 3 && s.rgbEn

/-- The centered sample of frame component c at index i (46 R204). -/
def sampleOf (s : State) (c : Fin 4) (i : Fin 64) : Int := (s.sbuf.get (scOf s c)).get i

/-- The output bytes of the pixel at index i of the MCU, in channel order (46 R201, R202, R204). -/
def pixelBytes (s : State) (i : Fin 64) : List Byte :=
  if rgbMode s then
    [ sat8 s.sat (redOf (sampleOf s 0 i) (sampleOf s 2 i)),
      sat8 s.sat (greenOf s.params.pCcG (sampleOf s 0 i) (sampleOf s 1 i) (sampleOf s 2 i)),
      sat8 s.sat (blueOf (sampleOf s 0 i) (sampleOf s 1 i)) ]
  else (frameComps s).map fun c => sat8 s.sat (sampleOf s c i + 128)

/-! ### Pixel assembler -/

/-- The column of the MCU's sample i in the frame (43 R172). -/
def pixelX (s : State) (i : Fin 64) : Nat := 8 * (s.m % mcuCols s) + i.val % 8

/-- The row of the MCU's sample i in the frame (43 R172). -/
def pixelY (s : State) (i : Fin 64) : Nat := 8 * (s.m / mcuCols s) + i.val / 8

/-- The output offset of channel 0 of the MCU's sample i (46 R205). -/
def pixelOffset (s : State) (i : Fin 64) : Nat := (pixelY s i * frameX s + pixelX s i) * frameNf s

/-- The writes of the MCU's sample i: none outside the frame (46 R205). -/
def pixelWrites (s : State) (i : Fin 64) : List (Nat × Byte) :=
  if pixelX s i < frameX s ∧ pixelY s i < frameY s then
    (pixelBytes s i).zipIdx.map fun bc => (pixelOffset s i + bc.2, bc.1)
  else []

/-- The writes of EMIT(m), offset and byte, in the order of 46 R205. -/
def emitList (s : State) : List (Nat × Byte) := (List.finRange 64).flatMap (pixelWrites s)

/-- One write of EMIT, and the next one follows; or the platform rejects it (46 R205, 60 R223). -/
def emitByte (w : Nat × Byte) (s : State) : Decoded Unit :=
  if busRejects s true (addrAt s.outBase w.1) then rejectedAccess 1#8 w.1 s
  else .ok () { s with mem := Memory.write s.mem (addrAt s.outBase w.1) w.2, sub := s.sub + 1 }

/-! ### The RECON and DRAIN phases -/

/-- F[j] <- DEQUANT(ZZ[j], ...); S[j] <- IDCT(F[j]) (43 R171). -/
def reconComp (s : State) (j : Fin 4) : State :=
  let F := dequant s.params (s.zz.get j) (quantTable s j).q
  { s with fbuf := s.fbuf.set j.val F, sbuf := s.sbuf.set j.val (idct s.params.pIdct F) }

/-- The MCU is complete: count it and go to the next one, or to the drain after the last (43 R171). -/
def nextMcu (s : State) : State :=
  { s with
    mcucnt := BitVec.ofNat 32 (s.m + 1)
    m := s.m + 1
    j := 0
    k := 0
    sub := 0
    phase := if s.m + 1 < mcuTotal s then .dc else .drain }

/-- One step of the RECON phase: the next component's reconstruction, then the next output write, and when all are made
the end of the MCU (43 R171, 70 R254; log 4). -/
def reconMove (s : State) : Decoded Unit :=
  if s.sub < scanNs s then .ok () { reconComp s (Fin.ofNat 4 s.sub) with sub := s.sub + 1 }
  else match (emitList s)[s.sub - scanNs s]? with
    | some w => emitByte w s
    | none => .ok () (nextMcu s)

/-- The end of a decode: INPOS, MKR_VALID and MKR from END, and STATE <- DONE (41 R145, 43 R171). -/
def finishDecode (s : State) : State :=
  { s with
    inpos := BitVec.ofNat 32 s.endRec.pos
    mkrValid := s.endRec.marker
    mkr := s.endRec.mbyte
    seq := .done }

/-- One step of the DRAIN phase: a destuffer step, or the end of the decode (43 R171, R174). -/
def drainStep (s : State) : Decoded Unit :=
  if s.endRec.ended then .ok () (finishDecode s) else dstep s

end Sys2Proof.Machine
end

