-- ==== Sys2Proof/Machine/Block.lean ====
section
/-! DEFINITION. The block's moves in a decode (43 R171), one for each step of 70 R254: a destuffer step, a symbol, a
component's reconstruction, an output write, the end of an MCU, the end of the decode. -/

namespace Sys2Proof.Machine

/-- What a step has to do: run an instruction in a state, or nothing more than what is already done. -/
inductive Fetched where
  | run (i : Instr) (s : State)
  | settled (r : Result)
  deriving Repr

/-- ZZ[j][0..63] <- 0; k <- 0: the start of a block (43 R171). -/
def beginBlock (s : State) : State := { s with zz := s.zz.set s.j.val (Vector.replicate 64 0#16), k := 0 }

/-! ### The terms of a block -/

/-- Whether the destuffer has taken a step from s to t. -/
def destuffed (s t : State) : Bool := t.ip != s.ip || t.endRec != s.endRec

/-- How many additional bits the symbol b of a DC term reads (43 R162). -/
def dcBits (b : Byte) (_s : State) : Nat := if b.toNat ≤ 15 then b.toNat else 0

/-- How many additional bits the symbol b of an AC term reads, at the position k: none where its run passes position 63
(43 R165, R168). -/
def acBits (b : Byte) (s : State) : Nat := if s.k + b.toNat / 16 ≤ 63 then b.toNat % 16 else 0

/-- Whether READ(n) would take a destuffer step (41 R143). -/
def needsData (n : Nat) (s : State) : Bool := decide (s.dbits.length < s.cur + n) && !s.endRec.ended

/-- A turn that is one destuffer step (41 R141). -/
def dataMove (s : State) : Fetched := .settled (settle (dstep s))

/-- A turn in a term: where MATCH, or the additional bits of the symbol it finds, need a destuffer step, that step alone;
else the symbol as an instruction, or the error or wait of the match (41 R143, 42 R156, 70 R254; log 4). -/
def termMove (decodeByte : Byte → Instr) (bits : Byte → State → Nat) (t : HtTable) (s : State) : Fetched :=
  if destuffed s (leftBy (matchCode t s)) then dataMove s
  else match matchCode t s with
    | .ok b u => if needsData (bits b u) u then dataMove s else .run (decodeByte b) u
    | .err e u => .settled (.next (raiseErr e u))
    | .stall u => .settled (.next { u with stalled := true })

/-! ### The block's turn -/

/-- The block's move in a decode, by the phase of its position (43 R171; log 4). -/
def decodeMove (s : State) : Fetched :=
  match s.phase with
  | .dc => termMove decodeDc dcBits (dcTable s s.j) (beginBlock s)
  | .ac => termMove decodeAc acBits (acTable s s.j) s
  | .recon => .settled (settle (reconMove s))
  | .drain => .settled (settle (drainStep s))

/-- The block's turn: nothing while reset is asserted (70 R240), outside BUSY (43 R175, 60 R235) or on a stalled access
(20 R66), else the next move of the decode. A BUSY state that does not pass START's checks is one no run reaches
(log 18). -/
def blockTurn (s : State) : Fetched :=
  if s.resetAsserted ∨ s.seq ≠ .busy ∨ s.stalled then .settled (.next s)
  else if (startChecks s).isSome then .settled (.fault .launchInvalid)
  else decodeMove s

end Sys2Proof.Machine
end

