-- ==== Sys2Proof/Machine/Dispatch.lean ====
section
/-! DEFINITION. The dispatch: one arm per instruction. -/

namespace Sys2Proof.Machine

/-- The meaning of an instruction. -/
def exec (i : Instr) (s : State) : Host.Outcome State Fault Refusal :=
  match i with
  -- format mmio (40 R101 to R109)
  | .rdStatus => Sys2Proof.Machine.execRdStatus s
  | .rdInpos => Sys2Proof.Machine.execRdInpos s
  | .rdMcucnt => Sys2Proof.Machine.execRdMcucnt s
  | .rdPred j => Sys2Proof.Machine.execRdPred j s
  | .rd off => Sys2Proof.Machine.execRd off s
  | .wrCtrl d => Sys2Proof.Machine.execWrCtrl d s
  | .wrCmd d => Sys2Proof.Machine.execWrCmd d s
  | .wrFrameDim d => Sys2Proof.Machine.execWrFrameDim d s
  | .wrFrameCfg d => Sys2Proof.Machine.execWrFrameCfg d s
  | .wrFcomp0 d => Sys2Proof.Machine.execWrFcomp0 d s
  | .wrFcomp1 d => Sys2Proof.Machine.execWrFcomp1 d s
  | .wrFcomp2 d => Sys2Proof.Machine.execWrFcomp2 d s
  | .wrFcomp3 d => Sys2Proof.Machine.execWrFcomp3 d s
  | .wrScanCfg d => Sys2Proof.Machine.execWrScanCfg d s
  | .wrScomp j d => Sys2Proof.Machine.execWrScomp j d s
  | .wrInBase d => Sys2Proof.Machine.execWrInBase d s
  | .wrInLen d => Sys2Proof.Machine.execWrInLen d s
  | .wrOutBase d => Sys2Proof.Machine.execWrOutBase d s
  | .wrHtBits t n d => Sys2Proof.Machine.execWrHtBits t n d s
  | .wrHtVal t v d => Sys2Proof.Machine.execWrHtVal t v d s
  | .wrQtRam q k d => Sys2Proof.Machine.execWrQtRam q k d s
  | .wr off d => Sys2Proof.Machine.execWr off d s
  -- format cmd (40 R109 to R128)
  | .nop hint => Sys2Proof.Machine.execNop hint s
  | .start => Sys2Proof.Machine.execStart s
  | .abort arg => Sys2Proof.Machine.execAbort arg s
  | .ack arg => Sys2Proof.Machine.execAck arg s
  | .htCommit a8 => Sys2Proof.Machine.execHtCommit a8 s
  | .qtCommit a8 => Sys2Proof.Machine.execQtCommit a8 s
  | .illegalStart arg => Sys2Proof.Machine.execIllegalStart arg s
  | .illegalCommit qt argh a8 => Sys2Proof.Machine.execIllegalCommit qt argh a8 s
  | .reserved op argh a8 => Sys2Proof.Machine.execReserved op argh a8 s
  -- formats dc_symbol and ac_symbol (43 R162 to R168)
  | .dcSize0 => Sys2Proof.Machine.execDcSize0 s
  | .dcSize n => Sys2Proof.Machine.execDcSize n s
  | .dcBad byte => Sys2Proof.Machine.execDcBad byte s
  | .eob => Sys2Proof.Machine.execEob s
  | .zrl => Sys2Proof.Machine.execZrl s
  | .runZero r => Sys2Proof.Machine.execRunZero r s
  | .runSize r n => Sys2Proof.Machine.execRunSize r n s

end Sys2Proof.Machine
end

