-- ==== Sys2Proof/Machine/Turn.lean ====
section
/-! DEFINITION. What the block's turn leaves, and a decode left to itself: its turns one after another (43 R171, R176). -/

namespace Sys2Proof.Machine

/-- Do what a step has to do: run the instruction, or nothing more. -/
def perform (f : Fetched) : Result :=
  match f with
  | .run i t => exec i t
  | .settled r => r

/-- What the block's turn leaves: a step with an empty agenda, or with the event `block` (log 3). -/
def turn (s : State) : Result := perform (blockTurn s)

/-- n turns of the block with nothing between them. -/
def runDecode : (n : Nat) → State → Result
  | 0, s => .next s
  | n + 1, s =>
    match turn s with
    | .next t => runDecode n t
    | .fault f => .fault f
    | .refused r => .refused r

/-- How many turns a decode takes at most: for every component of every MCU 64 symbols, one reconstruction and 64 output
writes, for every MCU its end, and one destuffer step for every input byte, for the end of the data, and the end of the
decode (43 R176). -/
def turnBound (s : State) : Nat := (129 * scanNs s + 1) * mcuTotal s + s.inLen.toNat + 2

/-- The byte that the running decode, left to itself, puts at address a: what stands there when it has reached DONE. One
that does not reach DONE writes unspecified values, and the byte is free (20 R64; 93 S4; log 15). -/
def blockByte (a d : Nat) (s : State) : Byte :=
  match runDecode (turnBound s) s with
  | .next t => if t.seq = .done then Memory.read t.mem a else Config.freeByte d
  | .fault _ => Config.freeByte d
  | .refused _ => Config.freeByte d

end Sys2Proof.Machine
end

