-- ==== Sys2Proof/Machine/Outside.lean ====
section
/-! DEFINITION. What the outside world does besides register accesses: other agents' accesses to system memory (20 R70,
R74), the reset input (70 R240 to R242) and the platform's answers (20 R66). -/

namespace Sys2Proof.Machine

/-- Another agent reads a byte: the byte; for a byte of the output range while BUSY, by a free choice, the byte before the
decode or the byte that the block writes (20 R70 item 5, 70 R248, 93 S4; log 15). -/
def hostMemRead (a : Word) (s : State) : State :=
  if s.seq = .busy ∧ inOutput s a.toNat then
    { s with
      memData := if Config.freeBit s.draws then Memory.read s.before a.toNat else blockByte a.toNat (s.draws + 1) s
      draws := s.draws + 2 }
  else { s with memData := Memory.read s.mem a.toNat }

/-- Another agent writes a byte; into the input or the output range while BUSY this breaks a launch premise
(20 R74, 93 S10; log 16). -/
def hostMemWrite (a : Word) (v : Byte) (s : State) : Result :=
  if s.seq = .busy ∧ inInput s a.toNat then .refused .inputWritten
  else if s.seq = .busy ∧ inOutput s a.toNat then .refused .outputWritten
  else .next { s with mem := Memory.write s.mem a.toNat v }

/-- Every piece of the block's state takes its reset value, the staging RAMs hold new free values, and the output range of
a stopped decode is unspecified; memory outside it, the parameters and the outside world stay (70 R241, R242; log 25). -/
def resetValues (s : State) : State :=
  let s1 := if s.seq = .busy then drawOutput s else s
  { State.reset with
    params := s1.params
    mem := s1.mem
    busMap := s1.busMap
    agenda := s1.agenda
    readData := s1.readData
    memData := s1.memData
    resetAsserted := s1.resetAsserted
    stageSeed := s1.draws + 1
    draws := s1.draws + 1 }

/-- The platform asserts the reset input: a decode stops, and the block is held in its reset values (70 R240, R242;
log 25). -/
def assertReset (s : State) : State := { resetValues s with resetAsserted := true }

/-- The platform releases the reset input: every piece of state has its reset value (70 R240). Releasing an input that is
not asserted has no effect (log 25). -/
def releaseReset (s : State) : State :=
  if s.resetAsserted then { resetValues s with resetAsserted := false } else s

/-- The platform changes which DMA accesses it rejects (20 R66; log 13). -/
def setBusMap (rejected : List Region) (s : State) : State := { s with busMap := rejected }

end Sys2Proof.Machine
end

