-- ==== Sys2Proof/Machine/Fetch.lean ====
section
/-! DEFINITION. What a step runs: the head of the agenda or the block's turn (log 3), and where an instruction comes from
(30 R81, R82, R88, R89). -/

namespace Sys2Proof.Machine

/-- An instruction that the host sends to the block: while reset is asserted it is not answered and has no effect
(70 R240; log 25). -/
def answered (i : Instr) (s : State) : Fetched := if s.resetAsserted then .settled (.next s) else .run i s

/-- A register access (30 R81); one that is not an aligned 32-bit word is refused (20 R61). -/
def fetchAccess (a : Access) (s : State) : Fetched :=
  match decodeAccess a with
  | .ok i => answered i s
  | .error _ => .settled (.refused .accessNotAdmitted)

/-- One event of the agenda. -/
def fetchEvent (e : Event) (s : State) : Fetched :=
  match e with
  | .access a => fetchAccess a s
  | .command w => answered (decodeCommand w) s
  | .block => blockTurn s
  | .memRead a => .settled (.next (hostMemRead a s))
  | .memWrite a v => .settled (hostMemWrite a v s)
  | .resetOn => .settled (.next (assertReset s))
  | .resetOff => .settled (.next (releaseReset s))
  | .platform rejected => .settled (.next (setBusMap rejected s))

/-- What the next step does; with an empty agenda it is the block's turn (log 3). -/
def fetch (s : State) : Fetched :=
  match s.agenda with
  | [] => blockTurn s
  | e :: rest => fetchEvent e { s with agenda := rest }

/-! ### Placing a table word where the next step fetches it (log 20) -/

/-- A valid table whose one code "0" decodes to b. -/
def oneCodeTable (b : Byte) : HtTable := ⟨true, 1#8 :: List.replicate 15 0#8, [b], 1, [⟨1, 0, b⟩]⟩

/-- A valid flat quantization table of ones. -/
def flatTable : QtTable := ⟨true, .bits8, Vector.replicate 64 1#16⟩

/-- The block in the middle of a one-MCU decode whose next symbol, in the given phase, is b, followed by additional bits
that are all 0. -/
def placeSymbol (p : Phase) (b : Byte) (s : State) : State :=
  { s with
    seq := .busy
    phase := p
    m := 0
    j := 0
    k := if p = .dc then 0 else 1
    sub := 0
    frameDim := 0x00010001#32
    frameCfg := 0x00000108#32
    fcomp := s.fcomp.set 0 0x00001101#32
    scanCfg := 0x00000001#32
    scomp := s.scomp.set 0 0x00000001#32
    inBase := 0x1000#32
    inLen := 4#32
    outBase := 0x2000#32
    htAct := (s.htAct.set 0 (oneCodeTable b)).set 4 (oneCodeTable b)
    qtAct := s.qtAct.set 0 flatTable
    ip := 4
    dbits := List.replicate 32 false
    src := [0, 1, 2, 3]
    endRec := EndRec.clear
    cur := 0
    c0 := 0
    stalled := false
    resetAsserted := false
    agenda := .block :: s.agenda }

/-- The state whose next step fetches and runs an encoded item. -/
def placeEncoded (e : Encoded) (s : State) : State :=
  match e with
  | .mmio a => { s with resetAsserted := false, agenda := .access a :: s.agenda }
  | .cmd w => { s with resetAsserted := false, agenda := .command w :: s.agenda }
  | .dcSymbol b => placeSymbol .dc b s
  | .acSymbol b => placeSymbol .ac b s

end Sys2Proof.Machine
end

