-- ==== Sys2Proof/Machine/Step.lean ====
section
/-! DEFINITION. One step of the machine, and where a table word is placed for the next step to fetch. -/

namespace Sys2Proof.Machine

/-- One step: what the outside world or the block does next (log 3). -/
def step (s : State) : Host.Outcome State Fault Refusal := perform (fetch s)

/-- The state whose next step fetches and runs the instruction whose bits the opcode table numbers as `w` (log 20). -/
def State.withFetchWord (s : State) (nbits w : Nat) : State :=
  match encodedOfTableWord nbits w with
  | some e => placeEncoded e s
  | none => s

end Sys2Proof.Machine
end

