-- ==== Sys2Proof/Safety.lean ====
section
/-! DEFINITION. The terms the statements use: the invariant that every step keeps, the effects of a turn, the START
checks one by one in the spec's own words, the bounds of the canonical code, and rounding over the reals. -/

namespace Sys2Proof.Machine

/-! ### The invariant -/

/-- The registers' reserved bits read 0 (20 R60, 10 R26, R29 to R32), and ERRCODE holds one of the codes 0..10
(60 R221, 93 S14). -/
structure ReservedClear (s : State) : Prop where
  frameCfg : s.frameCfg &&& 0xFFFF0000#32 = 0#32
  fcomp : ∀ c : Fin 4, s.fcomp.get c &&& 0xFF000000#32 = 0#32
  scanCfg : s.scanCfg &&& 0xFFFFFF00#32 = 0#32
  scomp : ∀ j : Fin 4, s.scomp.get j &&& 0xFFFF0000#32 = 0#32
  errinfo : s.errinfo &&& 0x00FF0000#32 = 0#32
  errcode : s.errcode ≤ 10#4

/-- A valid active Huffman table is one that BUILD made from 16 counts and 256 values (10 R36, 42 R150). -/
def TableBuilt (t : HtTable) : Prop :=
  t.valid = true → ∃ bits vals : List Byte, bits.length = 16 ∧ vals.length = 256 ∧ build bits vals = .ok t

/-- An entry of a valid 8-bit quantization table fits 8 bits (40 R127). -/
def QuantFits (t : QtTable) : Prop :=
  t.valid = true → t.precision = .bits8 → ∀ k : Fin 64, (t.q.get k).toNat ≤ 255

/-- The input byte at offset o (41 R140). -/
def inByte (s : State) (o : Nat) : Byte := Memory.read s.mem (addrAt s.inBase o)

/-- The destuffer's way through `len` input bytes from the offset `start` to the offset `stop`: it passes over a byte that
is not 0xFF, or over a stuffed pair 0xFF 0x00, and takes one byte of D at each offset of the list (41 R141, R142). -/
def Walk (len : Nat) (byte : Nat → Byte) : (offsets : List Nat) → (start stop : Nat) → Prop
  | [], start, stop => start = stop
  | o :: rest, start, stop => o = start ∧
    (start < len ∧ byte start ≠ 0xFF#8 ∧ Walk len byte rest (start + 1) stop ∨
      start + 1 < len ∧ byte start = 0xFF#8 ∧ byte (start + 1) = 0x00#8 ∧ Walk len byte rest (start + 2) stop)

/-- The end record is the one of 41 R141 for the data that ends at ip: at the end of the input, at a lone 0xFF there, or at
a marker; and it is clear while the data has not ended. -/
def EndOk (s : State) : Prop :=
  (s.endRec.ended = false → s.endRec = EndRec.clear) ∧
  (s.endRec.ended = true →
    s.inLen.toNat ≤ s.ip ∧ s.endRec = ⟨true, s.inLen.toNat, false, 0#8⟩ ∨
    s.ip + 1 = s.inLen.toNat ∧ inByte s s.ip = 0xFF#8 ∧ s.endRec = ⟨true, s.ip, false, 0#8⟩ ∨
    s.ip + 1 < s.inLen.toNat ∧ inByte s s.ip = 0xFF#8 ∧ inByte s (s.ip + 1) ≠ 0x00#8 ∧
      s.endRec = ⟨true, s.ip, true, inByte s (s.ip + 1)⟩)

/-- The destuffed stream is the input destuffed: src and ip are the destuffer's way from the offset 0, D is the bits of the
input bytes at the offsets src, the end record is the one of the data, and the cursor lies inside D (10 R40, R42; 41 R141,
R142). -/
structure StreamOk (s : State) : Prop where
  content : s.dbits = s.src.flatMap fun o => uintToBits (inByte s o).toNat 8
  walk : Walk s.inLen.toNat (inByte s) s.src 0 s.ip
  inside : s.ip ≤ s.inLen.toNat
  ended : EndOk s
  cursor : s.cur ≤ s.dbits.length
  start : s.c0 ≤ s.cur

/-- The positions of the current block from k on hold 0: nothing has written them since the block was cleared (10 R42; 43
R166, R170, R171). -/
def UnwrittenZero (s : State) : Prop := ∀ n : Fin 64, s.k ≤ n.val → (s.zz.get s.j).get n = 0#16

/-- The position is one the sequence of 43 R171 passes through (10 R39). -/
def PositionOk (s : State) : Prop :=
  match s.phase with
  | .dc => s.m < mcuTotal s ∧ s.j.val < scanNs s ∧ s.k = 0 ∧ s.sub = 0
  | .ac => s.m < mcuTotal s ∧ s.j.val < scanNs s ∧ 1 ≤ s.k ∧ s.k ≤ 63 ∧ s.sub = 0 ∧ UnwrittenZero s
  | .recon => s.m < mcuTotal s ∧ s.sub ≤ scanNs s + (emitList s).length
  | .drain => s.m = mcuTotal s ∧ s.sub = 0

/-- A running decode: its registers and tables pass START's checks, its memory premises hold, its stream and position
are ones a decode passes through, and nothing is reported yet (40 R111, R122; 20 R74; 43 R171). -/
structure Running (s : State) : Prop where
  checks : startChecks s = none
  premises : brokenPremise s = none
  stream : StreamOk s
  position : PositionOk s
  counted : s.mcucnt = BitVec.ofNat 32 s.m
  unreported : s.errcode = 0#4 ∧ s.errinfo = 0#32 ∧ s.errpos = 0#32 ∧ s.inpos = 0#32 ∧ s.mkrValid = false ∧ s.mkr = 0#8

/-- The invariant of the machine. -/
structure Inv (s : State) : Prop where
  memory : Memory.wf s.mem
  reserved : ReservedClear s
  huffman : ∀ t : Fin 8, TableBuilt (s.htAct.get t)
  quant : ∀ q : Fin 4, QuantFits (s.qtAct.get q)
  running : s.seq = .busy → Running s
  held : s.resetAsserted = true → s.seq = .idle

/-! ### The block's turn -/

/-- Whether an address lies outside the output range (20 R64). -/
def OutsideOutput (s : State) (a : Nat) : Prop := a < s.outBase.toNat ∨ s.outBase.toNat + outSize s ≤ a

/-- The error of a failing term: where it is in the block and, in the input, where its code starts (43 introduction,
41 R147). -/
def termError (code : ErrorCode) (s : State) : Err where
  code := code
  origin := .decode
  detail := BitVec.ofNat 8 s.k
  unit := BitVec.ofNat 8 s.j.val
  pos := BitVec.ofNat 32 (if s.c0 < s.dbits.length then s.src.getD (s.c0 / 8) 0 else s.ip)

/-- The n bits of D from the cursor on, as a number (00 R12, 41 R143). -/
def bitsAtCursor (n : Nat) (s : State) : Nat := bitsToUint ((s.dbits.drop s.cur).take n)

/-- The state after a block of the current component is complete: the next component of the MCU, or reconstruction after
the last one (43 R169, R171). -/
def blockDone (s : State) : State :=
  if s.j.val + 1 < scanNs s then { s with j := s.j + 1, k := 0, phase := .dc } else { s with phase := .recon }

/-- The state after an AC term that leaves the zigzag position n: the block goes on, or is full (43 R165, R169). -/
def positionAt (n : Nat) (s : State) : State :=
  if n ≤ 63 then { s with k := n } else blockDone { s with k := n }

/-! ### The START checks, in the spec's own words -/

def Pass1 (s : State) : Prop := frameP s = 8#8

def Pass2 (s : State) : Prop := frameNf s = 1 ∨ frameNf s = 3 ∨ frameNf s = 4

def Pass3 (s : State) : Prop := frameX s ≠ 0 ∧ frameY s ≠ 0

/-- No earlier frame component has the id of component c (40 R115). -/
def IdNew (s : State) (c : Fin 4) : Prop := ∀ c' : Fin 4, c' < c → fcompId s c ≠ fcompId s c'

def Pass4 (s : State) : Prop := ∀ c : Fin 4, c.val < frameNf s → IdNew s c

/-- Both sampling factors of component c are 1 (40 R116). -/
def Unsampled (s : State) (c : Fin 4) : Prop := fcompH s c = 1#4 ∧ fcompV s c = 1#4

def Pass5 (s : State) : Prop := ∀ c : Fin 4, c.val < frameNf s → Unsampled s c

def Pass6 (s : State) : Prop := ∀ c : Fin 4, c.val < frameNf s → fcompTq s c ≤ 3

def Pass7 (s : State) : Prop := 1 ≤ scanNs s ∧ scanNs s ≤ 4 ∧ scanNs s = frameNf s

/-- Scan component j names a frame component, and no earlier scan component has its id (40 R119). -/
def Named (s : State) (j : Fin 4) : Prop :=
  (∃ c : Fin 4, c.val < frameNf s ∧ fcompId s c = scompId s j) ∧ ∀ j' : Fin 4, j' < j → scompId s j' ≠ scompId s j

def Pass8 (s : State) : Prop := ∀ j : Fin 4, j.val < scanNs s → Named s j

/-- The Huffman table ids of scan component j are at most 3 (40 R120). -/
def IdsSmall (s : State) (j : Fin 4) : Prop := scompTd s j ≤ 3 ∧ scompTa s j ≤ 3

def Pass9 (s : State) : Prop := ∀ j : Fin 4, j.val < scanNs s → IdsSmall s j

/-- HT_ACT[SCOMPj.TD] is valid (40 R121). -/
def DcPresent (s : State) (j : Fin 4) : Prop := (s.htAct.get (Fin.ofNat 8 (scompTd s j))).valid = true

/-- HT_ACT[4 + SCOMPj.TA] is valid (40 R121). -/
def AcPresent (s : State) (j : Fin 4) : Prop := (s.htAct.get (Fin.ofNat 8 (4 + scompTa s j))).valid = true

/-- QT_ACT[FCOMP(fc(j)).TQ] is valid, fc(j) being the frame component that scan component j names (40 R119, R121). -/
def QtPresent (s : State) (j : Fin 4) : Prop :=
  ∀ c : Fin 4, c.val < frameNf s → fcompId s c = scompId s j → (s.qtAct.get (Fin.ofNat 4 (fcompTq s c))).valid = true

/-- All three tables of scan component j are valid (40 R121). -/
def TablesPresent (s : State) (j : Fin 4) : Prop := DcPresent s j ∧ AcPresent s j ∧ QtPresent s j

def Pass10 (s : State) : Prop := ∀ j : Fin 4, j.val < scanNs s → TablesPresent s j

def Pass11 (s : State) : Prop :=
  s.inBase.toNat + s.inLen.toNat ≤ 2 ^ 32 ∧ s.outBase.toNat + frameX s * frameY s * frameNf s ≤ 2 ^ 32

/-- Checks 1 to 6 pass: the frame registers. -/
def FramePasses (s : State) : Prop := Pass1 s ∧ Pass2 s ∧ Pass3 s ∧ Pass4 s ∧ Pass5 s ∧ Pass6 s

/-- Checks 1 to 10 pass: the frame and scan registers and the tables. -/
def SetupPasses (s : State) : Prop := FramePasses s ∧ Pass7 s ∧ Pass8 s ∧ Pass9 s ∧ Pass10 s

/-- Whether an address lies in the register window (20 R60). -/
def InWindow (s : State) (a : Nat) : Prop := s.params.mmioBase ≤ a ∧ a < s.params.mmioBase + 0x10000

/-- The three ranges of 20 R74 are disjoint. -/
def RangesApart (s : State) : Prop :=
  ∀ a : Nat, ¬ (inInput s a = true ∧ inOutput s a = true) ∧ ¬ (InWindow s a ∧ (inInput s a = true ∨ inOutput s a = true))

/-- START ends in ERROR with this error of a START check: everything START clears is cleared, ERRCODE, ERRINFO (ORIGIN 1)
and ERRPOS are written, and nothing else changes (40 R111, 60 R222, R224). -/
def StartFails (s : State) (code : BitVec 4) (detail unit : Byte) : Prop :=
  exec .start s = .next { s with
    ign := false, mkrValid := false, mkr := 0#8, inpos := 0#32, mcucnt := 0#32, pred := Vector.replicate 4 0#16
    errcode := code, errinfo := 1#8 ++ 0#8 ++ detail ++ unit, errpos := 0#32, seq := .error }

/-! ### The canonical code -/

/-- f, the number of codes of length b (42 R150). -/
def codeCount (bits : List Byte) (b : Nat) : Nat := (bits.getD (b - 1) 0#8).toNat

/-- bc at length b, after the doubling: the sum over the shorter lengths i of f_i · 2^(b-i) (42 R151). -/
def firstCode (bits : List Byte) (b : Nat) : Nat :=
  ((List.range (b - 1)).map fun i => (bits.getD i 0#8).toNat * 2 ^ (b - 1 - i)).sum

/-- How many codes are shorter than b. -/
def shorterCodes (bits : List Byte) (b : Nat) : Nat := ((bits.take (b - 1)).map BitVec.toNat).sum

/-- The codes of length b fit into b bits (42 R152). -/
def CodesFit (bits : List Byte) (b : Nat) : Prop := firstCode bits b + codeCount bits b ≤ 2 ^ b

/-- The bits of D from the cursor on start with the code c (42 R156). -/
def CodeAtCursor (c : Code) (s : State) : Prop := bitsAtCursor c.len s = c.code

/-! ### Exact numbers -/

/-- n = trunc0(r) (00 R11). -/
def IsTrunc (r : ℝ) (n : Int) : Prop :=
  (0 ≤ r → (n : ℝ) ≤ r ∧ r < n + 1) ∧ (r ≤ 0 → r ≤ n ∧ (n : ℝ) - 1 < r)

/-- n = trunc0(r), for a rational (00 R11). -/
def IsTruncRat (r : ℚ) (n : Int) : Prop :=
  (0 ≤ r → (n : ℚ) ≤ r ∧ r < n + 1) ∧ (r ≤ 0 → r ≤ n ∧ (n : ℚ) - 1 < r)

/-- r is the sum of 45 R190 at column x and row y, with the weight `dc` for the frequency 0 (1/√2 for T81_EXACT,
1/2 for LITERAL_SEPARABLE_EXACT) and 1 for the others. -/
def IsIdctSum (dc : ℝ) (F : Vector Int 64) (x y : Fin 8) (r : ℝ) : Prop :=
  r = (1 / 4) * ∑ u : Fin 8, ∑ v : Fin 8,
    (if u = 0 then dc else 1) * (if v = 0 then dc else 1) * (F.get (Fin.ofNat 64 (8 * v.val + u.val)) : ℝ)
      * Real.cos ((2 * x.val + 1) * u.val * Real.pi / 16) * Real.cos ((2 * y.val + 1) * v.val * Real.pi / 16)

/-- The index of the sample at column x and row y (00 R14). -/
def sampleIndex (x y : Fin 8) : Fin 64 := Fin.ofNat 64 (8 * y.val + x.val)

/-- A permutation table: no natural index twice. -/
def Injective (zz : Vector (Fin 64) 64) : Prop := ∀ k k' : Fin 64, zz.get k = zz.get k' → k = k'

end Sys2Proof.Machine
end

