-- ==== Sys2Proof/Certificates/Slice0/Obligations.lean ====
section
/-! DEFINITION. The statements for the provers. Every statement about an instruction gives the whole next state, so it
says as well that the instruction completes and what it leaves unchanged. -/

open Sys2Proof Sys2Proof.Machine

/-! ### Encoding (30) -/

/-- Decoding the encoding of any well-formed instruction, with any operands, gives the instruction back (30 R83, R88,
R89, R95). -/
def Obligations.DecodeOfEncodeGivesTheInstruction : Prop :=
  ∀ i : Instr, i.wellFormed = true → decode (encode i) = .ok i

/-- Every word has one meaning: what decodes to an instruction is that instruction's encoding, but for the data bits of a
read, which do not take part (30 R81, R95). -/
def Obligations.EncodeOfDecodeGivesTheWord : Prop :=
  ∀ (e : Encoded) (i : Instr), decode e = .ok i → i.wellFormed = true ∧
    (encode i = e ∨ ∃ (off : BitVec 16) (d : Word), e = .mmio ⟨.rd, off, 4, d⟩ ∧ encode i = .mmio ⟨.rd, off, 4, 0#32⟩)

/-- Words written out from the encodings of 10 R20 and 30 R83, R88, R89 decode to what they stand for. -/
def Obligations.WordsOfTheSpecDecode : Prop :=
  decode (.mmio ⟨.rd, 0x00C#16, 4, 0#32⟩) = .ok .rdStatus ∧
  decode (.mmio ⟨.rd, 0x064#16, 4, 0#32⟩) = .ok (.rdPred 1) ∧
  decode (.mmio ⟨.rd, 0x058#16, 4, 0#32⟩) = .ok (.rd 0x058#16) ∧
  decode (.mmio ⟨.wr, 0x048#16, 4, 0x1203#32⟩) = .ok (.wrScomp 2 0x1203#32) ∧
  decode (.mmio ⟨.wr, 0x682C#16, 4, 7#32⟩) = .ok (.wrHtBits 5 11 7#32) ∧
  decode (.mmio ⟨.wr, 0x7FFC#16, 4, 7#32⟩) = .ok (.wrHtVal 7 255 7#32) ∧
  decode (.mmio ⟨.wr, 0x8304#16, 4, 7#32⟩) = .ok (.wrQtRam 3 1 7#32) ∧
  decode (.cmd 0x00FFFFFF#32) = .ok (.nop 0xFFFFFF#24) ∧
  decode (.cmd 0x01000000#32) = .ok .start ∧
  decode (.cmd 0x10000013#32) = .ok (.htCommit 0x13#8) ∧
  decode (.cmd 0x11000102#32) = .ok (.illegalCommit true 0x0001#16 0x02#8) ∧
  decode (.cmd 0x05000000#32) = .ok (.reserved 0x05#8 0#16 0#8) ∧
  decode (.dcSymbol 0x0F#8) = .ok (.dcSize 15#4) ∧
  decode (.dcSymbol 0x10#8) = .ok (.dcBad 0x10#8) ∧
  decode (.acSymbol 0xF0#8) = .ok .zrl ∧
  decode (.acSymbol 0xE0#8) = .ok (.runZero 14#4) ∧
  decode (.acSymbol 0x21#8) = .ok (.runSize 2#4 1#4)

/-- The frame and scan registers carry their fields where 30 R87 puts them. -/
def Obligations.FrameAndScanFieldsReadBack : Prop :=
  ∀ (s : State) (height width : Half) (nf p tq id ns cs : Byte) (h v td ta : BitVec 4) (c : Fin 4),
    (s.frameDim = height ++ width → frameY s = height.toNat ∧ frameX s = width.toNat) ∧
    (s.frameCfg = 0#16 ++ nf ++ p → frameNf s = nf.toNat ∧ frameP s = p) ∧
    (s.fcomp.get c = 0#8 ++ tq ++ h ++ v ++ id →
      fcompTq s c = tq.toNat ∧ fcompH s c = h ∧ fcompV s c = v ∧ fcompId s c = id) ∧
    (s.scanCfg = 0#24 ++ ns → scanNs s = ns.toNat) ∧
    (s.scomp.get c = 0#16 ++ td ++ ta ++ cs → scompTd s c = td.toNat ∧ scompTa s c = ta.toNat ∧ scompId s c = cs)

/-! ### Steps (30 R81, R82; 43 R171; log 3) -/

/-- Only aligned 32-bit accesses run; every other access is refused (20 R61, 30 R81). While reset is asserted no access is
answered, and that an aligned one then has no effect is the model's reading (70 R240; log 25). -/
def Obligations.OnlyAlignedWordAccessesRun : Prop :=
  ∀ (s : State) (a : Access) (rest : List Event), s.agenda = .access a :: rest →
    ((a.bytes ≠ 4 ∨ a.off.toNat % 4 ≠ 0) → step s = .refused .accessNotAdmitted) ∧
    (a.bytes = 4 → a.off.toNat % 4 = 0 → s.resetAsserted = false →
      ∃ i, decode (.mmio a) = .ok i ∧ step s = exec i { s with agenda := rest }) ∧
    (a.bytes = 4 → a.off.toNat % 4 = 0 → s.resetAsserted = true → step s = .next { s with agenda := rest }) ∧
    (∀ (off : BitVec 16) (d : Word), off.toNat % 4 ≠ 0 →
      exec (.rd off) s = .refused .accessNotAdmitted ∧ exec (.wr off d) s = .refused .accessNotAdmitted)

/-- A step runs the instruction its word decodes to: the access or the command at the head of the agenda, taken from it;
the block's turn comes from the event `block` or from an empty agenda (the model's choice, log 3). While reset is asserted
neither an access nor a command is answered (70 R240; log 25). -/
def Obligations.StepRunsTheDecodedInstruction : Prop :=
  ∀ (s : State) (rest : List Event) (i : Instr),
    let runs : Prop := (s.resetAsserted = false → step s = exec i { s with agenda := rest }) ∧
      (s.resetAsserted = true → step s = .next { s with agenda := rest })
    (∀ a, s.agenda = .access a :: rest → decode (.mmio a) = .ok i → runs) ∧
    (∀ w, s.agenda = .command w :: rest → decode (.cmd w) = .ok i → runs) ∧
    (s.agenda = .block :: rest → step s = turn { s with agenda := rest }) ∧
    (s.agenda = [] → step s = turn s)

/-- The block's turn in a DC or an AC term of a running decode. Where MATCH, from the term's own table, or the READ of the
symbol's additional bits still needs a destuffer step, the turn is that one step, after which MATCH goes on to the same
answer; else it runs the instruction the matched byte decodes to, or a match that fails is an error entry, or one that waits
on a DMA access leaves the block stalled. A block starts with its coefficients cleared (41 R143; 42 R156; 43 R162, R165,
R171; 70 R254; 20 R66). That the destuffer step is a turn of its own, after which the next turn matches again from the same
cursor, is the model's choice (log 4). -/
def Obligations.TurnRunsTheMatchedSymbol : Prop :=
  ∀ s : State, s.seq = .busy → s.stalled = false → s.resetAsserted = false → startChecks s = none →
    let term (tab : HtTable) (v : State) (symbol : Byte → Encoded) (bits : Byte → Nat) : Prop := ∀ r, matchCode tab v = r →
      let moved : Prop := (leftBy r).ip ≠ v.ip ∨ (leftBy r).endRec ≠ v.endRec
      let short (b : Byte) (u : State) : Prop := u.dbits.length < u.cur + bits b ∧ u.endRec.ended = false
      (moved ∨ (∃ b u, r = .ok b u ∧ short b u) → v.endRec.ended = false ∧
        (∀ u, dstep v = .ok () u → turn s = .next u ∧ (moved → matchCode tab u = r)) ∧
        (∀ e u, dstep v = .err e u → turn s = .next (raiseErr e u)) ∧
        (∀ u, dstep v = .stall u → turn s = .next { u with stalled := true })) ∧
      (¬ moved →
        (∀ b u i, r = .ok b u → ¬ short b u → decode (symbol b) = .ok i → turn s = exec i u) ∧
        (∀ e u, r = .err e u → turn s = .next (raiseErr e u)) ∧
        (∀ u, r = .stall u → turn s = .next { u with stalled := true }))
    (s.phase = .dc → term (s.htAct.get (Fin.ofNat 8 (scompTd s s.j)))
      { s with zz := s.zz.set s.j.val (Vector.replicate 64 0#16), k := 0 } .dcSymbol
      fun b => if b.toNat ≤ 15 then b.toNat else 0) ∧
    (s.phase = .ac → term (s.htAct.get (Fin.ofNat 8 (4 + scompTa s s.j))) s .acSymbol
      fun b => if s.k + b.toNat / 16 ≤ 63 then b.toNat % 16 else 0)

/-! ### Register accesses (40 R101 to R108) -/

/-- RD returns the value of the register the offset names, the valid bits of the active tables for TVALID, the status word
and the progress registers as their own reads do, and 0 for CMD and for every reserved offset; it changes nothing else
(40 R101; 10 R20 to R38; 20 R60). A staging entry that nothing has written since reset reads as one kept value, as 10 R47,
70 R241 and 93 S1 say; that two reads of it agree is the model's choice where 40 R101 says draw() (log 7). -/
def Obligations.ReadReturnsTheRegister : Prop :=
  ∀ s : State,
    (∀ (off : BitVec 16) (v : Word), (off, v) ∈ [
        (0x000#16, s.params.idValue),
        (0x004#16, 0#29 ++ BitVec.ofBool s.irqEn ++ BitVec.ofBool s.sat ++ BitVec.ofBool s.rgbEn),
        (0x008#16, 0#32), (0x010#16, 0#28 ++ s.errcode), (0x014#16, s.errinfo), (0x018#16, s.errpos),
        (0x024#16, s.frameDim), (0x028#16, s.frameCfg),
        (0x02C#16, s.fcomp.get 0), (0x030#16, s.fcomp.get 1), (0x034#16, s.fcomp.get 2), (0x038#16, s.fcomp.get 3),
        (0x03C#16, s.scanCfg),
        (0x040#16, s.scomp.get 0), (0x044#16, s.scomp.get 1), (0x048#16, s.scomp.get 2), (0x04C#16, s.scomp.get 3),
        (0x050#16, s.inBase), (0x054#16, s.inLen), (0x058#16, s.outBase)] →
      exec (.rd off) s = .next { s with readData := v }) ∧
    (∃ v : Word, exec (.rd 0x05C#16) s = .next { s with readData := v } ∧
      (∀ t : Fin 8, v.getLsbD t.val = (s.htAct.get t).valid) ∧
      (∀ q : Fin 4, v.getLsbD (8 + q.val) = (s.qtAct.get q).valid) ∧ (∀ i, 12 ≤ i → v.getLsbD i = false)) ∧
    exec (.rd 0x00C#16) s = exec .rdStatus s ∧
    exec (.rd 0x01C#16) s = exec .rdInpos s ∧
    exec (.rd 0x020#16) s = exec .rdMcucnt s ∧
    (∀ j : Fin 4, exec (.rd (BitVec.ofNat 16 (0x060 + 4 * j.val))) s = exec (.rdPred j) s) ∧
    (∀ (t : Fin 8) (i : Fin 16), exec (.rd (BitVec.ofNat 16 (0x4000 + 0x800 * t.val + 4 * i.val))) s =
      .next { s with readData := 0#24 ++ stagedCountOf s t i.val }) ∧
    (∀ (t : Fin 8) (v : Fin 256), exec (.rd (BitVec.ofNat 16 (0x4000 + 0x800 * t.val + 0x400 + 4 * v.val))) s =
      .next { s with readData := 0#24 ++ stagedValueOf s t v.val }) ∧
    (∀ (q : Fin 4) (k : Fin 64), exec (.rd (BitVec.ofNat 16 (0x8000 + 0x100 * q.val + 4 * k.val))) s =
      .next { s with readData := 0#16 ++ stagedQuantOf s q k.val }) ∧
    (∀ off : BitVec 16, off.toNat % 4 = 0 →
      (0x0070 ≤ off.toNat ∧ off.toNat < 0x4000 ∨ 0x8400 ≤ off.toNat ∨
        0x4000 ≤ off.toNat ∧ off.toNat < 0x8000 ∧ 0x040 ≤ off.toNat % 0x800 ∧ off.toNat % 0x800 < 0x400) →
      exec (.rd off) s = .next { s with readData := 0#32 })

/-- RD STATUS returns the status word: STATE, IRQ, IGN, MKR_VALID and MKR in their bits and 0 in the others, MKR and
MKR_VALID being 0 in a running decode; it changes nothing else (40 R107, 10 R24, R44). -/
def Obligations.StatusReadsTheStatusWord : Prop :=
  ∀ s : State, ∃ v : Word, exec .rdStatus s = .next { s with readData := v } ∧
    v.extractLsb' 0 2 = (match s.seq with | .idle => 0#2 | .busy => 1#2 | .done => 2#2 | .error => 3#2) ∧
    (v.getLsbD 2 = true ↔ s.irqEn = true ∧ (s.seq = .done ∨ s.seq = .error)) ∧
    v.getLsbD 3 = s.ign ∧ v.getLsbD 4 = s.mkrValid ∧ v.extractLsb' 5 3 = 0#3 ∧ v.extractLsb' 8 8 = s.mkr ∧
    v.extractLsb' 16 16 = 0#16 ∧
    (Inv s → s.seq = .busy → v = 0#28 ++ BitVec.ofBool s.ign ++ 1#3)

/-- RD INPOS, MCUCNT and PREDj: exact outside BUSY, a free value of the register's range, drawn at each read, while BUSY;
nothing else changes (40 R108, 10 R34, R35). The free values are opaque, so this holds for every value of them. -/
def Obligations.ProgressReadsAreFreeWhileBusy : Prop :=
  ∀ s : State,
    (s.seq ≠ .busy →
      exec .rdInpos s = .next { s with readData := s.inpos } ∧
      exec .rdMcucnt s = .next { s with readData := s.mcucnt } ∧
      ∀ j : Fin 4, exec (.rdPred j) s = .next { s with readData := (s.pred.get j).signExtend 32 }) ∧
    (s.seq = .busy →
      exec .rdInpos s = .next { s with readData := Config.freeWord s.draws, draws := s.draws + 1 } ∧
      exec .rdMcucnt s = .next { s with readData := Config.freeWord s.draws, draws := s.draws + 1 } ∧
      ∀ j : Fin 4, exec (.rdPred j) s =
        .next { s with readData := (Config.freeHalf s.draws).signExtend 32, draws := s.draws + 1 })

/-- WR at an offset is the write its register's rule gives: CTRL, CMD, the configuration registers, the staging entries;
a write to a read-only register or to a reserved offset changes nothing at all (40 R102, 20 R60). -/
def Obligations.WriteDispatchesByOffset : Prop :=
  ∀ (s : State) (d : Word),
    exec (.wr 0x004#16 d) s = exec (.wrCtrl d) s ∧
    exec (.wr 0x008#16 d) s = exec (.wrCmd d) s ∧
    exec (.wr 0x024#16 d) s = exec (.wrFrameDim d) s ∧
    exec (.wr 0x028#16 d) s = exec (.wrFrameCfg d) s ∧
    exec (.wr 0x02C#16 d) s = exec (.wrFcomp0 d) s ∧
    exec (.wr 0x030#16 d) s = exec (.wrFcomp1 d) s ∧
    exec (.wr 0x034#16 d) s = exec (.wrFcomp2 d) s ∧
    exec (.wr 0x038#16 d) s = exec (.wrFcomp3 d) s ∧
    exec (.wr 0x03C#16 d) s = exec (.wrScanCfg d) s ∧
    (∀ j : Fin 4, exec (.wr (BitVec.ofNat 16 (0x040 + 4 * j.val)) d) s = exec (.wrScomp j d) s) ∧
    exec (.wr 0x050#16 d) s = exec (.wrInBase d) s ∧
    exec (.wr 0x054#16 d) s = exec (.wrInLen d) s ∧
    exec (.wr 0x058#16 d) s = exec (.wrOutBase d) s ∧
    (∀ (t : Fin 8) (i : Fin 16), exec (.wr (BitVec.ofNat 16 (0x4000 + 0x800 * t.val + 4 * i.val)) d) s =
      exec (.wrHtBits t i d) s) ∧
    (∀ (t : Fin 8) (v : Fin 256), exec (.wr (BitVec.ofNat 16 (0x4000 + 0x800 * t.val + 0x400 + 4 * v.val)) d) s =
      exec (.wrHtVal t v d) s) ∧
    (∀ (q : Fin 4) (k : Fin 64), exec (.wr (BitVec.ofNat 16 (0x8000 + 0x100 * q.val + 4 * k.val)) d) s =
      exec (.wrQtRam q k d) s) ∧
    (∀ off ∈ [0x000#16, 0x00C#16, 0x010#16, 0x014#16, 0x018#16, 0x01C#16, 0x020#16, 0x05C#16, 0x060#16, 0x064#16,
      0x068#16, 0x06C#16], exec (.wr off d) s = .next s) ∧
    (∀ off : BitVec 16, off.toNat % 4 = 0 →
      (0x0070 ≤ off.toNat ∧ off.toNat < 0x4000 ∨ 0x8400 ≤ off.toNat ∨
        0x4000 ≤ off.toNat ∧ off.toNat < 0x8000 ∧ 0x040 ≤ off.toNat % 0x800 ∧ off.toNat % 0x800 < 0x400) →
      exec (.wr off d) s = .next s)

/-- WR CTRL: while BUSY only IRQ_EN is written, and IGN is set exactly when the other two bits would change; else the
three fields are written. Nothing else changes (40 R103, 10 R22). -/
def Obligations.ControlWriteKeepsTheModeWhileBusy : Prop :=
  ∀ (s : State) (d : Word),
    exec (.wrCtrl d) s = .next (if s.seq = .busy then
        { s with
          irqEn := d.getLsbD 2
          ign := if d.extractLsb' 0 2 = BitVec.ofBool s.sat ++ BitVec.ofBool s.rgbEn then s.ign else true }
      else { s with rgbEn := d.getLsbD 0, sat := d.getLsbD 1, irqEn := d.getLsbD 2 })

/-- WR of a configuration register: ignored with IGN while BUSY; in IDLE the register takes the data with its reserved bits
0, and nothing else changes. In DONE and ERROR the write is taken, as 40 R104 says; on a block set to the sentence of 60 R228
it is ignored with IGN. The two disagree, and that the default, which State.reset holds, is 40 R104 is the model's choice,
log 32 (40 R104, R129; 60 R228; 70 R244, R246). -/
def Obligations.ConfigurationWritesAreIgnoredWhileBusy : Prop :=
  ∀ (s : State) (d : Word),
    let ignoring : Prop := s.seq = .busy ∨ (s.seq = .done ∨ s.seq = .error) ∧ s.params.pCfgWrites = .ignored
    (ignoring → ∀ i ∈ [Instr.wrFrameDim d, .wrFrameCfg d, .wrFcomp0 d, .wrFcomp1 d, .wrFcomp2 d, .wrFcomp3 d,
      .wrScanCfg d, .wrScomp 0 d, .wrScomp 1 d, .wrScomp 2 d, .wrScomp 3 d, .wrInBase d, .wrInLen d, .wrOutBase d],
      exec i s = .next { s with ign := true }) ∧
    State.reset.params.pCfgWrites = .taken ∧
    (¬ ignoring →
      exec (.wrFrameDim d) s = .next { s with frameDim := d } ∧
      exec (.wrFrameCfg d) s = .next { s with frameCfg := d &&& 0x0000FFFF#32 } ∧
      exec (.wrFcomp0 d) s = .next { s with fcomp := s.fcomp.set 0 (d &&& 0x00FFFFFF#32) } ∧
      exec (.wrFcomp1 d) s = .next { s with fcomp := s.fcomp.set 1 (d &&& 0x00FFFFFF#32) } ∧
      exec (.wrFcomp2 d) s = .next { s with fcomp := s.fcomp.set 2 (d &&& 0x00FFFFFF#32) } ∧
      exec (.wrFcomp3 d) s = .next { s with fcomp := s.fcomp.set 3 (d &&& 0x00FFFFFF#32) } ∧
      exec (.wrScanCfg d) s = .next { s with scanCfg := d &&& 0x000000FF#32 } ∧
      (∀ j : Fin 4, exec (.wrScomp j d) s = .next { s with scomp := s.scomp.set j.val (d &&& 0x0000FFFF#32) }) ∧
      exec (.wrInBase d) s = .next { s with inBase := d } ∧
      exec (.wrInLen d) s = .next { s with inLen := d } ∧
      exec (.wrOutBase d) s = .next { s with outBase := d })

/-- WR of a staging entry, in every state: the entry takes the low bits of the data, every other entry of every staging
RAM reads as before, and nothing else changes (40 R105, R106; 10 R36, R37). -/
def Obligations.StagingWritesReadBack : Prop :=
  ∀ (s : State) (d : Word),
    (∀ (t : Fin 8) (i : Fin 16), ∃ ram, exec (.wrHtBits t i d) s = .next { s with htBits := ram } ∧
      ∀ (t' : Fin 8) (i' : Fin 16), stagedCountOf { s with htBits := ram } t' i'.val =
        if t' = t ∧ i' = i then d.extractLsb' 0 8 else stagedCountOf s t' i'.val) ∧
    (∀ (t : Fin 8) (v : Fin 256), ∃ ram, exec (.wrHtVal t v d) s = .next { s with htVal := ram } ∧
      ∀ (t' : Fin 8) (v' : Fin 256), stagedValueOf { s with htVal := ram } t' v'.val =
        if t' = t ∧ v' = v then d.extractLsb' 0 8 else stagedValueOf s t' v'.val) ∧
    (∀ (q : Fin 4) (k : Fin 64), ∃ ram, exec (.wrQtRam q k d) s = .next { s with qtRam := ram } ∧
      ∀ (q' : Fin 4) (k' : Fin 64), stagedQuantOf { s with qtRam := ram } q' k'.val =
        if q' = q ∧ k' = k then d.extractLsb' 0 16 else stagedQuantOf s q' k'.val)

/-! ### Commands (40 R109 to R128) -/

/-- WR CMD runs the command its word decodes to, as an event or through the register, and it always completes, but for
the START of a launch in IDLE, which the model refuses when a memory premise is broken (40 R102, R109; 10 R23; log 14). -/
def Obligations.CommandWriteRunsTheCommand : Prop :=
  ∀ (s : State) (w : Word),
    (∀ i : Instr, decode (.cmd w) = .ok i → exec (.wrCmd w) s = exec i s) ∧
    (s.seq ≠ .idle ∨ w ≠ 0x01000000#32 → ∃ t, exec (.wrCmd w) s = .next t) ∧
    (cmdOp w = 0x00#8 → exec (.wrCmd w) s = .next s)

/-- The acceptance matrix: NOP changes nothing in any state; ACK in DONE or ERROR returns to IDLE and clears IGN, and has
no effect in IDLE; a command the state does not accept sets IGN and has no other effect, whatever its argument bits (40
R109, R110, R125; 60 R225 item 1, R228; 70 R250). -/
def Obligations.CommandsAreAcceptedByState : Prop :=
  ∀ (s : State) (arg : BitVec 24) (qt : Bool) (op a8 : Byte) (argh : Half),
    exec (.nop arg) s = .next s ∧
    (s.seq = .done ∨ s.seq = .error → exec (.ack arg) s = .next { s with seq := .idle, ign := false }) ∧
    (s.seq = .idle → exec (.ack arg) s = .next s) ∧
    (s.seq = .busy → exec (.ack arg) s = .next { s with ign := true }) ∧
    (s.seq ≠ .idle → ∀ i ∈ [Instr.start, .htCommit a8, .qtCommit a8, .illegalStart arg, .illegalCommit qt argh a8,
      .reserved op argh a8], exec i s = .next { s with ign := true })

/-- In IDLE a reserved or illegal command word takes the error IllegalCommand, with the opcode and the reason in ERRINFO,
and changes nothing else (40 R128, 60 R222). -/
def Obligations.IllegalCommandsRaiseInIdle : Prop :=
  ∀ (s : State) (arg : BitVec 24) (op a8 : Byte) (argh : Half), s.seq = .idle →
    exec (.illegalStart arg) s = .next { s with
      errcode := 8#4, errinfo := 0x04000101#32, errpos := 0#32, seq := .error } ∧
    exec (.illegalCommit false argh a8) s = .next { s with
      errcode := 8#4, errinfo := 0x04000110#32, errpos := 0#32, seq := .error } ∧
    exec (.illegalCommit true argh a8) s = .next { s with
      errcode := 8#4, errinfo := 0x04000111#32, errpos := 0#32, seq := .error } ∧
    exec (.reserved op argh a8) s = .next { s with
      errcode := 8#4, errinfo := 0x040000#24 ++ op, errpos := 0#32, seq := .error }

/-- ABORT returns to IDLE in every state. In BUSY it stops the decode: INPOS, MCUCNT, PRED, MKR_VALID, MKR and every byte
of the output range take free values, every byte outside the output range and everything else stays; in every other
state only STATE changes (40 R124, 93 S5, S6). The free values are opaque, so this holds for every value of them. -/
def Obligations.AbortStopsTheDecode : Prop :=
  ∀ (s : State) (arg : BitVec 24), Memory.wf s.mem →
    (s.seq ≠ .busy → exec (.abort arg) s = .next { s with seq := .idle }) ∧
    (s.seq = .busy → ∃ (mem : List Host.Cell) (draws : Nat),
      exec (.abort arg) s = .next { s with
        seq := .idle, inpos := Config.freeWord s.draws, mcucnt := Config.freeWord (s.draws + 1)
        pred := #v[Config.freeHalf (s.draws + 2), Config.freeHalf (s.draws + 3), Config.freeHalf (s.draws + 4),
          Config.freeHalf (s.draws + 5)]
        mkrValid := Config.freeBit (s.draws + 6), mkr := Config.freeByte (s.draws + 7), mem := mem, draws := draws } ∧
      s.draws < draws ∧ Memory.wf mem ∧
      (∀ o < outSize s, ∃ n, s.draws ≤ n ∧ n < draws ∧ Memory.read mem (addrAt s.outBase o) = Config.freeByte n) ∧
      (∀ a, (∀ o < outSize s, a ≠ addrAt s.outBase o) → Memory.read mem a = Memory.read s.mem a))

/-- START in IDLE, checks 1 to 5 on the frame registers, in order, the first failure raised with its code, check number
and unit; a failed check touches no memory (40 R111 to R116, 60 R225 item 2). -/
def Obligations.StartRefusesABadFrame : Prop :=
  ∀ s : State, s.seq = .idle →
    (¬ Pass1 s → StartFails s 3#4 1#8 0#8) ∧
    (Pass1 s → ¬ Pass2 s → StartFails s 3#4 2#8 (BitVec.ofNat 8 (frameNf s))) ∧
    (Pass1 s → Pass2 s → ¬ Pass3 s → StartFails s 3#4 3#8 0#8) ∧
    (Pass1 s → Pass2 s → Pass3 s → ∀ c : Fin 4, c.val < frameNf s → ¬ IdNew s c → (∀ d < c, IdNew s d) →
      StartFails s 1#4 4#8 (BitVec.ofNat 8 c.val)) ∧
    (Pass1 s → Pass2 s → Pass3 s → Pass4 s → ∀ c : Fin 4, c.val < frameNf s → ¬ Unsampled s c →
      (∀ d < c, Unsampled s d) → StartFails s 3#4 5#8 (BitVec.ofNat 8 c.val))

/-- START in IDLE, checks 6 to 10 on the table ids, the scan registers and the tables, in order: within one component the
DC table comes before the AC table and the AC table before the quantization table (40 R117 to R121). -/
def Obligations.StartRefusesABadScanOrMissingTable : Prop :=
  ∀ s : State, s.seq = .idle → Pass1 s → Pass2 s → Pass3 s → Pass4 s → Pass5 s →
    (∀ c : Fin 4, c.val < frameNf s → 3 < fcompTq s c → (∀ d < c, fcompTq s d ≤ 3) →
      StartFails s 4#4 6#8 (BitVec.ofNat 8 c.val)) ∧
    (Pass6 s → scanNs s < 1 ∨ 4 < scanNs s → StartFails s 1#4 7#8 (BitVec.ofNat 8 (scanNs s))) ∧
    (Pass6 s → 1 ≤ scanNs s → scanNs s ≤ 4 → scanNs s ≠ frameNf s →
      StartFails s 3#4 7#8 (BitVec.ofNat 8 (scanNs s))) ∧
    (Pass6 s → Pass7 s → ∀ j : Fin 4, j.val < scanNs s → ¬ Named s j → (∀ i < j, Named s i) →
      StartFails s 1#4 8#8 (BitVec.ofNat 8 j.val)) ∧
    (Pass6 s → Pass7 s → Pass8 s → ∀ j : Fin 4, j.val < scanNs s → ¬ IdsSmall s j → (∀ i < j, IdsSmall s i) →
      StartFails s 4#4 9#8 (BitVec.ofNat 8 j.val)) ∧
    (Pass6 s → Pass7 s → Pass8 s → Pass9 s → ∀ j : Fin 4, j.val < scanNs s → (∀ i < j, TablesPresent s i) →
      (¬ DcPresent s j → StartFails s 6#4 10#8 (BitVec.ofNat 8 j.val)) ∧
      (DcPresent s j → ¬ AcPresent s j → StartFails s 6#4 10#8 (BitVec.ofNat 8 (0x10 + j.val))) ∧
      (DcPresent s j → AcPresent s j → ¬ QtPresent s j → StartFails s 6#4 10#8 (BitVec.ofNat 8 (0x20 + j.val))))

/-- START in IDLE, check 11 on the address ranges, with exact sums; and a launch whose ranges overlap each other or the
register window is refused (40 R122, 20 R74, 93 S10; log 14). -/
def Obligations.StartRefusesBadRanges : Prop :=
  ∀ s : State, s.seq = .idle → SetupPasses s →
    (2 ^ 32 < s.inBase.toNat + s.inLen.toNat → StartFails s 9#4 11#8 0#8) ∧
    (s.inBase.toNat + s.inLen.toNat ≤ 2 ^ 32 → 2 ^ 32 < s.outBase.toNat + frameX s * frameY s * frameNf s →
      StartFails s 9#4 11#8 1#8) ∧
    (Pass11 s → ¬ RangesApart s →
      exec .start s = .refused .rangesOverlap ∨ exec .start s = .refused .windowOverlap)

/-- START in IDLE with every check passed and the memory premises kept: BUSY, the result registers and predictors
cleared, the destuffer reset, the cursor 0 and the position at the first DC term; everything else is unchanged (40 R111,
R123; 10 R40, R41; 41 R141). The model's own fields: `sub` is 0, and `before` holds memory as it stands (log 15, 22). -/
def Obligations.StartLaunchesTheDecode : Prop :=
  ∀ s : State, s.seq = .idle → SetupPasses s → Pass11 s → RangesApart s →
    exec .start s = .next { s with
      ign := false, mkrValid := false, mkr := 0#8, errcode := 0#4, errinfo := 0#32, errpos := 0#32
      inpos := 0#32, mcucnt := 0#32, pred := Vector.replicate 4 0#16
      seq := .busy, ip := 0, dbits := [], src := [], endRec := ⟨false, 0, false, 0#8⟩, cur := 0, c0 := 0
      m := 0, j := 0, k := 0, phase := .dc, sub := 0, stalled := false, before := s.mem }

/-- HT_COMMIT in IDLE: a bad header or a table id above 3 is MalformedTable with the operand byte as unit; otherwise the
staged entries are built, a failed build clears the table's valid bit and is MalformedTable with the build's detail, and
a built table is active and valid. Nothing else changes (40 R126, 30 R84). -/
def Obligations.HuffmanCommitBuildsTheTable : Prop :=
  ∀ (s : State) (mbz : BitVec 3) (tc : BitVec 1) (th : BitVec 4), s.seq = .idle →
    let a8 : Byte := mbz ++ tc ++ th
    let t : Fin 8 := Fin.ofNat 8 (4 * tc.toNat + th.toNat)
    let r := build ((List.range 16).map (stagedCountOf s t)) ((List.range 256).map (stagedValueOf s t))
    (mbz ≠ 0#3 → exec (.htCommit a8) s = .next { s with
      errcode := 4#4, errinfo := 0x020001#24 ++ a8, errpos := 0#32, seq := .error }) ∧
    (mbz = 0#3 → 3 < th.toNat → exec (.htCommit a8) s = .next { s with
      errcode := 4#4, errinfo := 0x020002#24 ++ a8, errpos := 0#32, seq := .error }) ∧
    (mbz = 0#3 → th.toNat ≤ 3 → ∀ d, r = .error d → exec (.htCommit a8) s = .next { s with
      htAct := s.htAct.set t.val { s.htAct.get t with valid := false }
      errcode := 4#4, errinfo := 0x0200#16 ++ d ++ BitVec.ofNat 8 t.val, errpos := 0#32, seq := .error }) ∧
    (mbz = 0#3 → th.toNat ≤ 3 → ∀ u, r = .ok u →
      u.valid = true ∧ exec (.htCommit a8) s = .next { s with htAct := s.htAct.set t.val u })

/-- QT_COMMIT in IDLE: a precision above 1, a table id above 3 or an 8-bit table with an entry above 255 is
MalformedTable (the last one clears the valid bit); otherwise the 64 staged entries become the active table, valid, with
their precision. Nothing else changes (40 R127, 30 R85). -/
def Obligations.QuantCommitTakesTheTable : Prop :=
  ∀ (s : State) (pq tq : BitVec 4), s.seq = .idle →
    let a8 : Byte := pq ++ tq
    let q : Fin 4 := Fin.ofNat 4 tq.toNat
    (1 < pq.toNat → exec (.qtCommit a8) s = .next { s with
      errcode := 4#4, errinfo := 0x020001#24 ++ a8, errpos := 0#32, seq := .error }) ∧
    (pq.toNat ≤ 1 → 3 < tq.toNat → exec (.qtCommit a8) s = .next { s with
      errcode := 4#4, errinfo := 0x020002#24 ++ a8, errpos := 0#32, seq := .error }) ∧
    (pq = 0#4 → tq.toNat ≤ 3 → (∃ k : Fin 64, 255 < (stagedQuantOf s q k.val).toNat) →
      exec (.qtCommit a8) s = .next { s with
        qtAct := s.qtAct.set q.val { s.qtAct.get q with valid := false }
        errcode := 4#4, errinfo := 0x020003#24 ++ 0#4 ++ tq, errpos := 0#32, seq := .error }) ∧
    (pq.toNat ≤ 1 → tq.toNat ≤ 3 → (pq = 0#4 → ∀ k : Fin 64, (stagedQuantOf s q k.val).toNat ≤ 255) →
      ∃ u : QtTable, exec (.qtCommit a8) s = .next { s with qtAct := s.qtAct.set q.val u } ∧
        u.valid = true ∧ (u.precision = .bits8 ↔ pq = 0#4) ∧ ∀ k : Fin 64, u.q.get k = stagedQuantOf s q k.val)

/-! ### Errors (60) -/

/-- Error entry writes ERRCODE (the number of the code, 60 R221), ERRINFO (the number of the origin, 60 R222, with DETAIL and
UNIT), ERRPOS and STATE. For an error of a START check, a commit or an illegal command nothing else changes. For one during
a decode, which is one of origin 3 or 5, INPOS, MKR_VALID and MKR take what the lazy destuffing left, every byte of the
output range takes a free value, and every other byte and everything else stays (60 R221, R222, R224). The free values are
opaque, so this holds for every value of them. -/
def Obligations.ErrorEntryRecordsTheError : Prop :=
  [ErrorCode.malformedHeader, .truncated, .unsupportedFeature, .malformedTable, .corruptBitstream, .missingTable, .overflow,
    .illegalCommand, .addressRange, .busError].map ErrorCode.num = [1#4, 2#4, 3#4, 4#4, 5#4, 6#4, 7#4, 8#4, 9#4, 10#4] ∧
  [Origin.startCheck, .tableCommit, .decode, .illegalCommand, .dma].map Origin.num = [1#8, 2#8, 3#8, 4#8, 5#8] ∧
  ∀ (e : Err) (s : State), Memory.wf s.mem →
    (e.origin = .startCheck ∨ e.origin = .tableCommit ∨ e.origin = .illegalCommand → raiseErr e s = { s with
      errcode := e.code.num, errinfo := e.origin.num ++ 0#8 ++ e.detail ++ e.unit, errpos := e.pos, seq := .error }) ∧
    (e.origin = .decode ∨ e.origin = .dma → ∃ (mem : List Host.Cell) (draws : Nat), raiseErr e s = { s with
        errcode := e.code.num, errinfo := e.origin.num ++ 0#8 ++ e.detail ++ e.unit, errpos := e.pos, seq := .error
        inpos := BitVec.ofNat 32 s.ip
        mkrValid := if s.endRec.ended then s.endRec.marker else false
        mkr := if s.endRec.ended then s.endRec.mbyte else 0#8
        mem := mem, draws := draws } ∧
      Memory.wf mem ∧
      (∀ o < outSize s, ∃ n, s.draws ≤ n ∧ n < draws ∧ Memory.read mem (addrAt s.outBase o) = Config.freeByte n) ∧
      (∀ a, (∀ o < outSize s, a ≠ addrAt s.outBase o) → Memory.read mem a = Memory.read s.mem a))

/-! ### Bit destuffer (41) -/

/-- One destuffer step, case by case on the input bytes at ip and ip + 1, when the platform does not reject the reads the case
needs: none at the end of the input, that of ip, and after a 0xFF that is not the last byte that of ip + 1. What the platform
says of any other byte does not matter (41 R141, R142, R146; 60 R225). -/
def Obligations.DestufferStepFollowsTheBytes : Prop :=
  ∀ s : State, s.inBase.toNat + s.inLen.toNat ≤ 2 ^ 32 →
    let readable (i : Nat) : Prop := i < s.inLen.toNat ∧ busRejects s false (s.inBase.toNat + i) = false
    let b := Memory.read s.mem (s.inBase.toNat + s.ip)
    let c := Memory.read s.mem (s.inBase.toNat + s.ip + 1)
    (s.inLen.toNat ≤ s.ip → dstep s = .ok () { s with endRec := ⟨true, s.inLen.toNat, false, 0#8⟩ }) ∧
    (readable s.ip → b ≠ 0xFF#8 → dstep s = .ok () { s with
      dbits := s.dbits ++ [b.getLsbD 7, b.getLsbD 6, b.getLsbD 5, b.getLsbD 4, b.getLsbD 3, b.getLsbD 2, b.getLsbD 1,
        b.getLsbD 0]
      src := s.src ++ [s.ip], ip := s.ip + 1 }) ∧
    (readable s.ip → b = 0xFF#8 → s.inLen.toNat ≤ s.ip + 1 →
      dstep s = .ok () { s with endRec := ⟨true, s.ip, false, 0#8⟩ }) ∧
    (readable s.ip → readable (s.ip + 1) → b = 0xFF#8 → c = 0x00#8 → dstep s = .ok () { s with
      dbits := s.dbits ++ List.replicate 8 true, src := s.src ++ [s.ip], ip := s.ip + 2 }) ∧
    (readable s.ip → readable (s.ip + 1) → b = 0xFF#8 → c ≠ 0x00#8 →
      dstep s = .ok () { s with endRec := ⟨true, s.ip, true, c⟩ })

/-- A rejected read of input offset i: with P_BUS = ERROR the error BusError with ERRPOS = i, with P_BUS = STALL the
access never completes; either way nothing is read. A destuffer step stops so at ip when the read of ip is rejected, and at
ip + 1 when the byte at ip is 0xFF and the read of ip + 1, inside the input, is rejected; it stops in no other case, so a
rejected byte that the step does not need is not reported (41 R140, R141; 20 R66; 60 R222, R223, R225). -/
def Obligations.RejectedReadIsABusError : Prop :=
  (∀ (s : State) (i : Nat), s.inBase.toNat + i < 2 ^ 32 →
    (busRejects s false (s.inBase.toNat + i) = true → s.params.pBus = .error →
      inputByte i s = .err ⟨.busError, .dma, 0#8, 0#8, BitVec.ofNat 32 i⟩ s) ∧
    (busRejects s false (s.inBase.toNat + i) = true → s.params.pBus = .stall → inputByte i s = .stall s) ∧
    (busRejects s false (s.inBase.toNat + i) = false →
      inputByte i s = .ok (Memory.read s.mem (s.inBase.toNat + i)) s)) ∧
  ∀ s : State, s.inBase.toNat + s.inLen.toNat ≤ 2 ^ 32 →
    let rejected (i : Nat) : Prop := i < s.inLen.toNat ∧ busRejects s false (s.inBase.toNat + i) = true
    let stopsAt (i : Nat) : Prop :=
      (s.params.pBus = .error → dstep s = .err ⟨.busError, .dma, 0#8, 0#8, BitVec.ofNat 32 i⟩ s) ∧
      (s.params.pBus = .stall → dstep s = .stall s)
    let first := rejected s.ip
    let second := ¬ first ∧ Memory.read s.mem (s.inBase.toNat + s.ip) = 0xFF#8 ∧ rejected (s.ip + 1)
    (first → stopsAt s.ip) ∧
    (second → stopsAt (s.ip + 1)) ∧
    (¬ first → ¬ second → ∃ t, dstep s = .ok () t)

/-- FILL takes destuffer steps until D holds n bits past the cursor or the data has ended, and not one more; PEEK then
gives the next n bits or the error of the end of the data; READ gives them as a number and moves the cursor past them
(41 R143). -/
def Obligations.BitReadsFillAsNeeded : Prop :=
  ∀ (s : State) (n : Nat),
    (s.cur + n ≤ s.dbits.length ∨ s.endRec.ended = true → fill n s = .ok () s) ∧
    (s.dbits.length < s.cur + n → s.endRec.ended = false →
      (∀ u, dstep s = .ok () u → fill n s = fill n u) ∧
      (∀ e u, dstep s = .err e u → fill n s = .err e u) ∧
      (∀ u, dstep s = .stall u → fill n s = .stall u)) ∧
    (s.cur + n ≤ s.dbits.length → peek n s = .ok ((s.dbits.drop s.cur).take n) s ∧
      readBits n s = .ok (bitsAtCursor n s) { s with cur := s.cur + n }) ∧
    (∀ u, fill n s = .ok () u → peek n s = peek n u ∧ (n ≠ 0 → readBits n s = readBits n u)) ∧
    (∀ e u, fill n s = .err e u → peek n s = .err e u ∧ (n ≠ 0 → readBits n s = .err e u)) ∧
    (∀ u, fill n s = .stall u → peek n s = .stall u ∧ (n ≠ 0 → readBits n s = .stall u)) ∧
    readBits 0 s = .ok 0 s

/-- A read that needs more bits than an ended D holds fails: UnsupportedFeature when the data ended at a restart marker
0xFF 0xD0..0xD7, else Truncated, at the offset where the data ended; D is not padded and the cursor does not move (41
R143, R144). -/
def Obligations.EndOfDataInsideAFieldFails : Prop :=
  ∀ (s : State) (n : Nat), s.endRec.ended = true → s.dbits.length < s.cur + n → n ≠ 0 →
    let restart := s.endRec.marker = true ∧ 0xD0 ≤ s.endRec.mbyte.toNat ∧ s.endRec.mbyte.toNat ≤ 0xD7
    let err (code : ErrorCode) : Err :=
      ⟨code, .decode, BitVec.ofNat 8 s.k, BitVec.ofNat 8 s.j.val, BitVec.ofNat 32 s.endRec.pos⟩
    (restart → peek n s = .err (err .unsupportedFeature) s ∧ readBits n s = .err (err .unsupportedFeature) s) ∧
    (¬ restart → peek n s = .err (err .truncated) s ∧ readBits n s = .err (err .truncated) s)

/-! ### Code matcher (42) -/

/-- BUILD succeeds exactly when there are at most 256 codes and the codes of every length fit it; too many codes fail
with 3, a code that does not fit with 4. A built table keeps the counts and the first N values, and its maxlen is the
greatest length with a code (42 R150, R152, R153). -/
def Obligations.BuildSucceedsWhenTheCodesFit : Prop :=
  ∀ bits vals : List Byte, bits.length = 16 →
    let n := (bits.map BitVec.toNat).sum
    (256 < n → build bits vals = .error 3#8) ∧
    (n ≤ 256 → (∃ b, 1 ≤ b ∧ b ≤ 16 ∧ ¬ CodesFit bits b) → build bits vals = .error 4#8) ∧
    (n ≤ 256 → (∀ b, 1 ≤ b → b ≤ 16 → CodesFit bits b) → ∃ t, build bits vals = .ok t ∧
      t.valid = true ∧ t.bits = bits ∧ t.vals = vals.take n ∧ t.maxlen ≤ 16 ∧
      (∀ b, 1 ≤ b → b ≤ 16 → codeCount bits b ≠ 0 → b ≤ t.maxlen) ∧
      (t.maxlen ≠ 0 → codeCount bits t.maxlen ≠ 0))

/-- The canonical assignment: in order of length, the e-th code of length b is the number firstCode + e and decodes to
the next value of the list; there are N codes (42 R150, R151, R154 items 1 and 3). -/
def Obligations.BuiltCodesAreCanonical : Prop :=
  ∀ (bits vals : List Byte) (t : HtTable), bits.length = 16 → vals.length = 256 → build bits vals = .ok t →
    t.codes.length = (bits.map BitVec.toNat).sum ∧
    ∀ b e, 1 ≤ b → b ≤ 16 → e < codeCount bits b →
      t.codes[shorterCodes bits b + e]? =
        some ⟨b, firstCode bits b + e, vals.getD (shorterCodes bits b + e) 0#8⟩

/-- No code of a built table is a prefix of another one, every code fits its length, and no length is above maxlen (42
R154 item 2, R152, R153). -/
def Obligations.BuiltCodesArePrefixFree : Prop :=
  ∀ (bits vals : List Byte) (t : HtTable), bits.length = 16 → build bits vals = .ok t →
    (∀ c ∈ t.codes, 1 ≤ c.len ∧ c.len ≤ t.maxlen ∧ t.maxlen ≤ 16 ∧ c.code < 2 ^ c.len) ∧
    (∀ (p q : Nat) (c c' : Code), t.codes[p]? = some c → t.codes[q]? = some c' → p ≠ q → c.len ≤ c'.len →
      c'.code / 2 ^ (c'.len - c.len) ≠ c.code)

/-- MATCH with a built table finds the code that D continues with, whatever the code: its value, with the cursor just past
it and nothing else changed but the record of where the code started (42 R156, R157). -/
def Obligations.MatchFindsTheCode : Prop :=
  ∀ (s : State) (t : HtTable) (c : Code), TableBuilt t → t.valid = true → c ∈ t.codes →
    s.cur + c.len ≤ s.dbits.length → CodeAtCursor c s →
    matchCode t s = .ok c.value { s with c0 := s.cur, cur := s.cur + c.len }

/-- Where no code of D from the cursor on matches: with maxlen bits there MATCH fails with CorruptBitstream at the start
of the code (at once for an empty table), with fewer bits and the data ended it fails with the error of the end of the
data, both with the cursor unmoved, and with fewer bits and more data it goes on after one destuffer step (42 R156, R157;
41 R147). -/
def Obligations.MatchFailsOrReadsOn : Prop :=
  ∀ (s : State) (t : HtTable), TableBuilt t → t.valid = true → s.cur ≤ s.dbits.length →
    (∀ c ∈ t.codes, s.cur + c.len ≤ s.dbits.length → ¬ CodeAtCursor c s) →
    (s.cur + t.maxlen ≤ s.dbits.length →
      matchCode t s = .err (termError .corruptBitstream { s with c0 := s.cur }) { s with c0 := s.cur }) ∧
    (s.dbits.length < s.cur + t.maxlen → s.endRec.ended = true →
      ∃ e, peek (s.dbits.length - s.cur + 1) { s with c0 := s.cur } = .err e { s with c0 := s.cur } ∧
        matchCode t s = .err e { s with c0 := s.cur }) ∧
    (s.dbits.length < s.cur + t.maxlen → s.endRec.ended = false →
      (∀ u, dstep { s with c0 := s.cur } = .ok () u → matchCode t s = matchCode t u) ∧
      (∀ e u, dstep { s with c0 := s.cur } = .err e u → matchCode t s = .err e u) ∧
      (∀ u, dstep { s with c0 := s.cur } = .stall u → matchCode t s = .stall u))

/-! ### Entropy decoder (43) -/

/-- EXTEND: 0 for no bits, the number itself when its high bit is 1, else the value of the chosen complement; in the range
of its size, so that it fits 16 bits (43 R160, R161). -/
def Obligations.ExtendGivesTheSignedValue : Prop :=
  ∀ (mode : PExtend) (v n : Nat), n ≤ 15 → v < 2 ^ n →
    (n = 0 → extend mode v n = 0) ∧
    (1 ≤ n → 2 ^ (n - 1) ≤ v → extend mode v n = v ∧ (2 : Int) ^ (n - 1) ≤ extend mode v n ∧
      extend mode v n ≤ 2 ^ n - 1) ∧
    (1 ≤ n → v < 2 ^ (n - 1) → mode = .negComplement → extend mode v n = (v : Int) - 2 ^ n + 1 ∧
      -((2 : Int) ^ n - 1) ≤ extend mode v n ∧ extend mode v n ≤ -(2 ^ (n - 1))) ∧
    (1 ≤ n → v < 2 ^ (n - 1) → mode = .bitNot → extend mode v n = -(v : Int) - 1 ∧
      -((2 : Int) ^ (n - 1)) ≤ extend mode v n ∧ extend mode v n ≤ -1) ∧
    -32767 ≤ extend mode v n ∧ extend mode v n ≤ 32767

/-- A symbol with additional bits first has D filled: with bits still to destuff it acts as in the state that FILL leaves,
and an error or a wait of FILL, or the end of the data, ends it (43 R162, R168; 41 R143). A symbol outside its phase is
refused (the model's choice, log 19). -/
def Obligations.SymbolsFillTheirBitsFirst : Prop :=
  ∀ (s : State) (r n : BitVec 4), n ≠ 0#4 →
    let runs (p : Phase) (i : Instr) : Prop :=
      (s.seq ≠ .busy ∨ s.phase ≠ p → exec i s = .refused .symbolOutsideDecode) ∧
      (s.seq = .busy → s.phase = p → (p = .ac → s.k + r.toNat ≤ 63) →
        (∀ u, fill n.toNat s = .ok () u → exec i s = exec i u) ∧
        (∀ e u, fill n.toNat s = .err e u → exec i s = .next (raiseErr e u)) ∧
        (∀ u, fill n.toNat s = .stall u → exec i s = .next { u with stalled := true }) ∧
        (s.endRec.ended = true → s.dbits.length < s.cur + n.toNat →
          ∃ e, peek n.toNat s = .err e s ∧ exec i s = .next (raiseErr e s)))
    runs .dc (.dcSize n) ∧ runs .ac (.runSize r n)

/-- A DC term whose additional bits are in D: the difference EXTEND of the bits is added to the component's predictor
exactly; a sum in 16 bits becomes the predictor and coefficient 0, and the AC terms follow at k = 1; a sum outside raises
Overflow with the predictor unchanged. DC_SIZE0 reads no bits and has the difference 0. Nothing else changes. A DC size
above 15 is CorruptBitstream, before any additional bit is read (43 R162, R163, R171). -/
def Obligations.DcTermAddsTheDifference : Prop :=
  ∀ (s : State) (n : BitVec 4), s.seq = .busy → s.phase = .dc → s.cur + n.toNat ≤ s.dbits.length →
    let u : State := { s with cur := s.cur + n.toNat }
    let p : Int := (s.pred.get s.j).toInt + extend s.params.pExtend (bitsAtCursor n.toNat s) n.toNat
    let term (i : Instr) : Prop :=
      (-32768 ≤ p → p ≤ 32767 → ∃ x : Half, x.toInt = p ∧ exec i s = .next { u with
        pred := s.pred.set s.j.val x, zz := s.zz.set s.j.val ((s.zz.get s.j).set 0 x), phase := .ac, k := 1 }) ∧
      (p < -32768 ∨ 32767 < p → exec i s = .next (raiseErr (termError .overflow u) u))
    term (.dcSize n) ∧ (n = 0#4 → term .dcSize0) ∧
      ∀ b, exec (.dcBad b) s = .next (raiseErr (termError .corruptBitstream s) s)

/-- EOB ends the block with the rest of its coefficients as they were cleared, and reads nothing; ZRL skips 16 positions,
ends the block when it reaches position 63, and is CorruptBitstream when it would pass it (43 R166, R167, R169). -/
def Obligations.EndOfBlockAndZeroRuns : Prop :=
  ∀ s : State, s.seq = .busy → s.phase = .ac →
    exec .eob s = .next (blockDone s) ∧
    (s.k + 15 ≤ 63 → exec .zrl s = .next (positionAt (s.k + 16) s)) ∧
    (63 < s.k + 15 → exec .zrl s = .next (raiseErr (termError .corruptBitstream s) s))

/-- An AC term of run r and size n whose additional bits are in D: the value EXTEND of the bits goes to position k + r,
the positions before it stay 0, and the next position follows, or the block ends when position 63 is filled; a position
past 63 is CorruptBitstream before any bit is read. RUN_ZERO places the value 0 and reads nothing. Nothing else changes
(43 R168, R169, R170). -/
def Obligations.AcTermPlacesTheValueAfterTheRun : Prop :=
  ∀ (s : State) (r n : BitVec 4), s.seq = .busy → s.phase = .ac →
    let term (i : Instr) : Prop :=
      (63 < s.k + r.toNat → exec i s = .next (raiseErr (termError .corruptBitstream s) s)) ∧
      (∀ pos : Fin 64, s.k + r.toNat = pos.val → s.cur + n.toNat ≤ s.dbits.length → ∃ x : Half,
        x.toInt = extend s.params.pExtend (bitsAtCursor n.toNat s) n.toNat ∧
        exec i s = .next (positionAt (pos.val + 1)
          { s with cur := s.cur + n.toNat, zz := s.zz.set s.j.val ((s.zz.get s.j).set pos.val x) }))
    term (.runSize r n) ∧ (n = 0#4 → term (.runZero r))

/-! ### Reconstruction (44, 45, 46) -/

/-- DEQUANT: with any permutation table, the coefficient of zigzag position k goes to its natural index, multiplied by
the entry of the same frequency (FREQ) or of the same index (INDEX), exactly and in 32 bits. The defaults are what
State.reset's parameters hold: FREQ, and a table that is a permutation with the inverse of 44 R180, row by row (44 R180, R181,
R182; 00 R9). -/
def Obligations.DequantizerUndoesTheZigzag : Prop :=
  State.reset.params.pDeqAlign = .freq ∧ Injective State.reset.params.pZigzag ∧
  (List.finRange 64).map (fun n => State.reset.params.pZigzag.toList.idxOf n) =
    [ 0,  1,  5,  6, 14, 15, 27, 28] ++ [ 2,  4,  7, 13, 16, 26, 29, 42] ++ [ 3,  8, 12, 17, 25, 30, 41, 43] ++
    [ 9, 11, 18, 24, 31, 40, 44, 53] ++ [10, 19, 23, 32, 39, 45, 52, 54] ++ [20, 22, 33, 38, 46, 51, 55, 60] ++
    [21, 34, 37, 47, 50, 56, 59, 61] ++ [35, 36, 48, 49, 57, 58, 62, 63] ∧
  ∀ (p : Params) (zz q : Vector Half 64) (k : Fin 64), Injective p.pZigzag →
    let n := p.pZigzag.get k
    (p.pDeqAlign = .freq → (dequant p zz q).get n = (zz.get k).toInt * (q.get k).toNat) ∧
    (p.pDeqAlign = .index → (dequant p zz q).get n = (zz.get k).toInt * (q.get n).toNat) ∧
    ((dequant p zz q).get n).natAbs ≤ 2147450880

/-- The inverse DCT is the exact real sum of 45 R190, rounded once toward zero, for both exact readings; under IMPL every
sample is an integer within 1 of the exact value, whatever the free choice is (45 R190, R191). -/
def Obligations.InverseDctIsTheExactSum : Prop :=
  ∀ (F : Vector Int 64) (x y : Fin 8) (r : ℝ),
    (IsIdctSum (1 / √2) F x y r →
      IsTrunc r ((idct .t81Exact F).get (sampleIndex x y)) ∧
      |((idct .impl F).get (sampleIndex x y) : ℝ) - r| ≤ 1) ∧
    (IsIdctSum (1 / 2) F x y r → IsTrunc r ((idct .literalSeparableExact F).get (sampleIndex x y)))

/-- A block with only a DC term is flat: a truncated eighth of it under T81_EXACT, a truncated sixteenth under
LITERAL_SEPARABLE_EXACT (45 R192 items 1 and 6, R193). -/
def Obligations.DcOnlyBlockIsFlat : Prop :=
  ∀ (F : Vector Int 64), (∀ n : Fin 64, n ≠ 0 → F.get n = 0) → ∀ i : Fin 64,
    (idct .t81Exact F).get i = (F.get 0).tdiv 8 ∧ (idct .literalSeparableExact F).get i = (F.get 0).tdiv 16

/-- Every sample of a block of coefficients that the dequantizer can give is below 2^35 in magnitude, so that it fits 37
bits (45 R194). -/
def Obligations.SamplesFitThirtySevenBits : Prop :=
  ∀ (mode : PIdct) (F : Vector Int 64), (∀ n : Fin 64, (F.get n).natAbs ≤ 2147450880) →
    ∀ i : Fin 64, ((idct mode F).get i).natAbs < 2 ^ 35

/-- The bytes of a pixel: R, G and B by the formulas of 46 R202 when NF = 3 and RGB_EN = 1, each truncated once, else the
level-shifted sample of every frame component in frame order; each byte clamped or wrapped as CTRL.SAT says. Under START's
checks 4, 7 and 8 every frame component c has exactly one scan component j with SCOMPj.CS = FCOMPc.C, channel c takes the
samples S[j], and component j takes the quantization table FCOMPc.TQ (46 R200 to R204, 40 R119, 44 R183). -/
def Obligations.PixelBytesFollowTheColourRules : Prop :=
  ∀ (s : State) (i : Fin 64),
    let sample (c : Fin 4) : Int := (s.sbuf.get (scOf s c)).get i
    let byte (v : Int) (b : Byte) : Prop :=
      (s.sat = true → (b.toNat : Int) = min (max v 0) 255) ∧ (s.sat = false → (b.toNat : Int) = v % 256)
    (Pass4 s → Pass7 s → Pass8 s → ∀ c : Fin 4, c.val < frameNf s →
      ∃ j : Fin 4, j.val < scanNs s ∧ scompId s j = fcompId s c ∧
        (∀ j' : Fin 4, j'.val < scanNs s → scompId s j' = fcompId s c → j' = j) ∧
        sample c = (s.sbuf.get j).get i ∧ quantTable s j = s.qtAct.get (Fin.ofNat 4 (fcompTq s c))) ∧
    (frameNf s = 3 → s.rgbEn = true → ∃ (r g b : Int) (o0 o1 o2 : Byte),
      pixelBytes s i = [o0, o1, o2] ∧ byte r o0 ∧ byte g o1 ∧ byte b o2 ∧
      IsTruncRat (sample 0 + 128 + 1402 * sample 2 / 1000) r ∧
      IsTruncRat (sample 0 + 128 + 1772 * sample 1 / 1000) b ∧
      (s.params.pCcG = .coherent → IsTruncRat ((1000 * (sample 0 + 128) - 114 * b - 299 * r) / 587) g) ∧
      (s.params.pCcG = .literal → IsTruncRat ((1000 * sample 0 - 114 * b - 299 * r) / 587) g)) ∧
    (frameNf s ≤ 4 → ¬ (frameNf s = 3 ∧ s.rgbEn = true) → (pixelBytes s i).length = frameNf s ∧
      ∀ c : Fin 4, c.val < frameNf s → ∃ o, (pixelBytes s i)[c.val]? = some o ∧ byte (sample c + 128) o)

/-- EMIT writes, for each sample of the MCU inside the frame and each channel c, the pixel's byte c at the offset
(y·X + x)·NF + c, and nothing else (46 R205, 43 R172). -/
def Obligations.EmitWritesThePixelsOfTheMcu : Prop :=
  ∀ (s : State) (o : Nat) (b : Byte),
    (o, b) ∈ emitList s ↔ ∃ (xx yy : Fin 8) (c : Nat),
      let x := 8 * (s.m % ((frameX s + 7) / 8)) + xx.val
      let y := 8 * (s.m / ((frameX s + 7) / 8)) + yy.val
      x < frameX s ∧ y < frameY s ∧ o = (y * frameX s + x) * frameNf s + c ∧
      (pixelBytes s (sampleIndex xx yy))[c]? = some b

/-- Over the MCUs of a frame that START accepts, every byte of the output range is written by exactly one MCU, once, and
no offset outside it is written (20 R64, 46 R206). -/
def Obligations.EveryOutputByteIsWrittenOnce : Prop :=
  ∀ s : State, frameNf s = 1 ∨ frameNf s = 3 ∨ frameNf s = 4 →
    (∀ m < mcuTotal s, ((emitList { s with m := m }).map Prod.fst).Nodup ∧
      ∀ o ∈ (emitList { s with m := m }).map Prod.fst, o < outSize s) ∧
    (∀ o < outSize s, ∃! m, m < mcuTotal s ∧ o ∈ (emitList { s with m := m }).map Prod.fst)

/-- RECON, from its start to its end, with nothing between its turns: every component is dequantized and transformed with
its own tables, every write of the MCU lands in order, every other byte stays, MCUCNT counts the MCU, and the next MCU or
the drain follows; the first rejected write ends in BusError at its offset, or never completes, with the writes before it
made and every other byte as it was (43 R171; 44 R183; 46 R205; 60 R223; 20 R66). The number of turns, with one for the end of
the MCU, is the model's choice (log 4), and so are `sub` and that j and k are 0 after the MCU (log 22). -/
def Obligations.ReconstructionWritesTheMcu : Prop :=
  ∀ s : State, s.seq = .busy → s.stalled = false → s.resetAsserted = false → startChecks s = none → s.phase = .recon →
    s.sub = 0 → s.agenda = [] → Memory.wf s.mem →
    (∃ (f S : Vector (Vector Int 64) 4),
      let u : State := { s with fbuf := f, sbuf := S }
      let written (mem : List Host.Cell) (ws : List (Nat × Byte)) : Prop := Memory.wf mem ∧
        (∀ w ∈ ws, Memory.read mem (s.outBase.toNat + w.1) = w.2) ∧
        (∀ a, (∀ w ∈ ws, a ≠ s.outBase.toNat + w.1) → Memory.read mem a = Memory.read s.mem a)
      (∀ j c : Fin 4, j.val < scanNs s → c.val < frameNf s → scompId s j = fcompId s c →
        f.get j = dequant s.params (s.zz.get j) (s.qtAct.get (Fin.ofNat 4 (fcompTq s c))).q ∧
        S.get j = idct s.params.pIdct (f.get j)) ∧
      (∀ j : Fin 4, scanNs s ≤ j.val → f.get j = s.fbuf.get j ∧ S.get j = s.sbuf.get j) ∧
      ((∀ w ∈ emitList u, busRejects s true (s.outBase.toNat + w.1) = false) → ∃ mem, written mem (emitList u) ∧
        core.run (scanNs s + (emitList u).length + 1) s = .next { u with
          mem := mem, mcucnt := BitVec.ofNat 32 (s.m + 1), m := s.m + 1, j := 0, k := 0, sub := 0
          phase := if s.m + 1 < mcuTotal s then .dc else .drain }) ∧
      (∀ (before after : List (Nat × Byte)) (o : Nat) (b : Byte), emitList u = before ++ (o, b) :: after →
        (∀ w ∈ before, busRejects s true (s.outBase.toNat + w.1) = false) →
        busRejects s true (s.outBase.toNat + o) = true → ∃ mem, written mem before ∧
        let v : State := { u with mem := mem, sub := scanNs s + before.length }
        (s.params.pBus = .error → core.run (scanNs s + before.length + 1) s =
          .next (raiseErr ⟨.busError, .dma, 0#8, 1#8, BitVec.ofNat 32 o⟩ v)) ∧
        (s.params.pBus = .stall → core.run (scanNs s + before.length + 1) s = .next { v with stalled := true })))

/-- The DRAIN turn: destuffer steps until the data has ended, then DONE with INPOS, MKR_VALID and MKR from the end record;
no bit is needed, so no Truncated is raised (41 R145; 43 R171, R174). That a turn is one destuffer step, and that the end of
the decode takes a turn of its own, is the model's choice (log 4). -/
def Obligations.DrainEndsInDone : Prop :=
  ∀ s : State, s.seq = .busy → s.stalled = false → s.resetAsserted = false → startChecks s = none → s.phase = .drain →
    (s.endRec.ended = true → turn s = .next { s with
      inpos := BitVec.ofNat 32 s.endRec.pos, mkrValid := s.endRec.marker, mkr := s.endRec.mbyte, seq := .done }) ∧
    (s.endRec.ended = false →
      (∀ u, dstep s = .ok () u → turn s = .next u) ∧
      (∀ e u, dstep s = .err e u → e.code = .busError ∧ turn s = .next (raiseErr e u)) ∧
      (∀ u, dstep s = .stall u → turn s = .next { u with stalled := true }))

/-! ### The whole machine -/

/-- Every step keeps the invariant and never faults: memory canonical, reserved bits clear, valid tables built, the block idle
while reset is asserted, and a running decode at a position it can reach: D, src and END are the input destuffed from its
first byte up to ip, and the positions of the current block that no term has written yet hold 0 (log 18 for the fault). -/
def Obligations.EveryStepKeepsTheInvariant : Prop :=
  ∀ s : State, Inv s → (∀ f, step s ≠ .fault f) ∧ ∀ t, step s = .next t → Inv t

/-- The invariant holds after reset. -/
def Obligations.ResetMeetsTheInvariant : Prop := Inv State.reset

/-- What reset leaves in the registers, the tables' valid bits and the predictors (70 R241, 10 R20), and the named parameters
that State.reset carries: the defaults of 00 R9, the zigzag table of 44 R180 among them. That parameters stand in the state is
the model's choice (log 1), and ID_VALUE and MMIO_BASE are open (log 2). -/
def Obligations.ResetLeavesTheResetValues : Prop :=
  let s := State.reset
  s.seq = .idle ∧ s.rgbEn = false ∧ s.sat = true ∧ s.irqEn = false ∧ s.ign = false ∧ s.mkrValid = false ∧ s.mkr = 0#8 ∧
  irq s = false ∧ s.errcode = 0#4 ∧ s.errinfo = 0#32 ∧ s.errpos = 0#32 ∧ s.inpos = 0#32 ∧ s.mcucnt = 0#32 ∧
  s.frameDim = 0#32 ∧ s.frameCfg = 0#32 ∧ (∀ c : Fin 4, s.fcomp.get c = 0#32) ∧ s.scanCfg = 0#32 ∧
  (∀ j : Fin 4, s.scomp.get j = 0#32) ∧ s.inBase = 0#32 ∧ s.inLen = 0#32 ∧ s.outBase = 0#32 ∧
  (∀ t : Fin 8, (s.htAct.get t).valid = false) ∧ (∀ q : Fin 4, (s.qtAct.get q).valid = false) ∧
  (∀ j : Fin 4, s.pred.get j = 0#16) ∧
  s.params.pExtend = .negComplement ∧ s.params.pDeqAlign = .freq ∧ s.params.pIdct = .t81Exact ∧
  s.params.pCcG = .coherent ∧ s.params.pBus = .error ∧
  s.params.pZigzag.toList.map Fin.val =
    [ 0,  1,  8, 16,  9,  2,  3, 10] ++ [17, 24, 32, 25, 18, 11,  4,  5] ++ [12, 19, 26, 33, 40, 48, 41, 34] ++
    [27, 20, 13,  6,  7, 14, 21, 28] ++ [35, 42, 49, 56, 57, 50, 43, 36] ++ [29, 22, 15, 23, 30, 37, 44, 51] ++
    [58, 59, 52, 45, 38, 31, 39, 46] ++ [53, 60, 61, 54, 47, 55, 62, 63]

/-- The reset input, in any state: when it is asserted, and again when it is released, the registers take their reset
values, no staging entry counts as written, and system memory stays, but for the output range of a decode that it stops;
while it is asserted the block answers no access and no command and takes no step (70 R240 to R242). That the parameters,
the platform and the rest of the agenda stay, that the values are taken already at the assertion, and that an access which
is not answered has no effect is the model's choice (log 25). -/
def Obligations.ResetInputStopsAndClears : Prop :=
  ∀ (s : State) (rest : List Event), Memory.wf s.mem →
    let resets (asserted : Bool) : Prop := ∃ (mem : List Host.Cell) (seed draws : Nat), step s = .next { State.reset with
        params := s.params, busMap := s.busMap, agenda := rest, readData := s.readData, memData := s.memData
        resetAsserted := asserted, mem := mem, stageSeed := seed, draws := draws } ∧
      s.draws < draws ∧ Memory.wf mem ∧ (s.seq ≠ .busy → mem = s.mem) ∧
      (∀ a, (∀ o < outSize s, a ≠ addrAt s.outBase o) → Memory.read mem a = Memory.read s.mem a)
    (s.agenda = .resetOn :: rest → resets true) ∧
    (s.agenda = .resetOff :: rest → s.resetAsserted = true → resets false) ∧
    (s.agenda = .resetOff :: rest → s.resetAsserted = false → step s = .next { s with agenda := rest }) ∧
    (s.resetAsserted = true → turn s = .next s ∧
      (∀ a i, s.agenda = .access a :: rest → decode (.mmio a) = .ok i → step s = .next { s with agenda := rest }) ∧
      (∀ w, s.agenda = .command w :: rest → step s = .next { s with agenda := rest }))

/-- Accesses of other agents to system memory: a write lands, unless it hits the input or the output range of a running
decode, which breaks a launch premise and is refused; a read gives the byte, but for an output byte while BUSY. That read
gives the byte before the decode or the byte the block writes there: what stands there when the decode, left to itself, has
reached DONE; which of the two is free (20 R70 item 5, R74; 70 R248; 93 S4, S10; log 15, 16). That the accesses reach plain
memory also at the addresses of the register window is the model's choice (log 30). The platform's answers (20 R66): a change
of them replaces the regions whose DMA reads or writes it rejects, in any state, and changes nothing else; that they are a list
of regions which an event replaces is the model's choice (log 13). -/
def Obligations.OtherAgentsShareTheMemory : Prop :=
  ∀ (s : State) (rest : List Event) (a : Word) (v : Byte) (regions : List Region), Memory.wf s.mem →
    (s.agenda = .memWrite a v :: rest →
      (s.seq = .busy → inInput s a.toNat = true → step s = .refused .inputWritten) ∧
      (s.seq = .busy → inInput s a.toNat = false → inOutput s a.toNat = true → step s = .refused .outputWritten) ∧
      ((s.seq = .busy → inInput s a.toNat = false ∧ inOutput s a.toNat = false) →
        ∃ mem, step s = .next { s with agenda := rest, mem := mem } ∧ Memory.read mem a.toNat = v ∧
          ∀ x, x ≠ a.toNat → Memory.read mem x = Memory.read s.mem x)) ∧
    (s.agenda = .memRead a :: rest →
      (s.seq = .busy → inOutput s a.toNat = true → ∃ x : Byte,
        step s = .next { s with agenda := rest, memData := x, draws := s.draws + 2 } ∧
        (Inv s → ∀ n t, core.run n { s with agenda := [] } = .next t → t.seq = .done →
          x = Memory.read s.before a.toNat ∨ x = Memory.read t.mem a.toNat)) ∧
      (s.seq = .busy → inOutput s a.toNat = false →
        step s = .next { s with agenda := rest, memData := Memory.read s.mem a.toNat }) ∧
      (s.seq ≠ .busy → step s = .next { s with agenda := rest, memData := Memory.read s.mem a.toNat })) ∧
    (s.agenda = .platform regions :: rest → ∃ t, step s = .next t ∧ t = { s with agenda := rest, busMap := regions } ∧
      ∀ (write : Bool) (x : Nat), busRejects t write x = true ↔ ∃ g ∈ regions,
        g.base ≤ x ∧ x < g.base + g.size ∧ (write = true → g.rejectsWrites = true) ∧ (write = false → g.rejectsReads = true))

/-- While a decode runs nothing changes its setup: the configuration registers, the conversion mode, the active tables, the
parameters and the record of memory before the decode stay through every step that leaves the block BUSY (70 R246; 20 R72;
40 R103, R104, R109; log 15). -/
def Obligations.SetupIsFixedWhileBusy : Prop :=
  ∀ s t : State, s.seq = .busy → step s = .next t → t.seq = .busy →
    t.frameDim = s.frameDim ∧ t.frameCfg = s.frameCfg ∧ t.fcomp = s.fcomp ∧ t.scanCfg = s.scanCfg ∧
    t.scomp = s.scomp ∧ t.inBase = s.inBase ∧ t.inLen = s.inLen ∧ t.outBase = s.outBase ∧ t.rgbEn = s.rgbEn ∧
    t.sat = s.sat ∧ t.htAct = s.htAct ∧ t.qtAct = s.qtAct ∧ t.params = s.params ∧ t.before = s.before

/-- Outside BUSY the block changes nothing by itself: only START takes it from IDLE to BUSY, and only ACK, ABORT or reset
take it out of DONE and ERROR. A decode that waits on a DMA access which never completes stays as it is, and so does the
block while reset is asserted (43 R175; 40 R109; 60 R228, R235; 20 R66; 70 R240). -/
def Obligations.OnlyTheHostMovesARestingBlock : Prop :=
  (∀ s : State, s.seq ≠ .busy ∨ s.stalled = true ∨ s.resetAsserted = true → turn s = .next s) ∧
  ∀ s t : State, step s = .next t →
    (s.seq ≠ .busy → t.seq = .busy → s.seq = .idle ∧ s.resetAsserted = false ∧ ∃ rest, s.agenda = .command 0x01000000#32 :: rest ∨
      s.agenda = .access ⟨.wr, 0x008#16, 4, 0x01000000#32⟩ :: rest) ∧
    (s.seq = .done ∨ s.seq = .error → t.seq ≠ s.seq → t.seq = .idle ∧ ∃ rest,
      s.agenda = .resetOn :: rest ∨ s.agenda = .resetOff :: rest ∧ s.resetAsserted = true ∨
      ∃ w, (cmdOp w = 0x02#8 ∨ cmdOp w = 0x03#8) ∧
        (s.agenda = .command w :: rest ∨ s.agenda = .access ⟨.wr, 0x008#16, 4, w⟩ :: rest))

/-- The predictors carry the only state from one MCU to the next, and only DC terms write them in a decode: a turn that
leaves the block BUSY changes no predictor outside the DC phase, and in it at most the current component's (43 R164,
R173). -/
def Obligations.PredictorsChangeOnlyInDcTerms : Prop :=
  ∀ s t : State, s.seq = .busy → turn s = .next t →
    (s.phase ≠ .dc → t.pred = s.pred) ∧ (∀ j : Fin 4, j ≠ s.j → t.pred.get j = s.pred.get j)

/-- A decode reads system memory only in the input range: with any other contents elsewhere, both memories in canonical form,
the block's turn leaves the same state, memory apart, and every byte of memory is the same after it, or is one it has not
changed (20 R63, 46 R206). -/
def Obligations.DecodeDependsOnlyOnTheInputBytes : Prop :=
  ∀ (s t : State) (mem : List Host.Cell), s.seq = .busy → Memory.wf s.mem → Memory.wf mem →
    (∀ a, inInput s a = true → Memory.read mem a = Memory.read s.mem a) →
    turn s = .next t → ∃ mem', turn { s with mem := mem } = .next { t with mem := mem' } ∧ Memory.wf mem' ∧
      ∀ a, Memory.read mem' a = Memory.read t.mem a ∨
        Memory.read mem' a = Memory.read mem a ∧ Memory.read t.mem a = Memory.read s.mem a

/-- A decode writes system memory only in the output range, whatever its turn does, errors included (20 R64). -/
def Obligations.DecodeWritesOnlyTheOutputRange : Prop :=
  ∀ s t : State, s.seq = .busy → turn s = .next t →
    ∀ a, OutsideOutput s a → Memory.read t.mem a = Memory.read s.mem a

/-- Termination: with P_BUS = ERROR a running decode, left to itself, ends in DONE or ERROR within, for every component of
every MCU, 64 symbols, one reconstruction and 64 output writes, one step for every MCU's end, and one destuffer step for
every input byte, one for the end of the data and one for the end of the decode (43 R176, 70 R254). The count is the bound
of the rule at the granularity of the model's steps (log 4). -/
def Obligations.EveryDecodeEnds : Prop :=
  ∀ s : State, Inv s → s.seq = .busy → s.stalled = false → s.params.pBus = .error → s.agenda = [] →
    ∃ n t, n ≤ (64 + 1 + 64) * scanNs s * mcuTotal s + mcuTotal s + s.inLen.toNat + 2 ∧ core.run n s = .next t ∧
      (t.seq = .done ∨ t.seq = .error)

/-- One turn in RECON is one step of it: the next component's reconstruction with the quantization table of its own frame
component, then one output write, in the order of 46 R205, and when all are made the end of the MCU; a rejected write is
BusError at its offset, or never completes (43 R171; 44 R183; 46 R205; 70 R254; 60 R223; 20 R66). That each component, each
write and the end of the MCU is a turn of its own is the model's choice (log 4), and so are `sub`, which counts them, and that
j and k are 0 after the MCU (log 22). -/
def Obligations.ReconstructionGoesStepByStep : Prop :=
  ∀ s : State, s.seq = .busy → s.stalled = false → s.resetAsserted = false → startChecks s = none → s.phase = .recon →
    Memory.wf s.mem →
    (∀ j c : Fin 4, j.val < scanNs s → s.sub = j.val → c.val < frameNf s → scompId s j = fcompId s c →
      let f := dequant s.params (s.zz.get j) (s.qtAct.get (Fin.ofNat 4 (fcompTq s c))).q
      turn s = .next { s with
        fbuf := s.fbuf.set j.val f, sbuf := s.sbuf.set j.val (idct s.params.pIdct f), sub := s.sub + 1 }) ∧
    (∀ o b, scanNs s ≤ s.sub → (emitList s)[s.sub - scanNs s]? = some (o, b) →
      (busRejects s true (s.outBase.toNat + o) = false → ∃ mem, turn s = .next { s with mem := mem, sub := s.sub + 1 } ∧
        Memory.read mem (s.outBase.toNat + o) = b ∧
        ∀ a, a ≠ s.outBase.toNat + o → Memory.read mem a = Memory.read s.mem a) ∧
      (busRejects s true (s.outBase.toNat + o) = true →
        (s.params.pBus = .error → turn s = .next (raiseErr ⟨.busError, .dma, 0#8, 1#8, BitVec.ofNat 32 o⟩ s)) ∧
        (s.params.pBus = .stall → turn s = .next { s with stalled := true }))) ∧
    (scanNs s + (emitList s).length ≤ s.sub → turn s = .next { s with
      mcucnt := BitVec.ofNat 32 (s.m + 1), m := s.m + 1, j := 0, k := 0, sub := 0
      phase := if s.m + 1 < mcuTotal s then .dc else .drain })
end

