-- ==== Sys2Proof/Laws/Bits.lean ====
section
/-! SUPPORT. Bit fields of words put together from parts: which part an extracted field is. Rewrite with these before a
plain `simp`, which merges the widths of the parts and then no longer finds them. -/

namespace Sys2Proof

/-- A field inside the low part. -/
theorem extract_append_low {n m : Nat} (x : BitVec n) (y : BitVec m) (lo w : Nat) (h : lo + w ≤ m) :
    (x ++ y).extractLsb' lo w = y.extractLsb' lo w := by
  apply BitVec.eq_of_getLsbD_eq
  intro i hi
  simp only [BitVec.getLsbD_extractLsb', hi, decide_true, Bool.true_and]
  rw [BitVec.getLsbD_append, if_pos (by omega)]

/-- A field inside the high part. -/
theorem extract_append_high {n m : Nat} (x : BitVec n) (y : BitVec m) (lo w : Nat) (h : m ≤ lo) :
    (x ++ y).extractLsb' lo w = x.extractLsb' (lo - m) w := by
  apply BitVec.eq_of_getLsbD_eq
  intro i hi
  simp only [BitVec.getLsbD_extractLsb', hi, decide_true, Bool.true_and]
  rw [BitVec.getLsbD_append, if_neg (by omega)]
  congr 1
  omega

/-- The whole of a word. -/
theorem extract_all {n : Nat} (x : BitVec n) : x.extractLsb' 0 n = x := by
  apply BitVec.eq_of_getLsbD_eq
  intro i hi
  simp [hi]

/-- A 16-bit offset is a multiple of 4 exactly when its low two bits are 0 (30 R81). -/
theorem low_bits_zero (off : BitVec 16) : off &&& 0x3#16 = 0#16 ↔ off.toNat % 4 = 0 := by
  have h4 : off.toNat % 4 < 2 ^ 16 := by omega
  have : (off &&& 0x3#16) = BitVec.ofNat 16 (off.toNat % 4) := by
    apply BitVec.eq_of_toNat_eq
    rw [BitVec.toNat_and, BitVec.toNat_ofNat]
    show off.toNat &&& 3 = _
    rw [show (3 : Nat) = 2 ^ 2 - 1 from rfl, Nat.and_two_pow_sub_one_eq_mod]
    exact (Nat.mod_eq_of_lt h4).symm
  rw [this]
  constructor
  · intro h
    have := congrArg BitVec.toNat h
    rw [BitVec.toNat_ofNat, Nat.mod_eq_of_lt h4] at this
    simpa using this
  · intro h
    rw [h]

end Sys2Proof
end

