-- ==== Sys2Proof/Laws/Memory.lean ====
section
/-! SUPPORT. The laws of system memory and of the staging RAMs: a read after a write, every other place unchanged, and
the canonical form kept. -/

namespace Sys2Proof.Machine

/-! ### Reading after writing -/

theorem Memory.read_write_same (m : Memory) (a : Nat) (v : Byte)
    (hm : m.Pairwise (fun a b => a.1 < b.1)) : Memory.read (Memory.write m a v) a = v := by
  induction m with
  | nil =>
    simp only [Memory.write]
    split <;> simp_all [Memory.read]
  | cons c t ih =>
    obtain ⟨b, w⟩ := c
    rw [List.pairwise_cons] at hm
    simp only [Memory.write]
    have hlow : ∀ x : Nat, x ≤ b → Memory.read t x = blankByte := by
      intro x hx
      have : ∀ c ∈ t, x ≠ c.1 := fun c hc h => by have := hm.1 c hc; omega
      clear ih hm
      induction t with
      | nil => rfl
      | cons d u ih =>
        simp only [Memory.read]
        rw [if_neg (fun h => this d (by simp) h.symm)]
        exact ih fun c hc => this c (by simp [hc])
    split
    · rename_i hab
      split
      · rename_i hv
        rw [Memory.read, if_neg (by omega), hlow a (by omega), hv]
      · simp [Memory.read]
    · split
      · rename_i hab
        subst hab
        split
        · rename_i hv
          rw [hlow a (by omega), hv]
        · simp [Memory.read]
      · rename_i h1 h2
        rw [Memory.read, if_neg (fun h => h2 h.symm)]
        exact ih hm.2

theorem Memory.read_write_other (m : Memory) (a x : Nat) (v : Byte) (h : x ≠ a) :
    Memory.read (Memory.write m a v) x = Memory.read m x := by
  induction m with
  | nil =>
    simp only [Memory.write]
    split
    · rfl
    · simp [Memory.read, Ne.symm h]
  | cons c t ih =>
    obtain ⟨b, w⟩ := c
    simp only [Memory.write]
    split
    · split
      · rfl
      · rw [Memory.read, if_neg (Ne.symm h)]
    · split
      · rename_i hab
        subst hab
        split
        · rw [Memory.read, if_neg (Ne.symm h)]
        · simp [Memory.read, Ne.symm h]
      · simp only [Memory.read, ih]

/-! ### The canonical form -/

theorem Memory.write_addresses (m : Memory) (a : Nat) (v : Byte) :
    ∀ c ∈ Memory.write m a v, c.1 = a ∨ ∃ d ∈ m, d.1 = c.1 := by
  induction m with
  | nil =>
    intro c hc
    simp only [Memory.write] at hc
    split at hc <;> simp_all
  | cons d t ih =>
    obtain ⟨b, w⟩ := d
    intro c hc
    simp only [Memory.write] at hc
    split at hc
    · split at hc
      · exact .inr ⟨c, hc, rfl⟩
      · rcases List.mem_cons.1 hc with rfl | hc
        · exact .inl rfl
        · exact .inr ⟨c, hc, rfl⟩
    · split at hc
      · split at hc
        · exact .inr ⟨c, by simp [hc], rfl⟩
        · rcases List.mem_cons.1 hc with rfl | hc
          · exact .inl rfl
          · exact .inr ⟨c, by simp [hc], rfl⟩
      · rcases List.mem_cons.1 hc with rfl | hc
        · exact .inr ⟨(b, w), by simp, rfl⟩
        · rcases ih c hc with h | ⟨d, hd, h⟩
          · exact .inl h
          · exact .inr ⟨d, by simp [hd], h⟩

theorem Memory.write_sorted (m : Memory) (a : Nat) (v : Byte)
    (hm : m.Pairwise (fun a b => a.1 < b.1)) : (Memory.write m a v).Pairwise (fun a b => a.1 < b.1) := by
  induction m with
  | nil =>
    simp only [Memory.write]
    split <;> simp
  | cons c t ih =>
    obtain ⟨b, w⟩ := c
    have h := List.pairwise_cons.1 hm
    simp only [Memory.write]
    split
    · rename_i hab
      split
      · exact hm
      · refine List.pairwise_cons.2 ⟨?_, hm⟩
        intro d hd
        rcases List.mem_cons.1 hd with rfl | hd
        · exact hab
        · exact lt_trans hab (h.1 d hd)
    · split
      · rename_i hab
        subst hab
        split
        · exact h.2
        · exact List.pairwise_cons.2 ⟨h.1, h.2⟩
      · rename_i h1 h2
        refine List.pairwise_cons.2 ⟨?_, ih h.2⟩
        intro d hd
        rcases Memory.write_addresses t a v d hd with hd | ⟨e, he, hd⟩
        · simp only [hd]; omega
        · have := h.1 e he; simp only at *; omega

theorem Memory.write_entries (m : Memory) (a : Nat) (v : Byte) (ha : a < 2 ^ 32)
    (hm : ∀ c ∈ m, c.2 ≠ blankByte ∧ c.1 < 2 ^ 32) :
    ∀ c ∈ Memory.write m a v, c.2 ≠ blankByte ∧ c.1 < 2 ^ 32 := by
  induction m with
  | nil =>
    intro c hc
    simp only [Memory.write] at hc
    split at hc
    · simp at hc
    · rename_i hv
      rw [List.mem_singleton] at hc
      subst hc
      exact ⟨hv, ha⟩
  | cons d t ih =>
    obtain ⟨b, w⟩ := d
    intro c hc
    have hd := hm (b, w) (by simp)
    have ht : ∀ c ∈ t, c.2 ≠ blankByte ∧ c.1 < 2 ^ 32 := fun c hc => hm c (by simp [hc])
    simp only [Memory.write] at hc
    split at hc
    · split at hc
      · exact hm c hc
      · rename_i hv
        rcases List.mem_cons.1 hc with rfl | hc
        · exact ⟨hv, ha⟩
        · exact hm c hc
    · split at hc
      · split at hc
        · exact ht c hc
        · rename_i hv
          rcases List.mem_cons.1 hc with rfl | hc
          · exact ⟨hv, ha⟩
          · exact ht c hc
      · rcases List.mem_cons.1 hc with rfl | hc
        · exact hd
        · exact ih ht c hc

/-- A write keeps the canonical form. -/
theorem Memory.write_wf (m : Memory) (a : Nat) (v : Byte) (ha : a < 2 ^ 32) (hm : Memory.wf m) :
    Memory.wf (Memory.write m a v) :=
  ⟨Memory.write_sorted m a v hm.1, Memory.write_entries m a v ha hm.2⟩

theorem addrAt_lt (base : Word) (o : Nat) : addrAt base o < 2 ^ 32 := Nat.mod_lt _ (by decide)

theorem addrAt_eq (base : Word) (o : Nat) (h : base.toNat + o < 2 ^ 32) : addrAt base o = base.toNat + o :=
  Nat.mod_eq_of_lt h

/-- Drawing free values keeps the canonical form. -/
theorem fillFree_wf (m : Memory) (base : Word) (d n : Nat) (hm : Memory.wf m) : Memory.wf (fillFree m base d n) := by
  induction n with
  | zero => exact hm
  | succ n ih => exact Memory.write_wf _ _ _ (addrAt_lt base n) ih

/-- Drawing free values leaves every byte outside the range alone. -/
theorem fillFree_read_outside (m : Memory) (base : Word) (d n a : Nat) (h : ∀ o < n, a ≠ addrAt base o) :
    Memory.read (fillFree m base d n) a = Memory.read m a := by
  induction n with
  | zero => rfl
  | succ n ih =>
    rw [fillFree, Memory.read_write_other _ _ _ _ (h n (by omega))]
    exact ih fun o ho => h o (by omega)

/-- After drawing, every byte of the range is one of the free values drawn. -/
theorem fillFree_read_inside (m : Memory) (hm : Memory.wf m) (base : Word) (d n : Nat) :
    ∀ o < n, ∃ i, d ≤ i ∧ i < d + n ∧ Memory.read (fillFree m base d n) (addrAt base o) = Config.freeByte i := by
  induction n with
  | zero => intro o h; omega
  | succ n ih =>
    intro o ho
    rw [fillFree]
    by_cases h : addrAt base o = addrAt base n
    · refine ⟨d + n, by omega, by omega, ?_⟩
      rw [h, Memory.read_write_same _ _ _ (fillFree_wf m base d n hm).1]
    · rw [Memory.read_write_other _ _ _ _ h]
      have hlt : o < n := by
        rcases Nat.lt_succ_iff_lt_or_eq.1 ho with h' | rfl
        · exact h'
        · exact absurd rfl h
      obtain ⟨i, h1, h2, h3⟩ := ih o hlt
      exact ⟨i, h1, by omega, h3⟩

/-- An address outside a range that does not cross the top of memory is no address of the range. -/
theorem ne_addrAt_of_outside {base : Word} {n a : Nat} (hfit : base.toNat + n ≤ 2 ^ 32)
    (h : a < base.toNat ∨ base.toNat + n ≤ a) : ∀ o < n, a ≠ addrAt base o := by
  intro o ho
  rw [addrAt_eq base o (by omega)]
  omega

/-! ### The staging RAMs -/

theorem ramRead_ramWrite_same {w : Nat} (ram : List (Nat × BitVec w)) (key : Nat) (v d : BitVec w) :
    ramRead (ramWrite ram key v) key d = v := by
  induction ram with
  | nil => simp [ramWrite, ramRead]
  | cons c t ih =>
    obtain ⟨b, x⟩ := c
    simp only [ramWrite]
    split
    · simp [ramRead]
    · split
      · simp [ramRead]
      · rename_i h1 h2
        rw [ramRead, if_neg (fun h => h2 h.symm)]
        exact ih

theorem ramRead_ramWrite_other {w : Nat} (ram : List (Nat × BitVec w)) (key x : Nat) (v d : BitVec w) (h : x ≠ key) :
    ramRead (ramWrite ram key v) x d = ramRead ram x d := by
  induction ram with
  | nil => simp [ramWrite, ramRead, Ne.symm h]
  | cons c t ih =>
    obtain ⟨b, y⟩ := c
    simp only [ramWrite]
    split
    · rw [ramRead, if_neg (Ne.symm h)]
    · split
      · rename_i hkb
        subst hkb
        simp [ramRead, Ne.symm h]
      · simp only [ramRead, ih]

end Sys2Proof.Machine
end

