-- ==== Sys2Proof/Laws/Commands.lean ====
section
/-! SUPPORT. The commands: error entry outside a decode, the operand fields of the commits, and what a build gives. -/

namespace Sys2Proof.Machine

/-- Error entry for an error that did not happen during a decode (60 R224). -/
theorem raiseErr_outside (e : Err) (s : State) (h : e.origin.inDecode = false) :
    raiseErr e s = { s with errcode := e.code.num, errinfo := e.info, errpos := e.pos, seq := .error } := by
  simp only [raiseErr, h]
  rfl

/-- Error entry for an error during a decode: everything but the error registers, the reports of the destuffer, the
output range and the state is kept (60 R224). -/
theorem raiseErr_inside (e : Err) (s : State) (h : e.origin.inDecode = true) :
    raiseErr e s = { s with
      errcode := e.code.num, errinfo := e.info, errpos := e.pos, seq := .error
      inpos := BitVec.ofNat 32 s.ip
      mkrValid := s.endRec.ended && s.endRec.marker
      mkr := if s.endRec.ended then s.endRec.mbyte else 0#8
      mem := fillFree s.mem s.outBase s.draws (outSize s), draws := s.draws + outSize s } := by
  simp only [raiseErr, h]
  rfl

/-- Error entry keeps memory canonical. -/
theorem raiseErr_wf (e : Err) (s : State) (h : Memory.wf s.mem) : Memory.wf (raiseErr e s).mem := by
  cases he : e.origin.inDecode
  · rw [raiseErr_outside e s he]
    exact h
  · rw [raiseErr_inside e s he]
    exact fillFree_wf _ _ _ _ h

/-- Error entry changes no byte outside the output range. -/
theorem raiseErr_read_outside (e : Err) (s : State) (a : Nat) (ha : ∀ o < outSize s, a ≠ addrAt s.outBase o) :
    Memory.read (raiseErr e s).mem a = Memory.read s.mem a := by
  cases he : e.origin.inDecode
  · rw [raiseErr_outside e s he]
  · rw [raiseErr_inside e s he]
    exact fillFree_read_outside _ _ _ _ _ ha

/-- The reserved bits of ERRINFO are 0 (10 R26). -/
theorem info_reserved (e : Err) : e.info &&& 0x00FF0000#32 = 0#32 := by
  have h : ∀ (o : Byte), (o ++ 0#8 : BitVec 16) &&& 0x00FF#16 = 0#16 := by decide
  obtain ⟨_, o, d, u, _⟩ := e
  simp only [Err.info]
  apply BitVec.eq_of_getLsbD_eq
  intro i hi
  have hm : (0x00FF0000#32) = (0x00FF#16 ++ 0#8 ++ 0#8) := by decide
  rw [hm, BitVec.getLsbD_and]
  simp only [BitVec.getLsbD_append]
  have h16 := congrArg (BitVec.getLsbD · (i - 8 - 8)) (h o.num)
  simp only [BitVec.getLsbD_and, BitVec.getLsbD_append] at h16
  split
  · simp
  · split
    · simp
    · simpa using h16

theorem htHeader_fields (mbz : BitVec 3) (tc : BitVec 1) (th : BitVec 4) :
    htHeaderMbz (mbz ++ tc ++ th) = mbz ∧ htHeaderTh (mbz ++ tc ++ th) = th.toNat ∧
      htHeaderTc (mbz ++ tc ++ th) = tc.toNat := by
  refine ⟨?_, ?_, ?_⟩
  · unfold htHeaderMbz
    rw [extract_append_high _ _ _ _ (by decide), extract_append_high _ _ _ _ (by decide)]
    exact extract_all _
  · unfold htHeaderTh
    rw [extract_append_low _ _ _ _ (by decide), extract_all]
  · unfold htHeaderTc
    rw [extract_append_high _ _ _ _ (by decide), extract_append_low _ _ _ _ (by decide), extract_all]

theorem qtHeader_fields (pq tq : BitVec 4) :
    qtHeaderPq (pq ++ tq) = pq.toNat ∧ qtHeaderTq (pq ++ tq) = tq.toNat := by
  refine ⟨?_, ?_⟩
  · unfold qtHeaderPq
    rw [extract_append_high _ _ _ _ (by decide)]
    exact congrArg _ (extract_all _)
  · unfold qtHeaderTq
    rw [extract_append_low _ _ _ _ (by decide), extract_all]

/-- Whether a staged entry is too wide for an 8-bit table (40 R127). -/
theorem quantTooWide_iff (s : State) (q : Fin 4) :
    quantTooWide s q = true ↔ ∃ k : Fin 64, 255 < (stagedQuantOf s q k.val).toNat := by
  simp only [quantTooWide, List.any_eq_true, List.mem_range, decide_eq_true_eq]
  exact ⟨fun ⟨x, h1, h2⟩ => ⟨⟨x, h1⟩, h2⟩, fun ⟨x, h2⟩ => ⟨x.val, x.isLt, h2⟩⟩

/-- The entries of a committed quantization table (40 R127). -/
theorem committedQuant_get (s : State) (q : Fin 4) (p : Precision) (k : Fin 64) :
    (committedQuant s q p).q.get k = stagedQuantOf s q k.val := by
  simp [committedQuant, Vector.get]
  rfl

/-- What BUILD gives, when it does not fail (42 R150). -/
theorem build_ok {bits vals : List Byte} {t : HtTable} (h : build bits vals = .ok t) :
    totalCodes bits ≤ 256 ∧ ∃ codes, buildCodes 1 0 (bits.map BitVec.toNat) vals = some codes ∧
      t = ⟨true, bits, vals.take (totalCodes bits), maxLength 1 (bits.map BitVec.toNat), codes⟩ := by
  unfold build at h
  split at h
  · cases h
  · rename_i hn
    split at h
    · cases h
    · rename_i codes hc
      cases h
      exact ⟨by omega, codes, hc, rfl⟩

end Sys2Proof.Machine
end

