-- ==== Sys2Proof/Laws/State.lean ====
section
/-! SUPPORT. For every update of the state, what each field is after it: the fields it writes, then the fields it leaves
alone. A later proof cites these and unfolds no record update. -/

namespace Sys2Proof.Machine

@[simp] theorem answer_writes (v : Word) (s : State) :
    (answer v s).readData = v :=
  rfl

@[simp] theorem answer_frame (v : Word) (s : State) :
    (answer v s).params = s.params ∧ (answer v s).rgbEn = s.rgbEn ∧ (answer v s).sat = s.sat ∧
    (answer v s).irqEn = s.irqEn ∧ (answer v s).seq = s.seq ∧ (answer v s).ign = s.ign ∧
    (answer v s).mkrValid = s.mkrValid ∧ (answer v s).mkr = s.mkr ∧ (answer v s).errcode = s.errcode ∧
    (answer v s).errinfo = s.errinfo ∧ (answer v s).errpos = s.errpos ∧ (answer v s).inpos = s.inpos ∧
    (answer v s).mcucnt = s.mcucnt ∧ (answer v s).frameDim = s.frameDim ∧ (answer v s).frameCfg = s.frameCfg ∧
    (answer v s).fcomp = s.fcomp ∧ (answer v s).scanCfg = s.scanCfg ∧ (answer v s).scomp = s.scomp ∧
    (answer v s).inBase = s.inBase ∧ (answer v s).inLen = s.inLen ∧ (answer v s).outBase = s.outBase ∧
    (answer v s).pred = s.pred ∧ (answer v s).stageSeed = s.stageSeed ∧ (answer v s).htBits = s.htBits ∧
    (answer v s).htVal = s.htVal ∧ (answer v s).qtRam = s.qtRam ∧ (answer v s).htAct = s.htAct ∧
    (answer v s).qtAct = s.qtAct ∧ (answer v s).m = s.m ∧ (answer v s).j = s.j ∧ (answer v s).k = s.k ∧
    (answer v s).phase = s.phase ∧ (answer v s).sub = s.sub ∧ (answer v s).ip = s.ip ∧ (answer v s).dbits = s.dbits ∧
    (answer v s).src = s.src ∧ (answer v s).endRec = s.endRec ∧ (answer v s).cur = s.cur ∧ (answer v s).c0 = s.c0 ∧
    (answer v s).zz = s.zz ∧ (answer v s).fbuf = s.fbuf ∧ (answer v s).sbuf = s.sbuf ∧
    (answer v s).stalled = s.stalled ∧ (answer v s).resetAsserted = s.resetAsserted ∧ (answer v s).mem = s.mem ∧
    (answer v s).before = s.before ∧ (answer v s).busMap = s.busMap ∧ (answer v s).agenda = s.agenda ∧
    (answer v s).memData = s.memData ∧ (answer v s).draws = s.draws :=
  ⟨rfl, rfl, rfl, rfl, rfl, rfl, rfl, rfl, rfl, rfl, rfl, rfl, rfl, rfl, rfl, rfl, rfl, rfl, rfl, rfl, rfl, rfl,
    rfl, rfl, rfl, rfl, rfl, rfl, rfl, rfl, rfl, rfl, rfl, rfl, rfl, rfl, rfl, rfl, rfl, rfl, rfl, rfl, rfl, rfl,
    rfl, rfl, rfl, rfl, rfl, rfl⟩

@[simp] theorem ignored_writes (s : State) :
    (ignored s).ign = true :=
  rfl

@[simp] theorem ignored_frame (s : State) :
    (ignored s).params = s.params ∧ (ignored s).rgbEn = s.rgbEn ∧ (ignored s).sat = s.sat ∧
    (ignored s).irqEn = s.irqEn ∧ (ignored s).seq = s.seq ∧ (ignored s).mkrValid = s.mkrValid ∧
    (ignored s).mkr = s.mkr ∧ (ignored s).errcode = s.errcode ∧ (ignored s).errinfo = s.errinfo ∧
    (ignored s).errpos = s.errpos ∧ (ignored s).inpos = s.inpos ∧ (ignored s).mcucnt = s.mcucnt ∧
    (ignored s).frameDim = s.frameDim ∧ (ignored s).frameCfg = s.frameCfg ∧ (ignored s).fcomp = s.fcomp ∧
    (ignored s).scanCfg = s.scanCfg ∧ (ignored s).scomp = s.scomp ∧ (ignored s).inBase = s.inBase ∧
    (ignored s).inLen = s.inLen ∧ (ignored s).outBase = s.outBase ∧ (ignored s).pred = s.pred ∧
    (ignored s).stageSeed = s.stageSeed ∧ (ignored s).htBits = s.htBits ∧ (ignored s).htVal = s.htVal ∧
    (ignored s).qtRam = s.qtRam ∧ (ignored s).htAct = s.htAct ∧ (ignored s).qtAct = s.qtAct ∧ (ignored s).m = s.m ∧
    (ignored s).j = s.j ∧ (ignored s).k = s.k ∧ (ignored s).phase = s.phase ∧ (ignored s).sub = s.sub ∧
    (ignored s).ip = s.ip ∧ (ignored s).dbits = s.dbits ∧ (ignored s).src = s.src ∧ (ignored s).endRec = s.endRec ∧
    (ignored s).cur = s.cur ∧ (ignored s).c0 = s.c0 ∧ (ignored s).zz = s.zz ∧ (ignored s).fbuf = s.fbuf ∧
    (ignored s).sbuf = s.sbuf ∧ (ignored s).stalled = s.stalled ∧ (ignored s).resetAsserted = s.resetAsserted ∧
    (ignored s).mem = s.mem ∧ (ignored s).before = s.before ∧ (ignored s).busMap = s.busMap ∧
    (ignored s).agenda = s.agenda ∧ (ignored s).readData = s.readData ∧ (ignored s).memData = s.memData ∧
    (ignored s).draws = s.draws :=
  ⟨rfl, rfl, rfl, rfl, rfl, rfl, rfl, rfl, rfl, rfl, rfl, rfl, rfl, rfl, rfl, rfl, rfl, rfl, rfl, rfl, rfl, rfl,
    rfl, rfl, rfl, rfl, rfl, rfl, rfl, rfl, rfl, rfl, rfl, rfl, rfl, rfl, rfl, rfl, rfl, rfl, rfl, rfl, rfl, rfl,
    rfl, rfl, rfl, rfl, rfl, rfl⟩

@[simp] theorem returnToIdle_writes (s : State) :
    (returnToIdle s).seq = .idle :=
  rfl

@[simp] theorem returnToIdle_frame (s : State) :
    (returnToIdle s).params = s.params ∧ (returnToIdle s).rgbEn = s.rgbEn ∧ (returnToIdle s).sat = s.sat ∧
    (returnToIdle s).irqEn = s.irqEn ∧ (returnToIdle s).ign = s.ign ∧ (returnToIdle s).mkrValid = s.mkrValid ∧
    (returnToIdle s).mkr = s.mkr ∧ (returnToIdle s).errcode = s.errcode ∧ (returnToIdle s).errinfo = s.errinfo ∧
    (returnToIdle s).errpos = s.errpos ∧ (returnToIdle s).inpos = s.inpos ∧ (returnToIdle s).mcucnt = s.mcucnt ∧
    (returnToIdle s).frameDim = s.frameDim ∧ (returnToIdle s).frameCfg = s.frameCfg ∧
    (returnToIdle s).fcomp = s.fcomp ∧ (returnToIdle s).scanCfg = s.scanCfg ∧ (returnToIdle s).scomp = s.scomp ∧
    (returnToIdle s).inBase = s.inBase ∧ (returnToIdle s).inLen = s.inLen ∧ (returnToIdle s).outBase = s.outBase ∧
    (returnToIdle s).pred = s.pred ∧ (returnToIdle s).stageSeed = s.stageSeed ∧ (returnToIdle s).htBits = s.htBits ∧
    (returnToIdle s).htVal = s.htVal ∧ (returnToIdle s).qtRam = s.qtRam ∧ (returnToIdle s).htAct = s.htAct ∧
    (returnToIdle s).qtAct = s.qtAct ∧ (returnToIdle s).m = s.m ∧ (returnToIdle s).j = s.j ∧
    (returnToIdle s).k = s.k ∧ (returnToIdle s).phase = s.phase ∧ (returnToIdle s).sub = s.sub ∧
    (returnToIdle s).ip = s.ip ∧ (returnToIdle s).dbits = s.dbits ∧ (returnToIdle s).src = s.src ∧
    (returnToIdle s).endRec = s.endRec ∧ (returnToIdle s).cur = s.cur ∧ (returnToIdle s).c0 = s.c0 ∧
    (returnToIdle s).zz = s.zz ∧ (returnToIdle s).fbuf = s.fbuf ∧ (returnToIdle s).sbuf = s.sbuf ∧
    (returnToIdle s).stalled = s.stalled ∧ (returnToIdle s).resetAsserted = s.resetAsserted ∧
    (returnToIdle s).mem = s.mem ∧ (returnToIdle s).before = s.before ∧ (returnToIdle s).busMap = s.busMap ∧
    (returnToIdle s).agenda = s.agenda ∧ (returnToIdle s).readData = s.readData ∧
    (returnToIdle s).memData = s.memData ∧ (returnToIdle s).draws = s.draws :=
  ⟨rfl, rfl, rfl, rfl, rfl, rfl, rfl, rfl, rfl, rfl, rfl, rfl, rfl, rfl, rfl, rfl, rfl, rfl, rfl, rfl, rfl, rfl,
    rfl, rfl, rfl, rfl, rfl, rfl, rfl, rfl, rfl, rfl, rfl, rfl, rfl, rfl, rfl, rfl, rfl, rfl, rfl, rfl, rfl, rfl,
    rfl, rfl, rfl, rfl, rfl, rfl⟩

@[simp] theorem endAt_writes (p : Nat) (b : Bool) (c : Byte) (s : State) :
    (endAt p b c s).endRec = ⟨true, p, b, c⟩ :=
  rfl

@[simp] theorem endAt_frame (p : Nat) (b : Bool) (c : Byte) (s : State) :
    (endAt p b c s).params = s.params ∧ (endAt p b c s).rgbEn = s.rgbEn ∧ (endAt p b c s).sat = s.sat ∧
    (endAt p b c s).irqEn = s.irqEn ∧ (endAt p b c s).seq = s.seq ∧ (endAt p b c s).ign = s.ign ∧
    (endAt p b c s).mkrValid = s.mkrValid ∧ (endAt p b c s).mkr = s.mkr ∧ (endAt p b c s).errcode = s.errcode ∧
    (endAt p b c s).errinfo = s.errinfo ∧ (endAt p b c s).errpos = s.errpos ∧ (endAt p b c s).inpos = s.inpos ∧
    (endAt p b c s).mcucnt = s.mcucnt ∧ (endAt p b c s).frameDim = s.frameDim ∧
    (endAt p b c s).frameCfg = s.frameCfg ∧ (endAt p b c s).fcomp = s.fcomp ∧ (endAt p b c s).scanCfg = s.scanCfg ∧
    (endAt p b c s).scomp = s.scomp ∧ (endAt p b c s).inBase = s.inBase ∧ (endAt p b c s).inLen = s.inLen ∧
    (endAt p b c s).outBase = s.outBase ∧ (endAt p b c s).pred = s.pred ∧ (endAt p b c s).stageSeed = s.stageSeed ∧
    (endAt p b c s).htBits = s.htBits ∧ (endAt p b c s).htVal = s.htVal ∧ (endAt p b c s).qtRam = s.qtRam ∧
    (endAt p b c s).htAct = s.htAct ∧ (endAt p b c s).qtAct = s.qtAct ∧ (endAt p b c s).m = s.m ∧
    (endAt p b c s).j = s.j ∧ (endAt p b c s).k = s.k ∧ (endAt p b c s).phase = s.phase ∧
    (endAt p b c s).sub = s.sub ∧ (endAt p b c s).ip = s.ip ∧ (endAt p b c s).dbits = s.dbits ∧
    (endAt p b c s).src = s.src ∧ (endAt p b c s).cur = s.cur ∧ (endAt p b c s).c0 = s.c0 ∧
    (endAt p b c s).zz = s.zz ∧ (endAt p b c s).fbuf = s.fbuf ∧ (endAt p b c s).sbuf = s.sbuf ∧
    (endAt p b c s).stalled = s.stalled ∧ (endAt p b c s).resetAsserted = s.resetAsserted ∧
    (endAt p b c s).mem = s.mem ∧ (endAt p b c s).before = s.before ∧ (endAt p b c s).busMap = s.busMap ∧
    (endAt p b c s).agenda = s.agenda ∧ (endAt p b c s).readData = s.readData ∧ (endAt p b c s).memData = s.memData ∧
    (endAt p b c s).draws = s.draws :=
  ⟨rfl, rfl, rfl, rfl, rfl, rfl, rfl, rfl, rfl, rfl, rfl, rfl, rfl, rfl, rfl, rfl, rfl, rfl, rfl, rfl, rfl, rfl,
    rfl, rfl, rfl, rfl, rfl, rfl, rfl, rfl, rfl, rfl, rfl, rfl, rfl, rfl, rfl, rfl, rfl, rfl, rfl, rfl, rfl, rfl,
    rfl, rfl, rfl, rfl, rfl, rfl⟩

@[simp] theorem pushByte_writes (b : Byte) (n : Nat) (s : State) :
    (pushByte b n s).dbits = s.dbits ++ uintToBits b.toNat 8 ∧ (pushByte b n s).src = s.src ++ [s.ip] ∧
    (pushByte b n s).ip = s.ip + n :=
  ⟨rfl, rfl, rfl⟩

@[simp] theorem pushByte_frame (b : Byte) (n : Nat) (s : State) :
    (pushByte b n s).params = s.params ∧ (pushByte b n s).rgbEn = s.rgbEn ∧ (pushByte b n s).sat = s.sat ∧
    (pushByte b n s).irqEn = s.irqEn ∧ (pushByte b n s).seq = s.seq ∧ (pushByte b n s).ign = s.ign ∧
    (pushByte b n s).mkrValid = s.mkrValid ∧ (pushByte b n s).mkr = s.mkr ∧ (pushByte b n s).errcode = s.errcode ∧
    (pushByte b n s).errinfo = s.errinfo ∧ (pushByte b n s).errpos = s.errpos ∧ (pushByte b n s).inpos = s.inpos ∧
    (pushByte b n s).mcucnt = s.mcucnt ∧ (pushByte b n s).frameDim = s.frameDim ∧
    (pushByte b n s).frameCfg = s.frameCfg ∧ (pushByte b n s).fcomp = s.fcomp ∧
    (pushByte b n s).scanCfg = s.scanCfg ∧ (pushByte b n s).scomp = s.scomp ∧ (pushByte b n s).inBase = s.inBase ∧
    (pushByte b n s).inLen = s.inLen ∧ (pushByte b n s).outBase = s.outBase ∧ (pushByte b n s).pred = s.pred ∧
    (pushByte b n s).stageSeed = s.stageSeed ∧ (pushByte b n s).htBits = s.htBits ∧
    (pushByte b n s).htVal = s.htVal ∧ (pushByte b n s).qtRam = s.qtRam ∧ (pushByte b n s).htAct = s.htAct ∧
    (pushByte b n s).qtAct = s.qtAct ∧ (pushByte b n s).m = s.m ∧ (pushByte b n s).j = s.j ∧
    (pushByte b n s).k = s.k ∧ (pushByte b n s).phase = s.phase ∧ (pushByte b n s).sub = s.sub ∧
    (pushByte b n s).endRec = s.endRec ∧ (pushByte b n s).cur = s.cur ∧ (pushByte b n s).c0 = s.c0 ∧
    (pushByte b n s).zz = s.zz ∧ (pushByte b n s).fbuf = s.fbuf ∧ (pushByte b n s).sbuf = s.sbuf ∧
    (pushByte b n s).stalled = s.stalled ∧ (pushByte b n s).resetAsserted = s.resetAsserted ∧
    (pushByte b n s).mem = s.mem ∧ (pushByte b n s).before = s.before ∧ (pushByte b n s).busMap = s.busMap ∧
    (pushByte b n s).agenda = s.agenda ∧ (pushByte b n s).readData = s.readData ∧
    (pushByte b n s).memData = s.memData ∧ (pushByte b n s).draws = s.draws :=
  ⟨rfl, rfl, rfl, rfl, rfl, rfl, rfl, rfl, rfl, rfl, rfl, rfl, rfl, rfl, rfl, rfl, rfl, rfl, rfl, rfl, rfl, rfl,
    rfl, rfl, rfl, rfl, rfl, rfl, rfl, rfl, rfl, rfl, rfl, rfl, rfl, rfl, rfl, rfl, rfl, rfl, rfl, rfl, rfl, rfl,
    rfl, rfl, rfl, rfl⟩

@[simp] theorem beginBlock_writes (s : State) :
    (beginBlock s).zz = s.zz.set s.j.val (Vector.replicate 64 0#16) ∧ (beginBlock s).k = 0 :=
  ⟨rfl, rfl⟩

@[simp] theorem beginBlock_frame (s : State) :
    (beginBlock s).params = s.params ∧ (beginBlock s).rgbEn = s.rgbEn ∧ (beginBlock s).sat = s.sat ∧
    (beginBlock s).irqEn = s.irqEn ∧ (beginBlock s).seq = s.seq ∧ (beginBlock s).ign = s.ign ∧
    (beginBlock s).mkrValid = s.mkrValid ∧ (beginBlock s).mkr = s.mkr ∧ (beginBlock s).errcode = s.errcode ∧
    (beginBlock s).errinfo = s.errinfo ∧ (beginBlock s).errpos = s.errpos ∧ (beginBlock s).inpos = s.inpos ∧
    (beginBlock s).mcucnt = s.mcucnt ∧ (beginBlock s).frameDim = s.frameDim ∧ (beginBlock s).frameCfg = s.frameCfg ∧
    (beginBlock s).fcomp = s.fcomp ∧ (beginBlock s).scanCfg = s.scanCfg ∧ (beginBlock s).scomp = s.scomp ∧
    (beginBlock s).inBase = s.inBase ∧ (beginBlock s).inLen = s.inLen ∧ (beginBlock s).outBase = s.outBase ∧
    (beginBlock s).pred = s.pred ∧ (beginBlock s).stageSeed = s.stageSeed ∧ (beginBlock s).htBits = s.htBits ∧
    (beginBlock s).htVal = s.htVal ∧ (beginBlock s).qtRam = s.qtRam ∧ (beginBlock s).htAct = s.htAct ∧
    (beginBlock s).qtAct = s.qtAct ∧ (beginBlock s).m = s.m ∧ (beginBlock s).j = s.j ∧
    (beginBlock s).phase = s.phase ∧ (beginBlock s).sub = s.sub ∧ (beginBlock s).ip = s.ip ∧
    (beginBlock s).dbits = s.dbits ∧ (beginBlock s).src = s.src ∧ (beginBlock s).endRec = s.endRec ∧
    (beginBlock s).cur = s.cur ∧ (beginBlock s).c0 = s.c0 ∧ (beginBlock s).fbuf = s.fbuf ∧
    (beginBlock s).sbuf = s.sbuf ∧ (beginBlock s).stalled = s.stalled ∧
    (beginBlock s).resetAsserted = s.resetAsserted ∧ (beginBlock s).mem = s.mem ∧ (beginBlock s).before = s.before ∧
    (beginBlock s).busMap = s.busMap ∧ (beginBlock s).agenda = s.agenda ∧ (beginBlock s).readData = s.readData ∧
    (beginBlock s).memData = s.memData ∧ (beginBlock s).draws = s.draws :=
  ⟨rfl, rfl, rfl, rfl, rfl, rfl, rfl, rfl, rfl, rfl, rfl, rfl, rfl, rfl, rfl, rfl, rfl, rfl, rfl, rfl, rfl, rfl,
    rfl, rfl, rfl, rfl, rfl, rfl, rfl, rfl, rfl, rfl, rfl, rfl, rfl, rfl, rfl, rfl, rfl, rfl, rfl, rfl, rfl, rfl,
    rfl, rfl, rfl, rfl, rfl⟩

@[simp] theorem setCoef_frame (n : Nat) (v : Half) (s : State) :
    (setCoef n v s).params = s.params ∧ (setCoef n v s).rgbEn = s.rgbEn ∧ (setCoef n v s).sat = s.sat ∧
    (setCoef n v s).irqEn = s.irqEn ∧ (setCoef n v s).seq = s.seq ∧ (setCoef n v s).ign = s.ign ∧
    (setCoef n v s).mkrValid = s.mkrValid ∧ (setCoef n v s).mkr = s.mkr ∧ (setCoef n v s).errcode = s.errcode ∧
    (setCoef n v s).errinfo = s.errinfo ∧ (setCoef n v s).errpos = s.errpos ∧ (setCoef n v s).inpos = s.inpos ∧
    (setCoef n v s).mcucnt = s.mcucnt ∧ (setCoef n v s).frameDim = s.frameDim ∧
    (setCoef n v s).frameCfg = s.frameCfg ∧ (setCoef n v s).fcomp = s.fcomp ∧ (setCoef n v s).scanCfg = s.scanCfg ∧
    (setCoef n v s).scomp = s.scomp ∧ (setCoef n v s).inBase = s.inBase ∧ (setCoef n v s).inLen = s.inLen ∧
    (setCoef n v s).outBase = s.outBase ∧ (setCoef n v s).pred = s.pred ∧ (setCoef n v s).stageSeed = s.stageSeed ∧
    (setCoef n v s).htBits = s.htBits ∧ (setCoef n v s).htVal = s.htVal ∧ (setCoef n v s).qtRam = s.qtRam ∧
    (setCoef n v s).htAct = s.htAct ∧ (setCoef n v s).qtAct = s.qtAct ∧ (setCoef n v s).m = s.m ∧
    (setCoef n v s).j = s.j ∧ (setCoef n v s).k = s.k ∧ (setCoef n v s).phase = s.phase ∧
    (setCoef n v s).sub = s.sub ∧ (setCoef n v s).ip = s.ip ∧ (setCoef n v s).dbits = s.dbits ∧
    (setCoef n v s).src = s.src ∧ (setCoef n v s).endRec = s.endRec ∧ (setCoef n v s).cur = s.cur ∧
    (setCoef n v s).c0 = s.c0 ∧ (setCoef n v s).fbuf = s.fbuf ∧ (setCoef n v s).sbuf = s.sbuf ∧
    (setCoef n v s).stalled = s.stalled ∧ (setCoef n v s).resetAsserted = s.resetAsserted ∧
    (setCoef n v s).mem = s.mem ∧ (setCoef n v s).before = s.before ∧ (setCoef n v s).busMap = s.busMap ∧
    (setCoef n v s).agenda = s.agenda ∧ (setCoef n v s).readData = s.readData ∧ (setCoef n v s).memData = s.memData ∧
    (setCoef n v s).draws = s.draws := by
  unfold setCoef
  split <;> exact
    ⟨rfl, rfl, rfl, rfl, rfl, rfl, rfl, rfl, rfl, rfl, rfl, rfl, rfl, rfl, rfl, rfl, rfl, rfl, rfl, rfl, rfl, rfl,
    rfl, rfl, rfl, rfl, rfl, rfl, rfl, rfl, rfl, rfl, rfl, rfl, rfl, rfl, rfl, rfl, rfl, rfl, rfl, rfl, rfl, rfl,
    rfl, rfl, rfl, rfl, rfl, rfl⟩

@[simp] theorem endBlock_frame (s : State) :
    (endBlock s).params = s.params ∧ (endBlock s).rgbEn = s.rgbEn ∧ (endBlock s).sat = s.sat ∧
    (endBlock s).irqEn = s.irqEn ∧ (endBlock s).seq = s.seq ∧ (endBlock s).ign = s.ign ∧
    (endBlock s).mkrValid = s.mkrValid ∧ (endBlock s).mkr = s.mkr ∧ (endBlock s).errcode = s.errcode ∧
    (endBlock s).errinfo = s.errinfo ∧ (endBlock s).errpos = s.errpos ∧ (endBlock s).inpos = s.inpos ∧
    (endBlock s).mcucnt = s.mcucnt ∧ (endBlock s).frameDim = s.frameDim ∧ (endBlock s).frameCfg = s.frameCfg ∧
    (endBlock s).fcomp = s.fcomp ∧ (endBlock s).scanCfg = s.scanCfg ∧ (endBlock s).scomp = s.scomp ∧
    (endBlock s).inBase = s.inBase ∧ (endBlock s).inLen = s.inLen ∧ (endBlock s).outBase = s.outBase ∧
    (endBlock s).pred = s.pred ∧ (endBlock s).stageSeed = s.stageSeed ∧ (endBlock s).htBits = s.htBits ∧
    (endBlock s).htVal = s.htVal ∧ (endBlock s).qtRam = s.qtRam ∧ (endBlock s).htAct = s.htAct ∧
    (endBlock s).qtAct = s.qtAct ∧ (endBlock s).m = s.m ∧ (endBlock s).sub = s.sub ∧ (endBlock s).ip = s.ip ∧
    (endBlock s).dbits = s.dbits ∧ (endBlock s).src = s.src ∧ (endBlock s).endRec = s.endRec ∧
    (endBlock s).cur = s.cur ∧ (endBlock s).c0 = s.c0 ∧ (endBlock s).zz = s.zz ∧ (endBlock s).fbuf = s.fbuf ∧
    (endBlock s).sbuf = s.sbuf ∧ (endBlock s).stalled = s.stalled ∧ (endBlock s).resetAsserted = s.resetAsserted ∧
    (endBlock s).mem = s.mem ∧ (endBlock s).before = s.before ∧ (endBlock s).busMap = s.busMap ∧
    (endBlock s).agenda = s.agenda ∧ (endBlock s).readData = s.readData ∧ (endBlock s).memData = s.memData ∧
    (endBlock s).draws = s.draws := by
  unfold endBlock
  split <;> exact
    ⟨rfl, rfl, rfl, rfl, rfl, rfl, rfl, rfl, rfl, rfl, rfl, rfl, rfl, rfl, rfl, rfl, rfl, rfl, rfl, rfl, rfl, rfl,
    rfl, rfl, rfl, rfl, rfl, rfl, rfl, rfl, rfl, rfl, rfl, rfl, rfl, rfl, rfl, rfl, rfl, rfl, rfl, rfl, rfl, rfl,
    rfl, rfl, rfl, rfl⟩

@[simp] theorem advanceTo_frame (n : Nat) (s : State) :
    (advanceTo n s).params = s.params ∧ (advanceTo n s).rgbEn = s.rgbEn ∧ (advanceTo n s).sat = s.sat ∧
    (advanceTo n s).irqEn = s.irqEn ∧ (advanceTo n s).seq = s.seq ∧ (advanceTo n s).ign = s.ign ∧
    (advanceTo n s).mkrValid = s.mkrValid ∧ (advanceTo n s).mkr = s.mkr ∧ (advanceTo n s).errcode = s.errcode ∧
    (advanceTo n s).errinfo = s.errinfo ∧ (advanceTo n s).errpos = s.errpos ∧ (advanceTo n s).inpos = s.inpos ∧
    (advanceTo n s).mcucnt = s.mcucnt ∧ (advanceTo n s).frameDim = s.frameDim ∧
    (advanceTo n s).frameCfg = s.frameCfg ∧ (advanceTo n s).fcomp = s.fcomp ∧ (advanceTo n s).scanCfg = s.scanCfg ∧
    (advanceTo n s).scomp = s.scomp ∧ (advanceTo n s).inBase = s.inBase ∧ (advanceTo n s).inLen = s.inLen ∧
    (advanceTo n s).outBase = s.outBase ∧ (advanceTo n s).pred = s.pred ∧ (advanceTo n s).stageSeed = s.stageSeed ∧
    (advanceTo n s).htBits = s.htBits ∧ (advanceTo n s).htVal = s.htVal ∧ (advanceTo n s).qtRam = s.qtRam ∧
    (advanceTo n s).htAct = s.htAct ∧ (advanceTo n s).qtAct = s.qtAct ∧ (advanceTo n s).m = s.m ∧
    (advanceTo n s).sub = s.sub ∧ (advanceTo n s).ip = s.ip ∧ (advanceTo n s).dbits = s.dbits ∧
    (advanceTo n s).src = s.src ∧ (advanceTo n s).endRec = s.endRec ∧ (advanceTo n s).cur = s.cur ∧
    (advanceTo n s).c0 = s.c0 ∧ (advanceTo n s).zz = s.zz ∧ (advanceTo n s).fbuf = s.fbuf ∧
    (advanceTo n s).sbuf = s.sbuf ∧ (advanceTo n s).stalled = s.stalled ∧
    (advanceTo n s).resetAsserted = s.resetAsserted ∧ (advanceTo n s).mem = s.mem ∧
    (advanceTo n s).before = s.before ∧ (advanceTo n s).busMap = s.busMap ∧ (advanceTo n s).agenda = s.agenda ∧
    (advanceTo n s).readData = s.readData ∧ (advanceTo n s).memData = s.memData ∧ (advanceTo n s).draws = s.draws := by
  unfold advanceTo
  split
  · exact
      ⟨rfl, rfl, rfl, rfl, rfl, rfl, rfl, rfl, rfl, rfl, rfl, rfl, rfl, rfl, rfl, rfl, rfl, rfl, rfl, rfl, rfl, rfl,
    rfl, rfl, rfl, rfl, rfl, rfl, rfl, rfl, rfl, rfl, rfl, rfl, rfl, rfl, rfl, rfl, rfl, rfl, rfl, rfl, rfl, rfl,
    rfl, rfl, rfl, rfl⟩
  · exact endBlock_frame { s with k := n }

@[simp] theorem nextMcu_writes (s : State) :
    (nextMcu s).mcucnt = BitVec.ofNat 32 (s.m + 1) ∧ (nextMcu s).m = s.m + 1 ∧ (nextMcu s).j = 0 ∧
    (nextMcu s).k = 0 ∧ (nextMcu s).sub = 0 ∧ (nextMcu s).phase = (if s.m + 1 < mcuTotal s then .dc else .drain) :=
  ⟨rfl, rfl, rfl, rfl, rfl, rfl⟩

@[simp] theorem nextMcu_frame (s : State) :
    (nextMcu s).params = s.params ∧ (nextMcu s).rgbEn = s.rgbEn ∧ (nextMcu s).sat = s.sat ∧
    (nextMcu s).irqEn = s.irqEn ∧ (nextMcu s).seq = s.seq ∧ (nextMcu s).ign = s.ign ∧
    (nextMcu s).mkrValid = s.mkrValid ∧ (nextMcu s).mkr = s.mkr ∧ (nextMcu s).errcode = s.errcode ∧
    (nextMcu s).errinfo = s.errinfo ∧ (nextMcu s).errpos = s.errpos ∧ (nextMcu s).inpos = s.inpos ∧
    (nextMcu s).frameDim = s.frameDim ∧ (nextMcu s).frameCfg = s.frameCfg ∧ (nextMcu s).fcomp = s.fcomp ∧
    (nextMcu s).scanCfg = s.scanCfg ∧ (nextMcu s).scomp = s.scomp ∧ (nextMcu s).inBase = s.inBase ∧
    (nextMcu s).inLen = s.inLen ∧ (nextMcu s).outBase = s.outBase ∧ (nextMcu s).pred = s.pred ∧
    (nextMcu s).stageSeed = s.stageSeed ∧ (nextMcu s).htBits = s.htBits ∧ (nextMcu s).htVal = s.htVal ∧
    (nextMcu s).qtRam = s.qtRam ∧ (nextMcu s).htAct = s.htAct ∧ (nextMcu s).qtAct = s.qtAct ∧ (nextMcu s).ip = s.ip ∧
    (nextMcu s).dbits = s.dbits ∧ (nextMcu s).src = s.src ∧ (nextMcu s).endRec = s.endRec ∧ (nextMcu s).cur = s.cur ∧
    (nextMcu s).c0 = s.c0 ∧ (nextMcu s).zz = s.zz ∧ (nextMcu s).fbuf = s.fbuf ∧ (nextMcu s).sbuf = s.sbuf ∧
    (nextMcu s).stalled = s.stalled ∧ (nextMcu s).resetAsserted = s.resetAsserted ∧ (nextMcu s).mem = s.mem ∧
    (nextMcu s).before = s.before ∧ (nextMcu s).busMap = s.busMap ∧ (nextMcu s).agenda = s.agenda ∧
    (nextMcu s).readData = s.readData ∧ (nextMcu s).memData = s.memData ∧ (nextMcu s).draws = s.draws :=
  ⟨rfl, rfl, rfl, rfl, rfl, rfl, rfl, rfl, rfl, rfl, rfl, rfl, rfl, rfl, rfl, rfl, rfl, rfl, rfl, rfl, rfl, rfl,
    rfl, rfl, rfl, rfl, rfl, rfl, rfl, rfl, rfl, rfl, rfl, rfl, rfl, rfl, rfl, rfl, rfl, rfl, rfl, rfl, rfl, rfl, rfl⟩

@[simp] theorem finishDecode_writes (s : State) :
    (finishDecode s).inpos = BitVec.ofNat 32 s.endRec.pos ∧ (finishDecode s).mkrValid = s.endRec.marker ∧
    (finishDecode s).mkr = s.endRec.mbyte ∧ (finishDecode s).seq = .done :=
  ⟨rfl, rfl, rfl, rfl⟩

@[simp] theorem finishDecode_frame (s : State) :
    (finishDecode s).params = s.params ∧ (finishDecode s).rgbEn = s.rgbEn ∧ (finishDecode s).sat = s.sat ∧
    (finishDecode s).irqEn = s.irqEn ∧ (finishDecode s).ign = s.ign ∧ (finishDecode s).errcode = s.errcode ∧
    (finishDecode s).errinfo = s.errinfo ∧ (finishDecode s).errpos = s.errpos ∧ (finishDecode s).mcucnt = s.mcucnt ∧
    (finishDecode s).frameDim = s.frameDim ∧ (finishDecode s).frameCfg = s.frameCfg ∧
    (finishDecode s).fcomp = s.fcomp ∧ (finishDecode s).scanCfg = s.scanCfg ∧ (finishDecode s).scomp = s.scomp ∧
    (finishDecode s).inBase = s.inBase ∧ (finishDecode s).inLen = s.inLen ∧ (finishDecode s).outBase = s.outBase ∧
    (finishDecode s).pred = s.pred ∧ (finishDecode s).stageSeed = s.stageSeed ∧ (finishDecode s).htBits = s.htBits ∧
    (finishDecode s).htVal = s.htVal ∧ (finishDecode s).qtRam = s.qtRam ∧ (finishDecode s).htAct = s.htAct ∧
    (finishDecode s).qtAct = s.qtAct ∧ (finishDecode s).m = s.m ∧ (finishDecode s).j = s.j ∧
    (finishDecode s).k = s.k ∧ (finishDecode s).phase = s.phase ∧ (finishDecode s).sub = s.sub ∧
    (finishDecode s).ip = s.ip ∧ (finishDecode s).dbits = s.dbits ∧ (finishDecode s).src = s.src ∧
    (finishDecode s).endRec = s.endRec ∧ (finishDecode s).cur = s.cur ∧ (finishDecode s).c0 = s.c0 ∧
    (finishDecode s).zz = s.zz ∧ (finishDecode s).fbuf = s.fbuf ∧ (finishDecode s).sbuf = s.sbuf ∧
    (finishDecode s).stalled = s.stalled ∧ (finishDecode s).resetAsserted = s.resetAsserted ∧
    (finishDecode s).mem = s.mem ∧ (finishDecode s).before = s.before ∧ (finishDecode s).busMap = s.busMap ∧
    (finishDecode s).agenda = s.agenda ∧ (finishDecode s).readData = s.readData ∧
    (finishDecode s).memData = s.memData ∧ (finishDecode s).draws = s.draws :=
  ⟨rfl, rfl, rfl, rfl, rfl, rfl, rfl, rfl, rfl, rfl, rfl, rfl, rfl, rfl, rfl, rfl, rfl, rfl, rfl, rfl, rfl, rfl,
    rfl, rfl, rfl, rfl, rfl, rfl, rfl, rfl, rfl, rfl, rfl, rfl, rfl, rfl, rfl, rfl, rfl, rfl, rfl, rfl, rfl, rfl,
    rfl, rfl, rfl⟩

@[simp] theorem drawOutput_writes (s : State) :
    (drawOutput s).mem = fillFree s.mem s.outBase s.draws (outSize s) ∧ (drawOutput s).draws = s.draws + outSize s :=
  ⟨rfl, rfl⟩

@[simp] theorem drawOutput_frame (s : State) :
    (drawOutput s).params = s.params ∧ (drawOutput s).rgbEn = s.rgbEn ∧ (drawOutput s).sat = s.sat ∧
    (drawOutput s).irqEn = s.irqEn ∧ (drawOutput s).seq = s.seq ∧ (drawOutput s).ign = s.ign ∧
    (drawOutput s).mkrValid = s.mkrValid ∧ (drawOutput s).mkr = s.mkr ∧ (drawOutput s).errcode = s.errcode ∧
    (drawOutput s).errinfo = s.errinfo ∧ (drawOutput s).errpos = s.errpos ∧ (drawOutput s).inpos = s.inpos ∧
    (drawOutput s).mcucnt = s.mcucnt ∧ (drawOutput s).frameDim = s.frameDim ∧ (drawOutput s).frameCfg = s.frameCfg ∧
    (drawOutput s).fcomp = s.fcomp ∧ (drawOutput s).scanCfg = s.scanCfg ∧ (drawOutput s).scomp = s.scomp ∧
    (drawOutput s).inBase = s.inBase ∧ (drawOutput s).inLen = s.inLen ∧ (drawOutput s).outBase = s.outBase ∧
    (drawOutput s).pred = s.pred ∧ (drawOutput s).stageSeed = s.stageSeed ∧ (drawOutput s).htBits = s.htBits ∧
    (drawOutput s).htVal = s.htVal ∧ (drawOutput s).qtRam = s.qtRam ∧ (drawOutput s).htAct = s.htAct ∧
    (drawOutput s).qtAct = s.qtAct ∧ (drawOutput s).m = s.m ∧ (drawOutput s).j = s.j ∧ (drawOutput s).k = s.k ∧
    (drawOutput s).phase = s.phase ∧ (drawOutput s).sub = s.sub ∧ (drawOutput s).ip = s.ip ∧
    (drawOutput s).dbits = s.dbits ∧ (drawOutput s).src = s.src ∧ (drawOutput s).endRec = s.endRec ∧
    (drawOutput s).cur = s.cur ∧ (drawOutput s).c0 = s.c0 ∧ (drawOutput s).zz = s.zz ∧ (drawOutput s).fbuf = s.fbuf ∧
    (drawOutput s).sbuf = s.sbuf ∧ (drawOutput s).stalled = s.stalled ∧
    (drawOutput s).resetAsserted = s.resetAsserted ∧ (drawOutput s).before = s.before ∧
    (drawOutput s).busMap = s.busMap ∧ (drawOutput s).agenda = s.agenda ∧ (drawOutput s).readData = s.readData ∧
    (drawOutput s).memData = s.memData :=
  ⟨rfl, rfl, rfl, rfl, rfl, rfl, rfl, rfl, rfl, rfl, rfl, rfl, rfl, rfl, rfl, rfl, rfl, rfl, rfl, rfl, rfl, rfl,
    rfl, rfl, rfl, rfl, rfl, rfl, rfl, rfl, rfl, rfl, rfl, rfl, rfl, rfl, rfl, rfl, rfl, rfl, rfl, rfl, rfl, rfl,
    rfl, rfl, rfl, rfl, rfl⟩

@[simp] theorem endFailedDecode_writes (s : State) :
    (endFailedDecode s).inpos = BitVec.ofNat 32 s.ip ∧
    (endFailedDecode s).mkrValid = (s.endRec.ended && s.endRec.marker) ∧
    (endFailedDecode s).mkr = (if s.endRec.ended then s.endRec.mbyte else 0#8) ∧
    (endFailedDecode s).mem = fillFree s.mem s.outBase s.draws (outSize s) ∧
    (endFailedDecode s).draws = s.draws + outSize s :=
  ⟨rfl, rfl, rfl, rfl, rfl⟩

@[simp] theorem endFailedDecode_frame (s : State) :
    (endFailedDecode s).params = s.params ∧ (endFailedDecode s).rgbEn = s.rgbEn ∧ (endFailedDecode s).sat = s.sat ∧
    (endFailedDecode s).irqEn = s.irqEn ∧ (endFailedDecode s).seq = s.seq ∧ (endFailedDecode s).ign = s.ign ∧
    (endFailedDecode s).errcode = s.errcode ∧ (endFailedDecode s).errinfo = s.errinfo ∧
    (endFailedDecode s).errpos = s.errpos ∧ (endFailedDecode s).mcucnt = s.mcucnt ∧
    (endFailedDecode s).frameDim = s.frameDim ∧ (endFailedDecode s).frameCfg = s.frameCfg ∧
    (endFailedDecode s).fcomp = s.fcomp ∧ (endFailedDecode s).scanCfg = s.scanCfg ∧
    (endFailedDecode s).scomp = s.scomp ∧ (endFailedDecode s).inBase = s.inBase ∧
    (endFailedDecode s).inLen = s.inLen ∧ (endFailedDecode s).outBase = s.outBase ∧
    (endFailedDecode s).pred = s.pred ∧ (endFailedDecode s).stageSeed = s.stageSeed ∧
    (endFailedDecode s).htBits = s.htBits ∧ (endFailedDecode s).htVal = s.htVal ∧
    (endFailedDecode s).qtRam = s.qtRam ∧ (endFailedDecode s).htAct = s.htAct ∧ (endFailedDecode s).qtAct = s.qtAct ∧
    (endFailedDecode s).m = s.m ∧ (endFailedDecode s).j = s.j ∧ (endFailedDecode s).k = s.k ∧
    (endFailedDecode s).phase = s.phase ∧ (endFailedDecode s).sub = s.sub ∧ (endFailedDecode s).ip = s.ip ∧
    (endFailedDecode s).dbits = s.dbits ∧ (endFailedDecode s).src = s.src ∧ (endFailedDecode s).endRec = s.endRec ∧
    (endFailedDecode s).cur = s.cur ∧ (endFailedDecode s).c0 = s.c0 ∧ (endFailedDecode s).zz = s.zz ∧
    (endFailedDecode s).fbuf = s.fbuf ∧ (endFailedDecode s).sbuf = s.sbuf ∧ (endFailedDecode s).stalled = s.stalled ∧
    (endFailedDecode s).resetAsserted = s.resetAsserted ∧ (endFailedDecode s).before = s.before ∧
    (endFailedDecode s).busMap = s.busMap ∧ (endFailedDecode s).agenda = s.agenda ∧
    (endFailedDecode s).readData = s.readData ∧ (endFailedDecode s).memData = s.memData :=
  ⟨rfl, rfl, rfl, rfl, rfl, rfl, rfl, rfl, rfl, rfl, rfl, rfl, rfl, rfl, rfl, rfl, rfl, rfl, rfl, rfl, rfl, rfl,
    rfl, rfl, rfl, rfl, rfl, rfl, rfl, rfl, rfl, rfl, rfl, rfl, rfl, rfl, rfl, rfl, rfl, rfl, rfl, rfl, rfl, rfl,
    rfl, rfl⟩

@[simp] theorem raiseErr_writes (e : Err) (s : State) :
    (raiseErr e s).errcode = e.code.num ∧ (raiseErr e s).errinfo = e.info ∧ (raiseErr e s).errpos = e.pos ∧
    (raiseErr e s).seq = .error := by
  unfold raiseErr
  cases e.origin.inDecode <;> exact ⟨rfl, rfl, rfl, rfl⟩

@[simp] theorem raiseErr_frame (e : Err) (s : State) :
    (raiseErr e s).params = s.params ∧ (raiseErr e s).rgbEn = s.rgbEn ∧ (raiseErr e s).sat = s.sat ∧
    (raiseErr e s).irqEn = s.irqEn ∧ (raiseErr e s).ign = s.ign ∧ (raiseErr e s).mcucnt = s.mcucnt ∧
    (raiseErr e s).frameDim = s.frameDim ∧ (raiseErr e s).frameCfg = s.frameCfg ∧ (raiseErr e s).fcomp = s.fcomp ∧
    (raiseErr e s).scanCfg = s.scanCfg ∧ (raiseErr e s).scomp = s.scomp ∧ (raiseErr e s).inBase = s.inBase ∧
    (raiseErr e s).inLen = s.inLen ∧ (raiseErr e s).outBase = s.outBase ∧ (raiseErr e s).pred = s.pred ∧
    (raiseErr e s).stageSeed = s.stageSeed ∧ (raiseErr e s).htBits = s.htBits ∧ (raiseErr e s).htVal = s.htVal ∧
    (raiseErr e s).qtRam = s.qtRam ∧ (raiseErr e s).htAct = s.htAct ∧ (raiseErr e s).qtAct = s.qtAct ∧
    (raiseErr e s).m = s.m ∧ (raiseErr e s).j = s.j ∧ (raiseErr e s).k = s.k ∧ (raiseErr e s).phase = s.phase ∧
    (raiseErr e s).sub = s.sub ∧ (raiseErr e s).ip = s.ip ∧ (raiseErr e s).dbits = s.dbits ∧
    (raiseErr e s).src = s.src ∧ (raiseErr e s).endRec = s.endRec ∧ (raiseErr e s).cur = s.cur ∧
    (raiseErr e s).c0 = s.c0 ∧ (raiseErr e s).zz = s.zz ∧ (raiseErr e s).fbuf = s.fbuf ∧
    (raiseErr e s).sbuf = s.sbuf ∧ (raiseErr e s).stalled = s.stalled ∧
    (raiseErr e s).resetAsserted = s.resetAsserted ∧ (raiseErr e s).before = s.before ∧
    (raiseErr e s).busMap = s.busMap ∧ (raiseErr e s).agenda = s.agenda ∧ (raiseErr e s).readData = s.readData ∧
    (raiseErr e s).memData = s.memData := by
  unfold raiseErr
  cases e.origin.inDecode <;> exact
    ⟨rfl, rfl, rfl, rfl, rfl, rfl, rfl, rfl, rfl, rfl, rfl, rfl, rfl, rfl, rfl, rfl, rfl, rfl, rfl, rfl, rfl, rfl,
    rfl, rfl, rfl, rfl, rfl, rfl, rfl, rfl, rfl, rfl, rfl, rfl, rfl, rfl, rfl, rfl, rfl, rfl, rfl, rfl⟩

@[simp] theorem cutDecode_writes (s : State) :
    (cutDecode s).inpos = Config.freeWord s.draws ∧ (cutDecode s).mcucnt = Config.freeWord (s.draws + 1) ∧
    (cutDecode s).mkrValid = Config.freeBit (s.draws + 6) ∧ (cutDecode s).mkr = Config.freeByte (s.draws + 7) ∧
    (cutDecode s).mem = fillFree s.mem s.outBase (s.draws + 8) (outSize s) ∧
    (cutDecode s).draws = s.draws + 8 + outSize s :=
  ⟨rfl, rfl, rfl, rfl, rfl, rfl⟩

@[simp] theorem cutDecode_frame (s : State) :
    (cutDecode s).params = s.params ∧ (cutDecode s).rgbEn = s.rgbEn ∧ (cutDecode s).sat = s.sat ∧
    (cutDecode s).irqEn = s.irqEn ∧ (cutDecode s).seq = s.seq ∧ (cutDecode s).ign = s.ign ∧
    (cutDecode s).errcode = s.errcode ∧ (cutDecode s).errinfo = s.errinfo ∧ (cutDecode s).errpos = s.errpos ∧
    (cutDecode s).frameDim = s.frameDim ∧ (cutDecode s).frameCfg = s.frameCfg ∧ (cutDecode s).fcomp = s.fcomp ∧
    (cutDecode s).scanCfg = s.scanCfg ∧ (cutDecode s).scomp = s.scomp ∧ (cutDecode s).inBase = s.inBase ∧
    (cutDecode s).inLen = s.inLen ∧ (cutDecode s).outBase = s.outBase ∧ (cutDecode s).stageSeed = s.stageSeed ∧
    (cutDecode s).htBits = s.htBits ∧ (cutDecode s).htVal = s.htVal ∧ (cutDecode s).qtRam = s.qtRam ∧
    (cutDecode s).htAct = s.htAct ∧ (cutDecode s).qtAct = s.qtAct ∧ (cutDecode s).m = s.m ∧ (cutDecode s).j = s.j ∧
    (cutDecode s).k = s.k ∧ (cutDecode s).phase = s.phase ∧ (cutDecode s).sub = s.sub ∧ (cutDecode s).ip = s.ip ∧
    (cutDecode s).dbits = s.dbits ∧ (cutDecode s).src = s.src ∧ (cutDecode s).endRec = s.endRec ∧
    (cutDecode s).cur = s.cur ∧ (cutDecode s).c0 = s.c0 ∧ (cutDecode s).zz = s.zz ∧ (cutDecode s).fbuf = s.fbuf ∧
    (cutDecode s).sbuf = s.sbuf ∧ (cutDecode s).stalled = s.stalled ∧ (cutDecode s).resetAsserted = s.resetAsserted ∧
    (cutDecode s).before = s.before ∧ (cutDecode s).busMap = s.busMap ∧ (cutDecode s).agenda = s.agenda ∧
    (cutDecode s).readData = s.readData ∧ (cutDecode s).memData = s.memData :=
  ⟨rfl, rfl, rfl, rfl, rfl, rfl, rfl, rfl, rfl, rfl, rfl, rfl, rfl, rfl, rfl, rfl, rfl, rfl, rfl, rfl, rfl, rfl,
    rfl, rfl, rfl, rfl, rfl, rfl, rfl, rfl, rfl, rfl, rfl, rfl, rfl, rfl, rfl, rfl, rfl, rfl, rfl, rfl, rfl, rfl⟩

@[simp] theorem clearForStart_writes (s : State) :
    (clearForStart s).ign = false ∧ (clearForStart s).mkrValid = false ∧ (clearForStart s).mkr = 0#8 ∧
    (clearForStart s).errcode = 0#4 ∧ (clearForStart s).errinfo = 0#32 ∧ (clearForStart s).errpos = 0#32 ∧
    (clearForStart s).inpos = 0#32 ∧ (clearForStart s).mcucnt = 0#32 ∧
    (clearForStart s).pred = Vector.replicate 4 0#16 :=
  ⟨rfl, rfl, rfl, rfl, rfl, rfl, rfl, rfl, rfl⟩

@[simp] theorem clearForStart_frame (s : State) :
    (clearForStart s).params = s.params ∧ (clearForStart s).rgbEn = s.rgbEn ∧ (clearForStart s).sat = s.sat ∧
    (clearForStart s).irqEn = s.irqEn ∧ (clearForStart s).seq = s.seq ∧ (clearForStart s).frameDim = s.frameDim ∧
    (clearForStart s).frameCfg = s.frameCfg ∧ (clearForStart s).fcomp = s.fcomp ∧
    (clearForStart s).scanCfg = s.scanCfg ∧ (clearForStart s).scomp = s.scomp ∧ (clearForStart s).inBase = s.inBase ∧
    (clearForStart s).inLen = s.inLen ∧ (clearForStart s).outBase = s.outBase ∧
    (clearForStart s).stageSeed = s.stageSeed ∧ (clearForStart s).htBits = s.htBits ∧
    (clearForStart s).htVal = s.htVal ∧ (clearForStart s).qtRam = s.qtRam ∧ (clearForStart s).htAct = s.htAct ∧
    (clearForStart s).qtAct = s.qtAct ∧ (clearForStart s).m = s.m ∧ (clearForStart s).j = s.j ∧
    (clearForStart s).k = s.k ∧ (clearForStart s).phase = s.phase ∧ (clearForStart s).sub = s.sub ∧
    (clearForStart s).ip = s.ip ∧ (clearForStart s).dbits = s.dbits ∧ (clearForStart s).src = s.src ∧
    (clearForStart s).endRec = s.endRec ∧ (clearForStart s).cur = s.cur ∧ (clearForStart s).c0 = s.c0 ∧
    (clearForStart s).zz = s.zz ∧ (clearForStart s).fbuf = s.fbuf ∧ (clearForStart s).sbuf = s.sbuf ∧
    (clearForStart s).stalled = s.stalled ∧ (clearForStart s).resetAsserted = s.resetAsserted ∧
    (clearForStart s).mem = s.mem ∧ (clearForStart s).before = s.before ∧ (clearForStart s).busMap = s.busMap ∧
    (clearForStart s).agenda = s.agenda ∧ (clearForStart s).readData = s.readData ∧
    (clearForStart s).memData = s.memData ∧ (clearForStart s).draws = s.draws :=
  ⟨rfl, rfl, rfl, rfl, rfl, rfl, rfl, rfl, rfl, rfl, rfl, rfl, rfl, rfl, rfl, rfl, rfl, rfl, rfl, rfl, rfl, rfl,
    rfl, rfl, rfl, rfl, rfl, rfl, rfl, rfl, rfl, rfl, rfl, rfl, rfl, rfl, rfl, rfl, rfl, rfl, rfl, rfl⟩

@[simp] theorem launch_writes (s : State) :
    (launch s).seq = .busy ∧ (launch s).ip = 0 ∧ (launch s).dbits = [] ∧ (launch s).src = [] ∧
    (launch s).endRec = EndRec.clear ∧ (launch s).cur = 0 ∧ (launch s).c0 = 0 ∧ (launch s).m = 0 ∧ (launch s).j = 0 ∧
    (launch s).k = 0 ∧ (launch s).phase = .dc ∧ (launch s).sub = 0 ∧ (launch s).stalled = false ∧
    (launch s).before = s.mem :=
  ⟨rfl, rfl, rfl, rfl, rfl, rfl, rfl, rfl, rfl, rfl, rfl, rfl, rfl, rfl⟩

@[simp] theorem launch_frame (s : State) :
    (launch s).params = s.params ∧ (launch s).rgbEn = s.rgbEn ∧ (launch s).sat = s.sat ∧ (launch s).irqEn = s.irqEn ∧
    (launch s).ign = s.ign ∧ (launch s).mkrValid = s.mkrValid ∧ (launch s).mkr = s.mkr ∧
    (launch s).errcode = s.errcode ∧ (launch s).errinfo = s.errinfo ∧ (launch s).errpos = s.errpos ∧
    (launch s).inpos = s.inpos ∧ (launch s).mcucnt = s.mcucnt ∧ (launch s).frameDim = s.frameDim ∧
    (launch s).frameCfg = s.frameCfg ∧ (launch s).fcomp = s.fcomp ∧ (launch s).scanCfg = s.scanCfg ∧
    (launch s).scomp = s.scomp ∧ (launch s).inBase = s.inBase ∧ (launch s).inLen = s.inLen ∧
    (launch s).outBase = s.outBase ∧ (launch s).pred = s.pred ∧ (launch s).stageSeed = s.stageSeed ∧
    (launch s).htBits = s.htBits ∧ (launch s).htVal = s.htVal ∧ (launch s).qtRam = s.qtRam ∧
    (launch s).htAct = s.htAct ∧ (launch s).qtAct = s.qtAct ∧ (launch s).zz = s.zz ∧ (launch s).fbuf = s.fbuf ∧
    (launch s).sbuf = s.sbuf ∧ (launch s).resetAsserted = s.resetAsserted ∧ (launch s).mem = s.mem ∧
    (launch s).busMap = s.busMap ∧ (launch s).agenda = s.agenda ∧ (launch s).readData = s.readData ∧
    (launch s).memData = s.memData ∧ (launch s).draws = s.draws :=
  ⟨rfl, rfl, rfl, rfl, rfl, rfl, rfl, rfl, rfl, rfl, rfl, rfl, rfl, rfl, rfl, rfl, rfl, rfl, rfl, rfl, rfl, rfl,
    rfl, rfl, rfl, rfl, rfl, rfl, rfl, rfl, rfl, rfl, rfl, rfl, rfl, rfl, rfl⟩

@[simp] theorem setHt_writes (t : Fin 8) (u : HtTable) (s : State) :
    (setHt t u s).htAct = s.htAct.set t.val u :=
  rfl

@[simp] theorem setHt_frame (t : Fin 8) (u : HtTable) (s : State) :
    (setHt t u s).params = s.params ∧ (setHt t u s).rgbEn = s.rgbEn ∧ (setHt t u s).sat = s.sat ∧
    (setHt t u s).irqEn = s.irqEn ∧ (setHt t u s).seq = s.seq ∧ (setHt t u s).ign = s.ign ∧
    (setHt t u s).mkrValid = s.mkrValid ∧ (setHt t u s).mkr = s.mkr ∧ (setHt t u s).errcode = s.errcode ∧
    (setHt t u s).errinfo = s.errinfo ∧ (setHt t u s).errpos = s.errpos ∧ (setHt t u s).inpos = s.inpos ∧
    (setHt t u s).mcucnt = s.mcucnt ∧ (setHt t u s).frameDim = s.frameDim ∧ (setHt t u s).frameCfg = s.frameCfg ∧
    (setHt t u s).fcomp = s.fcomp ∧ (setHt t u s).scanCfg = s.scanCfg ∧ (setHt t u s).scomp = s.scomp ∧
    (setHt t u s).inBase = s.inBase ∧ (setHt t u s).inLen = s.inLen ∧ (setHt t u s).outBase = s.outBase ∧
    (setHt t u s).pred = s.pred ∧ (setHt t u s).stageSeed = s.stageSeed ∧ (setHt t u s).htBits = s.htBits ∧
    (setHt t u s).htVal = s.htVal ∧ (setHt t u s).qtRam = s.qtRam ∧ (setHt t u s).qtAct = s.qtAct ∧
    (setHt t u s).m = s.m ∧ (setHt t u s).j = s.j ∧ (setHt t u s).k = s.k ∧ (setHt t u s).phase = s.phase ∧
    (setHt t u s).sub = s.sub ∧ (setHt t u s).ip = s.ip ∧ (setHt t u s).dbits = s.dbits ∧ (setHt t u s).src = s.src ∧
    (setHt t u s).endRec = s.endRec ∧ (setHt t u s).cur = s.cur ∧ (setHt t u s).c0 = s.c0 ∧ (setHt t u s).zz = s.zz ∧
    (setHt t u s).fbuf = s.fbuf ∧ (setHt t u s).sbuf = s.sbuf ∧ (setHt t u s).stalled = s.stalled ∧
    (setHt t u s).resetAsserted = s.resetAsserted ∧ (setHt t u s).mem = s.mem ∧ (setHt t u s).before = s.before ∧
    (setHt t u s).busMap = s.busMap ∧ (setHt t u s).agenda = s.agenda ∧ (setHt t u s).readData = s.readData ∧
    (setHt t u s).memData = s.memData ∧ (setHt t u s).draws = s.draws :=
  ⟨rfl, rfl, rfl, rfl, rfl, rfl, rfl, rfl, rfl, rfl, rfl, rfl, rfl, rfl, rfl, rfl, rfl, rfl, rfl, rfl, rfl, rfl,
    rfl, rfl, rfl, rfl, rfl, rfl, rfl, rfl, rfl, rfl, rfl, rfl, rfl, rfl, rfl, rfl, rfl, rfl, rfl, rfl, rfl, rfl,
    rfl, rfl, rfl, rfl, rfl, rfl⟩

@[simp] theorem setQt_writes (q : Fin 4) (u : QtTable) (s : State) :
    (setQt q u s).qtAct = s.qtAct.set q.val u :=
  rfl

@[simp] theorem setQt_frame (q : Fin 4) (u : QtTable) (s : State) :
    (setQt q u s).params = s.params ∧ (setQt q u s).rgbEn = s.rgbEn ∧ (setQt q u s).sat = s.sat ∧
    (setQt q u s).irqEn = s.irqEn ∧ (setQt q u s).seq = s.seq ∧ (setQt q u s).ign = s.ign ∧
    (setQt q u s).mkrValid = s.mkrValid ∧ (setQt q u s).mkr = s.mkr ∧ (setQt q u s).errcode = s.errcode ∧
    (setQt q u s).errinfo = s.errinfo ∧ (setQt q u s).errpos = s.errpos ∧ (setQt q u s).inpos = s.inpos ∧
    (setQt q u s).mcucnt = s.mcucnt ∧ (setQt q u s).frameDim = s.frameDim ∧ (setQt q u s).frameCfg = s.frameCfg ∧
    (setQt q u s).fcomp = s.fcomp ∧ (setQt q u s).scanCfg = s.scanCfg ∧ (setQt q u s).scomp = s.scomp ∧
    (setQt q u s).inBase = s.inBase ∧ (setQt q u s).inLen = s.inLen ∧ (setQt q u s).outBase = s.outBase ∧
    (setQt q u s).pred = s.pred ∧ (setQt q u s).stageSeed = s.stageSeed ∧ (setQt q u s).htBits = s.htBits ∧
    (setQt q u s).htVal = s.htVal ∧ (setQt q u s).qtRam = s.qtRam ∧ (setQt q u s).htAct = s.htAct ∧
    (setQt q u s).m = s.m ∧ (setQt q u s).j = s.j ∧ (setQt q u s).k = s.k ∧ (setQt q u s).phase = s.phase ∧
    (setQt q u s).sub = s.sub ∧ (setQt q u s).ip = s.ip ∧ (setQt q u s).dbits = s.dbits ∧ (setQt q u s).src = s.src ∧
    (setQt q u s).endRec = s.endRec ∧ (setQt q u s).cur = s.cur ∧ (setQt q u s).c0 = s.c0 ∧ (setQt q u s).zz = s.zz ∧
    (setQt q u s).fbuf = s.fbuf ∧ (setQt q u s).sbuf = s.sbuf ∧ (setQt q u s).stalled = s.stalled ∧
    (setQt q u s).resetAsserted = s.resetAsserted ∧ (setQt q u s).mem = s.mem ∧ (setQt q u s).before = s.before ∧
    (setQt q u s).busMap = s.busMap ∧ (setQt q u s).agenda = s.agenda ∧ (setQt q u s).readData = s.readData ∧
    (setQt q u s).memData = s.memData ∧ (setQt q u s).draws = s.draws :=
  ⟨rfl, rfl, rfl, rfl, rfl, rfl, rfl, rfl, rfl, rfl, rfl, rfl, rfl, rfl, rfl, rfl, rfl, rfl, rfl, rfl, rfl, rfl,
    rfl, rfl, rfl, rfl, rfl, rfl, rfl, rfl, rfl, rfl, rfl, rfl, rfl, rfl, rfl, rfl, rfl, rfl, rfl, rfl, rfl, rfl,
    rfl, rfl, rfl, rfl, rfl, rfl⟩

@[simp] theorem invalidateHt_writes (t : Fin 8) (s : State) :
    (invalidateHt t s).htAct = s.htAct.set t.val { s.htAct.get t with valid := false } :=
  rfl

@[simp] theorem invalidateHt_frame (t : Fin 8) (s : State) :
    (invalidateHt t s).params = s.params ∧ (invalidateHt t s).rgbEn = s.rgbEn ∧ (invalidateHt t s).sat = s.sat ∧
    (invalidateHt t s).irqEn = s.irqEn ∧ (invalidateHt t s).seq = s.seq ∧ (invalidateHt t s).ign = s.ign ∧
    (invalidateHt t s).mkrValid = s.mkrValid ∧ (invalidateHt t s).mkr = s.mkr ∧
    (invalidateHt t s).errcode = s.errcode ∧ (invalidateHt t s).errinfo = s.errinfo ∧
    (invalidateHt t s).errpos = s.errpos ∧ (invalidateHt t s).inpos = s.inpos ∧
    (invalidateHt t s).mcucnt = s.mcucnt ∧ (invalidateHt t s).frameDim = s.frameDim ∧
    (invalidateHt t s).frameCfg = s.frameCfg ∧ (invalidateHt t s).fcomp = s.fcomp ∧
    (invalidateHt t s).scanCfg = s.scanCfg ∧ (invalidateHt t s).scomp = s.scomp ∧
    (invalidateHt t s).inBase = s.inBase ∧ (invalidateHt t s).inLen = s.inLen ∧
    (invalidateHt t s).outBase = s.outBase ∧ (invalidateHt t s).pred = s.pred ∧
    (invalidateHt t s).stageSeed = s.stageSeed ∧ (invalidateHt t s).htBits = s.htBits ∧
    (invalidateHt t s).htVal = s.htVal ∧ (invalidateHt t s).qtRam = s.qtRam ∧ (invalidateHt t s).qtAct = s.qtAct ∧
    (invalidateHt t s).m = s.m ∧ (invalidateHt t s).j = s.j ∧ (invalidateHt t s).k = s.k ∧
    (invalidateHt t s).phase = s.phase ∧ (invalidateHt t s).sub = s.sub ∧ (invalidateHt t s).ip = s.ip ∧
    (invalidateHt t s).dbits = s.dbits ∧ (invalidateHt t s).src = s.src ∧ (invalidateHt t s).endRec = s.endRec ∧
    (invalidateHt t s).cur = s.cur ∧ (invalidateHt t s).c0 = s.c0 ∧ (invalidateHt t s).zz = s.zz ∧
    (invalidateHt t s).fbuf = s.fbuf ∧ (invalidateHt t s).sbuf = s.sbuf ∧ (invalidateHt t s).stalled = s.stalled ∧
    (invalidateHt t s).resetAsserted = s.resetAsserted ∧ (invalidateHt t s).mem = s.mem ∧
    (invalidateHt t s).before = s.before ∧ (invalidateHt t s).busMap = s.busMap ∧
    (invalidateHt t s).agenda = s.agenda ∧ (invalidateHt t s).readData = s.readData ∧
    (invalidateHt t s).memData = s.memData ∧ (invalidateHt t s).draws = s.draws :=
  ⟨rfl, rfl, rfl, rfl, rfl, rfl, rfl, rfl, rfl, rfl, rfl, rfl, rfl, rfl, rfl, rfl, rfl, rfl, rfl, rfl, rfl, rfl,
    rfl, rfl, rfl, rfl, rfl, rfl, rfl, rfl, rfl, rfl, rfl, rfl, rfl, rfl, rfl, rfl, rfl, rfl, rfl, rfl, rfl, rfl,
    rfl, rfl, rfl, rfl, rfl, rfl⟩

@[simp] theorem invalidateQt_writes (q : Fin 4) (s : State) :
    (invalidateQt q s).qtAct = s.qtAct.set q.val { s.qtAct.get q with valid := false } :=
  rfl

@[simp] theorem invalidateQt_frame (q : Fin 4) (s : State) :
    (invalidateQt q s).params = s.params ∧ (invalidateQt q s).rgbEn = s.rgbEn ∧ (invalidateQt q s).sat = s.sat ∧
    (invalidateQt q s).irqEn = s.irqEn ∧ (invalidateQt q s).seq = s.seq ∧ (invalidateQt q s).ign = s.ign ∧
    (invalidateQt q s).mkrValid = s.mkrValid ∧ (invalidateQt q s).mkr = s.mkr ∧
    (invalidateQt q s).errcode = s.errcode ∧ (invalidateQt q s).errinfo = s.errinfo ∧
    (invalidateQt q s).errpos = s.errpos ∧ (invalidateQt q s).inpos = s.inpos ∧
    (invalidateQt q s).mcucnt = s.mcucnt ∧ (invalidateQt q s).frameDim = s.frameDim ∧
    (invalidateQt q s).frameCfg = s.frameCfg ∧ (invalidateQt q s).fcomp = s.fcomp ∧
    (invalidateQt q s).scanCfg = s.scanCfg ∧ (invalidateQt q s).scomp = s.scomp ∧
    (invalidateQt q s).inBase = s.inBase ∧ (invalidateQt q s).inLen = s.inLen ∧
    (invalidateQt q s).outBase = s.outBase ∧ (invalidateQt q s).pred = s.pred ∧
    (invalidateQt q s).stageSeed = s.stageSeed ∧ (invalidateQt q s).htBits = s.htBits ∧
    (invalidateQt q s).htVal = s.htVal ∧ (invalidateQt q s).qtRam = s.qtRam ∧ (invalidateQt q s).htAct = s.htAct ∧
    (invalidateQt q s).m = s.m ∧ (invalidateQt q s).j = s.j ∧ (invalidateQt q s).k = s.k ∧
    (invalidateQt q s).phase = s.phase ∧ (invalidateQt q s).sub = s.sub ∧ (invalidateQt q s).ip = s.ip ∧
    (invalidateQt q s).dbits = s.dbits ∧ (invalidateQt q s).src = s.src ∧ (invalidateQt q s).endRec = s.endRec ∧
    (invalidateQt q s).cur = s.cur ∧ (invalidateQt q s).c0 = s.c0 ∧ (invalidateQt q s).zz = s.zz ∧
    (invalidateQt q s).fbuf = s.fbuf ∧ (invalidateQt q s).sbuf = s.sbuf ∧ (invalidateQt q s).stalled = s.stalled ∧
    (invalidateQt q s).resetAsserted = s.resetAsserted ∧ (invalidateQt q s).mem = s.mem ∧
    (invalidateQt q s).before = s.before ∧ (invalidateQt q s).busMap = s.busMap ∧
    (invalidateQt q s).agenda = s.agenda ∧ (invalidateQt q s).readData = s.readData ∧
    (invalidateQt q s).memData = s.memData ∧ (invalidateQt q s).draws = s.draws :=
  ⟨rfl, rfl, rfl, rfl, rfl, rfl, rfl, rfl, rfl, rfl, rfl, rfl, rfl, rfl, rfl, rfl, rfl, rfl, rfl, rfl, rfl, rfl,
    rfl, rfl, rfl, rfl, rfl, rfl, rfl, rfl, rfl, rfl, rfl, rfl, rfl, rfl, rfl, rfl, rfl, rfl, rfl, rfl, rfl, rfl,
    rfl, rfl, rfl, rfl, rfl, rfl⟩

@[simp] theorem reconComp_writes (s : State) (j : Fin 4) :
    (reconComp s j).fbuf = s.fbuf.set j.val (dequant s.params (s.zz.get j) (quantTable s j).q) ∧
    (reconComp s j).sbuf = s.sbuf.set j.val (idct s.params.pIdct (dequant s.params (s.zz.get j) (quantTable s j).q)) :=
  ⟨rfl, rfl⟩

@[simp] theorem reconComp_frame (s : State) (j : Fin 4) :
    (reconComp s j).params = s.params ∧ (reconComp s j).rgbEn = s.rgbEn ∧ (reconComp s j).sat = s.sat ∧
    (reconComp s j).irqEn = s.irqEn ∧ (reconComp s j).seq = s.seq ∧ (reconComp s j).ign = s.ign ∧
    (reconComp s j).mkrValid = s.mkrValid ∧ (reconComp s j).mkr = s.mkr ∧ (reconComp s j).errcode = s.errcode ∧
    (reconComp s j).errinfo = s.errinfo ∧ (reconComp s j).errpos = s.errpos ∧ (reconComp s j).inpos = s.inpos ∧
    (reconComp s j).mcucnt = s.mcucnt ∧ (reconComp s j).frameDim = s.frameDim ∧
    (reconComp s j).frameCfg = s.frameCfg ∧ (reconComp s j).fcomp = s.fcomp ∧ (reconComp s j).scanCfg = s.scanCfg ∧
    (reconComp s j).scomp = s.scomp ∧ (reconComp s j).inBase = s.inBase ∧ (reconComp s j).inLen = s.inLen ∧
    (reconComp s j).outBase = s.outBase ∧ (reconComp s j).pred = s.pred ∧ (reconComp s j).stageSeed = s.stageSeed ∧
    (reconComp s j).htBits = s.htBits ∧ (reconComp s j).htVal = s.htVal ∧ (reconComp s j).qtRam = s.qtRam ∧
    (reconComp s j).htAct = s.htAct ∧ (reconComp s j).qtAct = s.qtAct ∧ (reconComp s j).m = s.m ∧
    (reconComp s j).j = s.j ∧ (reconComp s j).k = s.k ∧ (reconComp s j).phase = s.phase ∧
    (reconComp s j).sub = s.sub ∧ (reconComp s j).ip = s.ip ∧ (reconComp s j).dbits = s.dbits ∧
    (reconComp s j).src = s.src ∧ (reconComp s j).endRec = s.endRec ∧ (reconComp s j).cur = s.cur ∧
    (reconComp s j).c0 = s.c0 ∧ (reconComp s j).zz = s.zz ∧ (reconComp s j).stalled = s.stalled ∧
    (reconComp s j).resetAsserted = s.resetAsserted ∧ (reconComp s j).mem = s.mem ∧
    (reconComp s j).before = s.before ∧ (reconComp s j).busMap = s.busMap ∧ (reconComp s j).agenda = s.agenda ∧
    (reconComp s j).readData = s.readData ∧ (reconComp s j).memData = s.memData ∧ (reconComp s j).draws = s.draws :=
  ⟨rfl, rfl, rfl, rfl, rfl, rfl, rfl, rfl, rfl, rfl, rfl, rfl, rfl, rfl, rfl, rfl, rfl, rfl, rfl, rfl, rfl, rfl,
    rfl, rfl, rfl, rfl, rfl, rfl, rfl, rfl, rfl, rfl, rfl, rfl, rfl, rfl, rfl, rfl, rfl, rfl, rfl, rfl, rfl, rfl,
    rfl, rfl, rfl, rfl, rfl⟩

@[simp] theorem setBusMap_writes (r : List Region) (s : State) :
    (setBusMap r s).busMap = r :=
  rfl

@[simp] theorem setBusMap_frame (r : List Region) (s : State) :
    (setBusMap r s).params = s.params ∧ (setBusMap r s).rgbEn = s.rgbEn ∧ (setBusMap r s).sat = s.sat ∧
    (setBusMap r s).irqEn = s.irqEn ∧ (setBusMap r s).seq = s.seq ∧ (setBusMap r s).ign = s.ign ∧
    (setBusMap r s).mkrValid = s.mkrValid ∧ (setBusMap r s).mkr = s.mkr ∧ (setBusMap r s).errcode = s.errcode ∧
    (setBusMap r s).errinfo = s.errinfo ∧ (setBusMap r s).errpos = s.errpos ∧ (setBusMap r s).inpos = s.inpos ∧
    (setBusMap r s).mcucnt = s.mcucnt ∧ (setBusMap r s).frameDim = s.frameDim ∧
    (setBusMap r s).frameCfg = s.frameCfg ∧ (setBusMap r s).fcomp = s.fcomp ∧ (setBusMap r s).scanCfg = s.scanCfg ∧
    (setBusMap r s).scomp = s.scomp ∧ (setBusMap r s).inBase = s.inBase ∧ (setBusMap r s).inLen = s.inLen ∧
    (setBusMap r s).outBase = s.outBase ∧ (setBusMap r s).pred = s.pred ∧ (setBusMap r s).stageSeed = s.stageSeed ∧
    (setBusMap r s).htBits = s.htBits ∧ (setBusMap r s).htVal = s.htVal ∧ (setBusMap r s).qtRam = s.qtRam ∧
    (setBusMap r s).htAct = s.htAct ∧ (setBusMap r s).qtAct = s.qtAct ∧ (setBusMap r s).m = s.m ∧
    (setBusMap r s).j = s.j ∧ (setBusMap r s).k = s.k ∧ (setBusMap r s).phase = s.phase ∧
    (setBusMap r s).sub = s.sub ∧ (setBusMap r s).ip = s.ip ∧ (setBusMap r s).dbits = s.dbits ∧
    (setBusMap r s).src = s.src ∧ (setBusMap r s).endRec = s.endRec ∧ (setBusMap r s).cur = s.cur ∧
    (setBusMap r s).c0 = s.c0 ∧ (setBusMap r s).zz = s.zz ∧ (setBusMap r s).fbuf = s.fbuf ∧
    (setBusMap r s).sbuf = s.sbuf ∧ (setBusMap r s).stalled = s.stalled ∧
    (setBusMap r s).resetAsserted = s.resetAsserted ∧ (setBusMap r s).mem = s.mem ∧
    (setBusMap r s).before = s.before ∧ (setBusMap r s).agenda = s.agenda ∧ (setBusMap r s).readData = s.readData ∧
    (setBusMap r s).memData = s.memData ∧ (setBusMap r s).draws = s.draws :=
  ⟨rfl, rfl, rfl, rfl, rfl, rfl, rfl, rfl, rfl, rfl, rfl, rfl, rfl, rfl, rfl, rfl, rfl, rfl, rfl, rfl, rfl, rfl,
    rfl, rfl, rfl, rfl, rfl, rfl, rfl, rfl, rfl, rfl, rfl, rfl, rfl, rfl, rfl, rfl, rfl, rfl, rfl, rfl, rfl, rfl,
    rfl, rfl, rfl, rfl, rfl, rfl⟩

end Sys2Proof.Machine
end

