-- ==== Sys2Proof/Laws/Stream.lean ====
section
/-! SUPPORT. The destuffer: everything a destuffer step can do, that FILL's fuel is enough, and what FILL, PEEK and READ
answer (41 R140 to R144). -/

namespace Sys2Proof.Machine

/-! ### One destuffer step -/

theorem inputByte_rejected {s : State} {i : Nat} (h : busRejects s false (addrAt s.inBase i) = true) :
    inputByte i s = rejectedAccess 0#8 i s := by
  rw [inputByte, if_pos h]

theorem inputByte_read {s : State} {i : Nat} (h : busRejects s false (addrAt s.inBase i) = false) :
    inputByte i s = .ok (Memory.read s.mem (addrAt s.inBase i)) s := by
  rw [inputByte, if_neg (by simp [h])]

/-- What an input read can answer: the byte, BusError at its offset, or no completion (20 R66, 41 R140). -/
theorem inputByte_cases (s : State) (i : Nat) :
    inputByte i s = .ok (Memory.read s.mem (addrAt s.inBase i)) s ∨
    inputByte i s = .err ⟨.busError, .dma, 0#8, 0#8, BitVec.ofNat 32 i⟩ s ∧ s.params.pBus = .error ∨
    inputByte i s = .stall s ∧ s.params.pBus = .stall := by
  cases hb : busRejects s false (addrAt s.inBase i)
  · exact .inl (inputByte_read hb)
  · rw [inputByte_rejected hb, rejectedAccess]
    cases s.params.pBus
    · exact .inr (.inl ⟨rfl, rfl⟩)
    · exact .inr (.inr ⟨rfl, rfl⟩)

/-- Everything a destuffer step can do: end the data, push a byte that one or two input bytes give, raise BusError, or
wait (41 R141, R142). -/
theorem dstep_cases (s : State) :
    (∃ pos mk b, dstep s = .ok () (endAt pos mk b s) ∧ pos ≤ s.inLen.toNat) ∨
    (∃ n, (n = 1 ∨ n = 2) ∧ s.ip + n ≤ s.inLen.toNat ∧
      dstep s = .ok () (pushByte (Memory.read s.mem (addrAt s.inBase s.ip)) n s)) ∨
    (∃ i, dstep s = .err ⟨.busError, .dma, 0#8, 0#8, BitVec.ofNat 32 i⟩ s ∧ s.params.pBus = .error) ∨
    dstep s = .stall s ∧ s.params.pBus = .stall := by
  unfold dstep
  split
  · exact .inl ⟨_, _, _, rfl, Nat.le_refl _⟩
  · rename_i hlt
    rcases inputByte_cases s s.ip with h | ⟨h, hp⟩ | ⟨h, hp⟩
    · rw [h]
      simp only [andThen]
      split
      · exact .inr (.inl ⟨1, .inl rfl, by omega, rfl⟩)
      · rename_i hff
        rw [ne_eq, not_not] at hff
        split
        · exact .inl ⟨_, _, _, rfl, by omega⟩
        · rename_i hlt2
          rcases inputByte_cases s (s.ip + 1) with h | ⟨h, hp⟩ | ⟨h, hp⟩
          · rw [h]
            simp only
            split
            · exact .inr (.inl ⟨2, .inr rfl, by omega, by rw [hff]⟩)
            · exact .inl ⟨_, _, _, rfl, by omega⟩
          · rw [h]
            exact .inr (.inr (.inl ⟨_, rfl, hp⟩))
          · rw [h]
            exact .inr (.inr (.inr ⟨rfl, hp⟩))
    · rw [h]
      exact .inr (.inr (.inl ⟨_, rfl, hp⟩))
    · rw [h]
      exact .inr (.inr (.inr ⟨rfl, hp⟩))

theorem andThen_rejectedAccess {α β : Type} (u : Byte) (pos : Nat) (s : State) (f : α → State → Decoded β) :
    andThen (rejectedAccess u pos s) f = rejectedAccess u pos s := by
  unfold rejectedAccess
  cases s.params.pBus <;> rfl

/-- A destuffer step whose read of ip is rejected (41 R140, 60 R225). -/
theorem dstep_rejected_first {s : State} (hip : s.ip < s.inLen.toNat)
    (hr : busRejects s false (addrAt s.inBase s.ip) = true) : dstep s = rejectedAccess 0#8 s.ip s := by
  rw [dstep, if_neg (by omega), inputByte_rejected hr, andThen_rejectedAccess]

/-- A destuffer step that reads the byte after a 0xFF, and that read is rejected (41 R140, 60 R225). -/
theorem dstep_rejected_second {s : State} (hip : s.ip + 1 < s.inLen.toNat)
    (hr : busRejects s false (addrAt s.inBase s.ip) = false) (hb : Memory.read s.mem (addrAt s.inBase s.ip) = 0xFF#8)
    (hr' : busRejects s false (addrAt s.inBase (s.ip + 1)) = true) : dstep s = rejectedAccess 0#8 (s.ip + 1) s := by
  rw [dstep, if_neg (by omega), inputByte_read hr]
  simp only [andThen]
  rw [if_neg (by simp [hb]), if_neg (by omega), inputByte_rejected hr']
  exact andThen_rejectedAccess _ _ _ _

/-- A destuffer step none of whose reads is rejected completes, whatever the platform says of the other bytes (41 R140,
60 R225). -/
theorem dstep_completes {s : State} (h1 : s.ip < s.inLen.toNat → busRejects s false (addrAt s.inBase s.ip) = false)
    (h2 : s.ip + 1 < s.inLen.toNat → Memory.read s.mem (addrAt s.inBase s.ip) = 0xFF#8 →
      busRejects s false (addrAt s.inBase (s.ip + 1)) = false) : ∃ t, dstep s = .ok () t := by
  unfold dstep
  split
  · exact ⟨_, rfl⟩
  · rename_i hip
    rw [inputByte_read (h1 (by omega))]
    simp only [andThen]
    split
    · exact ⟨_, rfl⟩
    · rename_i hb
      split
      · exact ⟨_, rfl⟩
      · rename_i hip2
        rw [inputByte_read (h2 (by omega) (by simpa using hb))]
        simp only
        split <;> exact ⟨_, rfl⟩

/-- What a completed destuffer step leaves (41 R141). -/
theorem dstep_ok {s t : State} {a : Unit} (h : dstep s = .ok a t) :
    (∃ pos mk b, t = endAt pos mk b s ∧ pos ≤ s.inLen.toNat) ∨
    (∃ n, (n = 1 ∨ n = 2) ∧ s.ip + n ≤ s.inLen.toNat ∧
      t = pushByte (Memory.read s.mem (addrAt s.inBase s.ip)) n s) := by
  rcases dstep_cases s with ⟨p, m, b, h', hp⟩ | ⟨n, hn, hle, h'⟩ | ⟨i, h', _⟩ | ⟨h', _⟩
  · rw [h] at h'
    cases h'
    exact .inl ⟨p, m, b, rfl, hp⟩
  · rw [h] at h'
    cases h'
    exact .inr ⟨n, hn, hle, rfl⟩
  · rw [h] at h'
    cases h'
  · rw [h] at h'
    cases h'

/-- A destuffer step that fails raises BusError and changes nothing (41 R140, 60 R223). -/
theorem dstep_err {s t : State} {e : Err} (h : dstep s = .err e t) :
    t = s ∧ e.code = .busError ∧ e.origin = .dma ∧ s.params.pBus = .error := by
  rcases dstep_cases s with ⟨p, m, b, h', _⟩ | ⟨n, _, _, h'⟩ | ⟨i, h', hp⟩ | ⟨h', _⟩
  · rw [h] at h'
    cases h'
  · rw [h] at h'
    cases h'
  · rw [h] at h'
    cases h'
    exact ⟨rfl, rfl, rfl, hp⟩
  · rw [h] at h'
    cases h'

/-- A destuffer step that waits changes nothing (20 R66). -/
theorem dstep_stall {s t : State} (h : dstep s = .stall t) : t = s ∧ s.params.pBus = .stall := by
  rcases dstep_cases s with ⟨p, m, b, h', _⟩ | ⟨n, _, _, h'⟩ | ⟨i, h', _⟩ | ⟨h', hp⟩
  · rw [h] at h'
    cases h'
  · rw [h] at h'
    cases h'
  · rw [h] at h'
    cases h'
  · rw [h] at h'
    cases h'
    exact ⟨rfl, hp⟩

theorem uintToBits_length (v n : Nat) : (uintToBits v n).length = n := by simp [uintToBits]

theorem pushByte_length (b : Byte) (n : Nat) (s : State) : (pushByte b n s).dbits.length = s.dbits.length + 8 := by
  simp [pushByte, uintToBits_length]

/-! ### The frame of the destuffer -/

/-- Two states that differ in the destuffer's own fields only: ip, D, src and END (10 R40). -/
def SameButStream (s t : State) : Prop :=
  t = { s with ip := t.ip, dbits := t.dbits, src := t.src, endRec := t.endRec }

theorem SameButStream.rfl' (s : State) : SameButStream s s := rfl

theorem SameButStream.trans {s t u : State} (h1 : SameButStream s t) (h2 : SameButStream t u) : SameButStream s u := by
  unfold SameButStream at *
  rw [h2, h1]

theorem dstep_frame {s t : State} {a : Unit} (h : dstep s = .ok a t) : SameButStream s t := by
  rcases dstep_ok h with ⟨p, m, b, rfl, _⟩ | ⟨n, _, _, rfl⟩ <;> rfl

/-! ### FILL -/

/-- What a step of FILL's loop is measured by: the bits that are missing. -/
def missing (n : Nat) (s : State) : Nat := s.cur + n - s.dbits.length

theorem fillLoop_done {n f : Nat} {s : State} (h : s.cur + n ≤ s.dbits.length ∨ s.endRec.ended = true) :
    fillLoop n f s = .ok () s := by
  cases f with
  | zero => rfl
  | succ f => rw [fillLoop, if_pos h]

/-- After one destuffer step either the data has ended or 8 bits fewer are missing. -/
theorem dstep_progress {n : Nat} {s t : State} {a : Unit} (h : dstep s = .ok a t) :
    t.endRec.ended = true ∨ missing n t = missing n s - 8 := by
  rcases dstep_ok h with ⟨p, m, b, rfl, _⟩ | ⟨k, _, _, rfl⟩
  · exact .inl rfl
  · refine .inr ?_
    unfold missing
    rw [pushByte_length]
    show s.cur + n - (s.dbits.length + 8) = _
    omega

/-- FILL's loop is the same for every fuel above the bits that are missing. -/
theorem fillLoop_fuel {n : Nat} : ∀ (f g : Nat) (s : State), missing n s < f → missing n s < g →
    fillLoop n f s = fillLoop n g s := by
  intro f
  induction f with
  | zero => intro g s h
            omega
  | succ f ih =>
    intro g s hf hg
    cases g with
    | zero => omega
    | succ g =>
      rw [fillLoop, fillLoop]
      split
      · rfl
      · rename_i hc
        have hm : 1 ≤ missing n s := by
          unfold missing
          omega
        cases hd : dstep s with
        | err e t => rfl
        | stall t => rfl
        | ok a t =>
          simp only [andThen]
          rcases dstep_progress (n := n) hd with he | hp
          · rw [fillLoop_done (.inr he), fillLoop_done (.inr he)]
          · exact ih g t (by omega) (by omega)

/-- FILL does nothing when the bits are there or the data has ended (41 R143). -/
theorem fill_done {n : Nat} {s : State} (h : s.cur + n ≤ s.dbits.length ∨ s.endRec.ended = true) :
    fill n s = .ok () s := fillLoop_done h

/-- FILL takes one destuffer step and goes on, when a bit is missing and the data has not ended (41 R143). -/
theorem fill_step {n : Nat} {s : State} (h1 : s.dbits.length < s.cur + n) (h2 : s.endRec.ended = false) :
    fill n s = andThen (dstep s) fun _ t => fill n t := by
  rw [fill, fillLoop, if_neg (by
    rw [h2]
    simp
    omega)]
  cases hd : dstep s with
  | err e t => rfl
  | stall t => rfl
  | ok a t =>
    simp only [andThen, fill]
    rcases dstep_progress (n := n) hd with he | hp
    · rw [fillLoop_done (.inr he), fillLoop_done (.inr he)]
    · refine fillLoop_fuel _ _ t ?_ ?_
      · unfold missing at *
        omega
      · unfold missing at *
        omega

/-- A rule for FILL: what holds before, is kept by every destuffer step and holds of what FILL answers. -/
theorem fill_induct {n : Nat} (P : State → Prop)
    (hstep : ∀ s t a, P s → s.endRec.ended = false → dstep s = .ok a t → P t) :
    ∀ s, P s → (∀ t a, fill n s = .ok a t → P t) ∧ (∀ e t, fill n s = .err e t → P t ∧ dstep t = .err e t) ∧
      (∀ t, fill n s = .stall t → P t ∧ dstep t = .stall t) := by
  have main : ∀ (m : Nat) (s : State), missing n s ≤ m → P s →
      (∀ t a, fill n s = .ok a t → P t) ∧ (∀ e t, fill n s = .err e t → P t ∧ dstep t = .err e t) ∧
        (∀ t, fill n s = .stall t → P t ∧ dstep t = .stall t) := by
    intro m
    induction m using Nat.strong_induction_on with
    | _ m ih =>
      intro s hm hs
      by_cases hc : s.cur + n ≤ s.dbits.length ∨ s.endRec.ended = true
      · rw [fill_done hc]
        refine ⟨fun t a h => ?_, fun e t h => ?_, fun t h => ?_⟩
        · cases h
          exact hs
        · cases h
        · cases h
      · rw [not_or, not_le, Bool.not_eq_true] at hc
        rw [fill_step hc.1 hc.2]
        cases hd : dstep s with
        | err e t =>
          obtain ⟨rfl, -⟩ := dstep_err hd
          refine ⟨fun t a h => ?_, fun e t h => ?_, fun t h => ?_⟩
          · cases h
          · cases h
            exact ⟨hs, hd⟩
          · cases h
        | stall t =>
          obtain ⟨rfl, -⟩ := dstep_stall hd
          refine ⟨fun t a h => ?_, fun e t h => ?_, fun t h => ?_⟩
          · cases h
          · cases h
          · cases h
            exact ⟨hs, hd⟩
        | ok a t =>
          have ht := hstep s t a hs hc.2 hd
          simp only [andThen]
          rcases dstep_progress (n := n) hd with he | hp
          · rw [fill_done (.inr he)]
            refine ⟨fun u a h => ?_, fun e u h => ?_, fun u h => ?_⟩
            · cases h
              exact ht
            · cases h
            · cases h
          · exact ih (missing n t) (by
              unfold missing at *
              omega) t (Nat.le_refl _) ht
  exact fun s hs => main _ s (Nat.le_refl _) hs

/-- FILL changes the destuffer's fields only. -/
theorem fill_frame {n : Nat} {s : State} : (∀ t a, fill n s = .ok a t → SameButStream s t) ∧
    (∀ e t, fill n s = .err e t → SameButStream s t ∧ dstep t = .err e t) ∧
    (∀ t, fill n s = .stall t → SameButStream s t ∧ dstep t = .stall t) :=
  fill_induct (SameButStream s) (fun _ _ _ h _ hd => h.trans (dstep_frame hd)) s (SameButStream.rfl' s)

/-- After FILL(n) the n bits are there or the data has ended (41 R143). -/
theorem fill_enough {n : Nat} {s t : State} {a : Unit} (h : fill n s = .ok a t) :
    t.cur + n ≤ t.dbits.length ∨ t.endRec.ended = true := by
  have main : ∀ (m : Nat) (s : State), missing n s ≤ m → ∀ t a, fill n s = .ok a t →
      t.cur + n ≤ t.dbits.length ∨ t.endRec.ended = true := by
    intro m
    induction m using Nat.strong_induction_on with
    | _ m ih =>
      intro s hm t a h
      by_cases hc : s.cur + n ≤ s.dbits.length ∨ s.endRec.ended = true
      · rw [fill_done hc] at h
        cases h
        exact hc
      · rw [not_or, not_le, Bool.not_eq_true] at hc
        rw [fill_step hc.1 hc.2] at h
        cases hd : dstep s with
        | err e u => simp [hd, andThen] at h
        | stall u => simp [hd, andThen] at h
        | ok b u =>
          rw [hd] at h
          simp only [andThen] at h
          rcases dstep_progress (n := n) hd with he | hp
          · rw [fill_done (.inr he)] at h
            cases h
            exact .inr he
          · exact ih (missing n u) (by
              unfold missing at *
              omega) u (Nat.le_refl _) t a h
  exact main _ s (Nat.le_refl _) t a h

/-- FILL after FILL does nothing more. -/
theorem fill_fill {n : Nat} {s t : State} {a : Unit} (h : fill n s = .ok a t) : fill n t = .ok () t :=
  fill_done (fill_enough h)

/-! ### PEEK and READ -/

theorem peek_there {n : Nat} {s : State} (h : s.cur + n ≤ s.dbits.length) :
    peek n s = .ok ((s.dbits.drop s.cur).take n) s := by
  rw [peek, fill_done (.inl h)]
  simp only [andThen]
  rw [if_neg (by omega)]

theorem peek_ended {n : Nat} {s : State} (h1 : s.endRec.ended = true) (h2 : s.dbits.length < s.cur + n) :
    peek n s = .err (endErr s) s := by
  rw [peek, fill_done (.inr h1)]
  simp only [andThen]
  rw [if_pos h2]

theorem peek_fill {n : Nat} {s t : State} {a : Unit} (h : fill n s = .ok a t) : peek n s = peek n t := by
  rw [peek, h, peek, fill_fill h]

theorem peek_err {n : Nat} {s t : State} {e : Err} (h : fill n s = .err e t) : peek n s = .err e t := by
  rw [peek, h]
  rfl

theorem peek_stall {n : Nat} {s t : State} (h : fill n s = .stall t) : peek n s = .stall t := by
  rw [peek, h]
  rfl

theorem readBits_there {n : Nat} {s : State} (h : s.cur + n ≤ s.dbits.length) :
    readBits n s = .ok (bitsAtCursor n s) { s with cur := s.cur + n } := by
  rw [readBits]
  split
  · rename_i h0
    subst h0
    simp [bitsAtCursor, bitsToUint]
  · rw [peek_there h]
    rfl

theorem readBits_peek {n : Nat} (h : n ≠ 0) (s : State) :
    readBits n s = andThen (peek n s) fun w t => .ok (bitsToUint w) { t with cur := t.cur + n } := by
  rw [readBits, if_neg h]

theorem readBits_fill {n : Nat} {s t : State} {a : Unit} (h0 : n ≠ 0) (h : fill n s = .ok a t) :
    readBits n s = readBits n t := by
  rw [readBits_peek h0, readBits_peek h0, peek_fill h]

/-- Everything PEEK can answer: the bits, in the state FILL leaves, the end of the data there, or what stopped FILL
(41 R143). -/
theorem peek_cases (n : Nat) (s : State) :
    (∃ t, fill n s = .ok () t ∧ t.cur + n ≤ t.dbits.length ∧ peek n s = .ok ((t.dbits.drop t.cur).take n) t) ∨
    (∃ t, fill n s = .ok () t ∧ t.endRec.ended = true ∧ t.dbits.length < t.cur + n ∧ peek n s = .err (endErr t) t) ∨
    (∃ e t, fill n s = .err e t ∧ peek n s = .err e t) ∨ ∃ t, fill n s = .stall t ∧ peek n s = .stall t := by
  cases h : fill n s with
  | err e t => exact .inr (.inr (.inl ⟨e, t, rfl, peek_err h⟩))
  | stall t => exact .inr (.inr (.inr ⟨t, rfl, peek_stall h⟩))
  | ok a t =>
    by_cases hc : t.cur + n ≤ t.dbits.length
    · exact .inl ⟨t, rfl, hc, by rw [peek_fill h, peek_there hc]⟩
    · rcases fill_enough h with hh | he
      · exact absurd hh hc
      · exact .inr (.inl ⟨t, rfl, he, by omega, by rw [peek_fill h, peek_ended he (by omega)]⟩)

end Sys2Proof.Machine
end

