-- ==== Sys2Proof/Laws/Codes.lean ====
section
/-! SUPPORT. The canonical code: the codes BUILD makes, in order, when it fails, why no code is a prefix of another, and
what MATCH does with a built table (42 R150 to R157). -/

namespace Sys2Proof.Machine

/-! ### Bit strings as numbers -/

theorem bitsToUint_append (u v : List Bool) : bitsToUint (u ++ v) = bitsToUint u * 2 ^ v.length + bitsToUint v := by
  have h : ∀ (v : List Bool) (n : Nat), v.foldl (fun acc b => 2 * acc + b.toNat) n = n * 2 ^ v.length + bitsToUint v := by
    intro v
    induction v with
    | nil => simp [bitsToUint]
    | cons b t ih =>
      intro n
      simp only [bitsToUint, List.foldl_cons, List.length_cons] at ih ⊢
      rw [ih, ih (2 * 0 + b.toNat)]
      ring
  unfold bitsToUint
  rw [List.foldl_append, h v]
  rfl

theorem bitsToUint_lt (v : List Bool) : bitsToUint v < 2 ^ v.length := by
  induction v using List.reverseRecOn with
  | nil => simp [bitsToUint]
  | append_singleton t b ih =>
    rw [bitsToUint_append, List.length_append]
    have : bitsToUint [b] ≤ 1 := by cases b <;> simp [bitsToUint]
    simp only [List.length_cons, List.length_nil, pow_add]
    omega

/-- The first L of the next n bits, as a number. -/
theorem bitsAtCursor_prefix (s : State) (L n : Nat) (hL : L ≤ n) (hn : s.cur + n ≤ s.dbits.length) :
    bitsAtCursor L s = bitsAtCursor n s / 2 ^ (n - L) := by
  unfold bitsAtCursor
  obtain ⟨k, rfl⟩ := Nat.exists_eq_add_of_le hL
  rw [List.take_add, bitsToUint_append]
  have hl : ((s.dbits.drop s.cur).drop L |>.take k).length = k := by simp; omega
  have := bitsToUint_lt ((s.dbits.drop s.cur).drop L |>.take k)
  rw [hl] at this ⊢
  rw [Nat.add_sub_cancel_left, Nat.mul_comm, Nat.mul_add_div (by positivity), Nat.div_eq_of_lt this, Nat.add_zero]

/-! ### The numbers of the canonical code -/

theorem codeCount_of_ge (bits : List Byte) (b : Nat) (h : bits.length < b) : codeCount bits b = 0 := by
  rw [codeCount, List.getD_eq_default _ _ (show bits.length ≤ b - 1 by omega)]
  rfl

theorem firstCode_succ (bits : List Byte) (n : Nat) :
    firstCode bits (n + 2) = 2 * (firstCode bits (n + 1) + codeCount bits (n + 1)) := by
  simp only [firstCode, codeCount, Nat.add_sub_cancel, show n + 2 - 1 = n + 1 from rfl]
  rw [List.range_succ, List.map_append, List.sum_append]
  have : ((List.range n).map fun i => (bits.getD i 0#8).toNat * 2 ^ (n + 1 - i)) =
      (List.range n).map fun i => ((bits.getD i 0#8).toNat * 2 ^ (n - i)) * 2 := by
    apply List.map_congr_left
    intro i hi
    have : i < n := List.mem_range.1 hi
    rw [show n + 1 - i = (n - i) + 1 by omega, pow_succ, Nat.mul_assoc]
  rw [this, List.sum_map_mul_right]
  simp
  ring

theorem firstCode_one (bits : List Byte) : firstCode bits 1 = 0 := rfl

theorem shorterCodes_succ (bits : List Byte) (n : Nat) :
    shorterCodes bits (n + 2) = shorterCodes bits (n + 1) + codeCount bits (n + 1) := by
  simp only [shorterCodes, codeCount, Nat.add_sub_cancel, show n + 2 - 1 = n + 1 from rfl]
  rw [List.take_add_one, List.map_append, List.sum_append]
  congr 1
  cases h : bits[n]? with
  | none => simp [h]
  | some x => simp [h]

/-- Codes of a greater length lie above every shorter code, extended (42 R151). -/
theorem firstCode_le (bits : List Byte) (b d : Nat) (hb : 1 ≤ b) :
    (firstCode bits b + codeCount bits b) * 2 ^ (d + 1) ≤ firstCode bits (b + d + 1) := by
  induction d with
  | zero =>
    obtain ⟨n, rfl⟩ := Nat.exists_eq_add_of_le' hb
    rw [firstCode_succ]
    omega
  | succ d ih =>
    obtain ⟨n, rfl⟩ := Nat.exists_eq_add_of_le' hb
    rw [show n + 1 + (d + 1) + 1 = (n + 1 + d) + 2 by ring, firstCode_succ, pow_succ, ← Nat.mul_assoc]
    omega

/-! ### BUILD -/

theorem codesOfLength_length (b bc f : Nat) (vals : List Byte) : (codesOfLength b bc f vals).length = f := by
  induction f generalizing bc vals with
  | zero => rfl
  | succ f ih => simp [codesOfLength, ih]

theorem codesOfLength_get (b : Nat) : ∀ (f bc : Nat) (vals : List Byte) (e : Nat), e < f →
    (codesOfLength b bc f vals)[e]? = some ⟨b, bc + e, vals.getD e 0#8⟩ := by
  intro f
  induction f with
  | zero => intro bc vals e h
            omega
  | succ f ih =>
    intro bc vals e h
    cases e with
    | zero => cases vals <;> simp [codesOfLength]
    | succ e =>
      rw [codesOfLength, List.getElem?_cons_succ, ih _ _ _ (by omega)]
      cases vals <;> simp <;> ring

theorem codesOfLength_mem {b f bc : Nat} {vals : List Byte} {c : Code} (h : c ∈ codesOfLength b bc f vals) :
    c.len = b ∧ bc ≤ c.code ∧ c.code < bc + f := by
  obtain ⟨e, he, hc⟩ := List.mem_iff_getElem.1 h
  rw [codesOfLength_length] at he
  have := codesOfLength_get b f bc vals e he
  rw [List.getElem?_eq_getElem (by rwa [codesOfLength_length])] at this
  rw [hc] at this
  cases this
  exact ⟨rfl, by simp, by simpa using he⟩

/-- The codes of length b in the canonical assignment (42 R150). -/
def codesAt (bits vals : List Byte) (b : Nat) : List Code :=
  codesOfLength b (firstCode bits b) (codeCount bits b) (vals.drop (shorterCodes bits b))

theorem codesAt_length (bits vals : List Byte) (b : Nat) : (codesAt bits vals b).length = codeCount bits b :=
  codesOfLength_length _ _ _ _

/-- BUILD's loop from length n + 1 on: the canonical codes of the lengths that are left, if all of them fit (42 R150). -/
theorem buildCodes_from (bits vals : List Byte) : ∀ (k n bc : Nat), n + k = bits.length → 2 * bc = firstCode bits (n + 1) →
    ((∀ b, n + 1 ≤ b → b ≤ bits.length → CodesFit bits b) →
      buildCodes (n + 1) bc ((bits.drop n).map BitVec.toNat) (vals.drop (shorterCodes bits (n + 1))) =
        some ((List.range' (n + 1) k).flatMap (codesAt bits vals))) ∧
    ((∃ b, n + 1 ≤ b ∧ b ≤ bits.length ∧ ¬ CodesFit bits b) →
      buildCodes (n + 1) bc ((bits.drop n).map BitVec.toNat) (vals.drop (shorterCodes bits (n + 1))) = none) := by
  intro k
  induction k with
  | zero =>
    intro n bc hn hbc
    rw [List.drop_of_length_le (by omega)]
    refine ⟨fun _ => rfl, fun ⟨b, h1, h2, _⟩ => by omega⟩
  | succ k ih =>
    intro n bc hn hbc
    have hlt : n < bits.length := by omega
    have hd : (bits.drop n).map BitVec.toNat = codeCount bits (n + 1) :: (bits.drop (n + 1)).map BitVec.toNat := by
      rw [List.drop_eq_getElem_cons hlt, List.map_cons]
      simp [codeCount, hlt]
    have hvals : (vals.drop (shorterCodes bits (n + 1))).drop (codeCount bits (n + 1)) =
        vals.drop (shorterCodes bits (n + 1 + 1)) := by
      rw [List.drop_drop, shorterCodes_succ]
    have hnext := ih (n + 1) (2 * bc + codeCount bits (n + 1)) (by omega) (by rw [firstCode_succ, hbc])
    rw [hd, buildCodes, hvals]
    by_cases hfit : CodesFit bits (n + 1)
    · rw [if_neg (by
        unfold CodesFit at hfit
        omega)]
      refine ⟨fun h => ?_, fun ⟨b, h1, h2, h3⟩ => ?_⟩
      · rw [hnext.1 fun b h1 h2 => h b (by omega) h2, Option.map_some, List.range'_succ, List.flatMap_cons, hbc]
        rfl
      · have : b ≠ n + 1 := fun he => h3 (he ▸ hfit)
        rw [hnext.2 ⟨b, by omega, h2, h3⟩, Option.map_none]
    · rw [if_pos (by
        unfold CodesFit at hfit
        omega)]
      exact ⟨fun h => absurd (h (n + 1) (Nat.le_refl _) hlt) hfit, fun _ => rfl⟩

/-- BUILD's codes, when the codes of every length fit (42 R150, R152). -/
theorem buildCodes_fit (bits vals : List Byte) (h : ∀ b, 1 ≤ b → b ≤ bits.length → CodesFit bits b) :
    buildCodes 1 0 (bits.map BitVec.toNat) vals = some ((List.range' 1 bits.length).flatMap (codesAt bits vals)) := by
  have := (buildCodes_from bits vals bits.length 0 0 (Nat.zero_add _) rfl).1 h
  simpa [shorterCodes] using this

theorem buildCodes_unfit (bits vals : List Byte) (h : ∃ b, 1 ≤ b ∧ b ≤ bits.length ∧ ¬ CodesFit bits b) :
    buildCodes 1 0 (bits.map BitVec.toNat) vals = none := by
  have := (buildCodes_from bits vals bits.length 0 0 (Nat.zero_add _) rfl).2 h
  simpa [shorterCodes] using this

/-- The codes of a built table (42 R150). -/
theorem built_codes {bits vals : List Byte} {t : HtTable} (h : build bits vals = .ok t) :
    t.codes = (List.range' 1 bits.length).flatMap (codesAt bits vals) ∧
      ∀ b, 1 ≤ b → b ≤ bits.length → CodesFit bits b := by
  obtain ⟨_, codes, hc, rfl⟩ := build_ok h
  by_cases hf : ∀ b, 1 ≤ b → b ≤ bits.length → CodesFit bits b
  · rw [buildCodes_fit bits vals hf] at hc
    cases hc
    exact ⟨rfl, hf⟩
  · rw [buildCodes_unfit bits vals (by simpa using hf)] at hc
    cases hc

/-- The codes of the lengths below b are as many as `shorterCodes` says. -/
theorem codesBelow_length (bits vals : List Byte) (n : Nat) :
    ((List.range' 1 n).flatMap (codesAt bits vals)).length = shorterCodes bits (n + 1) := by
  induction n with
  | zero => simp [shorterCodes]
  | succ n ih =>
    rw [List.range'_concat, List.flatMap_append, List.length_append, ih, shorterCodes_succ]
    simp [codesAt_length, Nat.add_comm 1 n]

/-- The e-th code of length b stands after all shorter codes (42 R150). -/
theorem codes_get (bits vals : List Byte) (N b e : Nat) (hb : 1 ≤ b) (hN : b ≤ N) (he : e < codeCount bits b) :
    ((List.range' 1 N).flatMap (codesAt bits vals))[shorterCodes bits b + e]? =
      some ⟨b, firstCode bits b + e, vals.getD (shorterCodes bits b + e) 0#8⟩ := by
  obtain ⟨n, rfl⟩ := Nat.exists_eq_add_of_le' hb
  have hsplit : List.range' 1 N = List.range' 1 n ++ (n + 1) :: List.range' (n + 2) (N - n - 1) := by
    have h1 := List.range'_append_1 (s := 1) (m := n) (n := N - n)
    rw [show n + (N - n) = N by omega, show N - n = N - n - 1 + 1 by omega, List.range'_succ, Nat.add_comm 1 n] at h1
    exact h1.symm
  rw [hsplit, List.flatMap_append, List.flatMap_cons,
    List.getElem?_append_right (by rw [codesBelow_length]; omega), codesBelow_length, Nat.add_sub_cancel_left,
    List.getElem?_append_left (by rwa [codesAt_length]), codesAt, codesOfLength_get _ _ _ _ _ he]
  simp [List.getD_eq_getElem?_getD]

/-- Each code, and every code behind it: no shorter, and above it (42 R154). -/
theorem codes_ordered (bits vals : List Byte) (N : Nat) :
    ((List.range' 1 N).flatMap (codesAt bits vals)).Pairwise fun c c' =>
      c.len ≤ c'.len ∧ c.code < c'.code / 2 ^ (c'.len - c.len) := by
  rw [List.pairwise_flatMap]
  constructor
  · intro b _
    unfold codesAt
    generalize vals.drop _ = w
    generalize codeCount bits b = f
    generalize firstCode bits b = bc
    induction f generalizing bc w with
    | zero => exact List.Pairwise.nil
    | succ f ih =>
      rw [codesOfLength, List.pairwise_cons]
      refine ⟨fun c hc => ?_, ih _ _⟩
      obtain ⟨h1, h2, _⟩ := codesOfLength_mem hc
      simp only [h1, Nat.sub_self, Nat.pow_zero, Nat.div_one]
      omega
  · refine List.Pairwise.imp_of_mem (R := fun a b => a < b) ?_ (List.pairwise_lt_range' ..)
    intro a b ha _ hab x hx y hy
    obtain ⟨hx1, hx2, hx3⟩ := codesOfLength_mem hx
    obtain ⟨hy1, hy2, hy3⟩ := codesOfLength_mem hy
    rw [hx1, hy1]
    refine ⟨by omega, ?_⟩
    have ha1 : 1 ≤ a := by
      rw [List.mem_range'_1] at ha
      omega
    have := firstCode_le bits a (b - a - 1) ha1
    rw [show b - a - 1 + 1 = b - a by omega, show a + (b - a - 1) + 1 = b by omega] at this
    have hmul : (x.code + 1) * 2 ^ (b - a) ≤ (firstCode bits a + codeCount bits a) * 2 ^ (b - a) :=
      Nat.mul_le_mul_right _ (by omega)
    exact (Nat.le_div_iff_mul_le (by positivity)).2 (hmul.trans (this.trans hy2))

/-- No code of the list is a prefix of one at another place (42 R154). -/
theorem codes_prefix_free {bits vals : List Byte} {N p q : Nat} {c c' : Code}
    (hp : ((List.range' 1 N).flatMap (codesAt bits vals))[p]? = some c)
    (hq : ((List.range' 1 N).flatMap (codesAt bits vals))[q]? = some c') (hpq : p ≠ q) (hl : c.len ≤ c'.len) :
    c'.code / 2 ^ (c'.len - c.len) ≠ c.code := by
  have hord := List.pairwise_iff_getElem.1 (codes_ordered bits vals N)
  obtain ⟨hp1, rfl⟩ := List.getElem?_eq_some_iff.1 hp
  obtain ⟨hq1, rfl⟩ := List.getElem?_eq_some_iff.1 hq
  rcases Nat.lt_or_gt_of_ne hpq with h | h
  · have := (hord p q hp1 hq1 h).2
    omega
  · obtain ⟨h1, h2⟩ := hord q p hq1 hp1 h
    have he := Nat.le_antisymm hl h1
    rw [he, Nat.sub_self, Nat.pow_zero, Nat.div_one] at h2 ⊢
    omega

theorem maxLength_spec (counts : List Nat) : ∀ b,
    (∀ i f, counts[i]? = some f → f ≠ 0 → b + i ≤ maxLength b counts) ∧
    (maxLength b counts ≠ 0 → ∃ i f, counts[i]? = some f ∧ f ≠ 0 ∧ maxLength b counts = b + i) := by
  induction counts with
  | nil => intro b
           simp [maxLength]
  | cons f t ih =>
    intro b
    obtain ⟨h1, h2⟩ := ih (b + 1)
    rw [maxLength]
    constructor
    · intro i g hg hne
      cases i with
      | zero =>
        simp only [List.getElem?_cons_zero, Option.some.injEq] at hg
        subst hg
        rw [if_neg hne]
        omega
      | succ i =>
        have := h1 i g (by simpa using hg) hne
        omega
    · intro hne
      by_cases hm : maxLength (b + 1) t = 0
      · rw [hm] at hne ⊢
        by_cases hf : f = 0
        · rw [if_pos hf] at hne
          exact absurd rfl hne
        · exact ⟨0, f, rfl, hf, by rw [if_neg hf]; simp⟩
      · obtain ⟨i, g, hg, hg0, he⟩ := h2 hm
        exact ⟨i + 1, g, by simpa using hg, hg0, by
          rw [he]
          split <;> omega⟩

/-- maxlen is the greatest length that has a code (42 R153). -/
theorem maxLength_bits (bits : List Byte) :
    maxLength 1 (bits.map BitVec.toNat) ≤ bits.length ∧
    (∀ b, 1 ≤ b → codeCount bits b ≠ 0 → b ≤ maxLength 1 (bits.map BitVec.toNat)) ∧
    (maxLength 1 (bits.map BitVec.toNat) ≠ 0 → codeCount bits (maxLength 1 (bits.map BitVec.toNat)) ≠ 0) := by
  obtain ⟨h1, h2⟩ := maxLength_spec (bits.map BitVec.toNat) 1
  refine ⟨?_, fun b hb hc => ?_, fun h => ?_⟩
  · by_cases h : maxLength 1 (bits.map BitVec.toNat) = 0
    · omega
    · obtain ⟨i, f, hf, _, he⟩ := h2 h
      have := (List.getElem?_eq_some_iff.1 hf).1
      rw [List.length_map] at this
      omega
  · have hlt : b - 1 < bits.length := by
      by_contra hge
      exact hc (codeCount_of_ge bits b (by omega))
    have := h1 (b - 1) (codeCount bits b) (by simp [codeCount, hlt]) hc
    omega
  · obtain ⟨i, f, hf, hf0, he⟩ := h2 h
    rw [he]
    obtain ⟨hi, hf⟩ := List.getElem?_eq_some_iff.1 hf
    rw [List.length_map] at hi
    have : codeCount bits (1 + i) = f := by
      rw [codeCount, Nat.add_sub_cancel_left, ← hf]
      simp [hi]
    rwa [this]

/-- Every code of a built table fits its length, and its length is between 1 and maxlen (42 R152, R153). -/
theorem built_code_bounds {bits vals : List Byte} {t : HtTable} (h : build bits vals = .ok t) {c : Code}
    (hc : c ∈ t.codes) : 1 ≤ c.len ∧ c.len ≤ t.maxlen ∧ c.len ≤ bits.length ∧ c.code < 2 ^ c.len := by
  obtain ⟨hcodes, hfit⟩ := built_codes h
  obtain ⟨_, codes, _, rfl⟩ := build_ok h
  rw [hcodes, List.mem_flatMap] at hc
  obtain ⟨b, hb, hc⟩ := hc
  rw [List.mem_range'_1] at hb
  obtain ⟨h1, h2, h3⟩ := codesOfLength_mem hc
  have hf := hfit b hb.1 (by omega)
  unfold CodesFit at hf
  rw [h1]
  refine ⟨hb.1, (maxLength_bits bits).2.1 b hb.1 (by omega), by omega, by omega⟩

/-! ### MATCH -/

theorem findCode_none {codes : List Code} {L w : Nat} (h : ∀ c ∈ codes, c.len = L → c.code ≠ w) :
    findCode codes L w = none := by
  rw [findCode, Option.map_eq_none_iff, List.find?_eq_none]
  intro c hc
  simp only [Bool.and_eq_true, beq_iff_eq, not_and]
  exact h c hc

theorem findCode_some {codes : List Code} {L w : Nat} {c : Code} (hc : c ∈ codes) (hl : c.len = L) (hw : c.code = w)
    (huniq : ∀ c' ∈ codes, c'.len = L → c'.code = w → c' = c) : findCode codes L w = some c.value := by
  have : codes.find? (fun c => c.len == L && c.code == w) = some c := by
    cases hf : codes.find? (fun c => c.len == L && c.code == w) with
    | none =>
      rw [List.find?_eq_none] at hf
      exact absurd (by simp [hl, hw]) (hf c hc)
    | some c' =>
      have h1 := List.mem_of_find?_eq_some hf
      have h2 := List.find?_some hf
      simp only [Bool.and_eq_true, beq_iff_eq] at h2
      rw [huniq c' h1 h2.1 h2.2]
  rw [findCode, this]
  rfl

/-- MATCH passes the lengths for which the bits are there and no code matches (42 R156). -/
theorem matchFrom_skip (codes : List Code) (s : State) (fuel : Nat) : ∀ (k L : Nat),
    (∀ c ∈ codes, L ≤ c.len → c.len < L + k → ¬ CodeAtCursor c s) → s.cur + L + k ≤ s.dbits.length + 1 →
    matchFrom codes (k + fuel) L s = matchFrom codes fuel (L + k) s := by
  intro k
  induction k with
  | zero => intro L _ _
            simp
  | succ k ih =>
    intro L hno hlen
    rw [show k + 1 + fuel = (k + fuel) + 1 by omega, matchFrom, peek_there (by omega)]
    simp only [andThen]
    rw [findCode_none]
    · simp only
      rw [ih (L + 1) (fun c hc h1 h2 => hno c hc (by omega) (by omega)) (by omega)]
      congr 1
      omega
    · intro c hc hl hw
      refine hno c hc (by omega) (by omega) ?_
      unfold CodeAtCursor bitsAtCursor
      rw [hl, hw]

/-- Everything PEEK can do, for a property that every destuffer step keeps: the bits, in a state that has it, an error of
the decode there, or a wait. -/
theorem peek_induct {n : Nat} (P : State → Prop)
    (hstep : ∀ s t a, P s → s.endRec.ended = false → dstep s = .ok a t → P t) {s : State} (hs : P s) :
    (∀ w t, peek n s = .ok w t → P t ∧ t.cur + n ≤ t.dbits.length ∧ w = (t.dbits.drop t.cur).take n) ∧
    (∀ e t, peek n s = .err e t → P t ∧ e.origin.inDecode = true) ∧
    (∀ t, peek n s = .stall t → P t ∧ dstep t = .stall t) := by
  obtain ⟨h1, h2, h3⟩ := fill_induct (n := n) P hstep s hs
  rcases peek_cases n s with ⟨u, hf, hl, hp⟩ | ⟨u, hf, he, hl, hp⟩ | ⟨e, u, hf, hp⟩ | ⟨u, hf, hp⟩
  · rw [hp]
    refine ⟨fun w t h => ?_, fun e t h => ?_, fun t h => ?_⟩
    · cases h
      exact ⟨h1 _ _ hf, hl, rfl⟩
    · cases h
    · cases h
  · rw [hp]
    refine ⟨fun w t h => ?_, fun e t h => ?_, fun t h => ?_⟩
    · cases h
    · cases h
      exact ⟨h1 _ _ hf, rfl⟩
    · cases h
  · rw [hp]
    refine ⟨fun w t h => ?_, fun e t h => ?_, fun t h => ?_⟩
    · cases h
    · cases h
      obtain ⟨hP, hd⟩ := h2 _ _ hf
      exact ⟨hP, by rw [(dstep_err hd).2.2.1]; rfl⟩
    · cases h
  · rw [hp]
    refine ⟨fun w t h => ?_, fun e t h => ?_, fun t h => ?_⟩
    · cases h
    · cases h
    · cases h
      exact h3 _ hf

/-- Everything READ can do, for such a property. -/
theorem readBits_induct {n : Nat} (P : State → Prop)
    (hstep : ∀ s t a, P s → s.endRec.ended = false → dstep s = .ok a t → P t) {s : State} (hs : P s)
    (hc : s.cur ≤ s.dbits.length) :
    (∀ v u, readBits n s = .ok v u → ∃ t, P t ∧ t.cur + n ≤ t.dbits.length ∧ v = bitsAtCursor n t ∧
      u = { t with cur := t.cur + n }) ∧
    (∀ e t, readBits n s = .err e t → P t ∧ e.origin.inDecode = true) ∧
    (∀ t, readBits n s = .stall t → P t ∧ dstep t = .stall t) := by
  by_cases h0 : n = 0
  · subst h0
    rw [readBits_there (by simpa using hc)]
    refine ⟨fun v u h => ?_, fun e t h => ?_, fun t h => ?_⟩
    · cases h
      exact ⟨s, hs, by simpa using hc, rfl, rfl⟩
    · cases h
    · cases h
  · obtain ⟨h1, h2, h3⟩ := peek_induct (n := n) P hstep hs
    rw [readBits_peek h0]
    cases hp : peek n s with
    | ok w t =>
      obtain ⟨a, b, c⟩ := h1 w t hp
      refine ⟨fun v u h => ?_, fun e t h => ?_, fun t h => ?_⟩
      · cases h
        exact ⟨t, a, b, by rw [c]; rfl, rfl⟩
      · cases h
      · cases h
    | err e t =>
      refine ⟨fun v u h => ?_, fun e t h => ?_, fun t h => ?_⟩
      · cases h
      · cases h
        exact h2 _ _ hp
      · cases h
    | stall t =>
      refine ⟨fun v u h => ?_, fun e t h => ?_, fun t h => ?_⟩
      · cases h
      · cases h
      · cases h
        exact h3 _ hp

/-- Everything the search of MATCH can do, for such a property. -/
theorem matchFrom_induct (codes : List Code) (P : State → Prop)
    (hstep : ∀ s t a, P s → s.endRec.ended = false → dstep s = .ok a t → P t) : ∀ (fuel L : Nat) (s : State), P s →
    (∀ v u, matchFrom codes fuel L s = .ok v u → ∃ t n, P t ∧ L ≤ n ∧ t.cur + n ≤ t.dbits.length ∧
      u = { t with cur := t.cur + n }) ∧
    (∀ e t, matchFrom codes fuel L s = .err e t → P t ∧ e.origin.inDecode = true) ∧
    (∀ t, matchFrom codes fuel L s = .stall t → P t ∧ dstep t = .stall t) := by
  intro fuel
  induction fuel with
  | zero =>
    intro L s hs
    refine ⟨fun v u h => ?_, fun e t h => ?_, fun t h => ?_⟩
    · cases h
    · cases h
      exact ⟨hs, rfl⟩
    · cases h
  | succ fuel ih =>
    intro L s hs
    obtain ⟨h1, h2, h3⟩ := peek_induct (n := L) P hstep hs
    rw [matchFrom]
    cases hp : peek L s with
    | err e t =>
      refine ⟨fun v u h => ?_, fun e t h => ?_, fun t h => ?_⟩
      · cases h
      · cases h
        exact h2 _ _ hp
      · cases h
    | stall t =>
      refine ⟨fun v u h => ?_, fun e t h => ?_, fun t h => ?_⟩
      · cases h
      · cases h
      · cases h
        exact h3 _ hp
    | ok w t =>
      obtain ⟨a, b, _⟩ := h1 w t hp
      simp only [andThen]
      cases hf : findCode codes L (bitsToUint w) with
      | some v =>
        refine ⟨fun v u h => ?_, fun e t h => ?_, fun t h => ?_⟩
        · cases h
          exact ⟨t, L, a, Nat.le_refl _, b, rfl⟩
        · cases h
        · cases h
      | none =>
        obtain ⟨i1, i2, i3⟩ := ih (L + 1) t a
        refine ⟨fun v u h => ?_, i2, i3⟩
        obtain ⟨t', n, p1, p2, p3, p4⟩ := i1 v u h
        exact ⟨t', n, p1, by omega, p3, p4⟩

/-- Everything MATCH can do, for such a property: the cursor moves over at least one bit past where it was, which is
where c0 is set (42 R156). -/
theorem matchCode_induct (t : HtTable) (P : State → Prop)
    (hstep : ∀ s t a, P s → s.endRec.ended = false → dstep s = .ok a t → P t) {s : State}
    (hs : P { s with c0 := s.cur }) :
    (∀ v u, matchCode t s = .ok v u → ∃ w n, P w ∧ 1 ≤ n ∧ w.cur + n ≤ w.dbits.length ∧
      u = { w with cur := w.cur + n }) ∧
    (∀ e u, matchCode t s = .err e u → P u ∧ e.origin.inDecode = true) ∧
    (∀ u, matchCode t s = .stall u → P u ∧ dstep u = .stall u) :=
  matchFrom_induct t.codes P hstep _ _ _ hs

end Sys2Proof.Machine
end

