-- ==== Sys2Proof/Laws/Start.lean ====
section
/-! SUPPORT. The START checks: each check passes exactly when the spec's condition holds and otherwise gives the error of
the first failing component, and what a launch without an error means for the registers (40 R112 to R122, 20 R74). -/

namespace Sys2Proof.Machine

/-! ### The first component with a property -/

theorem fin4_cases : ∀ c : Fin 4, c = 0 ∨ c = 1 ∨ c = 2 ∨ c = 3 := by decide

theorem mem_comps : ∀ c : Fin 4, c ∈ comps := by decide

theorem mem_frameComps (s : State) (c : Fin 4) : c ∈ frameComps s ↔ c.val < frameNf s := by
  simp [frameComps, mem_comps]

theorem mem_scanComps (s : State) (c : Fin 4) : c ∈ scanComps s ↔ c.val < scanNs s := by
  simp [scanComps, mem_comps]

theorem comps_find (r : Fin 4 → Bool) :
    comps.find? r = if r 0 then some 0 else if r 1 then some 1 else if r 2 then some 2 else if r 3 then some 3
      else none := by
  simp only [comps, List.find?]
  cases r 0 <;> cases r 1 <;> cases r 2 <;> cases r 3 <;> rfl

theorem comps_find_none (r : Fin 4 → Bool) : comps.find? r = none ↔ ∀ c, r c = false := by
  rw [comps_find]
  constructor
  · intro h c
    by_contra hc
    rw [Bool.not_eq_false] at hc
    rcases fin4_cases c with rfl | rfl | rfl | rfl <;> simp only [hc, if_true] at h <;>
      repeat' (split at h)
    all_goals cases h
  · intro h
    simp [h]

theorem comps_find_first (r : Fin 4 → Bool) (c : Fin 4) (hc : r c = true) (hd : ∀ d < c, r d = false) :
    comps.find? r = some c := by
  rw [comps_find]
  rcases fin4_cases c with rfl | rfl | rfl | rfl
  · simp [hc]
  · simp [hc, hd 0 (by decide)]
  · simp [hc, hd 0 (by decide), hd 1 (by decide)]
  · simp [hc, hd 0 (by decide), hd 1 (by decide), hd 2 (by decide)]

/-- A search over the first n components finds nothing exactly when no component below n has the property. -/
theorem filter_find_none (n : Nat) (p : Fin 4 → Bool) :
    (comps.filter fun c => decide (c.val < n)).find? p = none ↔ ∀ c : Fin 4, c.val < n → p c = false := by
  rw [List.find?_filter, comps_find_none]
  simp

/-- A search over the first n components finds the first component that has the property. -/
theorem filter_find_first (n : Nat) (p : Fin 4 → Bool) (c : Fin 4) (hn : c.val < n) (hc : p c = true)
    (hd : ∀ d < c, p d = false) : (comps.filter fun c => decide (c.val < n)).find? p = some c := by
  rw [List.find?_filter]
  exact comps_find_first _ c (by simp [hn, hc]) (fun d h => by simp [hd d h])

theorem comps_any (p : Fin 4 → Bool) : comps.any p = true ↔ ∃ c, p c = true := by
  constructor
  · intro h
    obtain ⟨c, _, hc⟩ := List.any_eq_true.1 h
    exact ⟨c, hc⟩
  · rintro ⟨c, hc⟩
    exact List.any_eq_true.2 ⟨c, mem_comps c, hc⟩

/-! ### The checks, one by one -/

theorem check1_none (s : State) : check1 s = none ↔ Pass1 s := by
  unfold check1 Pass1
  split <;> simp_all

theorem check2_none (s : State) : check2 s = none ↔ Pass2 s := by
  unfold check2 Pass2
  split
  · rename_i h
    simp only [reduceCtorEq, false_iff]
    omega
  · rename_i h
    simp only [true_iff]
    omega

theorem check3_none (s : State) : check3 s = none ↔ Pass3 s := by
  unfold check3 Pass3
  split
  · rename_i h
    simp only [reduceCtorEq, false_iff]
    tauto
  · rename_i h
    simp only [true_iff]
    tauto

theorem idOld_iff (s : State) (c : Fin 4) :
    (comps.any fun c' => decide (c' < c) && fcompId s c == fcompId s c') = true ↔ ¬ IdNew s c := by
  rw [comps_any]
  simp [IdNew]

theorem idOld_false (s : State) (c : Fin 4) :
    (comps.any fun c' => decide (c' < c) && fcompId s c == fcompId s c') = false ↔ IdNew s c := by
  rw [← Bool.not_eq_true, idOld_iff, not_not]

theorem check4_none (s : State) : check4 s = none ↔ Pass4 s := by
  simp only [check4, frameComps, Option.map_eq_none_iff, filter_find_none, idOld_false, Pass4]

theorem check4_first (s : State) (c : Fin 4) (hn : c.val < frameNf s) (hc : ¬ IdNew s c) (hd : ∀ d < c, IdNew s d) :
    check4 s = some (startErr .malformedHeader 4#8 (byteOf c.val)) := by
  rw [check4, frameComps, filter_find_first _ _ c hn ((idOld_iff s c).2 hc) fun d h => (idOld_false s d).2 (hd d h)]
  rfl

theorem sampled_iff (s : State) (c : Fin 4) : (fcompH s c != 1#4 || fcompV s c != 1#4) = true ↔ ¬ Unsampled s c := by
  simp only [Unsampled, Bool.or_eq_true, bne_iff_ne]
  tauto

theorem sampled_false (s : State) (c : Fin 4) : (fcompH s c != 1#4 || fcompV s c != 1#4) = false ↔ Unsampled s c := by
  rw [← Bool.not_eq_true, sampled_iff, not_not]

theorem check5_none (s : State) : check5 s = none ↔ Pass5 s := by
  simp only [check5, frameComps, Option.map_eq_none_iff, filter_find_none, sampled_false, Pass5]

theorem check5_first (s : State) (c : Fin 4) (hn : c.val < frameNf s) (hc : ¬ Unsampled s c)
    (hd : ∀ d < c, Unsampled s d) : check5 s = some (startErr .unsupportedFeature 5#8 (byteOf c.val)) := by
  rw [check5, frameComps, filter_find_first _ _ c hn ((sampled_iff s c).2 hc) fun d h => (sampled_false s d).2 (hd d h)]
  rfl

theorem check6_none (s : State) : check6 s = none ↔ Pass6 s := by
  simp only [check6, frameComps, Option.map_eq_none_iff, filter_find_none, decide_eq_false_iff_not, not_lt, Pass6]

theorem check6_first (s : State) (c : Fin 4) (hn : c.val < frameNf s) (hc : 3 < fcompTq s c)
    (hd : ∀ d < c, fcompTq s d ≤ 3) : check6 s = some (startErr .malformedTable 6#8 (byteOf c.val)) := by
  rw [check6, frameComps, filter_find_first _ _ c hn (by simpa using hc) fun d h => by simpa using hd d h]
  rfl

theorem check7_none (s : State) : check7 s = none ↔ Pass7 s := by
  unfold check7 Pass7
  split
  · rename_i h
    simp only [reduceCtorEq, false_iff]
    omega
  · split
    · rename_i h1 h2
      simp only [reduceCtorEq, false_iff]
      omega
    · rename_i h1 h2
      simp only [true_iff]
      omega

theorem unnamed_iff (s : State) (j : Fin 4) :
    (!((frameComps s).any fun c => fcompId s c == scompId s j)
      || comps.any fun j' => decide (j' < j) && scompId s j' == scompId s j) = true ↔ ¬ Named s j := by
  simp only [Bool.or_eq_true, Bool.not_eq_true', Bool.and_eq_true, decide_eq_true_eq, beq_iff_eq, Named,
    ← Bool.not_eq_true, List.any_eq_true, mem_frameComps, mem_comps, true_and, not_and_or, not_forall]
  simp only [not_not, exists_prop]

theorem unnamed_false (s : State) (j : Fin 4) :
    (!((frameComps s).any fun c => fcompId s c == scompId s j)
      || comps.any fun j' => decide (j' < j) && scompId s j' == scompId s j) = false ↔ Named s j := by
  rw [← Bool.not_eq_true, unnamed_iff, not_not]

theorem check8_none (s : State) : check8 s = none ↔ Pass8 s := by
  simp only [check8, scanComps, Option.map_eq_none_iff, filter_find_none, unnamed_false, Pass8]

theorem check8_first (s : State) (j : Fin 4) (hn : j.val < scanNs s) (hj : ¬ Named s j) (hi : ∀ i < j, Named s i) :
    check8 s = some (startErr .malformedHeader 8#8 (byteOf j.val)) := by
  rw [check8, scanComps, filter_find_first _ _ j hn ((unnamed_iff s j).2 hj) fun i h => (unnamed_false s i).2 (hi i h)]
  rfl

theorem idsLarge_iff (s : State) (j : Fin 4) :
    (decide (3 < scompTd s j) || decide (3 < scompTa s j)) = true ↔ ¬ IdsSmall s j := by
  simp only [Bool.or_eq_true, decide_eq_true_eq, IdsSmall]
  omega

theorem idsLarge_false (s : State) (j : Fin 4) :
    (decide (3 < scompTd s j) || decide (3 < scompTa s j)) = false ↔ IdsSmall s j := by
  rw [← Bool.not_eq_true, idsLarge_iff, not_not]

theorem check9_none (s : State) : check9 s = none ↔ Pass9 s := by
  simp only [check9, scanComps, Option.map_eq_none_iff, filter_find_none, idsLarge_false, Pass9]

theorem check9_first (s : State) (j : Fin 4) (hn : j.val < scanNs s) (hj : ¬ IdsSmall s j) (hi : ∀ i < j, IdsSmall s i) :
    check9 s = some (startErr .malformedTable 9#8 (byteOf j.val)) := by
  rw [check9, scanComps, filter_find_first _ _ j hn ((idsLarge_iff s j).2 hj) fun i h => (idsLarge_false s i).2 (hi i h)]
  rfl

/-- The scan component's frame component, when the ids are distinct and the component is named (40 R119). -/
theorem fcOf_eq (s : State) (j c : Fin 4) (h4 : Pass4 s) (hc : c.val < frameNf s) (hid : fcompId s c = scompId s j) :
    fcOf s j = c := by
  have h : fcOf? s j = some c := by
    rw [fcOf?, frameComps]
    refine filter_find_first _ _ c hc (by simpa using hid) fun d hd => ?_
    have := h4 c hc d hd
    simp only [beq_eq_false_iff_ne, ne_eq]
    intro he
    exact this (hid.trans he.symm)
  rw [fcOf, h]
  rfl

/-- The quantization table of a named scan component is valid exactly when the spec's condition holds (40 R121). -/
theorem quantTable_valid (s : State) (j : Fin 4) (h4 : Pass4 s) (hj : Named s j) :
    (quantTable s j).valid = true ↔ QtPresent s j := by
  obtain ⟨⟨c, hc, hid⟩, _⟩ := hj
  rw [quantTable, fcOf_eq s j c h4 hc hid]
  constructor
  · intro h c' hc' hid'
    have h1 := fcOf_eq s j c h4 hc hid
    rw [fcOf_eq s j c' h4 hc' hid'] at h1
    rw [h1]
    exact h
  · intro h
    exact h c hc hid

theorem missingTable_none (s : State) (j : Fin 4) (h4 : Pass4 s) (hj : Named s j) :
    missingTable s j = none ↔ TablesPresent s j := by
  have hd : DcPresent s j ↔ (dcTable s j).valid = true := Iff.rfl
  have ha : AcPresent s j ↔ (acTable s j).valid = true := Iff.rfl
  rw [TablesPresent, hd, ha, ← quantTable_valid s j h4 hj, missingTable]
  cases (dcTable s j).valid <;> cases (acTable s j).valid <;> cases (quantTable s j).valid <;> simp

theorem comps_findSome_none {α : Type} (n : Nat) (f : Fin 4 → Option α) :
    (comps.filter fun c => decide (c.val < n)).findSome? f = none ↔ ∀ c : Fin 4, c.val < n → f c = none := by
  rw [List.findSome?_eq_none_iff]
  constructor
  · intro h c hc
    exact h c (by
      rw [List.mem_filter]
      exact ⟨mem_comps c, by simpa using hc⟩)
  · intro h c hc
    rw [List.mem_filter] at hc
    exact h c (by simpa using hc.2)

theorem findSome_filter {α β : Type} (p : α → Bool) (f : α → Option β) (l : List α) :
    (l.filter p).findSome? f = l.findSome? fun a => if p a then f a else none := by
  induction l with
  | nil => rfl
  | cons a t ih =>
    rw [List.filter_cons, List.findSome?_cons]
    cases hp : p a
    · simpa [hp] using ih
    · rw [if_pos rfl, List.findSome?_cons, ih, if_pos rfl]

theorem comps_findSome {α : Type} (g : Fin 4 → Option α) (c : Fin 4) (x : α) (hc : g c = some x)
    (hd : ∀ d < c, g d = none) : comps.findSome? g = some x := by
  rcases fin4_cases c with rfl | rfl | rfl | rfl
  · simp only [comps, List.findSome?_cons, hc]
  · simp only [comps, List.findSome?_cons, hc, hd 0 (by decide)]
  · simp only [comps, List.findSome?_cons, hc, hd 0 (by decide), hd 1 (by decide)]
  · simp only [comps, List.findSome?_cons, hc, hd 0 (by decide), hd 1 (by decide), hd 2 (by decide)]

theorem comps_findSome_first {α : Type} (n : Nat) (f : Fin 4 → Option α) (c : Fin 4) (x : α) (hn : c.val < n)
    (hc : f c = some x) (hd : ∀ d < c, f d = none) :
    (comps.filter fun c => decide (c.val < n)).findSome? f = some x := by
  rw [findSome_filter]
  exact comps_findSome _ c x (by simp [hn, hc]) fun d h => by simp [hd d h]

theorem check10_none (s : State) (h4 : Pass4 s) (h8 : Pass8 s) : check10 s = none ↔ Pass10 s := by
  rw [check10, scanComps, comps_findSome_none, Pass10]
  exact forall_congr' fun j => ⟨fun h hj => (missingTable_none s j h4 (h8 j hj)).1 (h hj),
    fun h hj => (missingTable_none s j h4 (h8 j hj)).2 (h hj)⟩

theorem check10_first (s : State) (j : Fin 4) (e : Err) (h4 : Pass4 s) (h8 : Pass8 s) (hn : j.val < scanNs s)
    (hi : ∀ i < j, TablesPresent s i) (he : missingTable s j = some e) : check10 s = some e := by
  rw [check10, scanComps]
  exact comps_findSome_first _ _ j e hn he fun i h => (missingTable_none s i h4 (h8 i (by
    have : i.val < j.val := h
    omega))).2 (hi i h)

theorem check11_none (s : State) : check11 s = none ↔ Pass11 s := by
  unfold check11 Pass11 outSize
  split
  · rename_i h
    simp only [reduceCtorEq, false_iff]
    omega
  · split
    · rename_i h1 h2
      simp only [reduceCtorEq, false_iff]
      omega
    · rename_i h1 h2
      simp only [true_iff]
      omega

/-! ### All of them -/

/-- The checks pass exactly when the spec's eleven conditions hold (40 R111). -/
theorem startChecks_none (s : State) : startChecks s = none ↔ SetupPasses s ∧ Pass11 s := by
  simp only [startChecks, List.findSome?_eq_none_iff, List.mem_cons, List.not_mem_nil, or_false, forall_eq_or_imp,
    forall_eq, check1_none, check2_none, check3_none, check4_none, check5_none, check6_none, check7_none, check8_none,
    check9_none, check11_none, SetupPasses, FramePasses]
  constructor
  · rintro ⟨h1, h2, h3, h4, h5, h6, h7, h8, h9, h10, h11⟩
    exact ⟨⟨⟨h1, h2, h3, h4, h5, h6⟩, h7, h8, h9, (check10_none s h4 h8).1 h10⟩, h11⟩
  · rintro ⟨⟨⟨h1, h2, h3, h4, h5, h6⟩, h7, h8, h9, h10⟩, h11⟩
    exact ⟨h1, h2, h3, h4, h5, h6, h7, h8, h9, (check10_none s h4 h8).2 h10, h11⟩

/-- START's checks see nothing of what START clears. -/
theorem startChecks_clear (s : State) : startChecks (clearForStart s) = startChecks s := rfl

theorem brokenPremise_clear (s : State) : brokenPremise (clearForStart s) = brokenPremise s := rfl

theorem startChecks_launch (s : State) : startChecks (launch s) = startChecks s := rfl

theorem brokenPremise_launch (s : State) : brokenPremise (launch s) = brokenPremise s := rfl

/-- A START whose checks give an error takes it, with nothing else changed but what START clears (40 R111, 60 R224). -/
theorem startFails_of_check (s : State) (hs : s.seq = .idle) (code : ErrorCode) (d u : Byte)
    (h : startChecks s = some (startErr code d u)) : StartFails s code.num d u := by
  show inIdle s (runStart s) = _
  rw [inIdle, if_pos hs, runStart]
  simp only [startChecks_clear, h]
  rw [raiseErr_outside _ _ rfl]
  rfl

theorem rangesMeet_iff (a n b k : Nat) :
    rangesMeet a n b k = true ↔ ∃ x, (a ≤ x ∧ x < a + n) ∧ (b ≤ x ∧ x < b + k) := by
  simp only [rangesMeet, Bool.and_eq_true, decide_eq_true_eq]
  constructor
  · rintro ⟨⟨⟨h1, h2⟩, h3⟩, h4⟩
    exact ⟨max a b, by omega, by omega⟩
  · rintro ⟨x, h1, h2⟩
    omega

theorem inInput_iff (s : State) (a : Nat) :
    inInput s a = true ↔ s.inBase.toNat ≤ a ∧ a < s.inBase.toNat + s.inLen.toNat := by
  simp [inInput]

theorem inOutput_iff (s : State) (a : Nat) :
    inOutput s a = true ↔ s.outBase.toNat ≤ a ∧ a < s.outBase.toNat + outSize s := by
  simp [inOutput]

/-- The memory premises hold exactly when the three ranges are disjoint (20 R74). -/
theorem brokenPremise_none (s : State) : brokenPremise s = none ↔ RangesApart s := by
  have h1 := rangesMeet_iff s.inBase.toNat s.inLen.toNat s.outBase.toNat (outSize s)
  have h2 := rangesMeet_iff s.inBase.toNat s.inLen.toNat s.params.mmioBase windowSize
  have h3 := rangesMeet_iff s.outBase.toNat (outSize s) s.params.mmioBase windowSize
  have hw : windowSize = 0x10000 := rfl
  simp only [RangesApart, InWindow, inInput_iff, inOutput_iff]
  unfold brokenPremise
  split
  · rename_i hm
    obtain ⟨x, hx, hy⟩ := h1.1 hm
    simp only [reduceCtorEq, false_iff, not_forall]
    exact ⟨x, fun h => h.1 ⟨hx, hy⟩⟩
  · rename_i hm
    split
    · rename_i hn
      simp only [reduceCtorEq, false_iff, not_forall]
      rcases Bool.or_eq_true_iff.1 hn with hn | hn
      · obtain ⟨x, hx, hy⟩ := h2.1 hn
        exact ⟨x, fun h => h.2 ⟨hy, .inl hx⟩⟩
      · obtain ⟨x, hx, hy⟩ := h3.1 hn
        exact ⟨x, fun h => h.2 ⟨hy, .inr hx⟩⟩
    · rename_i hn
      simp only [true_iff]
      intro x
      refine ⟨fun h => hm (h1.2 ⟨x, h⟩), fun h => hn ?_⟩
      rw [Bool.or_eq_true_iff]
      rcases h.2 with hx | hx
      · exact .inl (h2.2 ⟨x, hx, h.1⟩)
      · exact .inr (h3.2 ⟨x, hx, h.1⟩)

/-- A START that passes every check and keeps the premises launches (40 R123). -/
theorem start_launches (s : State) (hs : s.seq = .idle) (hc : startChecks s = none) (hp : brokenPremise s = none) :
    exec .start s = .next (launch (clearForStart s)) := by
  show inIdle s (runStart s) = _
  rw [inIdle, if_pos hs, runStart]
  simp only [startChecks_clear, hc, brokenPremise_clear, hp]

end Sys2Proof.Machine
end

