-- ==== Sys2Proof/Laws/Vectors.lean ====
section
/-! SUPPORT. Reading a vector after one of its entries is set. -/

namespace Sys2Proof

theorem vec_get_set_self {α : Type} {n : Nat} (v : Vector α n) (i : Fin n) (x : α) :
    (v.set i.val x i.isLt).get i = x := by
  show (v.set i.val x i.isLt)[i.val] = x
  simp

theorem vec_get_set_ne {α : Type} {n : Nat} (v : Vector α n) (i j : Fin n) (x : α) (hij : i ≠ j) :
    (v.set i.val x i.isLt).get j = v.get j := by
  have hne : i.val ≠ j.val := fun he => hij (Fin.ext he)
  show (v.set i.val x i.isLt)[j.val] = v[j.val]
  simp [hne]

end Sys2Proof
end

