-- ==== Sys2Proof/Laws/Recon.lean ====
section
/-! SUPPORT. Reconstruction: what the dequantizer puts where, what a component of an MCU gets, where the writes of an MCU
go and what they do to memory (43 R171; 44 R181; 46 R205). -/

namespace Sys2Proof.Machine

theorem mkBlock_get {α : Type} (f : Fin 64 → α) (i : Fin 64) : (mkBlock f).get i = f i := by
  simp [mkBlock, Vector.get]
  rfl

/-! ### Dequantizer -/

/-- After the rounds of a list of positions, an index holds what the last position that maps to it gave. -/
theorem dequantRounds_get (p : Params) (zz q : Vector Half 64) (hp : Injective p.pZigzag) (k : Fin 64) :
    ∀ (l : List (Fin 64)) (F : Vector Int 64), (l.foldl (dequantRound p zz q) F).get (p.pZigzag.get k) =
      if k ∈ l then dequantTerm p.pDeqAlign zz q k (p.pZigzag.get k) else F.get (p.pZigzag.get k) := by
  intro l
  induction l with
  | nil => intro F
           simp
  | cons k' t ih =>
    intro F
    rw [List.foldl_cons, ih]
    by_cases ht : k ∈ t
    · rw [if_pos ht, if_pos (List.mem_cons_of_mem _ ht)]
    · rw [if_neg ht]
      by_cases hk : k = k'
      · subst hk
        rw [if_pos (List.mem_cons_self ..)]
        exact vec_get_set_self _ _ _
      · rw [if_neg (by simp [hk, ht])]
        exact vec_get_set_ne _ _ _ _ fun h => hk (hp k k' h.symm)

/-- DEQUANT: the product of zigzag position k stands at its natural index (44 R181). -/
theorem dequant_get (p : Params) (zz q : Vector Half 64) (hp : Injective p.pZigzag) (k : Fin 64) :
    (dequant p zz q).get (p.pZigzag.get k) = dequantTerm p.pDeqAlign zz q k (p.pZigzag.get k) := by
  rw [dequant, dequantRounds_get p zz q hp, if_pos (List.mem_finRange k)]

/-! ### The components of an MCU -/

/-- The reconstruction of a component: its own coefficients and tables; the other buffers stay (43 R171). -/
theorem reconComp_get (s : State) (i j : Fin 4) :
    (reconComp s i).fbuf.get j =
      (if j = i then dequant s.params (s.zz.get j) (quantTable s j).q else s.fbuf.get j) ∧
    (reconComp s i).sbuf.get j =
      (if j = i then idct s.params.pIdct (dequant s.params (s.zz.get j) (quantTable s j).q) else s.sbuf.get j) := by
  by_cases h : j = i
  · subst h
    rw [if_pos rfl, if_pos rfl]
    exact ⟨vec_get_set_self _ _ _, vec_get_set_self _ _ _⟩
  · rw [if_neg h, if_neg h]
    exact ⟨vec_get_set_ne _ _ _ _ (Ne.symm h), vec_get_set_ne _ _ _ _ (Ne.symm h)⟩

/-! ### The bytes of a pixel and their offsets -/

theorem pixelBytes_length (s : State) (i : Fin 64) (h : frameNf s ≤ 4) : (pixelBytes s i).length = frameNf s := by
  unfold pixelBytes
  by_cases hr : rgbMode s = true
  · rw [if_pos hr]
    simp only [rgbMode, Bool.and_eq_true, beq_iff_eq] at hr
    simp [hr.1]
  · rw [if_neg hr, List.length_map]
    unfold frameComps comps
    rcases Nat.lt_or_ge (frameNf s) 5 with h5 | h5
    · generalize frameNf s = n at *
      interval_cases n <;> rfl
    · omega

/-- The writes of one pixel: one for each of its bytes, at consecutive offsets. -/
theorem mem_pixelWrites (s : State) (i : Fin 64) (o : Nat) (b : Byte) :
    (o, b) ∈ pixelWrites s i ↔ (pixelX s i < frameX s ∧ pixelY s i < frameY s) ∧
      ∃ c, o = pixelOffset s i + c ∧ (pixelBytes s i)[c]? = some b := by
  unfold pixelWrites
  by_cases h : pixelX s i < frameX s ∧ pixelY s i < frameY s
  · rw [if_pos h, List.mem_map]
    constructor
    · rintro ⟨⟨b', c⟩, hm, he⟩
      rw [List.mem_zipIdx_iff_getElem?] at hm
      simp only [Prod.mk.injEq] at he
      exact ⟨h, c, he.1.symm, he.2 ▸ hm⟩
    · rintro ⟨_, c, ho, hc⟩
      exact ⟨(b, c), List.mem_zipIdx_iff_getElem?.2 hc, by rw [ho]⟩
  · rw [if_neg h]
    simp [h]

theorem pixelWrites_offsets (s : State) (i : Fin 64) : (pixelWrites s i).map Prod.fst =
    if pixelX s i < frameX s ∧ pixelY s i < frameY s then
      (List.range (pixelBytes s i).length).map (pixelOffset s i + ·) else [] := by
  unfold pixelWrites
  split
  · have h : (pixelBytes s i).zipIdx.map Prod.snd = List.range (pixelBytes s i).length := by
      rw [List.zipIdx_map_snd, List.range_eq_range']
    rw [List.map_map, ← h, List.map_map]
    rfl
  · rfl

/-- Different pixels and channels of a frame have different offsets, and all lie in the output range (20 R64). -/
theorem offset_unique {X Y N x y c x' y' c' : Nat} (hx : x < X) (hx' : x' < X) (hc : c < N) (hc' : c' < N)
    (hy : y < Y) (h : (y * X + x) * N + c = (y' * X + x') * N + c') :
    x = x' ∧ y = y' ∧ c = c' ∧ (y * X + x) * N + c < X * Y * N := by
  have hN : 0 < N := by omega
  have hX : 0 < X := by omega
  have h1 : c = c' := by
    have := congrArg (· % N) h
    simpa [Nat.mul_add_mod_of_lt, hc, hc', Nat.add_mod, Nat.mod_eq_of_lt] using this
  subst h1
  have h2 : y * X + x = y' * X + x' := Nat.eq_of_mul_eq_mul_right hN (by omega)
  have h3 : x = x' := by
    have := congrArg (· % X) h2
    simpa [Nat.add_mod, Nat.mod_eq_of_lt, hx, hx'] using this
  subst h3
  have h4 : y = y' := Nat.eq_of_mul_eq_mul_right hX (by omega)
  refine ⟨rfl, h4, rfl, ?_⟩
  have h5 : (y * X + x) + 1 ≤ Y * X := by
    have : (y + 1) * X ≤ Y * X := Nat.mul_le_mul_right _ hy
    rw [Nat.add_mul] at this
    omega
  have h6 : ((y * X + x) + 1) * N ≤ Y * X * N := Nat.mul_le_mul_right _ h5
  rw [Nat.add_mul, Nat.mul_comm Y X] at h6
  omega

theorem pixelWrites_length (s : State) (i : Fin 64) (h : frameNf s ≤ 4) : (pixelWrites s i).length ≤ frameNf s := by
  unfold pixelWrites
  split
  · rw [List.length_map, List.length_zipIdx, pixelBytes_length s i h]
  · exact Nat.zero_le _

/-- An MCU has at most 64 writes for every frame component. -/
theorem emitList_length (s : State) (h : frameNf s ≤ 4) : (emitList s).length ≤ 64 * frameNf s := by
  have hl : ∀ l : List (Fin 64), (l.flatMap (pixelWrites s)).length ≤ l.length * frameNf s := by
    intro l
    induction l with
    | nil => simp
    | cons i t ih =>
      rw [List.flatMap_cons, List.length_append, List.length_cons, Nat.add_mul, Nat.one_mul]
      have := pixelWrites_length s i h
      omega
  exact (hl _).trans (by simp)

/-- No write of an MCU lies outside the output range (20 R64). -/
theorem emitList_lt (s : State) (h4 : frameNf s ≤ 4) : ∀ w ∈ emitList s, w.1 < outSize s := by
  rintro ⟨o, b⟩ hw
  rw [emitList, List.mem_flatMap] at hw
  obtain ⟨i, _, hw⟩ := hw
  obtain ⟨⟨h1, h2⟩, c, h3, hc⟩ := (mem_pixelWrites s i o b).1 hw
  obtain ⟨hl, _⟩ := List.getElem?_eq_some_iff.1 hc
  rw [pixelBytes_length s i h4] at hl
  have := (offset_unique h1 h1 hl hl h2 rfl).2.2.2
  exact h3 ▸ this

/-! ### The writes of an MCU -/

/-- After writes at distinct addresses every one reads back, and every other address is unchanged. -/
theorem writes_read (f : Nat → Nat) : ∀ (l : List (Nat × Byte)) (m : Memory), Memory.wf m → (∀ o, f o < 2 ^ 32) →
    Memory.wf (l.foldl (fun m w => Memory.write m (f w.1) w.2) m) ∧
    (∀ a, (∀ w ∈ l, a ≠ f w.1) →
      Memory.read (l.foldl (fun m w => Memory.write m (f w.1) w.2) m) a = Memory.read m a) ∧
    ((l.map fun w => f w.1).Nodup → ∀ w ∈ l,
      Memory.read (l.foldl (fun m w => Memory.write m (f w.1) w.2) m) (f w.1) = w.2) := by
  intro l
  induction l with
  | nil => intro m hm _
           exact ⟨hm, fun _ _ => rfl, fun _ w hw => absurd hw (List.not_mem_nil)⟩
  | cons w t ih =>
    intro m hm hf
    obtain ⟨h1, h2, h3⟩ := ih (Memory.write m (f w.1) w.2) (Memory.write_wf m _ _ (hf _) hm) hf
    refine ⟨h1, fun a ha => ?_, fun hn v hv => ?_⟩
    · rw [List.foldl_cons, h2 a fun w hw => ha w (by simp [hw]),
        Memory.read_write_other _ _ _ _ (ha w (by simp))]
    · rw [List.map_cons, List.nodup_cons] at hn
      rw [List.foldl_cons]
      rcases List.mem_cons.1 hv with rfl | hv
      · rw [h2 _ fun w hw he => hn.1 (List.mem_map.2 ⟨w, hw, he.symm⟩), Memory.read_write_same _ _ _ hm.1]
      · exact h3 hn.2 v hv

end Sys2Proof.Machine
end

