-- ==== Sys2Proof/Laws/Turn.lean ====
section
/-! SUPPORT. Everything the block's turn can do in a running decode, phase by phase (43 R162 to R171), said once. -/

namespace Sys2Proof.Machine

/-! ### What reading symbols and bits does to the state -/

/-- How many destuffer steps DRAIN still takes, at most, and the end of the decode. -/
def drainCost (s : State) : Nat := if s.endRec.ended then 1 else s.inLen.toNat - s.ip + 2

/-- Two states that differ in the destuffer, the cursor and c0 only. -/
def SameButScan (s t : State) : Prop :=
  t = { s with ip := t.ip, dbits := t.dbits, src := t.src, endRec := t.endRec, cur := t.cur, c0 := t.c0 }

/-- t is what reading bits and symbols leaves of s: only the destuffer, the cursor and c0 have moved, and forwards. -/
structure Scanned (s t : State) : Prop where
  frame : SameButScan s t
  stream : StreamOk s → StreamOk t
  cost : drainCost t ≤ drainCost s

theorem Scanned.refl (s : State) : Scanned s s := ⟨rfl, id, Nat.le_refl _⟩

theorem Scanned.trans {s t u : State} (h1 : Scanned s t) (h2 : Scanned t u) : Scanned s u := by
  refine ⟨?_, fun h => h2.stream (h1.stream h), Nat.le_trans h2.cost h1.cost⟩
  have a := h1.frame
  have b := h2.frame
  unfold SameButScan at *
  rw [b, a]

/-- Two ways, one after the other. -/
theorem walk_append {len : Nat} {byte : Nat → Byte} : ∀ {l l' : List Nat} {a b c : Nat},
    Walk len byte l a b → Walk len byte l' b c → Walk len byte (l ++ l') a c := by
  intro l
  induction l with
  | nil =>
    intro l' a b c h1 h2
    rw [Walk] at h1
    exact h1 ▸ h2
  | cons o t ih =>
    intro l' a b c h1 h2
    rw [List.cons_append, Walk]
    rw [Walk] at h1
    exact ⟨h1.1, h1.2.imp (fun h => ⟨h.1, h.2.1, ih h.2.2 h2⟩) fun h => ⟨h.1, h.2.1, h.2.2.1, ih h.2.2.2 h2⟩⟩

/-- A way sees the input bytes only. -/
theorem walk_congr {len : Nat} {byte byte' : Nat → Byte} (h : ∀ o < len, byte' o = byte o) : ∀ {l : List Nat} {a b : Nat},
    Walk len byte l a b → Walk len byte' l a b := by
  intro l
  induction l with
  | nil => exact id
  | cons o t ih =>
    intro a b hw
    rw [Walk] at hw ⊢
    refine ⟨hw.1, hw.2.imp (fun g => ⟨g.1, ?_, ih g.2.2⟩) fun g => ⟨g.1, ?_, ?_, ih g.2.2.2⟩⟩
    · exact h a g.1 ▸ g.2.1
    · exact (h a (by omega)).trans g.2.1
    · exact (h (a + 1) g.1).trans g.2.2.1

/-- Every offset of a way lies in the input, and the way's end is no further than the end of the input. -/
theorem walk_lt {len : Nat} {byte : Nat → Byte} : ∀ {l : List Nat} {a b : Nat}, Walk len byte l a b → a ≤ b ∧ ∀ o ∈ l, o < len := by
  intro l
  induction l with
  | nil =>
    intro a b h
    rw [Walk] at h
    exact ⟨h.le, fun o ho => absurd ho List.not_mem_nil⟩
  | cons x t ih =>
    intro a b h
    rw [Walk] at h
    obtain ⟨rfl, ⟨h1, _, h2⟩ | ⟨h1, _, _, h2⟩⟩ := h
    · refine ⟨by have := (ih h2).1; omega, fun o ho => ?_⟩
      rcases List.mem_cons.1 ho with rfl | ho
      · exact h1
      · exact (ih h2).2 o ho
    · refine ⟨by have := (ih h2).1; omega, fun o ho => ?_⟩
      rcases List.mem_cons.1 ho with rfl | ho
      · omega
      · exact (ih h2).2 o ho

/-- The stream sees memory through the input bytes only. -/
theorem streamOk_mem {s : State} {mem : List Host.Cell} (hs : StreamOk s)
    (h : ∀ o < s.inLen.toNat, Memory.read mem (addrAt s.inBase o) = Memory.read s.mem (addrAt s.inBase o)) :
    StreamOk { s with mem := mem } := by
  refine ⟨?_, walk_congr h hs.walk, hs.inside, ⟨hs.ended.1, fun he => ?_⟩, hs.cursor, hs.start⟩
  · show s.dbits = _
    rw [hs.content, List.flatMap_def, List.flatMap_def]
    congr 1
    exact List.map_congr_left fun o ho => congrArg (fun b : Byte => uintToBits b.toNat 8) (h o ((walk_lt hs.walk).2 o ho)).symm
  · refine (hs.ended.2 he).imp id (Or.imp (fun g => ⟨g.1, ?_, g.2.2⟩) fun g => ⟨g.1, ?_, ?_, ?_⟩)
    · exact (h _ (by have := g.1; show s.ip < _; omega)).trans g.2.1
    · exact (h _ (by have := g.1; show s.ip < _; omega)).trans g.2.1
    · exact fun e => g.2.2.1 ((h _ g.1).symm.trans e)
    · exact g.2.2.2.trans (by rw [show inByte s (s.ip + 1) = inByte { s with mem := mem } (s.ip + 1) from (h _ g.1).symm])

/-- What a completed destuffer step leaves, byte by byte: the end of the data as 41 R141 records it, or one more byte of
D. -/
theorem dstep_bytes {s t : State} {a : Unit} (h : dstep s = .ok a t) :
    (∃ e, t = { s with endRec := e } ∧ e.ended = true ∧ EndOk t) ∨
    (∃ n, t = pushByte (inByte s s.ip) n s ∧ s.ip + n ≤ s.inLen.toNat ∧
      Walk s.inLen.toNat (inByte s) [s.ip] s.ip (s.ip + n)) := by
  have clear : ∀ e : EndRec, e.ended = true → e.ended = false → e = EndRec.clear := fun e h1 h2 => by simp [h1] at h2
  have read : ∀ i b u, inputByte i s = .ok b u → u = s ∧ b = inByte s i := by
    intro i b u hu
    rcases inputByte_cases s i with h | ⟨h, _⟩ | ⟨h, _⟩
    · rw [h] at hu
      cases hu
      exact ⟨rfl, rfl⟩
    · rw [h] at hu
      cases hu
    · rw [h] at hu
      cases hu
  unfold dstep at h
  split at h
  · rename_i hle
    cases h
    exact .inl ⟨_, rfl, rfl, clear _ rfl, fun _ => .inl ⟨hle, rfl⟩⟩
  · rename_i hlt
    cases h1 : inputByte s.ip s with
    | err e u => simp [h1, andThen] at h
    | stall u => simp [h1, andThen] at h
    | ok b u =>
      obtain ⟨rfl, hb⟩ := read _ _ _ h1
      rw [h1] at h
      simp only [andThen] at h
      split at h
      · rename_i hff
        cases h
        subst hb
        exact .inr ⟨1, rfl, by omega, rfl, .inl ⟨by omega, hff, rfl⟩⟩
      · rename_i hff
        rw [ne_eq, not_not] at hff
        subst hb
        split at h
        · cases h
          exact .inl ⟨_, rfl, rfl, clear _ rfl, fun _ => .inr (.inl ⟨by show u.ip + 1 = u.inLen.toNat; omega, hff, rfl⟩)⟩
        · rename_i hlt2
          cases h2 : inputByte (u.ip + 1) u with
          | err e v => simp [h2] at h
          | stall v => simp [h2] at h
          | ok c v =>
            obtain ⟨rfl, hc⟩ := read _ _ _ h2
            rw [h2] at h
            simp only at h
            subst hc
            split at h
            · rename_i h0
              cases h
              exact .inr ⟨2, by rw [hff], by omega, rfl, .inr ⟨by omega, hff, h0, rfl⟩⟩
            · rename_i h0
              cases h
              exact .inl ⟨_, rfl, rfl, clear _ rfl, fun _ => .inr (.inr ⟨by show v.ip + 1 < v.inLen.toNat; omega, hff, h0, rfl⟩)⟩

/-- A destuffer step keeps the stream the input destuffed (41 R141, R142). -/
theorem dstep_streamOk {s t : State} {a : Unit} (h : dstep s = .ok a t) (he : s.endRec.ended = false) (hs : StreamOk s) :
    StreamOk t := by
  rcases dstep_bytes h with ⟨e, rfl, _, hend⟩ | ⟨n, rfl, hle, hw⟩
  · exact ⟨hs.content, hs.walk, hs.inside, hend, hs.cursor, hs.start⟩
  · refine ⟨?_, walk_append hs.walk hw, hle, ⟨hs.ended.1, fun h' => ?_⟩, ?_, hs.start⟩
    · show s.dbits ++ _ = (s.src ++ [s.ip]).flatMap _
      rw [List.flatMap_append, hs.content]
      simp [inByte, pushByte]
    · exact absurd (he.symm.trans h') (by decide)
    · rw [pushByte_length]
      exact Nat.le_trans hs.cursor (Nat.le_add_right _ _)

/-- A destuffer step brings the end of the data nearer. -/
theorem dstep_cost {s t : State} {a : Unit} (h : dstep s = .ok a t) (he : s.endRec.ended = false) :
    drainCost t < drainCost s := by
  have hs : drainCost s = s.inLen.toNat - s.ip + 2 := by simp [drainCost, he]
  rw [hs]
  rcases dstep_ok h with ⟨pos, mk, b, rfl, hp⟩ | ⟨n, hn, hle, rfl⟩
  · simp [drainCost, endAt]
  · have : drainCost (pushByte (Memory.read s.mem (addrAt s.inBase s.ip)) n s) = s.inLen.toNat - (s.ip + n) + 2 := by
      simp [drainCost, pushByte, he]
    rw [this]
    omega

theorem dstep_scanned {s t : State} {a : Unit} (h : dstep s = .ok a t) (he : s.endRec.ended = false) : Scanned s t :=
  ⟨by
    rcases dstep_ok h with ⟨pos, mk, b, rfl, hp⟩ | ⟨n, hn, hle, rfl⟩ <;> rfl,
    dstep_streamOk h he, (dstep_cost h he).le⟩

theorem scanned_step (s : State) : ∀ t u a, Scanned s t → t.endRec.ended = false → dstep t = .ok a u → Scanned s u :=
  fun _ _ _ h1 h2 h3 => h1.trans (dstep_scanned h3 h2)

/-- Moving the cursor over bits that are there. -/
theorem scanned_advance (s : State) (n : Nat) (h : s.cur + n ≤ s.dbits.length) : Scanned s { s with cur := s.cur + n } :=
  ⟨rfl, fun hs => ⟨hs.content, hs.walk, hs.inside, hs.ended, h, Nat.le_trans hs.start (Nat.le_add_right _ _)⟩,
    Nat.le_refl _⟩

theorem scanned_latch (s : State) : Scanned s { s with c0 := s.cur } :=
  ⟨rfl, fun hs => ⟨hs.content, hs.walk, hs.inside, hs.ended, hs.cursor, Nat.le_refl _⟩, Nat.le_refl _⟩

theorem Scanned.params_eq {s t : State} (h : Scanned s t) : t.params = s.params := by
  have := h.frame
  unfold SameButScan at this
  rw [this]

/-- Everything MATCH can do (42 R156). -/
theorem match_scanned (t : HtTable) (s : State) :
    (∀ v u, matchCode t s = .ok v u → Scanned s u) ∧
    (∀ e u, matchCode t s = .err e u → Scanned s u ∧ e.origin.inDecode = true) ∧
    (∀ u, matchCode t s = .stall u → Scanned s u ∧ s.params.pBus = .stall) := by
  obtain ⟨h1, h2, h3⟩ := matchCode_induct t (Scanned s) (scanned_step s) (scanned_latch s)
  refine ⟨fun v u h => ?_, h2, fun u h => ?_⟩
  · obtain ⟨w, n, hw, _, hn, rfl⟩ := h1 v u h
    exact hw.trans (scanned_advance w n hn)
  · obtain ⟨hu, hd⟩ := h3 u h
    exact ⟨hu, hu.params_eq ▸ (dstep_stall hd).2⟩

/-- Everything READ can do (41 R143). -/
theorem read_scanned (n : Nat) (s : State) :
    (∀ v u, readBits n s = .ok v u → Scanned s u) ∧
    (∀ e u, readBits n s = .err e u → Scanned s u ∧ e.origin.inDecode = true) ∧
    (∀ u, readBits n s = .stall u → Scanned s u ∧ s.params.pBus = .stall) := by
  by_cases h0 : n = 0
  · rw [readBits, if_pos h0]
    refine ⟨fun v u h => ?_, fun e u h => ?_, fun u h => ?_⟩
    · cases h
      exact Scanned.refl s
    · cases h
    · cases h
  · obtain ⟨h1, h2, h3⟩ := peek_induct (n := n) (Scanned s) (scanned_step s) (Scanned.refl s)
    rw [readBits_peek h0]
    cases hp : peek n s with
    | ok w t =>
      obtain ⟨a, b, _⟩ := h1 w t hp
      refine ⟨fun v u h => ?_, fun e u h => ?_, fun u h => ?_⟩
      · cases h
        exact a.trans (scanned_advance t n b)
      · cases h
      · cases h
    | err e t =>
      refine ⟨fun v u h => ?_, fun e u h => ?_, fun u h => ?_⟩
      · cases h
      · cases h
        exact h2 _ _ hp
      · cases h
    | stall t =>
      refine ⟨fun v u h => ?_, fun e u h => ?_, fun u h => ?_⟩
      · cases h
      · cases h
      · cases h
        obtain ⟨hu, hd⟩ := h3 _ hp
        exact ⟨hu, hu.params_eq ▸ (dstep_stall hd).2⟩

/-! ### The turn, phase by phase -/

/-- A turn ends in an error of the decode, in a state that reading has left of s. -/
def EndsInError (s : State) (r : Result) : Prop :=
  ∃ u e, Scanned s u ∧ e.origin.inDecode = true ∧ r = .next (raiseErr e u)

/-- A turn leaves the block waiting on a DMA access (20 R66). -/
def Waits (s : State) (r : Result) : Prop :=
  ∃ u, Scanned s u ∧ s.params.pBus = .stall ∧ r = .next { u with stalled := true }

theorem EndsInError.mono {s t : State} {r : Result} (h : Scanned s t) : EndsInError t r → EndsInError s r :=
  fun ⟨u, e, hu, he, hr⟩ => ⟨u, e, h.trans hu, he, hr⟩

theorem Waits.mono {s t : State} {r : Result} (h : Scanned s t) : Waits t r → Waits s r :=
  fun ⟨u, hu, hp, hr⟩ => ⟨u, h.trans hu, h.params_eq ▸ hp, hr⟩

/-- Everything a DC term can do (43 R162, R163). -/
theorem dcTerm_cases (n : Nat) (s : State) :
    EndsInError s (settle (dcTerm n s)) ∨ Waits s (settle (dcTerm n s)) ∨
    ∃ (u : State) (x : Half), Scanned s u ∧ settle (dcTerm n s) = .next { u with
      pred := u.pred.set u.j.val x, zz := u.zz.set u.j.val ((u.zz.get u.j).set 0 x), phase := .ac, k := 1 } := by
  obtain ⟨h1, h2, h3⟩ := read_scanned n s
  rw [dcTerm]
  cases hr : readBits n s with
  | err e u =>
    obtain ⟨a, b⟩ := h2 e u hr
    exact .inl ⟨u, e, a, b, rfl⟩
  | stall u =>
    obtain ⟨a, b⟩ := h3 u hr
    exact .inr (.inl ⟨u, a, b, rfl⟩)
  | ok v u =>
    have a := h1 v u hr
    simp only [andThen]
    split
    · exact .inl ⟨u, _, a, rfl, rfl⟩
    · exact .inr (.inr ⟨u, _, a, rfl⟩)

/-- The coefficients z agree with u's on the current component from position n on. -/
def SameFrom (n : Nat) (u : State) (z : Vector (Vector Half 64) 4) : Prop :=
  ∀ p : Fin 64, n ≤ p.val → (z.get u.j).get p = (u.zz.get u.j).get p

/-- Everything an AC term can do (43 R165, R168). -/
theorem acTerm_cases (r n : Nat) (s : State) :
    EndsInError s (settle (acTerm r n s)) ∨ Waits s (settle (acTerm r n s)) ∨
    ∃ (u : State) (z : Vector (Vector Half 64) 4), Scanned s u ∧ s.k + r ≤ 63 ∧ SameFrom (s.k + r + 1) u z ∧
      settle (acTerm r n s) = .next (positionAt (s.k + r + 1) { u with zz := z }) := by
  obtain ⟨h1, h2, h3⟩ := read_scanned n s
  rw [acTerm]
  split
  · exact .inl ⟨s, _, Scanned.refl s, rfl, rfl⟩
  · rename_i hk
    cases hr : readBits n s with
    | err e u =>
      obtain ⟨a, b⟩ := h2 e u hr
      exact .inl ⟨u, e, a, b, rfl⟩
    | stall u =>
      obtain ⟨a, b⟩ := h3 u hr
      exact .inr (.inl ⟨u, a, b, rfl⟩)
    | ok v u =>
      have a := h1 v u hr
      have hku : u.k = s.k := by
        have := a.frame
        unfold SameButScan at this
        rw [this]
      simp only [andThen]
      refine .inr (.inr ⟨u, u.zz.set u.j.val ((u.zz.get u.j).set (s.k + r) (coef (extend u.params.pExtend v n))
        (by omega)), a, by omega, fun p hp => ?_, ?_⟩)
      · rw [vec_get_set_self u.zz u.j]
        exact vec_get_set_ne (u.zz.get u.j) ⟨s.k + r, by omega⟩ p _ (Fin.ne_of_val_ne (by show s.k + r ≠ _; omega))
      · rw [hku, setCoef, dif_pos (by omega)]
        rfl

/-- The block takes its turn in a decode: BUSY, on no stalled access, with reset not asserted and START's checks passed. -/
structure Turning (s : State) : Prop where
  busy : s.seq = .busy
  moving : s.stalled = false
  released : s.resetAsserted = false
  checks : startChecks s = none

/-- The turn of a running decode is its move (43 R171). -/
theorem turn_move {s : State} (h : Turning s) : turn s = perform (decodeMove s) := by
  rw [turn, blockTurn, if_neg (by simp [h.busy, h.moving, h.released]), if_neg (by simp [h.checks])]

/-- A match that takes no destuffer step once the data has ended. -/
theorem not_destuffed {t : HtTable} {s : State} (h : s.endRec.ended = true) :
    destuffed s (leftBy (matchCode t s)) = false := by
  have hp : ∀ u : State, u.ip = s.ip ∧ u.endRec = s.endRec → destuffed s u = false := by
    rintro u ⟨h1, h2⟩
    simp [destuffed, h1, h2]
  obtain ⟨h1, h2, h3⟩ := matchCode_induct t (fun u => u.ip = s.ip ∧ u.endRec = s.endRec) (s := s)
    (fun u v a hu he _ => by
      rw [hu.2, h] at he
      cases he) ⟨rfl, rfl⟩
  cases hm : matchCode t s with
  | ok v u =>
    obtain ⟨w, n, hw, _, _, rfl⟩ := h1 v u hm
    exact hp _ hw
  | err e u => exact hp _ (h2 e u hm).1
  | stall u => exact hp _ (h3 u hm).1

/-- A destuffer step keeps the cursor and only lengthens D. -/
theorem dstep_prefix {s u : State} {a : Unit} (h : dstep s = .ok a u) : u.cur = s.cur ∧ ∃ l, u.dbits = s.dbits ++ l := by
  rcases dstep_ok h with ⟨p, m, b, rfl, _⟩ | ⟨n, _, _, rfl⟩
  · exact ⟨rfl, [], by simp [endAt]⟩
  · exact ⟨rfl, _, rfl⟩

/-- A destuffer step does not see c0. -/
theorem dstep_c0 {s u : State} (h : dstep s = .ok () u) (c : Nat) : dstep { s with c0 := c } = .ok () { u with c0 := c } := by
  have hi : ∀ i, (inputByte i s = .ok (inByte s i) s → inputByte i { s with c0 := c } = .ok (inByte s i) { s with c0 := c }) := by
    intro i
    unfold inputByte
    show (if busRejects s false (addrAt s.inBase i) = true then _ else _) = _ →
      (if busRejects s false (addrAt s.inBase i) = true then _ else _) = _
    split
    · unfold rejectedAccess
      split <;> intro h' <;> cases h'
    · exact fun _ => rfl
  have hc : ∀ i, (∃ b, inputByte i s = .ok b s) ∨ (∃ e, inputByte i s = .err e s) ∨ inputByte i s = .stall s := by
    intro i
    rcases inputByte_cases s i with g | ⟨g, _⟩ | ⟨g, _⟩
    · exact .inl ⟨_, g⟩
    · exact .inr (.inl ⟨_, g⟩)
    · exact .inr (.inr g)
  have hb : ∀ i b, inputByte i s = .ok b s → b = inByte s i := by
    intro i b g
    rcases inputByte_cases s i with k | ⟨k, _⟩ | ⟨k, _⟩ <;> rw [k] at g <;> cases g
    rfl
  revert h
  unfold dstep
  dsimp only
  split
  · intro h
    cases h
    rfl
  · rcases hc s.ip with ⟨b, g⟩ | ⟨e, g⟩ | g
    · obtain rfl := hb _ _ g
      rw [g, hi _ g]
      dsimp only [andThen]
      split
      · intro h
        cases h
        rfl
      · split
        · intro h
          cases h
          rfl
        · rcases hc (s.ip + 1) with ⟨b, g⟩ | ⟨e, g⟩ | g
          · obtain rfl := hb _ _ g
            rw [g, hi _ g]
            dsimp only
            split <;> intro h <;> cases h <;> rfl
          · rw [g]
            intro h
            cases h
          · rw [g]
            intro h
            cases h
    · rw [g]
      intro h
      cases h
    · rw [g]
      intro h
      cases h

/-- A search that needs a destuffer step finds the same from the state which that step leaves (42 R156). -/
theorem matchFrom_dstep (codes : List Code) : ∀ (fuel L : Nat) {s u : State}, s.endRec.ended = false → dstep s = .ok () u →
    destuffed s (leftBy (matchFrom codes fuel L s)) = true → matchFrom codes fuel L u = matchFrom codes fuel L s := by
  intro fuel
  induction fuel with
  | zero =>
    intro L s u _ _ hm
    simp [matchFrom, leftBy, destuffed] at hm
  | succ fuel ih =>
    intro L s u he hd hm
    obtain ⟨hc, l, hl⟩ := dstep_prefix hd
    by_cases hb : s.cur + L ≤ s.dbits.length
    · have hb' : u.cur + L ≤ u.dbits.length := by
        rw [hc, hl, List.length_append]
        omega
      have e : (u.dbits.drop u.cur).take L = (s.dbits.drop s.cur).take L := by
        rw [hc, hl, List.drop_append_of_le_length (by omega),
          List.take_append_of_le_length (by
            rw [List.length_drop]
            omega)]
      rw [matchFrom, matchFrom, peek_there hb, peek_there hb', e]
      rw [matchFrom, peek_there hb] at hm
      simp only [andThen] at hm ⊢
      cases hf : findCode codes L (bitsToUint ((s.dbits.drop s.cur).take L)) with
      | some v =>
        rw [hf] at hm
        simp [leftBy, destuffed] at hm
      | none =>
        rw [hf] at hm
        exact ih _ he hd hm
    · have : peek L u = peek L s := by
        unfold peek
        rw [fill_step (by omega) he, hd]
        rfl
      rw [matchFrom, matchFrom, this]

/-- MATCH goes on to the same answer after a destuffer step that it needs (42 R156). -/
theorem matchCode_dstep {t : HtTable} {s u : State} (he : s.endRec.ended = false) (hd : dstep s = .ok () u)
    (hm : destuffed s (leftBy (matchCode t s)) = true) : matchCode t u = matchCode t s := by
  have e : ({ s with c0 := s.cur } : State) = { s with c0 := u.cur } := by rw [(dstep_prefix hd).1]
  have hm' : destuffed { s with c0 := u.cur } (leftBy (matchFrom t.codes t.maxlen 1 { s with c0 := u.cur })) = true :=
    e ▸ hm
  exact (matchFrom_dstep t.codes t.maxlen 1 (s := { s with c0 := u.cur }) he (dstep_c0 hd u.cur) hm').trans
    (congrArg (matchFrom t.codes t.maxlen 1) e.symm)

/-- One destuffer step as a turn: what it leaves, an error, or a wait (41 R141). -/
def Destuffs (s : State) (r : Result) : Prop :=
  ∃ t, Scanned s t ∧ drainCost t < drainCost s ∧ t.cur = s.cur ∧ r = .next t

theorem dstep_turn {s : State} (he : s.endRec.ended = false) :
    EndsInError s (settle (dstep s)) ∨ Waits s (settle (dstep s)) ∨ Destuffs s (settle (dstep s)) := by
  cases hd : dstep s with
  | err e u =>
    obtain ⟨rfl, _, ho, _⟩ := dstep_err hd
    exact .inl ⟨u, e, Scanned.refl u, by rw [ho]; rfl, rfl⟩
  | stall u =>
    obtain ⟨rfl, hp⟩ := dstep_stall hd
    exact .inr (.inl ⟨u, Scanned.refl u, hp, rfl⟩)
  | ok a t =>
    refine .inr (.inr ⟨t, dstep_scanned hd he, dstep_cost hd he, ?_, rfl⟩)
    have := dstep_frame hd
    unfold SameButStream at this
    rw [this]

/-- Everything a turn in a term can do: one destuffer step, the match's error or wait, or the symbol (42 R156; log 4). -/
theorem termMove_cases {P : Result → Prop} (dec : Byte → Instr) (bits : Byte → State → Nat) (t : HtTable) (s : State)
    (hd : s.endRec.ended = false → P (settle (dstep s)))
    (he : ∀ e u, Scanned s u → e.origin.inDecode = true → P (.next (raiseErr e u)))
    (hw : ∀ u, Scanned s u → s.params.pBus = .stall → P (.next { u with stalled := true }))
    (hs : ∀ b u, Scanned s u → P (exec (dec b) u)) :
    P (perform (termMove dec bits t s)) := by
  obtain ⟨m1, m2, m3⟩ := match_scanned t s
  unfold termMove
  split
  · rename_i hm
    refine hd ?_
    by_contra hn
    rw [Bool.not_eq_false] at hn
    rw [not_destuffed hn] at hm
    cases hm
  · rename_i hm
    cases hr : matchCode t s with
    | err e u => exact he e u (m2 e u hr).1 (m2 e u hr).2
    | stall u => exact hw u (m3 u hr).1 (m3 u hr).2
    | ok b u =>
      simp only
      split
      · rename_i hn
        refine hd ?_
        rw [hr] at hm
        simp only [leftBy, destuffed, Bool.or_eq_true, bne_iff_ne, ne_eq, not_or, not_not] at hm
        rw [← hm.2]
        simp only [needsData, Bool.and_eq_true, Bool.not_eq_true'] at hn
        exact hn.2
      · exact hs b u (m1 b u hr)

/-- Everything the turn can do in the DC phase (43 R162, R163, R171). -/
theorem turn_dc (s : State) (h : Turning s) (h4 : s.phase = .dc) :
    EndsInError (beginBlock s) (turn s) ∨ Waits (beginBlock s) (turn s) ∨ Destuffs (beginBlock s) (turn s) ∨
    ∃ (u : State) (x : Half), Scanned (beginBlock s) u ∧ turn s = .next { u with
      pred := u.pred.set u.j.val x, zz := u.zz.set u.j.val ((u.zz.get u.j).set 0 x), phase := .ac, k := 1 } := by
  rw [turn_move h, decodeMove, h4]
  refine termMove_cases (P := fun r => EndsInError (beginBlock s) r ∨ Waits (beginBlock s) r ∨
    Destuffs (beginBlock s) r ∨ ∃ (u : State) (x : Half), Scanned (beginBlock s) u ∧ r = .next { u with
      pred := u.pred.set u.j.val x, zz := u.zz.set u.j.val ((u.zz.get u.j).set 0 x), phase := .ac, k := 1 })
    decodeDc dcBits _ _ (fun he => ?_) (fun e u hu he => .inl ⟨u, e, hu, he, rfl⟩)
    (fun u hu hp => .inr (.inl ⟨u, hu, hp, rfl⟩)) (fun v u a => ?_)
  · exact (dstep_turn he).imp id (Or.imp id .inl)
  · have hu : u.seq = .busy ∧ u.phase = .dc := by
      have := a.frame
      unfold SameButScan at this
      rw [this]
      exact ⟨h.busy, h4⟩
    have fin : EndsInError u (exec (decodeDc v) u) ∨ Waits u (exec (decodeDc v) u) ∨ (∃ (w : State) (x : Half), Scanned u w ∧
        exec (decodeDc v) u = .next { w with
          pred := w.pred.set w.j.val x, zz := w.zz.set w.j.val ((w.zz.get w.j).set 0 x), phase := .ac, k := 1 }) := by
      unfold decodeDc
      split
      · rw [show exec .dcSize0 u = settle (dcTerm 0 u) from if_pos hu]
        exact dcTerm_cases 0 u
      · split
        · rw [show ∀ n, exec (.dcSize n) u = settle (dcTerm n.toNat u) from fun n => if_pos hu]
          exact dcTerm_cases _ u
        · have hb : exec (.dcBad v) u = .next (raiseErr (termErr .corruptBitstream u) u) := if_pos hu
          exact .inl ⟨u, _, Scanned.refl u, rfl, hb⟩
    rcases fin with h | h | ⟨w, x, hw, h⟩
    · exact .inl (h.mono a)
    · exact .inr (.inl (h.mono a))
    · exact .inr (.inr (.inr ⟨w, x, a.trans hw, h⟩))

/-- Everything the turn can do in the AC phase (43 R165 to R171). -/
theorem turn_ac (s : State) (h : Turning s) (h4 : s.phase = .ac) :
    EndsInError s (turn s) ∨ Waits s (turn s) ∨ Destuffs s (turn s) ∨ (∃ u, Scanned s u ∧ turn s = .next (blockDone u)) ∨
    ∃ (u : State) (z : Vector (Vector Half 64) 4) (n : Nat), Scanned s u ∧ s.k < n ∧ n ≤ 64 ∧ SameFrom n u z ∧
      turn s = .next (positionAt n { u with zz := z }) := by
  rw [turn_move h, decodeMove, h4]
  refine termMove_cases (P := fun r => EndsInError s r ∨ Waits s r ∨ Destuffs s r ∨
      (∃ u, Scanned s u ∧ r = .next (blockDone u)) ∨
      ∃ (u : State) (z : Vector (Vector Half 64) 4) (n : Nat), Scanned s u ∧ s.k < n ∧ n ≤ 64 ∧ SameFrom n u z ∧
        r = .next (positionAt n { u with zz := z }))
    decodeAc acBits _ _ (fun he => ?_) (fun e u hu he => .inl ⟨u, e, hu, he, rfl⟩)
    (fun u hu hp => .inr (.inl ⟨u, hu, hp, rfl⟩)) (fun v u a => ?_)
  · exact (dstep_turn he).imp id (Or.imp id .inl)
  · have hu : (u.seq = .busy ∧ u.phase = .ac) ∧ u.k = s.k := by
      have := a.frame
      unfold SameButScan at this
      rw [this]
      exact ⟨⟨h.busy, h4⟩, rfl⟩
    have term : ∀ i r n, exec i u = settle (acTerm r n u) →
        EndsInError s (exec i u) ∨ Waits s (exec i u) ∨ Destuffs s (exec i u) ∨
        (∃ w, Scanned s w ∧ exec i u = .next (blockDone w)) ∨
        ∃ (w : State) (z : Vector (Vector Half 64) 4) (n : Nat), Scanned s w ∧ s.k < n ∧ n ≤ 64 ∧ SameFrom n w z ∧
          exec i u = .next (positionAt n { w with zz := z }) := by
      intro i r n hn
      rw [hn]
      rcases acTerm_cases r n u with h | h | ⟨w, z, hw, hk, hz, h⟩
      · exact .inl (h.mono a)
      · exact .inr (.inl (h.mono a))
      · exact .inr (.inr (.inr (.inr ⟨w, z, _, a.trans hw, by omega, by omega, hz, h⟩)))
    unfold decodeAc
    split
    · have hb : exec .eob u = .next (endBlock u) := if_pos hu.1
      exact .inr (.inr (.inr (.inl ⟨u, a, hb⟩)))
    · split
      · have hb : exec .zrl u = settle (if 63 < u.k + 15 then .err (termErr .corruptBitstream u) u
            else .ok () (advanceTo (u.k + 16) u)) := if_pos hu.1
        rw [hb]
        split
        · exact .inl ⟨u, _, a, rfl, rfl⟩
        · exact .inr (.inr (.inr (.inr ⟨u, u.zz, u.k + 16, a, by omega, by omega, fun _ _ => rfl, rfl⟩)))
      · split
        · exact term _ _ 0 (if_pos hu.1)
        · exact term _ _ _ (if_pos hu.1)

/-! ### RECON, step by step (43 R171, 70 R254) -/

theorem turn_recon_move {s : State} (h : Turning s) (h4 : s.phase = .recon) : turn s = settle (reconMove s) := by
  rw [turn_move h, decodeMove, h4]
  rfl

/-- The next component is reconstructed. -/
theorem turn_recon_comp {s : State} (h : Turning s) (h4 : s.phase = .recon) (hs : s.sub < scanNs s) :
    turn s = .next { reconComp s (Fin.ofNat 4 s.sub) with sub := s.sub + 1 } := by
  rw [turn_recon_move h h4, reconMove, if_pos hs]
  rfl

/-- The next output write is made. -/
theorem turn_recon_write {s : State} {w : Nat × Byte} (h : Turning s) (h4 : s.phase = .recon) (hs : scanNs s ≤ s.sub)
    (hw : (emitList s)[s.sub - scanNs s]? = some w) (hb : busRejects s true (addrAt s.outBase w.1) = false) :
    turn s = .next { s with mem := Memory.write s.mem (addrAt s.outBase w.1) w.2, sub := s.sub + 1 } := by
  rw [turn_recon_move h h4, reconMove, if_neg (by omega), hw]
  simp only [emitByte, hb]
  rfl

/-- The platform rejects the next output write. -/
theorem turn_recon_rejected {s : State} {w : Nat × Byte} (h : Turning s) (h4 : s.phase = .recon) (hs : scanNs s ≤ s.sub)
    (hw : (emitList s)[s.sub - scanNs s]? = some w) (hb : busRejects s true (addrAt s.outBase w.1) = true) :
    turn s = settle (rejectedAccess 1#8 w.1 s) := by
  rw [turn_recon_move h h4, reconMove, if_neg (by omega), hw]
  simp only [emitByte, hb]
  rfl

/-- The MCU is complete. -/
theorem turn_recon_end {s : State} (h : Turning s) (h4 : s.phase = .recon) (hs : scanNs s + (emitList s).length ≤ s.sub) :
    turn s = .next (nextMcu s) := by
  rw [turn_recon_move h h4, reconMove, if_neg (by omega), List.getElem?_eq_none (by omega)]
  rfl

/-- Everything the turn can do in the RECON phase: a component, a write, an error or a wait, or the end of the MCU (43
R171; 46 R205; 60 R223). -/
theorem turn_recon (s : State) (h : Turning s) (h4 : s.phase = .recon) :
    (s.sub < scanNs s ∧ turn s = .next { reconComp s (Fin.ofNat 4 s.sub) with sub := s.sub + 1 }) ∨
    (∃ w, w ∈ emitList s ∧ scanNs s ≤ s.sub ∧ s.sub < scanNs s + (emitList s).length ∧
      turn s = .next { s with mem := Memory.write s.mem (addrAt s.outBase w.1) w.2, sub := s.sub + 1 }) ∨
    (∃ o, s.params.pBus = .error ∧ turn s = .next (raiseErr ⟨.busError, .dma, 0#8, 1#8, BitVec.ofNat 32 o⟩ s)) ∨
    (s.params.pBus = .stall ∧ turn s = .next { s with stalled := true }) ∨
    (scanNs s + (emitList s).length ≤ s.sub ∧ turn s = .next (nextMcu s)) := by
  by_cases hs : s.sub < scanNs s
  · exact .inl ⟨hs, turn_recon_comp h h4 hs⟩
  · cases hw : (emitList s)[s.sub - scanNs s]? with
    | none =>
      rw [List.getElem?_eq_none_iff] at hw
      exact .inr (.inr (.inr (.inr ⟨by omega, turn_recon_end h h4 (by omega)⟩)))
    | some w =>
      cases hb : busRejects s true (addrAt s.outBase w.1)
      · obtain ⟨hlt, _⟩ := List.getElem?_eq_some_iff.1 hw
        exact .inr (.inl ⟨w, List.mem_of_getElem? hw, by omega, by omega, turn_recon_write h h4 (by omega) hw hb⟩)
      · have ht := turn_recon_rejected h h4 (by omega) hw hb
        unfold rejectedAccess at ht
        cases hp : s.params.pBus <;> rw [hp] at ht
        · exact .inr (.inr (.inl ⟨w.1, rfl, ht⟩))
        · exact .inr (.inr (.inr (.inl ⟨rfl, ht⟩)))

/-- Everything the turn can do in the DRAIN phase (43 R171, R174). -/
theorem turn_drain (s : State) (h : Turning s) (h4 : s.phase = .drain) :
    (s.endRec.ended = true ∧ turn s = .next (finishDecode s)) ∨
    (s.endRec.ended = false ∧ (EndsInError s (turn s) ∨ Waits s (turn s) ∨ Destuffs s (turn s))) := by
  have ht : turn s = settle (drainStep s) := by
    rw [turn_move h, decodeMove, h4]
    rfl
  rw [ht, drainStep]
  cases he : s.endRec.ended
  · rw [if_neg (by simp)]
    exact .inr ⟨rfl, dstep_turn he⟩
  · rw [if_pos rfl]
    exact .inl ⟨rfl, rfl⟩

/-- Outside BUSY, on a stalled access, and while reset is asserted, the turn does nothing (43 R175; 20 R66; 70 R240). -/
theorem turn_rests (s : State) (h : s.seq ≠ .busy ∨ s.stalled = true ∨ s.resetAsserted = true) : turn s = .next s := by
  rw [turn, blockTurn, if_pos (by tauto), perform]

/-- The turn of a BUSY state that does not pass START's checks (log 18). -/
theorem turn_invalid (s : State) (h1 : s.seq = .busy) (h2 : s.stalled = false) (h5 : s.resetAsserted = false)
    (h3 : startChecks s ≠ none) : turn s = .fault .launchInvalid := by
  rw [turn, blockTurn, if_neg (by simp [h1, h2, h5]), if_pos (Option.isSome_iff_ne_none.2 h3), perform]

/-! ### The reset input (70 R240 to R242) -/

/-- What the host sends runs while reset is not asserted. -/
theorem perform_answered {s : State} (i : Instr) (h : s.resetAsserted = false) : perform (answered i s) = exec i s := by
  rw [answered, if_neg (by simp [h]), perform]

/-- What the host sends is not answered while reset is asserted (70 R240). -/
theorem perform_unanswered {s : State} (i : Instr) (h : s.resetAsserted = true) : perform (answered i s) = .next s := by
  rw [answered, if_pos h, perform]

theorem resetValues_keeps (s : State) :
    (resetValues s).params = s.params ∧ (resetValues s).busMap = s.busMap ∧ (resetValues s).agenda = s.agenda ∧
    (resetValues s).readData = s.readData ∧ (resetValues s).memData = s.memData := by
  unfold resetValues
  by_cases h : s.seq = .busy <;> simp [h]

end Sys2Proof.Machine
end

