-- ==== Sys2Proof/Laws/Elsewhere.lean ====
section
/-! SUPPORT. What a decode does not see: memory outside the input range and the rest of the agenda (20 R63). Each decode
operation, started with other contents there, answers the same in the same state, those contents apart. -/

namespace Sys2Proof.Machine

/-- The state with other contents of memory and of the agenda. -/
def inWorld (mem : List Host.Cell) (agenda : List Event) (s : State) : State := { s with mem := mem, agenda := agenda }

/-- The answer with other contents of memory and of the agenda. -/
def elsewhere {α : Type} (mem : List Host.Cell) (agenda : List Event) (r : Decoded α) : Decoded α :=
  match r with
  | .ok a s => .ok a (inWorld mem agenda s)
  | .err e s => .err e (inWorld mem agenda s)
  | .stall s => .stall (inWorld mem agenda s)

/-- The memory holds the same input bytes as the state's (41 R140). -/
def SameInput (mem : List Host.Cell) (s : State) : Prop :=
  ∀ o < s.inLen.toNat, Memory.read mem (addrAt s.inBase o) = Memory.read s.mem (addrAt s.inBase o)

theorem SameInput.scanned {mem : List Host.Cell} {s t : State} (h : SameInput mem s) (hf : SameButScan s t) :
    SameInput mem t := by
  unfold SameButScan at hf
  unfold SameInput
  rw [hf]
  exact h

theorem SameButStream.scan {s t : State} (h : SameButStream s t) : SameButScan s t := by
  unfold SameButStream at h
  unfold SameButScan
  rw [h]

section
variable {mem : List Host.Cell} {agenda : List Event}

/-- Going on after an operation that does not see the rest of the world. -/
theorem andThen_elsewhere {α β : Type} {r r' : Decoded α} {f g : α → State → Decoded β}
    (hr : r' = elsewhere mem agenda r)
    (hf : ∀ a t, r = .ok a t → g a (inWorld mem agenda t) = elsewhere mem agenda (f a t)) :
    andThen r' g = elsewhere mem agenda (andThen r f) := by
  subst hr
  cases r with
  | ok a t => exact hf a t rfl
  | err e t => rfl
  | stall t => rfl

theorem inputByte_elsewhere {s : State} (h : SameInput mem s) (i : Nat) (hi : i < s.inLen.toNat) :
    inputByte i (inWorld mem agenda s) = elsewhere mem agenda (inputByte i s) := by
  unfold inputByte
  rw [show busRejects (inWorld mem agenda s) false (addrAt (inWorld mem agenda s).inBase i) =
    busRejects s false (addrAt s.inBase i) from rfl]
  split
  · unfold rejectedAccess
    rw [show (inWorld mem agenda s).params = s.params from rfl]
    split <;> rfl
  · exact congrArg (Decoded.ok · _) (h i hi)

theorem dstep_elsewhere {s : State} (h : SameInput mem s) :
    dstep (inWorld mem agenda s) = elsewhere mem agenda (dstep s) := by
  unfold dstep
  rw [show (inWorld mem agenda s).ip = s.ip from rfl, show (inWorld mem agenda s).inLen = s.inLen from rfl]
  split
  · rfl
  · rename_i h1
    refine andThen_elsewhere (inputByte_elsewhere h _ (by omega)) fun b t ht => ?_
    have ht' : t = s := by
      rcases inputByte_cases s s.ip with g | ⟨g, _⟩ | ⟨g, _⟩
      · rw [g] at ht
        cases ht
        rfl
      · rw [g] at ht
        cases ht
      · rw [g] at ht
        cases ht
    subst ht'
    rw [show (inWorld mem agenda t).ip = t.ip from rfl, show (inWorld mem agenda t).inLen = t.inLen from rfl]
    split
    · rfl
    · split
      · rfl
      · refine andThen_elsewhere (inputByte_elsewhere h _ (by omega)) fun c u _ => ?_
        split <;> rfl

theorem fillLoop_elsewhere (n : Nat) : ∀ (fuel : Nat) {s : State}, SameInput mem s →
    fillLoop n fuel (inWorld mem agenda s) = elsewhere mem agenda (fillLoop n fuel s) := by
  intro fuel
  induction fuel with
  | zero => exact fun _ => rfl
  | succ fuel ih =>
    intro s h
    rw [fillLoop, fillLoop]
    rw [show (inWorld mem agenda s).cur = s.cur from rfl, show (inWorld mem agenda s).dbits = s.dbits from rfl,
      show (inWorld mem agenda s).endRec = s.endRec from rfl]
    split
    · rfl
    · exact andThen_elsewhere (dstep_elsewhere h) fun a t ht => ih (h.scanned (dstep_frame ht).scan)

theorem peek_elsewhere (n : Nat) {s : State} (h : SameInput mem s) :
    peek n (inWorld mem agenda s) = elsewhere mem agenda (peek n s) := by
  refine andThen_elsewhere (fillLoop_elsewhere n _ h) fun _ t _ => ?_
  rw [show (inWorld mem agenda t).cur = t.cur from rfl, show (inWorld mem agenda t).dbits = t.dbits from rfl]
  split <;> rfl

theorem readBits_elsewhere (n : Nat) {s : State} (h : SameInput mem s) :
    readBits n (inWorld mem agenda s) = elsewhere mem agenda (readBits n s) := by
  unfold readBits
  split
  · rfl
  · exact andThen_elsewhere (peek_elsewhere n h) fun _ _ _ => rfl

theorem matchFrom_elsewhere (codes : List Code) : ∀ (fuel L : Nat) {s : State}, SameInput mem s →
    matchFrom codes fuel L (inWorld mem agenda s) = elsewhere mem agenda (matchFrom codes fuel L s) := by
  intro fuel
  induction fuel with
  | zero => exact fun _ _ _ => rfl
  | succ fuel ih =>
    intro L s h
    rw [matchFrom, matchFrom]
    refine andThen_elsewhere (peek_elsewhere L h) fun w t ht => ?_
    split
    · rfl
    · refine ih (L + 1) (h.scanned ?_)
      rcases peek_cases L s with ⟨u, hu, _, hp⟩ | ⟨u, _, _, _, hp⟩ | ⟨e, u, _, hp⟩ | ⟨u, _, hp⟩ <;> rw [hp] at ht <;> cases ht
      exact (fill_frame.1 t () hu).scan

theorem matchCode_elsewhere (t : HtTable) {s : State} (h : SameInput mem s) :
    matchCode t (inWorld mem agenda s) = elsewhere mem agenda (matchCode t s) :=
  matchFrom_elsewhere t.codes t.maxlen 1 (s := { s with c0 := s.cur }) h

theorem ite_elsewhere {α : Type} {c : Prop} [Decidable c] {x y x' y' : Decoded α} (hx : x' = elsewhere mem agenda x)
    (hy : y' = elsewhere mem agenda y) : (if c then x' else y') = elsewhere mem agenda (if c then x else y) := by
  split <;> assumption

theorem dcTerm_elsewhere (n : Nat) {s : State} (h : SameInput mem s) :
    dcTerm n (inWorld mem agenda s) = elsewhere mem agenda (dcTerm n s) :=
  andThen_elsewhere (readBits_elsewhere n h) fun _ _ _ => ite_elsewhere rfl rfl

theorem endBlock_elsewhere (s : State) : endBlock (inWorld mem agenda s) = inWorld mem agenda (endBlock s) := by
  unfold endBlock
  rw [show (inWorld mem agenda s).j = s.j from rfl, show scanNs (inWorld mem agenda s) = scanNs s from rfl]
  split <;> rfl

theorem advanceTo_elsewhere (n : Nat) (s : State) :
    advanceTo n (inWorld mem agenda s) = inWorld mem agenda (advanceTo n s) := by
  unfold advanceTo
  split
  · rfl
  · exact endBlock_elsewhere { s with k := n }

theorem setCoef_elsewhere (n : Nat) (c : Half) (s : State) :
    setCoef n c (inWorld mem agenda s) = inWorld mem agenda (setCoef n c s) := by
  unfold setCoef
  split <;> rfl

theorem acTerm_elsewhere (r n : Nat) {s : State} (h : SameInput mem s) :
    acTerm r n (inWorld mem agenda s) = elsewhere mem agenda (acTerm r n s) := by
  refine ite_elsewhere rfl (andThen_elsewhere (readBits_elsewhere n h) fun v t _ => ?_)
  show Decoded.ok () _ = Decoded.ok () _
  exact congrArg _ ((congrArg _ (setCoef_elsewhere ..)).trans (advanceTo_elsewhere ..))

end

end Sys2Proof.Machine
end

