-- ==== Sys2Proof/Laws/PerInstr.lean ====
section
/-! SUPPORT. The family RoundTrip: decoding the encoding of a well-formed instruction gives it back, one lemma per
constructor (30 R83, R88, R89, R95). -/

namespace Sys2Proof.Laws

theorem cmdOp_append (op : Byte) (arg : BitVec 24) : cmdOp (op ++ arg) = op := by
  unfold cmdOp
  apply BitVec.eq_of_getLsbD_eq
  intro i hi
  simp only [BitVec.getLsbD_extractLsb', BitVec.getLsbD_append, hi, decide_true, Bool.true_and]
  rw [if_neg (by omega)]
  simp

theorem cmdArg_append (op : Byte) (arg : BitVec 24) : cmdArg (op ++ arg) = arg := by
  unfold cmdArg
  apply BitVec.eq_of_getLsbD_eq
  intro i hi
  simp only [BitVec.getLsbD_extractLsb', BitVec.getLsbD_append, hi, decide_true, Bool.true_and]
  rw [if_pos (by omega)]
  simp

theorem cmdOp_cmdWord (op : Byte) (argh : Half) (a8 : Byte) : cmdOp (cmdWord op argh a8) = op := by
  unfold cmdOp cmdWord
  apply BitVec.eq_of_getLsbD_eq
  intro i hi
  simp only [BitVec.getLsbD_extractLsb', BitVec.getLsbD_append, hi, decide_true, Bool.true_and]
  rw [if_neg (by omega), if_neg (by omega)]
  congr 1
  omega

theorem cmdArgh_cmdWord (op : Byte) (argh : Half) (a8 : Byte) : cmdArgh (cmdWord op argh a8) = argh := by
  unfold cmdArgh cmdWord
  apply BitVec.eq_of_getLsbD_eq
  intro i hi
  simp only [BitVec.getLsbD_extractLsb', BitVec.getLsbD_append, hi, decide_true, Bool.true_and]
  rw [if_neg (by omega), if_pos (by omega)]
  congr 1
  omega

theorem cmdArg8_cmdWord (op : Byte) (argh : Half) (a8 : Byte) : cmdArg8 (cmdWord op argh a8) = a8 := by
  unfold cmdArg8 cmdWord
  apply BitVec.eq_of_getLsbD_eq
  intro i hi
  simp only [BitVec.getLsbD_extractLsb', BitVec.getLsbD_append, hi, decide_true, Bool.true_and]
  rw [if_pos (by omega)]
  congr 1
  omega

/-- A command word is its opcode and its 24 argument bits. -/
theorem cmdWord_split (w : Word) : w = cmdOp w ++ cmdArg w := by
  unfold cmdOp cmdArg
  apply BitVec.eq_of_getLsbD_eq
  intro i hi
  simp only [BitVec.getLsbD_append, BitVec.getLsbD_extractLsb']
  split
  · rename_i h
    simp [h]
  · rename_i h
    simp [show i - 24 < 8 by omega, show 24 + (i - 24) = i by omega]

/-- A word is START exactly when its fields are (30 R83). -/
theorem eq_start_iff (w : Word) : w = 0x01000000#32 ↔ cmdOp w = 0x01#8 ∧ cmdArg w = 0#24 := by
  constructor
  · rintro rfl
    decide
  · rintro ⟨h1, h2⟩
    rw [cmdWord_split w, h1, h2]
    decide

theorem cmdArg_cmdWord_ne (op : Byte) (argh : Half) (a8 : Byte) (h : argh ≠ 0#16) :
    cmdArg (cmdWord op argh a8) ≠ 0#24 := by
  intro hz
  apply h
  have h2 : cmdArgh (cmdWord op argh a8) = (cmdArg (cmdWord op argh a8)).extractLsb' 8 16 := by
    unfold cmdArgh cmdArg
    apply BitVec.eq_of_getLsbD_eq
    intro i hi
    simp only [BitVec.getLsbD_extractLsb', hi, decide_true, Bool.true_and]
    rw [show decide (8 + i < 24) = true by simp; omega, Bool.true_and]
    congr 1
    omega
  rw [cmdArgh_cmdWord, hz] at h2
  rw [h2]
  decide

namespace RoundTrip

/-- Decoding the encoding of a well-formed instruction gives it back. -/
def Statement (i : Instr) : Prop := i.wellFormed = true → decode (encode i) = .ok i

theorem rdStatus : Statement .rdStatus := fun _ => by decide
theorem rdInpos : Statement .rdInpos := fun _ => by decide
theorem rdMcucnt : Statement .rdMcucnt := fun _ => by decide
theorem rdPred (j : Fin 4) : Statement (.rdPred j) := fun _ => by revert j; decide

theorem rd (off : BitVec 16) : Statement (.rd off) := by
  intro h
  simp only [Instr.wellFormed, rdOffsetFree, Bool.and_eq_true, beq_iff_eq, bne_iff_ne, ne_eq] at h
  simp [decode, encode, encRd, decodeAccess, decodeRd, h]

theorem wrCtrl (d : Word) : Statement (.wrCtrl d) := fun _ => by
  simp [decode, encode, encWr, decodeAccess, decodeWr]
theorem wrCmd (d : Word) : Statement (.wrCmd d) := fun _ => by
  simp [decode, encode, encWr, decodeAccess, decodeWr]
theorem wrFrameDim (d : Word) : Statement (.wrFrameDim d) := fun _ => by
  simp [decode, encode, encWr, decodeAccess, decodeWr]
theorem wrFrameCfg (d : Word) : Statement (.wrFrameCfg d) := fun _ => by
  simp [decode, encode, encWr, decodeAccess, decodeWr]
theorem wrFcomp0 (d : Word) : Statement (.wrFcomp0 d) := fun _ => by
  simp [decode, encode, encWr, decodeAccess, decodeWr]
theorem wrFcomp1 (d : Word) : Statement (.wrFcomp1 d) := fun _ => by
  simp [decode, encode, encWr, decodeAccess, decodeWr]
theorem wrFcomp2 (d : Word) : Statement (.wrFcomp2 d) := fun _ => by
  simp [decode, encode, encWr, decodeAccess, decodeWr]
theorem wrFcomp3 (d : Word) : Statement (.wrFcomp3 d) := fun _ => by
  simp [decode, encode, encWr, decodeAccess, decodeWr]
theorem wrScanCfg (d : Word) : Statement (.wrScanCfg d) := fun _ => by
  simp [decode, encode, encWr, decodeAccess, decodeWr]
theorem wrInBase (d : Word) : Statement (.wrInBase d) := fun _ => by
  simp [decode, encode, encWr, decodeAccess, decodeWr]
theorem wrInLen (d : Word) : Statement (.wrInLen d) := fun _ => by
  simp [decode, encode, encWr, decodeAccess, decodeWr]
theorem wrOutBase (d : Word) : Statement (.wrOutBase d) := fun _ => by
  simp [decode, encode, encWr, decodeAccess, decodeWr]

theorem wrScomp (j : Fin 4) (d : Word) : Statement (.wrScomp j d) := by
  intro _
  have h : ∀ j : Fin 4, (BitVec.ofNat 16 (0x040 + 4 * j.val)) ∈
      [0x040#16, 0x044#16, 0x048#16, 0x04C#16] ∧ offField 4 (BitVec.ofNat 16 (0x040 + 4 * j.val)) 2 = j := by decide
  obtain ⟨h1, h2⟩ := h j
  simp only [decode, encode, encWr, decodeAccess]
  generalize BitVec.ofNat 16 (0x040 + 4 * j.val) = off at h1 h2 ⊢
  simp only [List.mem_cons, List.not_mem_nil, or_false] at h1
  rcases h1 with rfl | rfl | rfl | rfl <;> simp_all [decodeWr]

/-- Which row a write offset falls to, as far as the staging rows go (30 R95). -/
theorem wrHtBits_offset : ∀ (t : Fin 8) (i : Fin 16),
    let off := BitVec.ofNat 16 (0x4000 + 0x800 * t.val + 4 * i.val)
    0x4000#16 ≤ off ∧ off &&& 0xFFF3#16 ≠ 0x040#16 ∧ off &&& 0x3#16 = 0#16 ∧ off &&& 0xC7C3#16 = 0x4000#16
      ∧ offField 8 off 11 = t ∧ offField 16 off 2 = i := by decide

theorem wrHtVal_offset : ∀ (t : Fin 8) (v : Fin 256),
    let off := BitVec.ofNat 16 (0x4000 + 0x800 * t.val + 0x400 + 4 * v.val)
    0x4000#16 ≤ off ∧ off &&& 0xFFF3#16 ≠ 0x040#16 ∧ off &&& 0x3#16 = 0#16 ∧ off &&& 0xC7C3#16 ≠ 0x4000#16
      ∧ off &&& 0xC403#16 = 0x4400#16 ∧ offField 8 off 11 = t ∧ offField 256 off 2 = v := by decide +kernel

theorem wrQtRam_offset : ∀ (q : Fin 4) (k : Fin 64),
    let off := BitVec.ofNat 16 (0x8000 + 0x100 * q.val + 4 * k.val)
    0x4000#16 ≤ off ∧ off &&& 0xFFF3#16 ≠ 0x040#16 ∧ off &&& 0x3#16 = 0#16 ∧ off &&& 0xC7C3#16 ≠ 0x4000#16
      ∧ off &&& 0xC403#16 ≠ 0x4400#16 ∧ off &&& 0xFC03#16 = 0x8000#16 ∧ offField 4 off 8 = q ∧ offField 64 off 2 = k := by
  decide +kernel

theorem ne_of_high {off c : BitVec 16} (h : 0x4000#16 ≤ off) (hc : c < 0x4000#16) : off ≠ c := by
  rintro rfl
  simp only [BitVec.le_def, BitVec.lt_def] at h hc
  omega

/-- An offset from 0x4000 on is none of the fixed write offsets. -/
theorem decodeWr_high {off : BitVec 16} (d : Word) (h : 0x4000#16 ≤ off) (hj : off &&& 0xFFF3#16 ≠ 0x040#16) :
    decodeWr off d =
      if off &&& 0xC7C3#16 = 0x4000#16 then .wrHtBits (offField 8 off 11) (offField 16 off 2) d
      else if off &&& 0xC403#16 = 0x4400#16 then .wrHtVal (offField 8 off 11) (offField 256 off 2) d
      else if off &&& 0xFC03#16 = 0x8000#16 then .wrQtRam (offField 4 off 8) (offField 64 off 2) d
      else .wr off d := by
  have hne : ∀ c : BitVec 16, c < 0x4000#16 → off ≠ c := fun c hc => ne_of_high h hc
  simp only [decodeWr, if_neg (hne 0x004#16 (by decide)), if_neg (hne 0x008#16 (by decide)),
    if_neg (hne 0x024#16 (by decide)), if_neg (hne 0x028#16 (by decide)), if_neg (hne 0x02C#16 (by decide)),
    if_neg (hne 0x030#16 (by decide)), if_neg (hne 0x034#16 (by decide)), if_neg (hne 0x038#16 (by decide)),
    if_neg (hne 0x03C#16 (by decide)), if_neg hj, if_neg (hne 0x050#16 (by decide)),
    if_neg (hne 0x054#16 (by decide)), if_neg (hne 0x058#16 (by decide))]

theorem wrHtBits (t : Fin 8) (i : Fin 16) (d : Word) : Statement (.wrHtBits t i d) := by
  intro _
  obtain ⟨h1, h2, h3, h4, h5, h6⟩ := wrHtBits_offset t i
  simp only [decode, encode, encWr, decodeAccess]
  rw [if_neg (by decide), if_neg (by simpa using h3), decodeWr_high d h1 h2, if_pos h4, h5, h6]

theorem wrHtVal (t : Fin 8) (v : Fin 256) (d : Word) : Statement (.wrHtVal t v d) := by
  intro _
  obtain ⟨h1, h2, h3, h4, h5, h6, h7⟩ := wrHtVal_offset t v
  simp only [decode, encode, encWr, decodeAccess]
  rw [if_neg (by decide), if_neg (by simpa using h3), decodeWr_high d h1 h2, if_neg h4, if_pos h5, h6, h7]

theorem wrQtRam (q : Fin 4) (k : Fin 64) (d : Word) : Statement (.wrQtRam q k d) := by
  intro _
  obtain ⟨h1, h2, h3, h4, h5, h6, h7, h8⟩ := wrQtRam_offset q k
  simp only [decode, encode, encWr, decodeAccess]
  rw [if_neg (by decide), if_neg (by simpa using h3), decodeWr_high d h1 h2, if_neg h4, if_neg h5, if_pos h6, h7, h8]

theorem wr (off : BitVec 16) (d : Word) : Statement (.wr off d) := by
  intro h
  simp only [Instr.wellFormed, wrOffsetFree, Bool.and_eq_true, beq_iff_eq, bne_iff_ne, ne_eq] at h
  simp [decode, encode, encWr, decodeAccess, decodeWr, h]

theorem nop (hint : BitVec 24) : Statement (.nop hint) := fun _ => by
  simp [decode, encode, decodeCommand, cmdOp_append, cmdArg_append]

theorem start : Statement .start := fun _ => by decide

theorem abort (arg : BitVec 24) : Statement (.abort arg) := fun _ => by
  simp [decode, encode, decodeCommand, eq_start_iff, cmdOp_append, cmdArg_append]

theorem ack (arg : BitVec 24) : Statement (.ack arg) := fun _ => by
  simp [decode, encode, decodeCommand, eq_start_iff, cmdOp_append, cmdArg_append]

theorem htCommit (a8 : Byte) : Statement (.htCommit a8) := fun _ => by
  simp [decode, encode, decodeCommand, eq_start_iff, cmdOp_cmdWord, cmdArgh_cmdWord, cmdArg8_cmdWord]

theorem qtCommit (a8 : Byte) : Statement (.qtCommit a8) := fun _ => by
  simp [decode, encode, decodeCommand, eq_start_iff, cmdOp_cmdWord, cmdArgh_cmdWord, cmdArg8_cmdWord]

theorem illegalStart (arg : BitVec 24) : Statement (.illegalStart arg) := by
  intro h
  simp only [Instr.wellFormed, bne_iff_ne, ne_eq] at h
  simp [decode, encode, decodeCommand, eq_start_iff, cmdOp_append, cmdArg_append, h]

theorem illegalCommit (qt : Bool) (argh : Half) (a8 : Byte) : Statement (.illegalCommit qt argh a8) := by
  intro h
  simp only [Instr.wellFormed, bne_iff_ne, ne_eq] at h
  cases qt <;>
    simp [decode, encode, decodeCommand, eq_start_iff, cmdOp_cmdWord, cmdArgh_cmdWord, cmdArg8_cmdWord, h]

theorem reserved (op : Byte) (argh : Half) (a8 : Byte) : Statement (.reserved op argh a8) := by
  intro h
  have hop : ∀ op : Byte, reservedOp op = true →
      op ≠ 0x00#8 ∧ op ≠ 0x01#8 ∧ op ≠ 0x02#8 ∧ op ≠ 0x03#8 ∧ op ≠ 0x10#8 ∧ op ≠ 0x11#8 := by decide
  obtain ⟨h0, h1, h2, h3, h4, h5⟩ := hop op h
  simp [decode, encode, decodeCommand, eq_start_iff, cmdOp_cmdWord, cmdArgh_cmdWord, cmdArg8_cmdWord, *]

theorem dcSize0 : Statement .dcSize0 := fun _ => by decide
theorem dcSize (s : BitVec 4) : Statement (.dcSize s) := by revert s; unfold Statement; decide
theorem dcBad (b : Byte) : Statement (.dcBad b) := by revert b; unfold Statement; decide +kernel
theorem eob : Statement .eob := fun _ => by decide
theorem zrl : Statement .zrl := fun _ => by decide
theorem runZero (r : BitVec 4) : Statement (.runZero r) := by revert r; unfold Statement; decide
theorem runSize (r s : BitVec 4) : Statement (.runSize r s) := by revert r s; unfold Statement; decide +kernel

end RoundTrip

end Sys2Proof.Laws
end

