-- ==== Sys2Proof/Laws/Registers.lean ====
section
/-! SUPPORT. The register map: which register an offset names, row by row of 10 R20, and the bits of the words the status
registers read as. -/

namespace Sys2Proof.Machine

/-- An offset passes the alignment test exactly when it is a multiple of 4 (20 R61). -/
theorem aligned_iff (off : BitVec 16) : aligned off = true ↔ off.toNat % 4 = 0 := by
  rw [aligned, beq_iff_eq, low_bits_zero]

/-- Zero-extension puts zero bits in front. -/
theorem setWidth_eq_append {n m : Nat} (x : BitVec m) : x.setWidth (n + m) = 0#n ++ x := by
  apply BitVec.eq_of_getLsbD_eq
  intro i hi
  rw [BitVec.getLsbD_append, BitVec.getLsbD_setWidth]
  by_cases h : i < m
  · simp [hi, h]
  · simp [h, BitVec.getLsbD_of_ge x i (by omega)]

theorem regAt_pred : ∀ j : Fin 4, aligned (BitVec.ofNat 16 (0x060 + 4 * j.val)) = true ∧
    regAt (BitVec.ofNat 16 (0x060 + 4 * j.val)) = .pred j := by decide

theorem regAt_scomp : ∀ j : Fin 4, aligned (BitVec.ofNat 16 (0x040 + 4 * j.val)) = true ∧
    regAt (BitVec.ofNat 16 (0x040 + 4 * j.val)) = .scomp j := by decide

theorem regAt_htBits : ∀ (t : Fin 8) (i : Fin 16),
    aligned (BitVec.ofNat 16 (0x4000 + 0x800 * t.val + 4 * i.val)) = true ∧
    regAt (BitVec.ofNat 16 (0x4000 + 0x800 * t.val + 4 * i.val)) = .htBits t i := by decide +kernel

theorem regAt_htVal : ∀ (t : Fin 8) (v : Fin 256),
    aligned (BitVec.ofNat 16 (0x4000 + 0x800 * t.val + 0x400 + 4 * v.val)) = true ∧
    regAt (BitVec.ofNat 16 (0x4000 + 0x800 * t.val + 0x400 + 4 * v.val)) = .htVal t v := by decide +kernel

theorem regAt_qtRam : ∀ (q : Fin 4) (k : Fin 64),
    aligned (BitVec.ofNat 16 (0x8000 + 0x100 * q.val + 4 * k.val)) = true ∧
    regAt (BitVec.ofNat 16 (0x8000 + 0x100 * q.val + 4 * k.val)) = .qtRam q k := by decide +kernel

/-- The reserved offsets of 20 R60. -/
theorem regAt_reserved (off : BitVec 16) (h4 : off.toNat % 4 = 0)
    (h : 0x0070 ≤ off.toNat ∧ off.toNat < 0x4000 ∨ 0x8400 ≤ off.toNat ∨
      0x4000 ≤ off.toNat ∧ off.toNat < 0x8000 ∧ 0x040 ≤ off.toNat % 0x800 ∧ off.toNat % 0x800 < 0x400) :
    aligned off = true ∧ regAt off = .reserved := by
  refine ⟨(aligned_iff off).2 h4, ?_⟩
  unfold regAt
  simp only
  rw [if_neg (by omega)]
  rcases h with h | h | h
  · rw [if_neg (by omega), if_pos (by omega)]
  · rw [if_neg (by omega), if_neg (by omega), if_neg (by omega), if_neg (by omega)]
  · rw [if_neg (by omega), if_neg (by omega), if_pos (by omega), if_neg (by omega), if_pos (by omega)]

theorem bitsLE_testBit (l : List Bool) (i : Nat) : (bitsLE l).testBit i = l.getD i false := by
  induction l generalizing i with
  | nil => simp [bitsLE]
  | cons b t ih =>
    cases i with
    | zero => cases b <;> simp [bitsLE]
    | succ n =>
      simp only [bitsLE, List.getD_cons_succ, ← ih]
      rw [Nat.testBit_succ]
      congr 1
      cases b
      · simp
      · simp; omega

/-- The valid bits of the Huffman tables in TVALID (10 R38). -/
theorem tvalidWord_ht (s : State) (t : Fin 8) : (tvalidWord s).getLsbD t.val = (s.htAct.get t).valid := by
  simp only [tvalidWord, BitVec.getLsbD_ofNat, bitsLE_testBit]
  rw [List.getD_append _ _ _ _ (by simp)]
  simp [Vector.get]
  omega

/-- The valid bits of the quantization tables in TVALID (10 R38). -/
theorem tvalidWord_qt (s : State) (q : Fin 4) : (tvalidWord s).getLsbD (8 + q.val) = (s.qtAct.get q).valid := by
  simp only [tvalidWord, BitVec.getLsbD_ofNat, bitsLE_testBit]
  rw [List.getD_append_right _ _ _ _ (by simp)]
  simp [Vector.get]
  omega

/-- The reserved bits of TVALID (10 R38). -/
theorem tvalidWord_reserved (s : State) (i : Nat) (h : 12 ≤ i) : (tvalidWord s).getLsbD i = false := by
  simp only [tvalidWord, BitVec.getLsbD_ofNat, bitsLE_testBit]
  rw [List.getD_eq_default _ _ (by simp; omega), Bool.and_false]

end Sys2Proof.Machine
end

