-- ==== Sys2Proof/Laws/Surd.lean ====
section
/-! SUPPORT. The exact arithmetic of the inverse DCT stands for real numbers: its sums, products and signs are those of the
reals, its weights are the cosines, and the truncated sixteenth is the real one (45 R190, R191). -/

namespace Sys2Proof.Machine

/-! ### The numbers the surds stand for -/

noncomputable def Surd1.val (x : Surd1) : ℝ := x.a + x.b * √2

noncomputable def Surd2.val (x : Surd2) : ℝ := x.a.val + x.b.val * √(2 + √2)

noncomputable def Surd3.val (x : Surd3) : ℝ := x.a.val + x.b.val * √(2 + √(2 + √2))

theorem sq_root1 : √2 * √2 = (2 : ℝ) := Real.mul_self_sqrt (by norm_num)

theorem sq_root2 : √(2 + √2) * √(2 + √2) = (2 + √2 : ℝ) := Real.mul_self_sqrt (by positivity)

theorem sq_root3 : √(2 + √(2 + √2)) * √(2 + √(2 + √2)) = (2 + √(2 + √2) : ℝ) := Real.mul_self_sqrt (by positivity)

theorem Surd1.val_add (x y : Surd1) : (x.add y).val = x.val + y.val := by
  simp only [Surd1.add, Surd1.val]
  push_cast
  ring

theorem Surd1.val_sub (x y : Surd1) : (x.sub y).val = x.val - y.val := by
  simp only [Surd1.sub, Surd1.val]
  push_cast
  ring

theorem Surd1.val_mul (x y : Surd1) : (x.mul y).val = x.val * y.val := by
  simp only [Surd1.mul, Surd1.val]
  push_cast
  linear_combination (-(x.b : ℝ) * y.b) * sq_root1

theorem Surd1.val_scale (n : Int) (x : Surd1) : (x.scale n).val = n * x.val := by
  simp only [Surd1.scale, Surd1.val]
  push_cast
  ring

theorem Surd1.val_ofInt (n : Int) : (Surd1.ofInt n).val = n := by simp [Surd1.ofInt, Surd1.val]

theorem Surd1.val_timesRadicand (x : Surd1) : x.timesRadicand.val = x.val * (2 + √2) := by
  simp only [Surd1.timesRadicand, Surd1.val]
  push_cast
  linear_combination (-(x.b : ℝ)) * sq_root1

theorem Surd2.val_add (x y : Surd2) : (x.add y).val = x.val + y.val := by
  simp only [Surd2.add, Surd2.val, Surd1.val_add]
  ring

theorem Surd2.val_sub (x y : Surd2) : (x.sub y).val = x.val - y.val := by
  simp only [Surd2.sub, Surd2.val, Surd1.val_sub]
  ring

theorem Surd2.val_mul (x y : Surd2) : (x.mul y).val = x.val * y.val := by
  simp only [Surd2.mul, Surd2.val, Surd1.val_add, Surd1.val_mul, Surd1.val_timesRadicand]
  linear_combination (-x.b.val * y.b.val) * sq_root2

theorem Surd2.val_scale (n : Int) (x : Surd2) : (x.scale n).val = n * x.val := by
  simp only [Surd2.scale, Surd2.val, Surd1.val_scale]
  ring

theorem Surd2.val_ofInt (n : Int) : (Surd2.ofInt n).val = n := by simp [Surd2.ofInt, Surd2.val, Surd1.val_ofInt]

theorem Surd2.val_timesRadicand (x : Surd2) : x.timesRadicand.val = x.val * (2 + √(2 + √2)) := by
  simp only [Surd2.timesRadicand, Surd2.val, Surd1.val_add, Surd1.val_scale, Surd1.val_timesRadicand]
  push_cast
  linear_combination (-x.b.val) * sq_root2

theorem Surd3.val_add (x y : Surd3) : (x.add y).val = x.val + y.val := by
  simp only [Surd3.add, Surd3.val, Surd2.val_add]
  ring

theorem Surd3.val_sub (x y : Surd3) : (x.sub y).val = x.val - y.val := by
  simp only [Surd3.sub, Surd3.val, Surd2.val_sub]
  ring

theorem Surd3.val_mul (x y : Surd3) : (x.mul y).val = x.val * y.val := by
  simp only [Surd3.mul, Surd3.val, Surd2.val_add, Surd2.val_mul, Surd2.val_timesRadicand]
  linear_combination (-x.b.val * y.b.val) * sq_root3

theorem Surd3.val_scale (n : Int) (x : Surd3) : (x.scale n).val = n * x.val := by
  simp only [Surd3.scale, Surd3.val, Surd2.val_scale]
  ring

theorem Surd3.val_ofInt (n : Int) : (Surd3.ofInt n).val = n := by simp [Surd3.ofInt, Surd3.val, Surd2.val_ofInt]

/-! ### Signs -/

/-- n is the sign of r: 1, 0 or -1. -/
def IsSign (r : ℝ) (n : Int) : Prop := (0 < r ∧ n = 1) ∨ (r = 0 ∧ n = 0) ∨ (r < 0 ∧ n = -1)

theorem isSign_int (n : Int) : IsSign n (Int.sign n) := by
  rcases lt_trichotomy n 0 with h | h | h
  · exact .inr (.inr ⟨by exact_mod_cast h, Int.sign_eq_neg_one_of_neg h⟩)
  · exact .inr (.inl ⟨by exact_mod_cast h, by simp [h]⟩)
  · exact .inl ⟨by exact_mod_cast h, Int.sign_eq_one_of_pos h⟩

/-- The sign of a + b·√d from the three signs. -/
theorem isSign_surd {a b d : ℝ} {sa sb sd : Int} (hd : 0 < d) (ha : IsSign a sa) (hb : IsSign b sb)
    (hs : IsSign (a * a - b * b * d) sd) : IsSign (a + b * √d) (surdSign sa sb sd) := by
  have hr : 0 < √d := Real.sqrt_pos.2 hd
  have hrr : √d * √d = d := Real.mul_self_sqrt hd.le
  have hfac : a * a - b * b * d = (a + b * √d) * (a - b * √d) := by
    linear_combination (b * b) * hrr
  unfold surdSign
  rcases ha with ⟨ha, rfl⟩ | ⟨ha, rfl⟩ | ⟨ha, rfl⟩ <;> rcases hb with ⟨hb, rfl⟩ | ⟨hb, rfl⟩ | ⟨hb, rfl⟩
  · exact .inl ⟨by positivity, by norm_num⟩
  · exact .inl ⟨by simp [hb, ha], by norm_num⟩
  · have hp : 0 < a - b * √d := by nlinarith
    rw [hfac] at hs
    rcases hs with ⟨hs, rfl⟩ | ⟨hs, rfl⟩ | ⟨hs, rfl⟩
    · exact .inl ⟨(pos_iff_pos_of_mul_pos hs).2 hp, by norm_num⟩
    · exact .inr (.inl ⟨(mul_eq_zero.1 hs).resolve_right hp.ne', by norm_num⟩)
    · exact .inr (.inr ⟨neg_of_mul_neg_left hs hp.le, by norm_num⟩)
  · exact .inl ⟨by simp only [ha, zero_add]; positivity, by norm_num⟩
  · exact .inr (.inl ⟨by simp [ha, hb], by norm_num⟩)
  · exact .inr (.inr ⟨by simp only [ha, zero_add]; exact mul_neg_of_neg_of_pos hb hr, by norm_num⟩)
  · have hp : a - b * √d < 0 := by nlinarith
    rw [hfac] at hs
    rcases hs with ⟨hs, rfl⟩ | ⟨hs, rfl⟩ | ⟨hs, rfl⟩
    · exact .inr (.inr ⟨by nlinarith, by norm_num⟩)
    · exact .inr (.inl ⟨(mul_eq_zero.1 hs).resolve_right hp.ne, by norm_num⟩)
    · exact .inl ⟨by nlinarith, by norm_num⟩
  · exact .inr (.inr ⟨by simp [hb, ha], by norm_num⟩)
  · exact .inr (.inr ⟨by nlinarith, by norm_num⟩)

theorem Surd1.sign_spec (x : Surd1) : IsSign x.val x.sign := by
  refine isSign_surd (by norm_num) (isSign_int _) (isSign_int _) ?_
  have := isSign_int (x.a * x.a - 2 * (x.b * x.b))
  push_cast at this
  rwa [show (x.a * x.a - x.b * x.b * 2 : ℝ) = x.a * x.a - 2 * (x.b * x.b) by ring]

theorem Surd2.sign_spec (x : Surd2) : IsSign x.val x.sign := by
  refine isSign_surd (by positivity) x.a.sign_spec x.b.sign_spec ?_
  have := ((x.a.mul x.a).sub (x.b.mul x.b).timesRadicand).sign_spec
  rwa [Surd1.val_sub, Surd1.val_timesRadicand, Surd1.val_mul, Surd1.val_mul] at this

theorem Surd3.sign_spec (x : Surd3) : IsSign x.val x.sign := by
  refine isSign_surd (by positivity) x.a.sign_spec x.b.sign_spec ?_
  have := ((x.a.mul x.a).sub (x.b.mul x.b).timesRadicand).sign_spec
  rwa [Surd2.val_sub, Surd2.val_timesRadicand, Surd2.val_mul, Surd2.val_mul] at this

theorem Surd3.sign_nonneg (x : Surd3) : 0 ≤ x.sign ↔ 0 ≤ x.val := by
  rcases x.sign_spec with ⟨h1, h2⟩ | ⟨h1, h2⟩ | ⟨h1, h2⟩
  · rw [h2]
    exact ⟨fun _ => h1.le, fun _ => by norm_num⟩
  · rw [h2, h1]
    simp
  · rw [h2]
    exact ⟨fun h => by norm_num at h, fun h => absurd h1 (not_lt.2 h)⟩

/-! ### Weights -/

/-- 2·cos(k·π/16) for k = 0..8. -/
theorem twoCosOctant_val (k : Nat) (hk : k ≤ 8) : (twoCosOctant k).val = 2 * Real.cos (k * Real.pi / 16) := by
  have c1 : 2 * Real.cos (Real.pi / 16) = √(2 + √(2 + √2)) := by
    rw [Real.cos_pi_div_sixteen]
    ring
  have c2 : 2 * Real.cos (2 * Real.pi / 16) = √(2 + √2) := by
    rw [show 2 * Real.pi / 16 = Real.pi / 8 by ring, Real.cos_pi_div_eight]
    ring
  have c4 : 2 * Real.cos (4 * Real.pi / 16) = √2 := by
    rw [show 4 * Real.pi / 16 = Real.pi / 4 by ring, Real.cos_pi_div_four]
    ring
  have prod : ∀ a b : ℝ, 2 * Real.cos (a + b) = 2 * Real.cos a * (2 * Real.cos b) - 2 * Real.cos (a - b) := by
    intro a b
    rw [Real.cos_add, Real.cos_sub]
    ring
  have c3 : 2 * Real.cos (3 * Real.pi / 16) = √(2 + √2) * √(2 + √(2 + √2)) - √(2 + √(2 + √2)) := by
    rw [show 3 * Real.pi / 16 = 2 * Real.pi / 16 + Real.pi / 16 by ring, prod, c2, c1,
      show 2 * Real.pi / 16 - Real.pi / 16 = Real.pi / 16 by ring, c1]
  have c5 : 2 * Real.cos (5 * Real.pi / 16) =
      √2 * √(2 + √(2 + √2)) - (√(2 + √2) * √(2 + √(2 + √2)) - √(2 + √(2 + √2))) := by
    rw [show 5 * Real.pi / 16 = 4 * Real.pi / 16 + Real.pi / 16 by ring, prod, c4, c1,
      show 4 * Real.pi / 16 - Real.pi / 16 = 3 * Real.pi / 16 by ring, c3]
  have c6 : 2 * Real.cos (6 * Real.pi / 16) = √2 * √(2 + √2) - √(2 + √2) := by
    rw [show 6 * Real.pi / 16 = 4 * Real.pi / 16 + 2 * Real.pi / 16 by ring, prod, c4, c2,
      show 4 * Real.pi / 16 - 2 * Real.pi / 16 = 2 * Real.pi / 16 by ring, c2]
  have c7 : 2 * Real.cos (7 * Real.pi / 16) = (√2 * √(2 + √2) - √(2 + √2)) * √(2 + √(2 + √2)) -
      (√2 * √(2 + √(2 + √2)) - (√(2 + √2) * √(2 + √(2 + √2)) - √(2 + √(2 + √2)))) := by
    rw [show 7 * Real.pi / 16 = 6 * Real.pi / 16 + Real.pi / 16 by ring, prod, c6, c1,
      show 6 * Real.pi / 16 - Real.pi / 16 = 5 * Real.pi / 16 by ring, c5]
  have c8 : 2 * Real.cos (8 * Real.pi / 16) = 0 := by
    rw [show 8 * Real.pi / 16 = Real.pi / 2 by ring, Real.cos_pi_div_two]
    ring
  interval_cases k <;> simp only [twoCosOctant, Surd3.val, Surd2.val, Surd1.val] <;> push_cast
  · simp
  · rw [one_mul, c1]
    ring
  · rw [c2]
    ring
  · rw [c3]
    ring
  · rw [c4]
    ring
  · rw [c5]
    ring
  · rw [c6]
    ring
  · rw [c7]
    ring
  · rw [c8]
    ring

/-- 2·cos(n·π/16). -/
theorem twoCos_val (n : Nat) : (twoCos n).val = 2 * Real.cos (n * Real.pi / 16) := by
  have hper : Real.cos (n * Real.pi / 16) = Real.cos ((n % 32 : Nat) * Real.pi / 16) := by
    have h := Nat.div_add_mod n 32
    have : (n : ℝ) * Real.pi / 16 = (n % 32 : Nat) * Real.pi / 16 + (n / 32 : Nat) * (2 * Real.pi) := by
      have hc : (n : ℝ) = 32 * (n / 32 : Nat) + (n % 32 : Nat) := by exact_mod_cast h.symm
      rw [hc]
      ring
    rw [this, Real.cos_add_nat_mul_two_pi]
  rw [hper]
  have hlt : n % 32 < 32 := Nat.mod_lt _ (by norm_num)
  unfold twoCos
  simp only
  generalize n % 32 = k at *
  split
  · rename_i h
    exact twoCosOctant_val k h
  · split
    · rename_i h1 h2
      rw [Surd3.val_scale, twoCosOctant_val _ (by omega), Nat.cast_sub h2]
      push_cast
      rw [show ((16 : ℝ) - k) * Real.pi / 16 = Real.pi - k * Real.pi / 16 by ring, Real.cos_pi_sub]
      ring
    · split
      · rename_i h1 h2 h3
        rw [Surd3.val_scale, twoCosOctant_val _ (by omega), Nat.cast_sub (by omega)]
        push_cast
        rw [show ((k : ℝ) - 16) * Real.pi / 16 = k * Real.pi / 16 - Real.pi by ring, Real.cos_sub_pi]
        ring
      · rename_i h1 h2 h3
        rw [twoCosOctant_val _ (by omega), Nat.cast_sub (by omega)]
        push_cast
        rw [show ((32 : ℝ) - k) * Real.pi / 16 = 2 * Real.pi - k * Real.pi / 16 by ring, Real.cos_two_pi_sub]

/-- Twice the weight of one dimension (45 R190). -/
theorem twoWeight_val (literal : Bool) (w z : Nat) : (twoWeight literal w z).val =
    2 * ((if w = 0 then (if literal then 1 / 2 else 1 / √2) else 1) * Real.cos ((2 * z + 1) * w * Real.pi / 16)) := by
  unfold twoWeight
  by_cases h : w = 0
  · subst h
    cases literal
    · rw [if_pos rfl, if_neg (by simp), twoCosOctant_val 4 (by norm_num), if_pos rfl, if_neg (by simp),
        show ((4 : Nat) : ℝ) * Real.pi / 16 = Real.pi / 4 by push_cast; ring, Real.cos_pi_div_four]
      simp only [Nat.cast_zero, mul_zero, zero_mul, zero_div, Real.cos_zero, mul_one]
      have : √2 ≠ 0 := by positivity
      field_simp
      rw [sq, sq_root1]
    · rw [if_pos rfl, if_pos rfl, Surd3.val_ofInt]
      simp
  · rw [if_neg h, twoCos_val, if_neg h]
    push_cast
    ring_nf

/-- Twice a weight is at most 2 in magnitude. -/
theorem twoWeight_bound (literal : Bool) (w z : Nat) : |(twoWeight literal w z).val| ≤ 2 := by
  have h2 : (1 : ℝ) ≤ √2 := Real.one_le_sqrt.2 (by norm_num)
  have hw : |(if w = 0 then (if literal then 1 / 2 else 1 / √2) else 1 : ℝ)| ≤ 1 := by
    split
    · split
      · norm_num
      · rw [abs_of_pos (by positivity)]
        exact div_le_one_of_le₀ h2 (by positivity)
    · norm_num
  rw [twoWeight_val, abs_mul, abs_mul]
  have hc := Real.abs_cos_le_one ((2 * z + 1) * w * Real.pi / 16)
  have : |(if w = 0 then (if literal then 1 / 2 else 1 / √2) else 1 : ℝ)| *
      |Real.cos ((2 * z + 1) * w * Real.pi / 16)| ≤ 1 := mul_le_one₀ hw (abs_nonneg _) hc
  rw [abs_of_pos (by norm_num : (0 : ℝ) < 2)]
  linarith

/-! ### The sum and its truncation -/

/-- One term of sixteen times the exact value. -/
noncomputable def idctTerm (literal : Bool) (F : Vector Int 64) (x y : Nat) (n : Fin 64) : ℝ :=
  F.get n * ((twoWeight literal (n.val % 8) x).val * (twoWeight literal (n.val / 8) y).val)

/-- Sixteen times the exact value, as a real number (45 R190). -/
theorem idctSum_val (literal : Bool) (F : Vector Int 64) (x y : Nat) :
    (idctSum literal F x y).val = ((List.finRange 64).map (idctTerm literal F x y)).sum := by
  have h : ∀ (l : List (Fin 64)) (acc : Surd3), (l.foldl (fun acc n =>
      if F.get n = 0 then acc
      else acc.add (((twoWeight literal (n.val % 8) x).mul (twoWeight literal (n.val / 8) y)).scale (F.get n))) acc).val =
      acc.val + (l.map (idctTerm literal F x y)).sum := by
    intro l
    induction l with
    | nil => simp
    | cons n t ih =>
      intro acc
      rw [List.foldl_cons, ih, List.map_cons, List.sum_cons]
      by_cases h0 : F.get n = 0
      · rw [if_pos h0]
        simp [idctTerm, h0]
      · rw [if_neg h0, Surd3.val_add, Surd3.val_scale, Surd3.val_mul]
        unfold idctTerm
        ring
  rw [idctSum, h, Surd3.val_ofInt]
  simp

/-- A sixteenth of the sum is at most a quarter of the sum of the coefficients' magnitudes (45 R194). -/
theorem idctSum_bound (literal : Bool) (F : Vector Int 64) (x y : Nat) :
    |(idctSum literal F x y).val| ≤ 4 * (absSum F : ℝ) := by
  have h : ∀ l : List (Fin 64), |(l.map (idctTerm literal F x y)).sum| ≤
      4 * ((l.map fun n => (F.get n).natAbs).sum : Nat) := by
    intro l
    induction l with
    | nil => simp
    | cons n t ih =>
      rw [List.map_cons, List.sum_cons, List.map_cons, List.sum_cons]
      push_cast
      have ht : |idctTerm literal F x y n| ≤ 4 * ((F.get n).natAbs : ℝ) := by
        unfold idctTerm
        rw [abs_mul, abs_mul, Nat.cast_natAbs, Int.cast_abs, mul_comm]
        refine mul_le_mul_of_nonneg_right ?_ (abs_nonneg _)
        nlinarith [twoWeight_bound literal (n.val % 8) x, twoWeight_bound literal (n.val / 8) y,
          abs_nonneg (twoWeight literal (n.val % 8) x).val, abs_nonneg (twoWeight literal (n.val / 8) y).val]
      calc _ ≤ |idctTerm literal F x y n| + |(t.map (idctTerm literal F x y)).sum| := abs_add_le _ _
        _ ≤ _ := by
          have := add_le_add ht ih
          push_cast at this ⊢
          linarith
  have hl : (List.finRange 64).map (fun n => (F.get n).natAbs) = F.toList.map Int.natAbs := by
    apply List.ext_getElem
    · simp
    · intro i h1 h2
      simp [Vector.get]
  have := h (List.finRange 64)
  rw [hl] at this
  rw [idctSum_val]
  exact this

/-- The search for the integer part: from a lower bound that is less than 2^bits away. -/
theorem floorSixteenth_spec (a : Surd3) : ∀ (bits acc : Nat), 16 * (acc : ℝ) ≤ a.val →
    a.val < 16 * ((acc : ℝ) + 2 ^ bits) →
    16 * (floorSixteenth a bits acc : ℝ) ≤ a.val ∧ a.val < 16 * ((floorSixteenth a bits acc : ℝ) + 1) := by
  intro bits
  induction bits with
  | zero =>
    intro acc h1 h2
    rw [floorSixteenth]
    exact ⟨h1, by simpa using h2⟩
  | succ b ih =>
    intro acc h1 h2
    rw [floorSixteenth]
    have hv : (a.sub (.ofInt (16 * (acc + 2 ^ b : Nat)))).val = a.val - 16 * ((acc : ℝ) + 2 ^ b) := by
      rw [Surd3.val_sub, Surd3.val_ofInt]
      push_cast
      ring
    by_cases hs : 0 ≤ (a.sub (.ofInt (16 * (acc + 2 ^ b : Nat)))).sign
    · rw [if_pos hs]
      rw [Surd3.sign_nonneg, hv] at hs
      refine ih _ ?_ ?_
      · push_cast
        linarith
      · push_cast
        rw [pow_succ] at h2
        linarith
    · rw [if_neg hs]
      rw [Surd3.sign_nonneg, hv, not_le] at hs
      exact ih _ h1 (by linarith)

/-- The magnitude of the sum, truncated to a sixteenth (45 R191). -/
theorem magnitude_spec (F : Vector Int 64) (a : Surd3) (h : |a.val| ≤ 4 * (absSum F : ℝ)) :
    16 * (magnitude F a : ℝ) ≤ |a.val| ∧ |a.val| < 16 * ((magnitude F a : ℝ) + 1) := by
  have habs : (a.scale a.sign).val = |a.val| := by
    rw [Surd3.val_scale]
    rcases a.sign_spec with ⟨h1, h2⟩ | ⟨h1, h2⟩ | ⟨h1, h2⟩
    · rw [h2, abs_of_pos h1]
      norm_num
    · rw [h2, h1]
      simp
    · rw [h2, abs_of_neg h1]
      norm_num
  have hlt : absSum F < 2 ^ (Nat.log2 (absSum F) + 1) := Nat.lt_log2_self
  have hlt' : (absSum F : ℝ) < 2 ^ (Nat.log2 (absSum F) + 1) := by exact_mod_cast hlt
  have := floorSixteenth_spec (a.scale a.sign) (Nat.log2 (absSum F) + 1) 0 (by
    rw [habs]
    simp) (by
    rw [habs]
    simp only [Nat.cast_zero, zero_add]
    nlinarith [Nat.cast_nonneg (α := ℝ) (absSum F)])
  rwa [habs] at this

end Sys2Proof.Machine
end

