-- ==== Sys2Proof/Tests/Slice0.lean ====
section
/-! SUPPORT. Tests: ill-formed instructions, words written out from the spec's encodings, single steps with the results of
the vectors of spec/95 (named in each test), and for every statement with hypotheses a witness that meets them. -/

namespace Sys2Proof.Tests

set_option Elab.async false

open Sys2Proof.Machine

/-! ### Helpers -/

/-- A field of the next state, if there is one. -/
def nextOf {α : Type} (f : State → α) (r : Result) : Option α :=
  match r with
  | .next s => some (f s)
  | .fault _ => none
  | .refused _ => none

/-- The refusal, if the answer is one. -/
def refusalOf (r : Result) : Option Refusal :=
  match r with
  | .next _ => none
  | .fault _ => none
  | .refused x => some x

/-- Default parameters with the window placed at 0xF0000000. -/
def params0 : Params := { defaultParams with idValue := 0x12345678#32, mmioBase := 0xF0000000 }

/-- 16 counts from the first ones. -/
def counts (l : List Byte) : List Byte := l ++ List.replicate (16 - l.length) 0#8

/-- Table DC2 of spec/95: "00" → 0, "01" → 3, "10" → 4. -/
def dc2 : HtTable := ⟨true, counts [0#8, 3#8], [0x00#8, 0x03#8, 0x04#8], 2, [⟨2, 0, 0x00#8⟩, ⟨2, 1, 0x03#8⟩, ⟨2, 2, 0x04#8⟩]⟩

/-- Table AC5 of spec/95: "00" → EOB, "01" → 0x01, "100" → ZRL, "101" → 0x21, "110" → 0xE1. -/
def ac5 : HtTable := ⟨true, counts [0#8, 2#8, 3#8], [0x00#8, 0x01#8, 0xF0#8, 0x21#8, 0xE1#8], 3,
  [⟨2, 0, 0x00#8⟩, ⟨2, 1, 0x01#8⟩, ⟨3, 4, 0xF0#8⟩, ⟨3, 5, 0x21#8⟩, ⟨3, 6, 0xE1#8⟩]⟩

/-- A block set up for an 8×8 grey frame with DC2, AC5 and a flat quantization table, in IDLE. -/
def ready : State :=
  { State.reset with
    params := params0
    frameDim := 0x00080008#32
    frameCfg := 0x00000108#32
    fcomp := #v[0x00001101#32, 0#32, 0#32, 0#32]
    scanCfg := 0x00000001#32
    scomp := #v[0x00000001#32, 0#32, 0#32, 0#32]
    inBase := 0x1000#32
    inLen := 3#32
    outBase := 0x2000#32
    htAct := #v[dc2, HtTable.empty, HtTable.empty, HtTable.empty, ac5, HtTable.empty, HtTable.empty, HtTable.empty]
    qtAct := #v[flatTable, QtTable.empty, QtTable.empty, QtTable.empty]
    mem := [(0x1000, 0x2C#8), (0x1001, 0xFF#8), (0x1002, 0xD9#8)] }

/-- The block in a decode of `ready`'s data, at a phase and a zigzag position, with the first byte destuffed and the cursor
at a bit of it. -/
def decoding (p : Phase) (k cur : Nat) : State :=
  { ready with
    seq := .busy
    phase := p
    k := k
    ip := 1
    dbits := [false, false, true, false, true, true, false, false]
    src := [0]
    cur := cur }

/-- `decoding` after the data has ended at the marker. -/
def ended (p : Phase) (k cur : Nat) : State := { decoding p k cur with endRec := ⟨true, 1, true, 0xD9#8⟩ }

/-- The block at the start of a decode of given input bytes at 0x1000. -/
def reading (n : Nat) (mem : List Host.Cell) : State :=
  { ready with seq := .busy, inLen := BitVec.ofNat 32 n, mem := mem }

/-- The outcome of a decode operation: the value, the error, or the wait. -/
def valueOf {α : Type} (r : Decoded α) : Option α :=
  match r with
  | .ok a _ => some a
  | .err _ _ => none
  | .stall _ => none

def errorOf {α : Type} (r : Decoded α) : Option Err :=
  match r with
  | .ok _ _ => none
  | .err e _ => some e
  | .stall _ => none

def waits {α : Type} (r : Decoded α) : Bool :=
  match r with
  | .ok _ _ => false
  | .err _ _ => false
  | .stall _ => true

def stateOf {α : Type} (r : Decoded α) : State :=
  match r with
  | .ok _ s => s
  | .err _ s => s
  | .stall s => s

/-- The codes of a build, or the number it fails with. -/
def codesOf (r : Except Byte HtTable) : List (Nat × Nat) ⊕ Byte :=
  match r with
  | .ok t => .inl (t.codes.map fun c => (c.len, c.code))
  | .error d => .inr d

/-! ### Ill-formed instructions -/

theorem test_wf_rd_misaligned : (Instr.rd 0x002#16).wellFormed = false := by decide
theorem test_wf_rd_other_row : [0x00C#16, 0x01C#16, 0x020#16, 0x060#16, 0x06C#16].all
    (fun o => (Instr.rd o).wellFormed == false) = true := by decide
theorem test_wf_wr_misaligned : (Instr.wr 0x001#16 0#32).wellFormed = false := by decide
theorem test_wf_wr_other_row : [0x004#16, 0x008#16, 0x024#16, 0x028#16, 0x02C#16, 0x030#16, 0x034#16, 0x038#16, 0x03C#16,
    0x040#16, 0x04C#16, 0x050#16, 0x054#16, 0x058#16, 0x783C#16, 0x4400#16, 0x7FFC#16, 0x83FC#16].all
    (fun o => (Instr.wr o 0#32).wellFormed == false) = true := by decide
theorem test_wf_illegal_start : (Instr.illegalStart 0#24).wellFormed = false := by decide
theorem test_wf_illegal_commit : (Instr.illegalCommit false 0#16 0x05#8).wellFormed = false := by decide
theorem test_wf_reserved : [0x00#8, 0x01#8, 0x02#8, 0x03#8, 0x10#8, 0x11#8].all
    (fun o => (Instr.reserved o 0#16 0#8).wellFormed == false) = true := by decide
theorem test_wf_dc_size : (Instr.dcSize 0#4).wellFormed = false := by decide
theorem test_wf_dc_bad : (Instr.dcBad 0x0F#8).wellFormed = false := by decide
theorem test_wf_run_zero : (Instr.runZero 0#4).wellFormed = false ∧ (Instr.runZero 15#4).wellFormed = false := by decide
theorem test_wf_run_size : (Instr.runSize 2#4 0#4).wellFormed = false := by decide

/-! ### Words written out from the encodings -/

/-- 10 R20, R36, R37; 30 R81: the accesses of format `mmio`, a read and a write of every row. -/
theorem test_decode_mmio_reads :
    decode (.mmio ⟨.rd, 0b0000000000001100#16, 4, 0#32⟩) = .ok .rdStatus ∧
    decode (.mmio ⟨.rd, 0b0000000000011100#16, 4, 0#32⟩) = .ok .rdInpos ∧
    decode (.mmio ⟨.rd, 0b0000000000100000#16, 4, 0#32⟩) = .ok .rdMcucnt ∧
    decode (.mmio ⟨.rd, 0b0000000001101100#16, 4, 0#32⟩) = .ok (.rdPred 3) ∧
    decode (.mmio ⟨.rd, 0b0000000000000100#16, 4, 0#32⟩) = .ok (.rd 0x0004#16) := by decide

theorem test_decode_mmio_writes :
    decode (.mmio ⟨.wr, 0x004#16, 4, 6#32⟩) = .ok (.wrCtrl 6#32) ∧
    decode (.mmio ⟨.wr, 0x008#16, 4, 6#32⟩) = .ok (.wrCmd 6#32) ∧
    decode (.mmio ⟨.wr, 0x024#16, 4, 6#32⟩) = .ok (.wrFrameDim 6#32) ∧
    decode (.mmio ⟨.wr, 0x028#16, 4, 6#32⟩) = .ok (.wrFrameCfg 6#32) ∧
    decode (.mmio ⟨.wr, 0x02C#16, 4, 6#32⟩) = .ok (.wrFcomp0 6#32) ∧
    decode (.mmio ⟨.wr, 0x030#16, 4, 6#32⟩) = .ok (.wrFcomp1 6#32) ∧
    decode (.mmio ⟨.wr, 0x034#16, 4, 6#32⟩) = .ok (.wrFcomp2 6#32) ∧
    decode (.mmio ⟨.wr, 0x038#16, 4, 6#32⟩) = .ok (.wrFcomp3 6#32) ∧
    decode (.mmio ⟨.wr, 0x03C#16, 4, 6#32⟩) = .ok (.wrScanCfg 6#32) ∧
    decode (.mmio ⟨.wr, 0b0000000001001100#16, 4, 6#32⟩) = .ok (.wrScomp 3 6#32) ∧
    decode (.mmio ⟨.wr, 0x050#16, 4, 6#32⟩) = .ok (.wrInBase 6#32) ∧
    decode (.mmio ⟨.wr, 0x054#16, 4, 6#32⟩) = .ok (.wrInLen 6#32) ∧
    decode (.mmio ⟨.wr, 0x058#16, 4, 6#32⟩) = .ok (.wrOutBase 6#32) ∧
    decode (.mmio ⟨.wr, 0b0110100000111100#16, 4, 6#32⟩) = .ok (.wrHtBits 5 15 6#32) ∧
    decode (.mmio ⟨.wr, 0b0101011111111100#16, 4, 6#32⟩) = .ok (.wrHtVal 2 255 6#32) ∧
    decode (.mmio ⟨.wr, 0b1000001111111100#16, 4, 6#32⟩) = .ok (.wrQtRam 3 63 6#32) ∧
    decode (.mmio ⟨.wr, 0x00C#16, 4, 6#32⟩) = .ok (.wr 0x00C#16 6#32) := by decide

/-- 20 R61: accesses that are not aligned 32-bit words. -/
theorem test_decode_rejects :
    decode (.mmio ⟨.rd, 0x00E#16, 4, 0#32⟩) = .error .misaligned ∧
    decode (.mmio ⟨.wr, 0x004#16, 2, 0#32⟩) = .error .notWordWide := by decide

/-- 30 R83, R86: the command words. -/
theorem test_decode_commands :
    decode (.cmd 0b00000000_00000000_00000000_00000001#32) = .ok (.nop 1#24) ∧
    decode (.cmd 0b00000001_00000000_00000000_00000000#32) = .ok .start ∧
    decode (.cmd 0b00000010_11111111_11111111_11111111#32) = .ok (.abort 0xFFFFFF#24) ∧
    decode (.cmd 0b00000011_00000000_00000000_00000000#32) = .ok (.ack 0#24) ∧
    decode (.cmd 0b00010000_00000000_00000000_00010010#32) = .ok (.htCommit 0x12#8) ∧
    decode (.cmd 0b00010001_00000000_00000000_00010001#32) = .ok (.qtCommit 0x11#8) ∧
    decode (.cmd 0x01000001#32) = .ok (.illegalStart 1#24) ∧
    decode (.cmd 0x10000100#32) = .ok (.illegalCommit false 1#16 0#8) ∧
    decode (.cmd 0x11800001#32) = .ok (.illegalCommit true 0x8000#16 1#8) ∧
    decode (.cmd 0x0F000000#32) = .ok (.reserved 0x0F#8 0#16 0#8) ∧
    decode (.cmd 0x12000000#32) = .ok (.reserved 0x12#8 0#16 0#8) ∧
    decode (.cmd 0xFF123456#32) = .ok (.reserved 0xFF#8 0x1234#16 0x56#8) := by decide

/-- 30 R88, R89: the symbol bytes. -/
theorem test_decode_symbols :
    decode (.dcSymbol 0b00000000#8) = .ok .dcSize0 ∧ decode (.dcSymbol 0b00000001#8) = .ok (.dcSize 1#4) ∧
    decode (.dcSymbol 0b00001111#8) = .ok (.dcSize 15#4) ∧ decode (.dcSymbol 0b00010000#8) = .ok (.dcBad 0x10#8) ∧
    decode (.dcSymbol 0b11111111#8) = .ok (.dcBad 0xFF#8) ∧
    decode (.acSymbol 0b00000000#8) = .ok .eob ∧ decode (.acSymbol 0b11110000#8) = .ok .zrl ∧
    decode (.acSymbol 0b00010000#8) = .ok (.runZero 1#4) ∧ decode (.acSymbol 0b11100000#8) = .ok (.runZero 14#4) ∧
    decode (.acSymbol 0b11010100#8) = .ok (.runSize 13#4 4#4) ∧
    decode (.acSymbol 0b11110001#8) = .ok (.runSize 15#4 1#4) := by decide

/-- spec/opcode_table.json: the match words of rows with 17-bit, 32-bit and 8-bit keys. -/
theorem test_table_words :
    decodeTableWord 24 0x00060 = some (.rdPred 0) ∧ decodeTableWord 24 0x10050 = some (.wrInBase 0#32) ∧
    decodeTableWord 24 0x14400 = some (.wrHtVal 0 0 0#32) ∧ decodeTableWord 32 0x01000000 = some .start ∧
    decodeTableWord 8 0xF0 = some .zrl ∧ decodeTableWord 24 0x00001 = none ∧ decodeTableWord 16 0 = none := by decide

/-- A table word is the first instruction after reset. -/
theorem test_withFetchWord :
    nextOf State.readData (step (State.reset.withFetchWord 24 0x00004)) = some 2#32 ∧
    nextOf State.seq (step (State.reset.withFetchWord 32 0x05000000)) = some .error ∧
    nextOf State.phase (step (State.reset.withFetchWord 8 0x00)) = some .ac ∧
    nextOf State.k (step (State.reset.withFetchWord 8 0xF0)) = some 17 := by decide +kernel

/-! ### Single steps: register accesses -/

/-- ER1: STATUS in ERROR with the interrupt enabled. -/
theorem test_rd_status : nextOf State.readData (exec .rdStatus { State.reset with seq := .error, irqEn := true }) =
    some 0x00000007#32 := by decide +kernel

/-- P2 and P1: STATUS in DONE, with and without the interrupt. -/
theorem test_rd_status_done :
    nextOf State.readData (exec .rdStatus { State.reset with
      seq := .done, mkrValid := true, mkr := 0xD9#8, irqEn := true }) = some 0x0000D916#32 ∧
    nextOf State.readData (exec .rdStatus { State.reset with seq := .done, mkrValid := true, mkr := 0xD9#8 }) =
      some 0x0000D912#32 := by decide +kernel

/-- P1: INPOS after the decode, and 40 R108: a draw while BUSY. -/
theorem test_rd_inpos : nextOf State.readData (exec .rdInpos { State.reset with seq := .done, inpos := 1#32 }) = some 1#32 ∧
    nextOf State.draws (exec .rdInpos { State.reset with seq := .busy }) = some 1 := by decide +kernel

/-- P2: MCUCNT after the decode. -/
theorem test_rd_mcucnt : nextOf State.readData (exec .rdMcucnt { State.reset with seq := .done, mcucnt := 2#32 }) =
    some 2#32 := by decide +kernel

/-- P3: PRED1 = −16. -/
theorem test_rd_pred : nextOf State.readData (exec (.rdPred 1) { State.reset with
    pred := #v[80#16, 0xFFF0#16, 40#16, 0#16] }) = some 0xFFFFFFF0#32 := by decide +kernel

/-- HI1, HI3: CTRL and a reserved offset after reset. -/
theorem test_rd : nextOf State.readData (exec (.rd 0x004#16) State.reset) = some 2#32 ∧
    nextOf State.readData (exec (.rd 0x0070#16) { State.reset with readData := 9#32 }) = some 0#32 := by decide +kernel

/-- P1: TVALID with HT 0, HT 4 and QT 0 committed. -/
theorem test_rd_tvalid : nextOf State.readData (exec (.rd 0x05C#16) ready) = some 0x00000111#32 := by decide +kernel

/-- HI8: IRQ_EN is taken while BUSY, the other bits are refused with IGN. -/
theorem test_wr_ctrl :
    nextOf (fun s => (ctrlWord s, s.ign)) (exec (.wrCtrl 0x7#32) { State.reset with seq := .busy }) =
      some (0x6#32, true) := by decide +kernel

/-- HI16 through the register. -/
theorem test_wr_cmd : nextOf (fun s => (s.errcode, s.errinfo, s.errpos, s.seq)) (exec (.wrCmd 0x05000000#32) State.reset) =
    some (8#4, 0x04000005#32, 0#32, .error) := by decide +kernel

/-- HI9, and the write outside BUSY. -/
theorem test_wr_frame_dim :
    nextOf (fun s => (s.frameDim, s.ign)) (exec (.wrFrameDim 0x00100008#32) { ready with seq := .busy }) =
      some (0x00080008#32, true) ∧
    nextOf (fun s => (frameX s, frameY s)) (exec (.wrFrameDim 0x00080010#32) State.reset) = some (16, 8) := by decide +kernel

/-- 40 R104 and 60 R228: a configuration write in DONE, in both readings (log 32). -/
theorem test_wr_config_done :
    nextOf (fun s => (s.frameDim, s.ign)) (exec (.wrFrameDim 0x00100008#32) { ready with seq := .done }) =
      some (0x00100008#32, false) ∧
    nextOf (fun s => (s.frameDim, s.ign)) (exec (.wrFrameDim 0x00100008#32) { ready with
      seq := .done, params := { params0 with pCfgWrites := .ignored } }) = some (0x00080008#32, true) := by decide +kernel

/-- HI5. -/
theorem test_wr_frame_cfg : nextOf State.frameCfg (exec (.wrFrameCfg 0xFFFF0308#32) State.reset) =
    some 0x00000308#32 := by decide +kernel

/-- 40 R104, R87 for FCOMP0. -/
theorem test_wr_fcomp0 : nextOf (fun s => s.fcomp.get 0) (exec (.wrFcomp0 0xFF001101#32) State.reset) =
    some 0x00001101#32 := by decide +kernel

/-- HI6. -/
theorem test_wr_fcomp1 : nextOf (fun s => (s.fcomp.get 1, fcompId s 1, fcompV s 1, fcompH s 1, fcompTq s 1))
    (exec (.wrFcomp1 0xAB021102#32) State.reset) = some (0x00021102#32, 2#8, 1#4, 1#4, 2) := by decide +kernel

/-- P3: FCOMP2. -/
theorem test_wr_fcomp2 : nextOf (fun s => s.fcomp.toList) (exec (.wrFcomp2 0x00001103#32) State.reset) =
    some [0#32, 0#32, 0x1103#32, 0#32] := by decide +kernel

/-- 40 R104 for FCOMP3. -/
theorem test_wr_fcomp3 : nextOf (fun s => s.fcomp.toList) (exec (.wrFcomp3 0x00032104#32) State.reset) =
    some [0#32, 0#32, 0#32, 0x00032104#32] := by decide +kernel

/-- 10 R31: the reserved bits of SCAN_CFG. -/
theorem test_wr_scan_cfg : nextOf State.scanCfg (exec (.wrScanCfg 0xFFFFFF03#32) State.reset) = some 3#32 := by
  decide +kernel

/-- P4c: SCOMP with TA = 1. -/
theorem test_wr_scomp : nextOf (fun s => (scompId s 2, scompTd s 2, scompTa s 2))
    (exec (.wrScomp 2 0x00003101#32) State.reset) = some (1#8, 3, 1) := by decide +kernel

/-- P1: the buffer registers. -/
theorem test_wr_buffers :
    nextOf State.inBase (exec (.wrInBase 0x1000#32) State.reset) = some 0x1000#32 ∧
    nextOf State.inLen (exec (.wrInLen 3#32) State.reset) = some 3#32 ∧
    nextOf State.outBase (exec (.wrOutBase 0x2000#32) State.reset) = some 0x2000#32 := by decide +kernel

/-- HI10: the staging RAM is writable while BUSY, and the entry takes the low byte. -/
theorem test_wr_ht_val : nextOf (fun s => stagedValueOf s 2 5) (exec (.wrHtVal 2 5 0x1FF#32) { ready with seq := .busy }) =
    some 0xFF#8 := by decide +kernel

/-- 40 R105: two counts, each in its own place. -/
theorem test_wr_ht_bits : nextOf (fun s => (stagedCountOf s 1 15, stagedCountOf s 2 0))
    (exec (.wrHtBits 2 0 7#32) { State.reset with htBits := [(31, 9#8)] }) = some (9#8, 7#8) := by decide +kernel

/-- 40 R106: the entry takes the low 16 bits. -/
theorem test_wr_qt_ram : nextOf (fun s => stagedQuantOf s 1 7) (exec (.wrQtRam 1 7 0xABCD0100#32) State.reset) =
    some 256#16 := by decide +kernel

/-- HI7: a write to STATUS changes nothing. -/
theorem test_wr_status : nextOf (fun s => (statusWord s, s.ign)) (exec (.wr 0x00C#16 0xFFFFFFFF#32) State.reset) =
    some (0#32, false) := by decide +kernel

/-! ### Single steps: commands -/

/-- HI15. -/
theorem test_nop : nextOf (fun s => (s.seq, s.ign)) (exec (.nop 0xFFFFFF#24) State.reset) = some (.idle, false) := by
  decide +kernel

/-- A launch, and HI11: START while BUSY is ignored. -/
theorem test_start : nextOf (fun s => (s.seq, s.phase, s.ip, s.mcucnt)) (exec .start { ready with mcucnt := 5#32 }) =
    some (.busy, .dc, 0, 0#32) ∧
    nextOf (fun s => (s.seq, s.ign, s.k)) (exec .start (decoding .ac 3 0)) = some (.busy, true, 3) := by decide +kernel

/-- SC1, SC2, SC3, SC5, SC6, SC7: START checks 1, 2, 3, 5, 6, 7. -/
theorem test_start_checks_frame :
    nextOf State.errinfo (exec .start { ready with frameCfg := 0x0000010C#32 }) = some 0x01000100#32 ∧
    nextOf State.errinfo (exec .start { ready with frameCfg := 0x00000208#32 }) = some 0x01000202#32 ∧
    nextOf State.errinfo (exec .start { ready with frameDim := 0x00080000#32 }) = some 0x01000300#32 ∧
    nextOf State.errinfo (exec .start { ready with fcomp := #v[0x2101#32, 0#32, 0#32, 0#32] }) = some 0x01000500#32 ∧
    nextOf State.errinfo (exec .start { ready with fcomp := #v[0x041101#32, 0#32, 0#32, 0#32] }) = some 0x01000600#32 ∧
    nextOf State.errinfo (exec .start { ready with scanCfg := 0#32 }) = some 0x01000700#32 := by decide +kernel

/-- SC10, SC14, SC17: START checks 9 and 11. -/
theorem test_start_checks_scan :
    nextOf State.errinfo (exec .start { ready with scomp := #v[0x4001#32, 0#32, 0#32, 0#32] }) = some 0x01000900#32 ∧
    nextOf (fun s => (s.errcode, s.errinfo)) (exec .start { ready with inBase := 0xFFFFFFFF#32, inLen := 2#32 }) =
      some (9#4, 0x01000B00#32) ∧
    nextOf (fun s => (s.errcode, s.errinfo)) (exec .start { ready with
      outBase := 0xFFFFFFF1#32, frameDim := 0x00040004#32 }) = some (9#4, 0x01000B01#32) := by decide +kernel

/-- HI14: ABORT in ERROR returns to IDLE and keeps IGN. -/
theorem test_abort : nextOf (fun s => (s.seq, s.ign)) (exec (.abort 0xFFFFFF#24) { State.reset with
    seq := .error, ign := true }) = some (.idle, true) ∧
    nextOf (fun s => (s.seq, s.errcode)) (exec (.abort 0#24) (decoding .dc 0 0)) = some (.idle, 0#4) := by decide +kernel

/-- HI13, HI20. -/
theorem test_ack : nextOf (fun s => (s.seq, s.ign, s.inpos)) (exec (.ack 0#24) { State.reset with
    seq := .done, ign := true, inpos := 3#32 }) = some (.idle, false, 3#32) ∧
    nextOf (fun s => (s.seq, s.ign)) (exec (.ack 0#24) { State.reset with ign := true }) = some (.idle, true) := by
  decide +kernel

/-- The staged counts of one table. -/
def staged (t : Nat) (l : List Byte) : List (Nat × Byte) := (counts l).zipIdx.map fun bi => (16 * t + bi.2, bi.1)

/-- CO1, CO2, CO4: commits that fail. -/
theorem test_ht_commit_fails :
    nextOf (fun s => (s.errcode, s.errinfo)) (exec (.htCommit 0x20#8) State.reset) = some (4#4, 0x02000120#32) ∧
    nextOf (fun s => (s.errcode, s.errinfo)) (exec (.htCommit 0x04#8) State.reset) = some (4#4, 0x02000204#32) ∧
    nextOf (fun s => (s.errinfo, (s.htAct.get 1).valid)) (exec (.htCommit 0x01#8) { State.reset with
      htBits := staged 1 [3#8], htAct := State.reset.htAct.set 1 dc2 }) = some (0x02000401#32, false) := by decide +kernel

/-- CO5: the empty table commits. -/
theorem test_ht_commit : nextOf (fun s => (tvalidWord s, s.seq)) (exec (.htCommit 0x11#8) { State.reset with
    htBits := staged 5 [] }) = some (0x20#32, .idle) := by decide +kernel

/-- CO6, CO7: commits that fail. -/
theorem test_qt_commit_fails :
    nextOf (fun s => (s.errcode, s.errinfo)) (exec (.qtCommit 0x20#8) State.reset) = some (4#4, 0x02000120#32) ∧
    nextOf (fun s => (s.errcode, s.errinfo)) (exec (.qtCommit 0x04#8) State.reset) = some (4#4, 0x02000204#32) := by
  decide +kernel

/-- All 64 staged entries of a quantization table. -/
def stagedQ (q : Nat) (v : Nat → Nat) : List (Nat × Half) :=
  (List.range 64).map fun k => (64 * q + k, BitVec.ofNat 16 (v k))

/-- CO8, CO9: an entry of 256 fails an 8-bit commit and passes a 16-bit one. -/
theorem test_qt_commit :
    nextOf (fun s => (s.errinfo, tvalidWord s)) (exec (.qtCommit 0x01#8) { State.reset with
      qtRam := stagedQ 1 fun k => if k = 7 then 256 else 1 }) = some (0x02000301#32, 0#32) ∧
    nextOf (fun s => (s.seq, tvalidWord s)) (exec (.qtCommit 0x11#8) { State.reset with
      qtRam := stagedQ 1 fun k => if k = 7 then 256 else 1 }) = some (.idle, 0x200#32) := by decide +kernel

/-- HI17, HI18, HI16, HI19. -/
theorem test_illegal_commands :
    nextOf (fun s => (s.errcode, s.errinfo)) (exec (.illegalStart 1#24) State.reset) = some (8#4, 0x04000101#32) ∧
    nextOf (fun s => (s.errcode, s.errinfo)) (exec (.illegalCommit false 1#16 0#8) State.reset) =
      some (8#4, 0x04000110#32) ∧
    nextOf (fun s => (s.errcode, s.errinfo)) (exec (.reserved 5#8 0#16 0#8) State.reset) = some (8#4, 0x04000005#32) ∧
    nextOf (fun s => (s.seq, s.ign)) (exec (.reserved 5#8 0#16 0#8) { State.reset with seq := .busy }) =
      some (.busy, true) := by decide +kernel

/-! ### The reset input -/

/-- 70 R240, R241: asserted in a decode, an access while it is asserted, and its release. -/
theorem test_reset_input :
    nextOf (fun s => (s.seq, s.resetAsserted, s.frameDim)) (step { decoding .ac 1 2 with agenda := [.resetOn] }) =
      some (.idle, true, 0#32) ∧
    nextOf (fun s => (s.frameDim, s.agenda)) (step { State.reset with
      resetAsserted := true, agenda := [.access ⟨.wr, 0x024#16, 4, 1#32⟩] }) = some (0#32, []) ∧
    nextOf (fun s => (s.seq, s.resetAsserted)) (step { State.reset with
      resetAsserted := true, agenda := [.resetOff] }) = some (.idle, false) := by decide +kernel

/-! ### Destuffer and matcher -/

/-- DS2, first step: FF 00 is one data byte FF. -/
theorem test_dstep_stuffed : (stateOf (dstep (reading 3 [(0x1000, 0xFF#8), (0x1002, 0x12#8)]))).src = [0] ∧
    (stateOf (dstep (reading 3 [(0x1000, 0xFF#8), (0x1002, 0x12#8)]))).ip = 2 ∧
    (stateOf (dstep (reading 3 [(0x1000, 0xFF#8), (0x1002, 0x12#8)]))).dbits = List.replicate 8 true := by decide +kernel

/-- DS3, DS4, DS5, DS7: where the data ends. -/
theorem test_dstep_ends :
    (stateOf (dstep (reading 2 [(0x1000, 0xFF#8), (0x1001, 0xD9#8)]))).endRec = ⟨true, 0, true, 0xD9#8⟩ ∧
    (stateOf (dstep (reading 1 [(0x1000, 0xFF#8)]))).endRec = ⟨true, 0, false, 0#8⟩ ∧
    (stateOf (dstep (reading 3 [(0x1000, 0xFF#8), (0x1001, 0xFF#8), (0x1002, 0xD9#8)]))).endRec =
      ⟨true, 0, true, 0xFF#8⟩ ∧
    (stateOf (dstep (reading 0 []))).endRec = ⟨true, 0, false, 0#8⟩ := by decide +kernel

/-- HB1: the codes of the luminance DC table. -/
theorem test_build_hb1 :
    codesOf (build (counts [0#8, 1#8, 5#8, 1#8, 1#8, 1#8, 1#8, 1#8, 1#8]) ((List.range 256).map (BitVec.ofNat 8 ·))) =
      .inl [(2, 0), (3, 2), (3, 3), (3, 4), (3, 5), (3, 6), (4, 14), (5, 30), (6, 62), (7, 126), (8, 254), (9, 510)] := by
  decide +kernel

/-- HB2 to HB5, HB7: builds that fail, and a complete code. -/
theorem test_build_limits :
    codesOf (build (counts [3#8]) []) = .inr 4#8 ∧ codesOf (build (counts [2#8, 1#8]) []) = .inr 4#8 ∧
    codesOf (build (counts [1#8, 2#8, 1#8]) []) = .inr 4#8 ∧
    codesOf (build (List.replicate 14 0#8 ++ [255#8, 2#8]) []) = .inr 3#8 ∧
    codesOf (build (counts [2#8]) []) = .inl [(1, 0), (1, 1)] := by decide +kernel

/-- MA1, MA2, MA5. -/
theorem test_match :
    valueOf (matchCode dc2 { decoding .dc 0 0 with dbits := [false, true, true] }) = some 3#8 ∧
    (errorOf (matchCode dc2 { decoding .dc 0 0 with dbits := [true, true, true] })).map Err.code =
      some .corruptBitstream ∧
    (errorOf (matchCode ⟨true, counts [], [], 0, []⟩ (decoding .dc 0 0))).map Err.code = some .corruptBitstream := by
  decide +kernel

/-- MA3: a code cut short by the end of the data is Truncated. -/
theorem test_match_truncated : (errorOf (matchCode dc2 { ended .dc 0 0 with dbits := [true] })).map Err.code =
    some .truncated := by decide +kernel

/-! ### Single steps: scan symbols -/

/-- 43 R163: difference 0 keeps the predictor. -/
theorem test_dc_size0 : nextOf (fun s => (s.pred.get 0, (s.zz.get 0).get 0, s.phase, s.k))
    (exec .dcSize0 { decoding .dc 0 2 with pred := #v[8#16, 0#16, 0#16, 0#16] }) = some (8#16, 8#16, .ac, 1) := by
  decide +kernel

/-- E7: the bits "1100" after a size of 4 give 12. -/
theorem test_dc_size : nextOf (fun s => (s.pred.get 0, s.cur))
    (exec (.dcSize 4#4) { decoding .dc 0 2 with dbits := [true, false, true, true, false, false, false, false] }) =
      some (12#16, 6) := by decide +kernel

/-- 43 R162: a size above 15. -/
theorem test_dc_bad : nextOf (fun s => (s.errcode, s.errinfo, s.cur)) (exec (.dcBad 0x10#8) (decoding .dc 0 2)) =
    some (5#4, 0x03000000#32, 2) := by decide +kernel

/-- 43 R166, R169: the end of the only block. -/
theorem test_eob : nextOf (fun s => (s.phase, s.k)) (exec .eob (decoding .ac 5 0)) = some (.recon, 5) := by decide +kernel

/-- E3: k from 1 to 17, and 43 R167: a run past position 63. -/
theorem test_zrl : nextOf (fun s => (s.phase, s.k)) (exec .zrl (decoding .ac 1 0)) = some (.ac, 17) ∧
    nextOf State.errcode (exec .zrl (decoding .ac 49 0)) = some 5#4 := by decide +kernel

/-- 43 R168: RUN_ZERO reads no bits. -/
theorem test_run_zero : nextOf (fun s => (s.k, s.cur)) (exec (.runZero 2#4) (decoding .ac 1 3)) = some (4, 3) := by
  decide +kernel

/-- ED1: 0x21 with the bit 1 places 1 at k = 3. -/
theorem test_run_size : nextOf (fun s => ((s.zz.get 0).get 3, s.k, s.cur)) (exec (.runSize 2#4 1#4) (decoding .ac 1 5)) =
    some (1#16, 4, 6) := by decide +kernel

/-- The EXTEND table of spec/95. -/
theorem test_extend :
    [(0, 1), (1, 1), (0, 2), (1, 2), (2, 2), (3, 3), (4, 3), (0, 11), (1023, 11), (0, 15), (16383, 15), (32767, 15)].map
      (fun (vs : Nat × Nat) => extend .negComplement vs.1 vs.2) =
      [-1, 1, -3, -2, 2, -4, 4, -2047, -1024, -32767, -16384, 32767] ∧
    [(0, 1), (0, 2), (3, 3), (0, 11), (1023, 11), (0, 15)].map (fun (vs : Nat × Nat) => extend .bitNot vs.1 vs.2) =
      [-1, -1, -4, -1, -1024, -1] := by decide +kernel

/-! ### Reconstruction -/

/-- A block with one coefficient. -/
def oneCoef (n : Nat) (v : Int) : Vector Int 64 := (Vector.replicate 64 0).setIfInBounds n v

/-- DQ2: q[k] = k + 1 and ZZ[2] = 1, in both alignments. -/
theorem test_dequant :
    (dequant params0 ((Vector.replicate 64 0#16).set 2 1#16) (mkBlock fun k => BitVec.ofNat 16 (k.val + 1))).get 8 = 3 ∧
    (dequant { params0 with pDeqAlign := .index } ((Vector.replicate 64 0#16).set 2 1#16)
      (mkBlock fun k => BitVec.ofNat 16 (k.val + 1))).get 8 = 9 := by decide +kernel

/-- IC3, IC5, IC6: samples of row 0. -/
theorem test_idct :
    (List.range 8).map (fun x => idctAt .t81Exact (oneCoef 1 10) (Fin.ofNat 64 x)) = [1, 1, 0, 0, 0, 0, -1, -1] ∧
    (List.range 8).map (fun x => idctAt .literalSeparableExact (oneCoef 4 16) (Fin.ofNat 64 x)) =
      [1, -1, -1, 1, 1, -1, -1, 1] ∧
    idctAt .t81Exact (oneCoef 0 (-12)) 63 = -1 ∧ idctAt .literalSeparableExact (oneCoef 0 (-12)) 63 = 0 := by
  decide +kernel

/-- IC9: column 0. -/
theorem test_idct_column :
    (List.range 8).map (fun y => idctAt .t81Exact (oneCoef 16 16) (Fin.ofNat 64 (8 * y))) =
      [2, 1, -1, -2, -2, -1, 1, 2] := by decide +kernel

/-- Section 2.7, third and fourth rows. -/
theorem test_colour :
    (redOf 100 100, greenOf .coherent 100 0 100, blueOf 100 0, greenOf .literal 100 0 100) = (368, 156, 228, -61) ∧
    (redOf (-128) (-100), greenOf .coherent (-128) (-100) (-100), blueOf (-128) (-100)) = (-140, 105, -177) ∧
    (sat8 true 368, sat8 false 368, sat8 true (-1), sat8 false (-1)) = (255#8, 112#8, 0#8, 255#8) := by decide +kernel

/-- A 1×1 grey frame in RECON, at a step of it. -/
def inRecon (sub : Nat) : State := { decoding .recon 0 2 with frameDim := 0x00010001#32, sub := sub }

/-- P1: the RECON steps of an all-zero 1×1 grey frame: the component, the byte 0x80, the end of the MCU. -/
theorem test_recon :
    nextOf (fun s => (s.sub, s.mem.length, s.phase)) (turn (inRecon 0)) = some (1, 3, .recon) ∧
    nextOf (fun s => (Memory.read s.mem 0x2000, s.mem.length, s.sub, s.mcucnt)) (turn (inRecon 1)) =
      some (0x80#8, 4, 2, 0#32) ∧
    nextOf (fun s => (s.mcucnt, s.sub, s.phase)) (turn (inRecon 2)) = some (1#32, 0, .drain) := by decide +kernel

/-- P1: the byte that the decode puts at 0x2000, and 70 R254: a match that needs data is one destuffer step first. -/
theorem test_block_byte : blockByte 0x2000 0 (inRecon 0) = 0x80#8 ∧
    nextOf (fun s => (s.ip, s.dbits.length, s.cur, s.phase))
      (turn { decoding .dc 0 0 with ip := 0, dbits := [], src := [] }) = some (1, 8, 0, .dc) := by decide +kernel

/-- P1: the end of the decode. -/
theorem test_drain : nextOf (fun s => (s.seq, s.inpos, s.mkr)) (turn (ended .drain 0 2)) = some (.done, 1#32, 0xD9#8) := by
  decide +kernel

/-! ### Witnesses: states and operands that meet the hypotheses of every statement, clause by clause -/

/-- `some` from `nextOf` is a next state. -/
theorem next_of {α : Type} {f : State → α} {r : Result} {a : α} (h : nextOf f r = some a) :
    ∃ t, r = .next t ∧ f t = a := by
  unfold nextOf at h
  split at h
  · exact ⟨_, rfl, Option.some.inj h⟩
  · exact absurd h (by simp)
  · exact absurd h (by simp)

theorem ok_of {α : Type} {r : Decoded α} {a : α} (h : valueOf r = some a) : ∃ t, r = .ok a t := by
  unfold valueOf at h
  split at h
  · exact ⟨_, by rw [Option.some.inj h]⟩
  · exact absurd h (by simp)
  · exact absurd h (by simp)

theorem err_of {α : Type} {r : Decoded α} {e : Err} (h : errorOf r = some e) : ∃ t, r = .err e t := by
  unfold errorOf at h
  split at h
  · exact absurd h (by simp)
  · exact ⟨_, by rw [Option.some.inj h]⟩
  · exact absurd h (by simp)

theorem stall_of {α : Type} {r : Decoded α} (h : waits r = true) : ∃ t, r = .stall t := by
  unfold waits at h
  split at h
  · exact absurd h (by simp)
  · exact absurd h (by simp)
  · exact ⟨_, rfl⟩

/-- Every DMA access is rejected, with an answer or without. -/
def rejecting (b : PBus) (s : State) : State :=
  { s with params := { params0 with pBus := b }, busMap := [⟨0, 2 ^ 32, true, true⟩] }

/-- A decode at a phase with nothing destuffed yet. -/
def fresh (p : Phase) (k : Nat) : State := { decoding p k 0 with ip := 0, dbits := [], src := [] }

theorem wit_DecodeOfEncodeGivesTheInstruction :
    [Instr.rd 0x0000#16, .rd 0xFFFC#16, .wr 0x0070#16 0xFFFFFFFF#32, .wr 0x8400#16 0#32, .wrHtVal 7 255 0#32,
      .htCommit 0xFF#8, .illegalStart 1#24, .illegalCommit true 0xFFFF#16 0#8, .reserved 0x12#8 0#16 0#8,
      .reserved 0xFF#8 0xFFFF#16 0xFF#8, .dcSize 15#4, .dcBad 0x10#8, .runZero 14#4, .runSize 15#4 15#4].all
      Instr.wellFormed = true := by decide

theorem wit_EncodeOfDecodeGivesTheWord :
    decode (.mmio ⟨.rd, 0x00C#16, 4, 5#32⟩) = .ok .rdStatus ∧ decode (.mmio ⟨.wr, 0x00C#16, 4, 5#32⟩) = .ok (.wr 0x00C#16 5#32) ∧
    decode (.cmd 0xFF000000#32) = .ok (.reserved 0xFF#8 0#16 0#8) ∧ decode (.acSymbol 0x00#8) = .ok .eob := by decide

theorem wit_FrameAndScanFieldsReadBack :
    ready.frameDim = 8#16 ++ 8#16 ∧ ready.frameCfg = 0#16 ++ 1#8 ++ 8#8 ∧
    ready.fcomp.get 0 = 0#8 ++ 0#8 ++ 1#4 ++ 1#4 ++ 1#8 ∧ ready.fcomp.get 3 = 0#8 ++ 0#8 ++ 0#4 ++ 0#4 ++ 0#8 ∧
    ready.scanCfg = 0#24 ++ 1#8 ∧ ready.scomp.get 0 = 0#16 ++ 0#4 ++ 0#4 ++ 1#8 := by decide +kernel

theorem wit_OnlyAlignedWordAccessesRun :
    { ready with agenda := [.access ⟨.rd, 0x00E#16, 4, 0#32⟩] }.agenda = .access ⟨.rd, 0x00E#16, 4, 0#32⟩ :: [] ∧
    ((0x00E#16).toNat % 4 ≠ 0 ∧ (2 : Nat) ≠ 4) ∧ (0xFFFF#16).toNat % 4 ≠ 0 ∧ (0xFFFC#16).toNat % 4 = 0 ∧
    ready.resetAsserted = false ∧ { State.reset with resetAsserted := true }.resetAsserted = true := by decide +kernel

theorem wit_StepRunsTheDecodedInstruction :
    ({ ready with agenda := [.access ⟨.rd, 0x00C#16, 4, 0#32⟩] }.agenda = [.access ⟨.rd, 0x00C#16, 4, 0#32⟩] ∧
      decode (.mmio ⟨.rd, 0x00C#16, 4, 0#32⟩) = .ok .rdStatus) ∧
    ({ ready with agenda := [.command 0x01000000#32, .block] }.agenda = [.command 0x01000000#32, .block] ∧
      decode (.cmd 0x01000000#32) = .ok .start) ∧
    { ready with agenda := [.block] }.agenda = [.block] ∧ ready.agenda = [] ∧ ready.resetAsserted = false ∧
    { State.reset with resetAsserted := true }.resetAsserted = true := by decide +kernel

/-- The start of a DC term: what TurnRunsTheMatchedSymbol matches in. -/
def dcStart (s : State) : State := { s with zz := s.zz.set s.j.val (Vector.replicate 64 0#16), k := 0 }

/-- A decode whose D ends with the code of the next symbol, with its additional bits still to come. -/
def short (p : Phase) (k : Nat) (d : List Bool) : State := { decoding p k 0 with dbits := d }

/-- The states in which a turn ends so: the clauses of the DC phase, then those of the AC phase. -/
theorem wit_TurnRunsTheMatchedSymbol :
    ((decoding .dc 0 0).seq = .busy ∧ (decoding .dc 0 0).stalled = false ∧ (decoding .dc 0 0).resetAsserted = false ∧
      startChecks (decoding .dc 0 0) = none ∧ startChecks (rejecting .error (fresh .dc 0)) = none ∧
      startChecks (rejecting .stall (fresh .ac 1)) = none) ∧
    ((∃ t, matchCode ((decoding .dc 0 0).htAct.get (Fin.ofNat 8 (scompTd (decoding .dc 0 0) (decoding .dc 0 0).j)))
        (dcStart (decoding .dc 0 0)) = .ok 0#8 t) ∧ decode (.dcSymbol 0#8) = .ok .dcSize0 ∧
      (errorOf (matchCode dc2 (dcStart (rejecting .error (fresh .dc 0))))).isSome = true ∧
      (∃ t, matchCode dc2 (dcStart (rejecting .stall (fresh .dc 0))) = .stall t) ∧
      destuffed (dcStart (decoding .dc 0 0)) (leftBy (matchCode dc2 (dcStart (decoding .dc 0 0)))) = false) ∧
    ((∃ t, matchCode ((decoding .ac 1 2).htAct.get (Fin.ofNat 8 (4 + scompTa (decoding .ac 1 2) (decoding .ac 1 2).j)))
        (decoding .ac 1 2) = .ok 0x21#8 t) ∧ decode (.acSymbol 0x21#8) = .ok (.runSize 2#4 1#4) ∧
      (errorOf (matchCode ac5 (rejecting .error (fresh .ac 1)))).isSome = true ∧
      ∃ t, matchCode ac5 (rejecting .stall (fresh .ac 1)) = .stall t) ∧
    (destuffed (fresh .ac 1) (leftBy (matchCode ac5 (fresh .ac 1))) = true ∧ (∃ u, dstep (fresh .ac 1) = .ok () u)) ∧
    ((∃ t, matchCode dc2 (dcStart (short .dc 0 [false, true])) = .ok 3#8 t) ∧
      valueOf (matchCode ac5 (short .ac 1 [true, false, true])) = some 0x21#8 ∧
      needsData 1 (stateOf (matchCode ac5 (short .ac 1 [true, false, true]))) = true ∧
      (errorOf (dstep (rejecting .error (short .ac 1 [true, false, true])))).isSome = true ∧
      ∃ u, dstep (rejecting .stall (short .ac 1 [true, false, true])) = .stall u) :=
  ⟨by decide +kernel, ⟨ok_of (by decide +kernel), by decide, by decide +kernel, stall_of (by decide +kernel), by decide +kernel⟩,
    ⟨ok_of (by decide +kernel), by decide, by decide +kernel, stall_of (by decide +kernel)⟩,
    ⟨by decide +kernel, ok_of (by decide +kernel)⟩,
    ⟨ok_of (by decide +kernel), by decide +kernel, by decide +kernel, by decide +kernel, stall_of (by decide +kernel)⟩⟩

/-- Whether an offset meets the last clause of ReadReturnsTheRegister and of WriteDispatchesByOffset. -/
def reservedOffset (off : BitVec 16) : Bool := decide (off.toNat % 4 = 0) &&
  decide (0x0070 ≤ off.toNat ∧ off.toNat < 0x4000 ∨ 0x8400 ≤ off.toNat ∨
    0x4000 ≤ off.toNat ∧ off.toNat < 0x8000 ∧ 0x040 ≤ off.toNat % 0x800 ∧ off.toNat % 0x800 < 0x400)

theorem wit_ReadReturnsTheRegister : [0x0070#16, 0x3FFC#16, 0x4040#16, 0x43FC#16, 0x7BFC#16, 0x8400#16, 0xFFFC#16].all
    reservedOffset = true := by decide +kernel

theorem wit_WriteDispatchesByOffset : [0x0070#16, 0x3FFC#16, 0x4840#16, 0x4BFC#16, 0x8400#16, 0xFFFC#16].all
    reservedOffset = true ∧ [0x006C#16, 0x403C#16, 0x4400#16, 0x7FFC#16, 0x83FC#16].all reservedOffset = false := by
  decide +kernel

/-- A table of a build. -/
def builtOf (r : Except Byte HtTable) : Option HtTable :=
  match r with
  | .ok t => some t
  | .error _ => none

theorem built_of {r : Except Byte HtTable} {t : HtTable} (h : builtOf r = some t) : r = .ok t := by
  cases r <;> simp_all [builtOf]

/-- 256 values from the first ones. -/
def values (l : List Byte) : List Byte := l ++ List.replicate (256 - l.length) 0#8

theorem build_dc2 : build (counts [0#8, 3#8]) (values [0x00#8, 0x03#8, 0x04#8]) = .ok dc2 := built_of (by decide +kernel)

theorem build_ac5 : build (counts [0#8, 2#8, 3#8]) (values [0x00#8, 0x01#8, 0xF0#8, 0x21#8, 0xE1#8]) = .ok ac5 :=
  built_of (by decide +kernel)

theorem values_length_dc2 : (values [0x00#8, 0x03#8, 0x04#8]).length = 256 := by decide +kernel

theorem values_length_ac5 : (values [0x00#8, 0x01#8, 0xF0#8, 0x21#8, 0xE1#8]).length = 256 := by decide +kernel

theorem table_built_dc2 : TableBuilt dc2 := fun _ =>
  ⟨counts [0#8, 3#8], values [0x00#8, 0x03#8, 0x04#8], rfl, values_length_dc2, build_dc2⟩

theorem table_built_ac5 : TableBuilt ac5 := fun _ =>
  ⟨counts [0#8, 2#8, 3#8], values [0x00#8, 0x01#8, 0xF0#8, 0x21#8, 0xE1#8], rfl, values_length_ac5, build_ac5⟩

theorem table_built_empty : TableBuilt HtTable.empty := fun h => absurd h (by decide)

theorem table_built_decoding (p : Phase) (k cur : Nat) (t : Fin 8) : TableBuilt ((decoding p k cur).htAct.get t) :=
  match t with
  | 0 => table_built_dc2
  | 1 => table_built_empty
  | 2 => table_built_empty
  | 3 => table_built_empty
  | 4 => table_built_ac5
  | 5 => table_built_empty
  | 6 => table_built_empty
  | 7 => table_built_empty

theorem reserved_decoding : ReservedClear (decoding .ac 1 2) :=
  ⟨by decide +kernel, by decide +kernel, by decide +kernel, by decide +kernel, by decide +kernel, by decide +kernel⟩

theorem quant_decoding (q : Fin 4) : QuantFits ((decoding .ac 1 2).qtAct.get q) := by
  unfold QuantFits
  revert q
  decide +kernel

theorem stream_decoding : StreamOk (decoding .ac 1 2) :=
  ⟨by decide +kernel, ⟨rfl, .inl ⟨by decide, by decide +kernel, rfl⟩⟩, by decide, ⟨fun _ => rfl, fun h => by cases h⟩,
    by decide, by decide⟩

theorem zeros_decoding (p : Phase) (k cur : Nat) : UnwrittenZero (decoding p k cur) := fun n _ => by
  have h : ∀ n : Fin 64, (Vector.replicate 64 0#16).get n = 0#16 := by decide +kernel
  exact h n

theorem position_decoding : PositionOk (decoding .ac 1 2) :=
  ⟨by decide +kernel, by decide +kernel, by decide, by decide, rfl, zeros_decoding .ac 1 2⟩

theorem running_decoding : Running (decoding .ac 1 2) :=
  ⟨by decide +kernel, by decide +kernel, stream_decoding, position_decoding, by decide +kernel, by decide +kernel⟩

/-- The invariant holds in the middle of a decode. -/
theorem inv_decoding : Inv (decoding .ac 1 2) :=
  ⟨by decide +kernel, reserved_decoding, table_built_decoding .ac 1 2, quant_decoding, fun _ => running_decoding,
    fun h => by cases h⟩

/-- A decode before its last step, while another agent reads the last output byte. -/
def draining : State := { ended .drain 0 2 with m := 1, mcucnt := 1#32, agenda := [.memRead 0x203F#32] }

theorem stream_draining : StreamOk draining :=
  ⟨stream_decoding.1, stream_decoding.2, by decide, ⟨(fun h => by cases h), fun _ => .inr (.inr ⟨by decide,
    by decide +kernel, by decide +kernel, by decide +kernel⟩)⟩, by decide, by decide⟩

/-- The invariant holds at the end of a decode. -/
theorem inv_draining : Inv draining :=
  ⟨by decide +kernel, ⟨reserved_decoding.1, reserved_decoding.2, reserved_decoding.3, reserved_decoding.4,
    reserved_decoding.5, reserved_decoding.6⟩, table_built_decoding .drain 0 2, quant_decoding,
    fun _ => ⟨by decide +kernel, by decide +kernel, stream_draining, ⟨by decide +kernel, rfl⟩, by decide +kernel,
      by decide +kernel⟩, fun h => by cases h⟩

theorem wit_StatusReadsTheStatusWord : Inv (decoding .ac 1 2) ∧ (decoding .ac 1 2).seq = .busy := ⟨inv_decoding, rfl⟩

theorem wit_ProgressReadsAreFreeWhileBusy : ready.seq ≠ .busy ∧ (decoding .dc 0 0).seq = .busy := by decide

theorem wit_ConfigurationWritesAreIgnoredWhileBusy : (decoding .dc 0 0).seq = .busy ∧ State.reset.seq = .idle ∧
    { ready with seq := .error }.seq = .error ∧ ready.params.pCfgWrites = .taken ∧
    { params0 with pCfgWrites := .ignored }.pCfgWrites = .ignored := by decide

theorem wit_CommandWriteRunsTheCommand : decode (.cmd 0x10000100#32) = .ok (.illegalCommit false 1#16 0#8) ∧
    ((decoding .ac 1 0).seq ≠ .idle ∧ (0x01000001#32 : Word) ≠ 0x01000000#32) ∧ cmdOp 0x00FFFFFF#32 = 0x00#8 := by decide

theorem wit_CommandsAreAcceptedByState : { ready with seq := .done }.seq = .done ∧ { ready with seq := .error }.seq = .error ∧
    ready.seq = .idle ∧ (decoding .ac 1 0).seq = .busy ∧ (decoding .ac 1 0).seq ≠ .idle := by decide

theorem wit_IllegalCommandsRaiseInIdle : ready.seq = .idle := rfl

theorem wit_AbortStopsTheDecode : Memory.wf ready.mem ∧ ready.seq ≠ .busy ∧ (decoding .ac 1 2).seq = .busy ∧
    63 < outSize (decoding .ac 1 2) := by decide +kernel

/-- A grey frame of four components. -/
def frame4 : State := { ready with
  frameCfg := 0x00000408#32
  fcomp := #v[0x1101#32, 0x1102#32, 0x1103#32, 0x1104#32]
  scanCfg := 4#32
  scomp := #v[1#32, 2#32, 3#32, 4#32] }

/-- `frame4` with another last frame component. -/
def withFcomp3 (v : Word) : State := { frame4 with fcomp := #v[0x1101#32, 0x1102#32, 0x1103#32, v] }

/-- `frame4` with another last scan component. -/
def withScomp3 (v : Word) : State := { frame4 with scomp := #v[1#32, 2#32, 3#32, v] }

/-- `frame4` with another frame configuration, frame dimension or scan configuration. -/
def withFrameCfg (v : Word) : State := { frame4 with frameCfg := v }

def withFrameDim (v : Word) : State := { frame4 with frameDim := v }

def withScanCfg (v : Word) : State := { frame4 with scanCfg := v }

theorem wit_StartRefusesABadFrame :
    frame4.seq = .idle ∧ ¬ Pass1 (withFrameCfg 0x0000040C#32) ∧
    (Pass1 (withFrameCfg 0x00000208#32) ∧ ¬ Pass2 (withFrameCfg 0x00000208#32) ∧
      ¬ Pass2 (withFrameCfg 0x0000FF08#32)) ∧
    (Pass1 (withFrameDim 0xFFFF0000#32) ∧ Pass2 (withFrameDim 0xFFFF0000#32) ∧
      ¬ Pass3 (withFrameDim 0xFFFF0000#32) ∧ ¬ Pass3 (withFrameDim 0x0000FFFF#32)) ∧
    (Pass1 (withFcomp3 0x1101#32) ∧ Pass2 (withFcomp3 0x1101#32) ∧ Pass3 (withFcomp3 0x1101#32) ∧
      ¬ IdNew (withFcomp3 0x1101#32) 3 ∧ ∀ d < (3 : Fin 4), IdNew (withFcomp3 0x1101#32) d) ∧
    (Pass1 (withFcomp3 0x1204#32) ∧ Pass2 (withFcomp3 0x1204#32) ∧ Pass3 (withFcomp3 0x1204#32) ∧
      Pass4 (withFcomp3 0x1204#32) ∧ ¬ Unsampled (withFcomp3 0x1204#32) 3 ∧
      ∀ d < (3 : Fin 4), Unsampled (withFcomp3 0x1204#32) d) := by
  and_intros <;> (try simp only [Pass1, Pass2, Pass3, Pass4, IdNew, Unsampled]) <;> decide +kernel

/-- The state has checks 1 to 6 passed. -/
theorem wit_StartRefusesABadScanOrMissingTable_ids :
    (withFcomp3 0x041104#32).seq = .idle ∧ Pass1 (withFcomp3 0x041104#32) ∧ Pass2 (withFcomp3 0x041104#32) ∧
    Pass3 (withFcomp3 0x041104#32) ∧ Pass4 (withFcomp3 0x041104#32) ∧ Pass5 (withFcomp3 0x041104#32) ∧
    3 < fcompTq (withFcomp3 0x041104#32) 3 ∧ (∀ d < (3 : Fin 4), fcompTq (withFcomp3 0x041104#32) d ≤ 3) := by
  and_intros <;> (try simp only [Pass1, Pass2, Pass4, Pass5, IdNew, Unsampled]) <;> decide +kernel

/-- `frame4` passes checks 1 to 6, whatever its scan registers hold. -/
theorem frame_frame4 : FramePasses frame4 := by
  simp only [FramePasses, Pass1, Pass2, Pass3, Pass4, Pass5, Pass6, IdNew, Unsampled]
  and_intros <;> decide +kernel

theorem frame_withScomp3 (v : Word) : FramePasses (withScomp3 v) := frame_frame4

theorem frame_withScanCfg (v : Word) : FramePasses (withScanCfg v) := frame_frame4

/-- Scan counts and scan components at their limits, over `frame4`, which passes checks 1 to 6. -/
theorem wit_StartRefusesABadScanOrMissingTable_scan :
    scanNs (withScanCfg 0#32) < 1 ∧ 4 < scanNs (withScanCfg 5#32) ∧
    (1 ≤ scanNs (withScanCfg 3#32) ∧ scanNs (withScanCfg 3#32) ≠ frameNf frame4) ∧
    (Pass7 (withScomp3 9#32) ∧ ¬ Named (withScomp3 9#32) 3 ∧ (∀ i < (3 : Fin 4), Named (withScomp3 9#32) i) ∧
      ¬ Named (withScomp3 1#32) 3) ∧
    (Pass7 (withScomp3 0x4004#32) ∧ Pass8 (withScomp3 0x4004#32) ∧ ¬ IdsSmall (withScomp3 0x4004#32) 3 ∧
      (∀ i < (3 : Fin 4), IdsSmall (withScomp3 0x4004#32) i) ∧ ¬ IdsSmall (withScomp3 0x0404#32) 3) := by
  and_intros <;> (try simp only [Pass8, Named, IdsSmall]) <;> decide +kernel

/-- A missing table of each kind, of the last scan component. -/
theorem wit_StartRefusesABadScanOrMissingTable_tables :
    (Pass7 (withScomp3 0x3004#32) ∧ Pass8 (withScomp3 0x3004#32) ∧ Pass9 (withScomp3 0x3004#32) ∧ ¬ DcPresent (withScomp3 0x3004#32) 3 ∧
      ∀ i < (3 : Fin 4), TablesPresent (withScomp3 0x3004#32) i) ∧
    (Pass7 (withScomp3 0x0304#32) ∧ Pass8 (withScomp3 0x0304#32) ∧ Pass9 (withScomp3 0x0304#32) ∧ DcPresent (withScomp3 0x0304#32) 3 ∧ ¬ AcPresent (withScomp3 0x0304#32) 3) ∧
    (FramePasses (withFcomp3 0x031104#32) ∧ Pass7 (withFcomp3 0x031104#32) ∧ Pass8 (withFcomp3 0x031104#32) ∧
      Pass9 (withFcomp3 0x031104#32) ∧ DcPresent (withFcomp3 0x031104#32) 3 ∧ AcPresent (withFcomp3 0x031104#32) 3 ∧
      ¬ QtPresent (withFcomp3 0x031104#32) 3) := by
  and_intros <;> (try simp only [Pass1, Pass2, Pass4, Pass5, Pass6, IdNew, Unsampled, Pass8, Pass9,
    Named, IdsSmall, TablesPresent, DcPresent, AcPresent, QtPresent]) <;> decide +kernel

/-- `ready` passes every check. -/
theorem setup_ready : SetupPasses ready := by
  and_intros <;> (try simp only [Pass1, Pass2, Pass4, Pass5, Pass6, Pass8, Pass9, Pass10, IdNew,
    Unsampled, Named, IdsSmall, TablesPresent, DcPresent, AcPresent, QtPresent]) <;> decide +kernel

/-- The buffer registers take no part in checks 1 to 10. -/
theorem setup_buffers (i l o : Word) : SetupPasses { ready with inBase := i, inLen := l, outBase := o } := setup_ready

theorem wit_StartRefusesBadRanges :
    SetupPasses { ready with inBase := 0xFFFFFFFF#32, inLen := 2#32, outBase := 0#32 } ∧
    2 ^ 32 < (0xFFFFFFFF#32).toNat + (2#32).toNat ∧
    2 ^ 32 < (0xFFFFFFC1#32).toNat + frameX ready * frameY ready * frameNf ready ∧
    (Pass11 { ready with outBase := 0x1002#32 } ∧ ¬ RangesApart { ready with outBase := 0x1002#32 }) ∧
    (Pass11 { ready with outBase := 0xEFFFFFC1#32 } ∧ ¬ RangesApart { ready with outBase := 0xEFFFFFC1#32 }) :=
  ⟨setup_buffers _ _ _, by decide +kernel, by decide +kernel,
    ⟨by simp only [Pass11]; decide +kernel, fun h => (h 0x1002).1 (by decide +kernel)⟩,
    by simp only [Pass11]; decide +kernel,
    fun h => (h 0xF0000000).2 ⟨by simp only [InWindow]; decide +kernel, .inr (by decide +kernel)⟩⟩

theorem wit_StartLaunchesTheDecode : ready.seq = .idle ∧ SetupPasses ready ∧ Pass11 ready ∧ RangesApart ready := by
  refine ⟨rfl, setup_ready, by simp only [Pass11]; decide +kernel, fun a => ?_⟩
  have hi : ready.inBase.toNat = 0x1000 ∧ ready.inLen.toNat = 3 ∧ ready.outBase.toNat = 0x2000 ∧ outSize ready = 64 ∧
    ready.params.mmioBase = 0xF0000000 := by decide +kernel
  simp only [inInput, inOutput, InWindow, hi, Bool.and_eq_true, decide_eq_true_eq]
  omega

theorem wit_HuffmanCommitBuildsTheTable :
    ready.seq = .idle ∧ (1#3 : BitVec 3) ≠ 0#3 ∧ 3 < (4#4 : BitVec 4).toNat ∧ (3#4 : BitVec 4).toNat ≤ 3 ∧
    codesOf (build ((List.range 16).map (stagedCountOf { ready with htBits := staged 7 [3#8] } 7))
      ((List.range 256).map (stagedValueOf { ready with htBits := staged 7 [3#8] } 7))) = .inr 4#8 ∧
    codesOf (build ((List.range 16).map (stagedCountOf { ready with htBits := staged 3 [2#8] } 3))
      ((List.range 256).map (stagedValueOf { ready with htBits := staged 3 [2#8] } 3))) = .inl [(1, 0), (1, 1)] := by
  decide +kernel

theorem wit_QuantCommitTakesTheTable :
    ready.seq = .idle ∧ 1 < (2#4 : BitVec 4).toNat ∧ 3 < (4#4 : BitVec 4).toNat ∧
    (∃ k : Fin 64, 255 < (stagedQuantOf { ready with qtRam := stagedQ 3 fun k => if k = 63 then 256 else 255 } 3 k.val).toNat) ∧
    ∀ k : Fin 64, (stagedQuantOf { ready with qtRam := stagedQ 3 fun _ => 255 } 3 k.val).toNat ≤ 255 := by decide +kernel

theorem wit_ErrorEntryRecordsTheError : Memory.wf (decoding .ac 1 2).mem ∧
    (startErr .addressRange 11#8 1#8).origin = .startCheck ∧ (termErr .overflow (decoding .ac 1 2)).origin = .decode ∧
    63 < outSize (decoding .ac 1 2) := by decide +kernel

/-- The memory of the destuffer's witnesses: 12 FF 00 FF D9 FF at 0x1000. -/
def stuffed (ip : Nat) : State :=
  { reading 6 [(0x1000, 0x12#8), (0x1001, 0xFF#8), (0x1003, 0xFF#8), (0x1004, 0xD9#8), (0x1005, 0xFF#8)] with ip := ip }

theorem wit_DestufferStepFollowsTheBytes :
    let readable (ip i : Nat) : Prop := i < (stuffed ip).inLen.toNat ∧
      busRejects (stuffed ip) false ((stuffed ip).inBase.toNat + i) = false
    (stuffed 0).inBase.toNat + (stuffed 0).inLen.toNat ≤ 2 ^ 32 ∧ (stuffed 6).inLen.toNat ≤ (stuffed 6).ip ∧
    (readable 0 0 ∧ Memory.read (stuffed 0).mem 0x1000 ≠ 0xFF#8) ∧
    (readable 5 5 ∧ Memory.read (stuffed 5).mem 0x1005 = 0xFF#8 ∧ (stuffed 5).inLen.toNat ≤ (stuffed 5).ip + 1) ∧
    (readable 1 1 ∧ readable 1 2 ∧ Memory.read (stuffed 1).mem 0x1001 = 0xFF#8 ∧ Memory.read (stuffed 1).mem 0x1002 = 0x00#8) ∧
    (readable 3 3 ∧ readable 3 4 ∧ Memory.read (stuffed 3).mem 0x1003 = 0xFF#8 ∧ Memory.read (stuffed 3).mem 0x1004 ≠ 0x00#8) := by
  decide +kernel

/-- The read of the one byte at a is rejected. -/
def rejectingByte (a : Nat) (b : PBus) (s : State) : State := { rejecting b s with busMap := [⟨a, 1, true, false⟩] }

theorem wit_RejectedReadIsABusError :
    let rejected (s : State) (i : Nat) : Prop := i < s.inLen.toNat ∧ busRejects s false (s.inBase.toNat + i) = true
    let firstAt (s : State) : Prop := rejected s s.ip
    let secondAt (s : State) : Prop := ¬ firstAt s ∧ Memory.read s.mem (s.inBase.toNat + s.ip) = 0xFF#8 ∧ rejected s (s.ip + 1)
    (ready.inBase.toNat + 0xFFFFEFFF < 2 ^ 32 ∧ busRejects ready false 0x1002 = false) ∧
    (busRejects (rejecting .error ready) false (ready.inBase.toNat + 2) = true ∧ (rejecting .error ready).params.pBus = .error) ∧
    (busRejects (rejecting .stall ready) false (ready.inBase.toNat + 2) = true ∧ (rejecting .stall ready).params.pBus = .stall) ∧
    (stuffed 0).inBase.toNat + (stuffed 0).inLen.toNat ≤ 2 ^ 32 ∧
    (firstAt (rejectingByte 0x1005 .error (stuffed 5)) ∧ firstAt (rejectingByte 0x1005 .stall (stuffed 5))) ∧
    (secondAt (rejectingByte 0x1004 .error (stuffed 3)) ∧ secondAt (rejectingByte 0x1004 .stall (stuffed 3))) ∧
    ¬ firstAt (rejectingByte 0x1001 .error (stuffed 0)) ∧ ¬ secondAt (rejectingByte 0x1001 .error (stuffed 0)) := by
  decide +kernel

/-- A rejected byte stops the step that needs it, and only that one (41 R140, 60 R225 item 3). -/
theorem test_dstep_rejected :
    (errorOf (dstep (rejectingByte 0x1004 .error (stuffed 3)))).map Err.pos = some 4#32 ∧
    (errorOf (dstep (rejectingByte 0x1001 .error (stuffed 0)))) = none ∧
    (errorOf (dstep (rejectingByte 0x1006 .error (stuffed 5)))) = none := by decide +kernel

theorem wit_BitReadsFillAsNeeded :
    (decoding .ac 1 3).cur + 5 ≤ (decoding .ac 1 3).dbits.length ∧ (ended .ac 1 3).endRec.ended = true ∧
    ((decoding .ac 1 3).dbits.length < (decoding .ac 1 3).cur + 6 ∧ (decoding .ac 1 3).endRec.ended = false) ∧
    (∃ u, dstep (decoding .ac 1 3) = .ok () u) ∧ (∃ u, fill 6 (decoding .ac 1 3) = .ok () u) ∧
    ((fresh .ac 1).dbits.length < (fresh .ac 1).cur + 1 ∧
      (errorOf (dstep (rejecting .error (fresh .ac 1)))).isSome = true ∧
      (errorOf (fill 1 (rejecting .error (fresh .ac 1)))).isSome = true) ∧
    (∃ u, dstep (rejecting .stall (fresh .ac 1)) = .stall u) ∧ ∃ u, fill 1 (rejecting .stall (fresh .ac 1)) = .stall u :=
  ⟨by decide, by decide, by decide, ok_of (by decide +kernel), ok_of (by decide +kernel), by decide +kernel,
    stall_of (by decide +kernel), stall_of (by decide +kernel)⟩

theorem wit_EndOfDataInsideAFieldFails :
    (ended .ac 1 8).endRec.ended = true ∧ (ended .ac 1 8).dbits.length < (ended .ac 1 8).cur + 1 ∧
    ¬ (0xD0 ≤ (ended .ac 1 8).endRec.mbyte.toNat ∧ (ended .ac 1 8).endRec.mbyte.toNat ≤ 0xD7) ∧
    (0xD0 ≤ (0xD0#8 : Byte).toNat ∧ (0xD7#8 : Byte).toNat ≤ 0xD7) := by decide +kernel

theorem wit_BuildSucceedsWhenTheCodesFit :
    (counts [3#8]).length = 16 ∧ 256 < ((List.replicate 14 0#8 ++ [255#8, 2#8]).map BitVec.toNat).sum ∧
    (((counts [3#8]).map BitVec.toNat).sum ≤ 256 ∧ ¬ (firstCode (counts [3#8]) 1 + codeCount (counts [3#8]) 1 ≤ 2 ^ 1)) ∧
    (((counts [2#8]).map BitVec.toNat).sum ≤ 256 ∧
      (List.range 16).all (fun b => decide (firstCode (counts [2#8]) (b + 1) + codeCount (counts [2#8]) (b + 1) ≤ 2 ^ (b + 1))) =
        true) := by decide +kernel

theorem wit_BuiltCodesAreCanonical : (counts [0#8, 3#8]).length = 16 ∧
    (values [0x00#8, 0x03#8, 0x04#8]).length = 256 ∧
    build (counts [0#8, 3#8]) (values [0x00#8, 0x03#8, 0x04#8]) = .ok dc2 ∧ 2 < codeCount (counts [0#8, 3#8]) 2 :=
  ⟨rfl, values_length_dc2, build_dc2, by decide⟩

theorem wit_BuiltCodesArePrefixFree : (counts [0#8, 2#8, 3#8]).length = 16 ∧
    build (counts [0#8, 2#8, 3#8]) (values [0x00#8, 0x01#8, 0xF0#8, 0x21#8, 0xE1#8]) = .ok ac5 ∧
    ac5.codes[1]? = some ⟨2, 1, 0x01#8⟩ ∧ ac5.codes[2]? = some ⟨3, 4, 0xF0#8⟩ := ⟨rfl, build_ac5, rfl, rfl⟩

theorem wit_MatchFindsTheCode : TableBuilt ac5 ∧ ac5.valid = true ∧ ⟨3, 5, 0x21#8⟩ ∈ ac5.codes ∧
    (decoding .ac 1 2).cur + 3 ≤ (decoding .ac 1 2).dbits.length ∧ CodeAtCursor ⟨3, 5, 0x21#8⟩ (decoding .ac 1 2) :=
  ⟨table_built_ac5, rfl, by decide, by decide, by simp only [CodeAtCursor]; decide +kernel⟩

/-- A decode with the last bits 1 1 1 of D ahead of the cursor. -/
def noCode (cur : Nat) (e : EndRec) : State :=
  { decoding .dc 0 cur with dbits := [false, false, false, false, false, true, true, true], endRec := e }

theorem wit_MatchFailsOrReadsOn :
    (TableBuilt dc2 ∧ dc2.valid = true ∧ dc2.maxlen = 2) ∧
    ((noCode 6 EndRec.clear).cur + dc2.maxlen ≤ (noCode 6 EndRec.clear).dbits.length ∧
      ∀ c ∈ dc2.codes, ¬ bitsAtCursor c.len (noCode 6 EndRec.clear) = c.code) ∧
    ((noCode 7 ⟨true, 1, false, 0#8⟩).dbits.length < (noCode 7 ⟨true, 1, false, 0#8⟩).cur + dc2.maxlen ∧
      ∀ c ∈ dc2.codes, ¬ (noCode 7 ⟨true, 1, false, 0#8⟩).cur + c.len ≤ (noCode 7 ⟨true, 1, false, 0#8⟩).dbits.length) ∧
    (∃ u, dstep { noCode 7 EndRec.clear with c0 := (noCode 7 EndRec.clear).cur } = .ok () u) ∧
    ((errorOf (dstep { rejecting .error (noCode 7 EndRec.clear) with c0 := 7 })).isSome = true ∧
      (rejecting .error (noCode 7 EndRec.clear)).endRec.ended = false) ∧
    ∃ u, dstep { rejecting .stall (noCode 7 EndRec.clear) with c0 := 7 } = .stall u :=
  ⟨⟨table_built_dc2, rfl, rfl⟩, by decide +kernel, by decide +kernel, ok_of (by decide +kernel), by decide +kernel,
    stall_of (by decide +kernel)⟩

theorem wit_ExtendGivesTheSignedValue :
    (0 < 2 ^ 0) ∧ (2 ^ (15 - 1) ≤ 16384 ∧ 32767 < 2 ^ 15) ∧ (16383 < 2 ^ (15 - 1) ∧ 1 ≤ 15) := by decide

theorem wit_SymbolsFillTheirBitsFirst :
    (15#4 : BitVec 4) ≠ 0#4 ∧ (ready.seq ≠ .busy ∧ (decoding .ac 1 0).phase ≠ .dc) ∧
    ((decoding .ac 48 0).seq = .busy ∧ (decoding .ac 48 0).phase = .ac ∧ (decoding .ac 48 0).k + (15#4 : BitVec 4).toNat ≤ 63) ∧
    (∃ u, fill 6 (decoding .ac 1 3) = .ok () u) ∧ (errorOf (fill 1 (rejecting .error (fresh .dc 0)))).isSome = true ∧
    (∃ u, fill 1 (rejecting .stall (fresh .ac 1)) = .stall u) ∧
    ((ended .ac 1 0).endRec.ended = true ∧ (ended .ac 1 0).dbits.length < (ended .ac 1 0).cur + (9#4 : BitVec 4).toNat) :=
  ⟨by decide, by decide, by decide, ok_of (by decide +kernel), by decide +kernel, stall_of (by decide +kernel), by decide⟩

/-- A DC term with the predictor at a limit: 3 bits are left at cursor 5, 100 (4) and, before them, 01 (−2 for 2 bits). -/
def atLimit (p : Half) (cur : Nat) : State :=
  { decoding .dc 0 cur with pred := #v[p, 0#16, 0#16, 0#16] }

theorem wit_DcTermAddsTheDifference :
    (atLimit 0x7FFB#16 5).seq = .busy ∧ (atLimit 0x7FFB#16 5).phase = .dc ∧
    (atLimit 0x7FFB#16 5).cur + (3#4 : BitVec 4).toNat ≤ (atLimit 0x7FFB#16 5).dbits.length ∧
    (0x7FFB#16 : Half).toInt + extend params0.pExtend (bitsAtCursor 3 (atLimit 0x7FFB#16 5)) 3 = 32767 ∧
    (0x7FFC#16 : Half).toInt + extend params0.pExtend (bitsAtCursor 3 (atLimit 0x7FFC#16 5)) 3 = 32768 ∧
    (0x8000#16 : Half).toInt + extend params0.pExtend (bitsAtCursor 2 (atLimit 0x8000#16 3)) 2 = -32770 := by
  decide +kernel

theorem wit_EndOfBlockAndZeroRuns : (decoding .ac 48 0).seq = .busy ∧ (decoding .ac 48 0).phase = .ac ∧
    (decoding .ac 48 0).k + 15 ≤ 63 ∧ 63 < (decoding .ac 49 0).k + 15 := by decide

theorem wit_AcTermPlacesTheValueAfterTheRun :
    (decoding .ac 62 0).seq = .busy ∧ (decoding .ac 62 0).phase = .ac ∧ 63 < (decoding .ac 62 0).k + (2#4 : BitVec 4).toNat ∧
    (decoding .ac 62 0).k + (1#4 : BitVec 4).toNat = (63 : Fin 64).val ∧
    (decoding .ac 62 0).cur + (8#4 : BitVec 4).toNat ≤ (decoding .ac 62 0).dbits.length := by decide

theorem wit_DequantizerUndoesTheZigzag : Injective params0.pZigzag ∧ params0.pDeqAlign = .freq ∧
    { params0 with pDeqAlign := .index }.pDeqAlign = .index :=
  ⟨by unfold Injective; decide +kernel, rfl, rfl⟩

theorem wit_InverseDctIsTheExactSum : (∃ r, IsIdctSum (1 / √2) (oneCoef 63 32767) 0 7 r) ∧
    ∃ r, IsIdctSum (1 / 2) (oneCoef 63 (-32768)) 7 0 r := ⟨⟨_, rfl⟩, _, rfl⟩

theorem wit_DcOnlyBlockIsFlat : ∀ n : Fin 64, n ≠ 0 → (oneCoef 0 (-12)).get n = 0 := by decide +kernel

theorem wit_SamplesFitThirtySevenBits : ∀ n : Fin 64, ((Vector.replicate 64 (-2147450880 : Int)).get n).natAbs ≤ 2147450880 := by
  decide +kernel

theorem wit_PixelBytesFollowTheColourRules_map : Pass4 frame4 ∧ Pass7 frame4 ∧ Pass8 frame4 ∧
    (3 : Fin 4).val < frameNf frame4 := by
  and_intros <;> (try simp only [Pass4, Pass8, IdNew, Named]) <;> decide +kernel

theorem wit_PixelBytesFollowTheColourRules :
    (frameNf { ready with frameCfg := 0x308#32, rgbEn := true } = 3 ∧ { ready with frameCfg := 0x308#32, rgbEn := true }.rgbEn = true ∧
      ready.sat = true ∧ { ready with sat := false }.sat = false ∧ ready.params.pCcG = .coherent ∧
      { params0 with pCcG := .literal }.pCcG = .literal) ∧
    (frameNf { ready with frameCfg := 0x408#32 } ≤ 4 ∧ (3 : Fin 4).val < frameNf { ready with frameCfg := 0x408#32 } ∧
      ¬ (frameNf { ready with frameCfg := 0x408#32 } = 3 ∧ ready.rgbEn = true)) ∧
    (frameNf { ready with frameCfg := 0x308#32 } = 3 ∧ ready.rgbEn = false) := by decide +kernel

theorem wit_EveryOutputByteIsWrittenOnce : frameNf ready = 1 ∧ frameNf { ready with frameCfg := 0x308#32 } = 3 ∧
    frameNf { ready with frameCfg := 0x408#32 } = 4 ∧ 0 < mcuTotal ready ∧ 63 < outSize ready := by decide +kernel

theorem wit_ReconstructionWritesTheMcu :
    (decoding .recon 1 2).seq = .busy ∧ (decoding .recon 1 2).stalled = false ∧ (decoding .recon 1 2).resetAsserted = false ∧
    startChecks (decoding .recon 1 2) = none ∧ (decoding .recon 1 2).phase = .recon ∧ (decoding .recon 1 2).sub = 0 ∧
    (decoding .recon 1 2).agenda = [] ∧ Memory.wf (decoding .recon 1 2).mem ∧
    (scompId ready 0 = fcompId ready 0 ∧ (3 : Fin 4).val < frameNf frame4 ∧ scompId frame4 3 = fcompId frame4 3) ∧
    busRejects (decoding .recon 1 2) true 0x2000 = false ∧
    startChecks (rejecting .error (decoding .recon 1 2)) = none ∧
    busRejects (rejecting .error (decoding .recon 1 2)) true 0x2000 = true ∧
    (rejecting .error (decoding .recon 1 2)).params.pBus = .error ∧
    (rejecting .stall (decoding .recon 1 2)).params.pBus = .stall ∧ (emitList (decoding .recon 1 2)).head? = some (0, 128#8) := by
  decide +kernel

/-- `inRecon` at a component, at a write that is made or rejected, and at the end. -/
theorem wit_ReconstructionGoesStepByStep :
    ((inRecon 0).seq = .busy ∧ (inRecon 0).stalled = false ∧ (inRecon 0).resetAsserted = false ∧
      startChecks (inRecon 0) = none ∧ (inRecon 0).phase = .recon ∧ Memory.wf (inRecon 0).mem ∧
      (0 : Fin 4).val < scanNs (inRecon 0) ∧ (inRecon 0).sub = (0 : Fin 4).val ∧
      scompId (inRecon 0) 0 = fcompId (inRecon 0) 0) ∧
    (scanNs (inRecon 1) ≤ (inRecon 1).sub ∧
      (emitList (inRecon 1))[(inRecon 1).sub - scanNs (inRecon 1)]? = some (0, 128#8) ∧
      busRejects (inRecon 1) true 0x2000 = false) ∧
    (startChecks (rejecting .error (inRecon 1)) = none ∧ busRejects (rejecting .error (inRecon 1)) true 0x2000 = true ∧
      (rejecting .error (inRecon 1)).params.pBus = .error ∧ (rejecting .stall (inRecon 1)).params.pBus = .stall) ∧
    scanNs (inRecon 2) + (emitList (inRecon 2)).length ≤ (inRecon 2).sub := by decide +kernel

theorem wit_DrainEndsInDone :
    (ended .drain 0 2).seq = .busy ∧ (ended .drain 0 2).stalled = false ∧ (ended .drain 0 2).resetAsserted = false ∧ startChecks (ended .drain 0 2) = none ∧
    (ended .drain 0 2).phase = .drain ∧ (ended .drain 0 2).endRec.ended = true ∧
    ((decoding .drain 0 2).endRec.ended = false ∧ startChecks (decoding .drain 0 2) = none) ∧
    (∃ u, dstep (decoding .drain 0 2) = .ok () u) ∧
    (errorOf (dstep (rejecting .error (decoding .drain 0 2)))).isSome = true ∧
    ∃ u, dstep (rejecting .stall (decoding .drain 0 2)) = .stall u :=
  ⟨rfl, rfl, rfl, by decide +kernel, rfl, rfl, by decide +kernel, ok_of (by decide +kernel), by decide +kernel,
    stall_of (by decide +kernel)⟩

theorem wit_EveryStepKeepsTheInvariant : Inv (decoding .ac 1 2) ∧ ∃ t, step (decoding .ac 1 2) = .next t ∧ t.k = 4 :=
  ⟨inv_decoding, next_of (by decide +kernel)⟩

theorem wit_ResetInputStopsAndClears : { decoding .ac 1 2 with agenda := [.resetOn] }.agenda = [.resetOn] ∧
    Memory.wf (decoding .ac 1 2).mem ∧ ready.seq ≠ .busy ∧
    { State.reset with resetAsserted := true, agenda := [.resetOff] }.resetAsserted = true ∧
    { ready with agenda := [.resetOff] }.resetAsserted = false := by decide +kernel

/-- A read of an output byte in a decode that reaches DONE. -/
theorem wit_OtherAgentsShareTheMemory_run : draining.agenda = [.memRead 0x203F#32] ∧
    Memory.wf draining.mem ∧ draining.seq = .busy ∧
    inOutput draining 0x203F = true ∧ Inv draining ∧
    ∃ t, core.run 1 { draining with agenda := [] } = .next t ∧ t.seq = .done :=
  ⟨rfl, by decide +kernel, rfl, by decide +kernel, inv_draining, next_of (by decide +kernel)⟩

theorem wit_OtherAgentsShareTheMemory :
    { decoding .ac 1 2 with agenda := [.memWrite 0x1002#32 1#8] }.agenda = [.memWrite 0x1002#32 1#8] ∧
    { decoding .ac 1 2 with agenda := [.memRead 0x203F#32] }.agenda = [.memRead 0x203F#32] ∧ Memory.wf ready.mem ∧
    { decoding .ac 1 2 with agenda := [.platform [⟨0x1000, 2, true, false⟩]] }.agenda = [.platform [⟨0x1000, 2, true, false⟩]] ∧
    (inInput (decoding .ac 1 2) 0x1002 = true ∧ inInput (decoding .ac 1 2) 0x1003 = false) ∧
    (inInput (decoding .ac 1 2) 0x203F = false ∧ inOutput (decoding .ac 1 2) 0x203F = true ∧
      inOutput (decoding .ac 1 2) 0x2040 = false) ∧ (decoding .ac 1 2).seq = .busy ∧ ready.seq ≠ .busy := by decide +kernel

theorem wit_SetupIsFixedWhileBusy : (decoding .ac 1 2).seq = .busy ∧ ∃ t, step (decoding .ac 1 2) = .next t ∧ t.seq = .busy :=
  ⟨rfl, next_of (by decide +kernel)⟩

theorem wit_OnlyTheHostMovesARestingBlock :
    ready.seq ≠ .busy ∧ { decoding .ac 1 2 with stalled := true }.stalled = true ∧
    (∃ t, step { ready with agenda := [.command 0x01000000#32] } = .next t ∧ t.seq = .busy) ∧
    (∃ t, step { ready with seq := .error, agenda := [.access ⟨.wr, 0x008#16, 4, 0x02FFFFFF#32⟩] } = .next t ∧ t.seq = .idle) ∧
    { State.reset with resetAsserted := true }.resetAsserted = true ∧
    (∃ t, step { ready with seq := .done, agenda := [.resetOn] } = .next t ∧ t.seq = .idle) ∧
    ∃ t, step { ready with seq := .done, resetAsserted := true, agenda := [.resetOff] } = .next t ∧ t.seq = .idle :=
  ⟨by decide, rfl, next_of (by decide +kernel), next_of (by decide +kernel), rfl, next_of (by decide +kernel),
    next_of (by decide +kernel)⟩

theorem wit_PredictorsChangeOnlyInDcTerms :
    (decoding .ac 1 2).seq = .busy ∧ (∃ t, turn (decoding .ac 1 2) = .next t ∧ t.k = 4) ∧ (decoding .ac 1 2).phase ≠ .dc ∧
    ∃ t, turn { decoding .dc 0 3 with pred := #v[5#16, 6#16, 7#16, 8#16] } = .next t ∧
      t.pred.toList ≠ [5#16, 6#16, 7#16, 8#16] :=
  ⟨rfl, next_of (by decide +kernel), by decide, by
    obtain ⟨t, h, hp⟩ := next_of (f := fun t => decide (t.pred.toList ≠ [5#16, 6#16, 7#16, 8#16])) (a := true)
      (r := turn { decoding .dc 0 3 with pred := #v[5#16, 6#16, 7#16, 8#16] }) (by decide +kernel)
    exact ⟨t, h, of_decide_eq_true hp⟩⟩

/-- Memories that agree on the input range and nowhere else. -/
theorem wit_DecodeDependsOnlyOnTheInputBytes :
    (decoding .ac 1 2).seq = .busy ∧ (∃ t, turn (decoding .ac 1 2) = .next t ∧ t.k = 4) ∧
    (Memory.wf (decoding .ac 1 2).mem ∧ Memory.wf (Memory.write (decoding .ac 1 2).mem 0x1003 7#8)) ∧
    (∀ a, inInput (decoding .ac 1 2) a = true → Memory.read (Memory.write (decoding .ac 1 2).mem 0x1003 7#8) a =
      Memory.read (decoding .ac 1 2).mem a) ∧
    Memory.read (Memory.write (decoding .ac 1 2).mem 0x1003 7#8) 0x1003 ≠ Memory.read (decoding .ac 1 2).mem 0x1003 := by
  refine ⟨rfl, next_of (by decide +kernel), by decide +kernel, fun a h => ?_, by decide +kernel⟩
  have hi : (decoding .ac 1 2).inBase.toNat = 0x1000 ∧ (decoding .ac 1 2).inLen.toNat = 3 := by decide +kernel
  simp only [inInput, hi, Bool.and_eq_true, decide_eq_true_eq] at h
  exact Memory.read_write_other _ _ _ _ (by omega)

theorem wit_DecodeWritesOnlyTheOutputRange : (inRecon 1).seq = .busy ∧
    (∃ t, turn (inRecon 1) = .next t ∧ Memory.read t.mem 0x2000 = 0x80#8) ∧ outSize (inRecon 1) = 1 ∧
    OutsideOutput (inRecon 1) 0x2001 := ⟨rfl, next_of (by decide +kernel), by decide +kernel, .inr (by decide +kernel)⟩

theorem wit_EveryDecodeEnds : Inv (decoding .ac 1 2) ∧ (decoding .ac 1 2).seq = .busy ∧ (decoding .ac 1 2).stalled = false ∧
    (decoding .ac 1 2).params.pBus = .error ∧ (decoding .ac 1 2).agenda = [] := ⟨inv_decoding, rfl, rfl, rfl, rfl⟩

end Sys2Proof.Tests
end

section
/-! PROOFS. The words of the spec (O3). -/

namespace Sys2Proof.Machine

/-- Settles O3: every one of these words is a closed term that the decoder evaluates. -/
theorem wordsOfTheSpecDecode : Obligations.WordsOfTheSpecDecode := by
  unfold Obligations.WordsOfTheSpecDecode
  decide

end Sys2Proof.Machine
end

section
/-! PROOFS. The invariant, part by part: what holds in every sequencer state and what holds in a running decode, and which
fields of the state neither part sees. -/

namespace Sys2Proof.Machine

/-! ### The fields the invariant does not see -/

/-- Two states that differ only in fields the invariant says nothing about: the interrupt enable, IGN, the predictors, the
staging RAMs, the mark of a stalled access, and the model's own fields for the outside world. -/
def SameButUnseen (s t : State) : Prop :=
  t = { s with
    irqEn := t.irqEn, ign := t.ign, pred := t.pred, stageSeed := t.stageSeed, htBits := t.htBits, htVal := t.htVal
    qtRam := t.qtRam, stalled := t.stalled, before := t.before, busMap := t.busMap, agenda := t.agenda
    readData := t.readData, memData := t.memData, draws := t.draws }

theorem StreamOk.unseen {s t : State} (h : StreamOk s) (e : SameButUnseen s t) : StreamOk t := by
  unfold SameButUnseen at e
  rw [e]
  exact ⟨h.content, h.walk, h.inside, h.ended, h.cursor, h.start⟩

theorem Running.unseen {s t : State} (h : Running s) (e : SameButUnseen s t) : Running t := by
  have hs := h.stream.unseen e
  unfold SameButUnseen at e
  rw [e] at hs ⊢
  exact ⟨h.checks, h.premises, hs, h.position, h.counted, h.unreported⟩

/-! ### The part of every sequencer state -/

/-- The part of the invariant that holds whatever the sequencer does: memory, the reserved bits and the tables. -/
structure Sound (s : State) : Prop where
  memory : Memory.wf s.mem
  reserved : ReservedClear s
  huffman : ∀ t : Fin 8, TableBuilt (s.htAct.get t)
  quant : ∀ q : Fin 4, QuantFits (s.qtAct.get q)

theorem Inv.sound {s : State} (h : Inv s) : Sound s := ⟨h.memory, h.reserved, h.huffman, h.quant⟩

theorem Sound.inv {s : State} (h : Sound s) (hrun : s.seq = .busy → Running s)
    (held : s.resetAsserted = true → s.seq = .idle) : Inv s :=
  ⟨h.memory, h.reserved, h.huffman, h.quant, hrun, held⟩

/-- Outside a decode the invariant is its first part. -/
theorem Sound.rest {s : State} (h : Sound s) (hb : s.seq ≠ .busy) (hr : s.resetAsserted = false) : Inv s :=
  h.inv (fun hs => absurd hs hb) fun ha => by simp [hr] at ha

theorem ReservedClear.congr {s t : State} (h : ReservedClear s)
    (e : (t.frameCfg, t.fcomp, t.scanCfg, t.scomp, t.errinfo, t.errcode) =
      (s.frameCfg, s.fcomp, s.scanCfg, s.scomp, s.errinfo, s.errcode)) : ReservedClear t := by
  simp only [Prod.mk.injEq] at e
  obtain ⟨hf, hc, hsc, hsp, hi, he⟩ := e
  exact ⟨hf ▸ h.frameCfg, hc ▸ h.fcomp, hsc ▸ h.scanCfg, hsp ▸ h.scomp, hi ▸ h.errinfo, he ▸ h.errcode⟩

/-- The configuration registers with reserved bits, the error registers, the tables and memory are all that the first part
sees. -/
theorem Sound.congr {s t : State} (h : Sound s)
    (e : (t.frameCfg, t.fcomp, t.scanCfg, t.scomp, t.errinfo, t.errcode) =
      (s.frameCfg, s.fcomp, s.scanCfg, s.scomp, s.errinfo, s.errcode))
    (et : (t.mem, t.htAct, t.qtAct) = (s.mem, s.htAct, s.qtAct)) : Sound t := by
  simp only [Prod.mk.injEq] at et
  obtain ⟨hm, hh, hq⟩ := et
  exact ⟨hm ▸ h.memory, h.reserved.congr e, hh ▸ h.huffman, hq ▸ h.quant⟩

theorem Inv.unseen {s t : State} (h : Inv s) (e : SameButUnseen s t) : Inv t := by
  have hrun : t.seq = .busy → Running t := fun hb => (h.running (by
    unfold SameButUnseen at e
    rw [e] at hb
    exact hb)).unseen e
  unfold SameButUnseen at e
  exact Sound.inv (h.sound.congr (by rw [e]) (by rw [e])) hrun (by rw [e]; exact h.held)

theorem Sound.withMemory {s : State} (h : Sound s) {mem : List Host.Cell} (hm : Memory.wf mem) :
    Sound { s with mem := mem } :=
  ⟨hm, h.reserved.congr rfl, h.huffman, h.quant⟩

theorem ErrorCode.num_le (c : ErrorCode) : c.num ≤ 10#4 := by cases c <;> decide

/-- Error entry keeps the first part: ERRINFO's reserved bits are 0 and the code is one of the ten (60 R221, R222). -/
theorem Sound.raiseErr {s : State} (h : Sound s) (e : Err) : Sound (raiseErr e s) := by
  refine ⟨raiseErr_wf e s h.memory, ⟨?_, ?_, ?_, ?_, ?_, ?_⟩, ?_, ?_⟩
  · simpa using h.reserved.frameCfg
  · simpa using h.reserved.fcomp
  · simpa using h.reserved.scanCfg
  · simpa using h.reserved.scomp
  · simpa using info_reserved e
  · simpa using e.code.num_le
  · simpa using h.huffman
  · simpa using h.quant

/-- Every error entry ends in a state of the invariant. -/
theorem Sound.inv_raiseErr {s : State} (h : Sound s) (hr : s.resetAsserted = false) (e : Err) :
    Inv (Machine.raiseErr e s) :=
  (h.raiseErr e).rest (by simp) (by simpa using hr)

/-! ### What a step answers -/

/-- The answer is no fault, and the next state, if there is one, meets the invariant. -/
def KeepsInv (r : Result) : Prop := (∀ f, r ≠ .fault f) ∧ ∀ t, r = .next t → Inv t

@[simp] theorem keepsInv_next (t : State) : KeepsInv (.next t) ↔ Inv t := by
  simp [KeepsInv]

@[simp] theorem keepsInv_refused (r : Refusal) : KeepsInv (.refused r) := by
  simp [KeepsInv]

end Sys2Proof.Machine
end

section
/-! PROOFS. The instructions of the host keep the invariant: register reads and writes, and the commands. -/

namespace Sys2Proof.Machine

/-! ### Register reads -/

theorem answer_unseen (v : Word) (s : State) : SameButUnseen s (answer v s) := rfl

theorem answerProgress_unseen (value free : Word) (s : State) : SameButUnseen s (answerProgress value free s) := by
  unfold answerProgress
  split
  · rfl
  · exact answer_unseen value s

/-- A read leaves its value in `readData`, and nothing that the invariant sees. -/
theorem readReg_unseen (r : Reg) (s : State) : SameButUnseen s (readReg r s) := by
  cases r
  case inpos => exact answerProgress_unseen _ _ s
  case mcucnt => exact answerProgress_unseen _ _ s
  case pred => exact answerProgress_unseen _ _ s
  all_goals exact answer_unseen _ s

/-! ### Register writes -/

theorem writeCtrl_inv {s : State} (h : Inv s) (hr : s.resetAsserted = false) (d : Word) : Inv (writeCtrl d s) := by
  unfold writeCtrl
  split
  · exact h.unseen rfl
  · rename_i hb
    exact Sound.rest (h.sound.congr rfl rfl) hb hr

/-- A masked word has none of the masked bits. -/
theorem masked_clear (d m r : Word) (h : m &&& r = 0#32) : d &&& m &&& r = 0#32 := by
  rw [BitVec.and_assoc, h, BitVec.and_zero]

/-- A word without the bits of r set into a vector of such words. -/
theorem set_clear {v : Vector Word 4} {r x : Word} (hv : ∀ c : Fin 4, v.get c &&& r = 0#32) (i : Fin 4)
    (hx : x &&& r = 0#32) (c : Fin 4) : (v.set i.val x).get c &&& r = 0#32 := by
  by_cases hc : i = c
  · subst hc
    rw [vec_get_set_self, hx]
  · rw [vec_get_set_ne _ _ _ _ hc, hv c]

/-- A configuration register takes a word whose reserved bits are masked off (40 R104). -/
theorem Sound.setConfig {s : State} (h : Sound s) (r : Reg) (d : Word) :
    Sound (setConfig r (d &&& fieldMask r) s) := by
  obtain ⟨hm, ⟨r1, r2, r3, r4, r5, r6⟩, hh, hq⟩ := h
  cases r
  case frameCfg => exact ⟨hm, ⟨masked_clear _ _ _ (by decide), r2, r3, r4, r5, r6⟩, hh, hq⟩
  case fcomp c => exact ⟨hm, ⟨r1, set_clear r2 c (masked_clear _ 0x00FFFFFF#32 _ (by decide)), r3, r4, r5, r6⟩, hh, hq⟩
  case scanCfg => exact ⟨hm, ⟨r1, r2, masked_clear _ _ _ (by decide), r4, r5, r6⟩, hh, hq⟩
  case scomp j => exact ⟨hm, ⟨r1, r2, r3, set_clear r4 j (masked_clear _ 0x0000FFFF#32 _ (by decide)), r5, r6⟩, hh, hq⟩
  all_goals exact ⟨hm, ⟨r1, r2, r3, r4, r5, r6⟩, hh, hq⟩

theorem setConfig_keeps (r : Reg) (v : Word) (s : State) :
    (setConfig r v s).seq = s.seq ∧ (setConfig r v s).resetAsserted = s.resetAsserted := by
  cases r <;> exact ⟨rfl, rfl⟩

/-- A configuration write is ignored while BUSY, so no running decode sees one (40 R104). -/
theorem writeConfig_inv {s : State} (h : Inv s) (hr : s.resetAsserted = false) (r : Reg) (d : Word) :
    Inv (writeConfig r d s) := by
  obtain ⟨hseq, hreset⟩ := setConfig_keeps r (d &&& fieldMask r) s
  unfold writeConfig
  split
  · exact h.unseen rfl
  · rename_i hi
    have hb : s.seq ≠ .busy := fun hb => hi (by rw [configIgnored, hb])
    exact Sound.rest (h.sound.setConfig r d) (hseq ▸ hb) (hreset.trans hr)

/-! ### Commands -/

theorem ignored_inv {s : State} (h : Inv s) : Inv (ignored s) := h.unseen rfl

theorem inIdle_keepsInv {s : State} {r : Result} (h : Inv s) (hr : s.seq = .idle → KeepsInv r) :
    KeepsInv (inIdle s r) := by
  unfold inIdle
  split
  · rename_i hs
    exact hr hs
  · exact (keepsInv_next _).2 (ignored_inv h)

theorem Sound.clearForStart {s : State} (h : Sound s) : Sound (clearForStart s) :=
  ⟨h.memory, ⟨h.reserved.frameCfg, h.reserved.fcomp, h.reserved.scanCfg, h.reserved.scomp, BitVec.zero_and,
    by simp⟩, h.huffman, h.quant⟩

/-- A frame that passes check 3 has an MCU (40 R114, 43 R172). -/
theorem mcuTotal_pos {s : State} (h : Pass3 s) : 0 < mcuTotal s := by
  obtain ⟨hx, hy⟩ := h
  exact Nat.mul_pos (by unfold mcuCols; omega) (by unfold mcuRows; omega)

/-- A launch begins a running decode: no byte is destuffed, and the position is the first DC term (40 R123). -/
theorem running_launch {s : State} (hc : startChecks s = none) (hp : brokenPremise s = none) :
    Running (launch (clearForStart s)) := by
  obtain ⟨⟨⟨_, _, h3, _⟩, ⟨h7, _⟩, _⟩, _⟩ := (startChecks_none s).1 hc
  exact
    { checks := hc
      premises := hp
      stream := ⟨rfl, rfl, Nat.zero_le _, ⟨fun _ => rfl, fun he => by cases he⟩, Nat.le_refl _, Nat.le_refl _⟩
      position := ⟨mcuTotal_pos h3, h7, rfl, rfl⟩
      counted := rfl
      unreported := ⟨rfl, rfl, rfl, rfl, rfl, rfl⟩ }

theorem runStart_keepsInv {s : State} (h : Inv s) (hr : s.resetAsserted = false) : KeepsInv (runStart s) := by
  have hs := h.sound.clearForStart
  unfold runStart
  simp only [startChecks_clear, brokenPremise_clear]
  cases hc : startChecks s with
  | some e => exact (keepsInv_next _).2 (hs.inv_raiseErr hr e)
  | none =>
    cases hp : brokenPremise s with
    | some r => exact keepsInv_refused r
    | none => exact (keepsInv_next _).2 (Sound.inv (hs.congr rfl rfl) (fun _ => running_launch hc hp) fun ha =>
      absurd (hr.symm.trans ha) (by decide))

theorem Sound.cutDecode {s : State} (h : Sound s) : Sound (cutDecode s) :=
  (h.withMemory (fillFree_wf _ s.outBase (s.draws + 8) (outSize s) h.memory)).congr rfl rfl

theorem Sound.inv_returnToIdle {s : State} (h : Sound s) (hr : s.resetAsserted = false) : Inv (returnToIdle s) :=
  Sound.rest (h.congr rfl rfl) (by simp) hr

theorem execAbort_keepsInv {s : State} (h : Inv s) (hr : s.resetAsserted = false) (arg : BitVec 24) :
    KeepsInv (execAbort arg s) := by
  refine (keepsInv_next _).2 ?_
  split
  · exact h.sound.cutDecode.inv_returnToIdle hr
  · exact h.sound.inv_returnToIdle hr

theorem execAck_keepsInv {s : State} (h : Inv s) (hr : s.resetAsserted = false) (arg : BitVec 24) :
    KeepsInv (execAck arg s) := by
  have hi : Inv (returnToIdle { s with ign := false }) := Sound.inv_returnToIdle (h.sound.congr rfl rfl) hr
  unfold execAck
  cases s.seq
  · exact (keepsInv_next _).2 h
  · exact (keepsInv_next _).2 (ignored_inv h)
  · exact (keepsInv_next _).2 hi
  · exact (keepsInv_next _).2 hi

theorem Sound.setHt {s : State} (h : Sound s) (t : Fin 8) {u : HtTable} (hu : TableBuilt u) : Sound (setHt t u s) := by
  refine ⟨h.memory, h.reserved.congr rfl, fun i => ?_, h.quant⟩
  rw [setHt_writes]
  by_cases hi : t = i
  · subst hi
    rwa [vec_get_set_self]
  · rw [vec_get_set_ne _ _ _ _ hi]
    exact h.huffman i

theorem Sound.setQt {s : State} (h : Sound s) (q : Fin 4) {u : QtTable} (hu : QuantFits u) : Sound (setQt q u s) := by
  refine ⟨h.memory, h.reserved.congr rfl, h.huffman, fun i => ?_⟩
  rw [setQt_writes]
  by_cases hi : q = i
  · subst hi
    rwa [vec_get_set_self]
  · rw [vec_get_set_ne _ _ _ _ hi]
    exact h.quant i

theorem runHtCommit_inv {s : State} (h : Inv s) (hs : s.seq = .idle) (hr : s.resetAsserted = false) (a8 : Byte) :
    Inv (runHtCommit a8 s) := by
  unfold runHtCommit
  split
  · exact h.sound.inv_raiseErr hr _
  · split
    · exact h.sound.inv_raiseErr hr _
    · cases hb : build (stagedCounts s (htIndex a8)) (stagedValues s (htIndex a8)) with
      | error d =>
        have hi : Sound (invalidateHt (htIndex a8) s) := h.sound.setHt _ fun hv => by cases hv
        exact hi.inv_raiseErr hr _
      | ok t =>
        have ht : TableBuilt t := fun _ => ⟨_, _, by simp [stagedCounts], by simp [stagedValues], hb⟩
        exact (h.sound.setHt _ ht).rest (by simp [hs]) hr

/-- A committed table fits its precision, when no staged entry is too wide for it (40 R127). -/
theorem quantFits_committed {s : State} {q : Fin 4} {p : Precision} (h : p = .bits8 → quantTooWide s q ≠ true) :
    QuantFits (committedQuant s q p) := by
  intro _ hp k
  rw [committedQuant_get]
  by_contra hk
  exact h hp ((quantTooWide_iff s q).2 ⟨k, by omega⟩)

theorem runQtCommit_inv {s : State} (h : Inv s) (hs : s.seq = .idle) (hr : s.resetAsserted = false) (a8 : Byte) :
    Inv (runQtCommit a8 s) := by
  unfold runQtCommit
  split
  · exact h.sound.inv_raiseErr hr _
  · split
    · exact h.sound.inv_raiseErr hr _
    · split
      · have hi : Sound (invalidateQt (qtIndex a8) s) := h.sound.setQt _ fun hv => by cases hv
        exact hi.inv_raiseErr hr _
      · rename_i hw
        refine Sound.rest (h.sound.setQt _ (quantFits_committed fun hp hwide => ?_)) (by simp [hs]) hr
        by_cases h0 : qtHeaderPq a8 = 0
        · exact hw ⟨h0, hwide⟩
        · simp [h0] at hp

/-! ### Every instruction of the host -/

/-- The formats `mmio` and `cmd`: what the host sends, and not a scan symbol (30 R80). -/
def fromHost : Instr → Bool
  | .dcSize0 | .dcSize _ | .dcBad _ | .eob | .zrl | .runZero _ | .runSize _ _ => false
  | _ => true

/-- A command word decodes to a command (30 R83). -/
theorem decodeCommand_fromHost (w : Word) : fromHost (decodeCommand w) = true := by
  simp only [decodeCommand, apply_ite fromHost]
  simp [fromHost]

theorem decodeRd_fromHost (off : BitVec 16) : fromHost (decodeRd off) = true := by
  simp only [decodeRd, apply_ite fromHost]
  simp [fromHost]

theorem decodeWr_fromHost (off : BitVec 16) (d : Word) : fromHost (decodeWr off d) = true := by
  simp only [decodeWr, apply_ite fromHost]
  simp [fromHost]

/-- A register access decodes to a register access (30 R81). -/
theorem decodeAccess_fromHost {a : Access} {i : Instr} (h : decodeAccess a = .ok i) : fromHost i = true := by
  unfold decodeAccess at h
  split at h
  · cases h
  · split at h
    · cases h
    · split at h
      · cases h
        exact decodeRd_fromHost _
      · cases h
        exact decodeWr_fromHost _ _

section

variable {s : State} (h : Inv s) (hr : s.resetAsserted = false)

include h hr

theorem execHtCommit_keepsInv (a8 : Byte) : KeepsInv (execHtCommit a8 s) :=
  inIdle_keepsInv h fun hs => (keepsInv_next _).2 (runHtCommit_inv h hs hr a8)

theorem execQtCommit_keepsInv (a8 : Byte) : KeepsInv (execQtCommit a8 s) :=
  inIdle_keepsInv h fun hs => (keepsInv_next _).2 (runQtCommit_inv h hs hr a8)

theorem execStart_keepsInv : KeepsInv (execStart s) :=
  inIdle_keepsInv h fun _ => runStart_keepsInv h hr

/-- A command that only raises an error in IDLE (40 R128). -/
theorem illegal_keepsInv (e : Err) : KeepsInv (inIdle s (.next (raiseErr e s))) :=
  inIdle_keepsInv h fun _ => (keepsInv_next _).2 (h.sound.inv_raiseErr hr e)

theorem dispatchCommand_keepsInv (d : Word) : KeepsInv (dispatchCommand d s) := by
  unfold dispatchCommand
  split_ifs
  · exact (keepsInv_next s).2 h
  · exact execAbort_keepsInv h hr _
  · exact execAck_keepsInv h hr _
  · exact illegal_keepsInv h hr _
  · exact execStart_keepsInv h hr
  · exact illegal_keepsInv h hr _
  · exact execHtCommit_keepsInv h hr _
  · exact illegal_keepsInv h hr _
  · exact execQtCommit_keepsInv h hr _
  · exact illegal_keepsInv h hr _

theorem writeReg_keepsInv (r : Reg) (d : Word) : KeepsInv (writeReg r d s) := by
  have config : ∀ r, KeepsInv (.next (writeConfig r d s)) := fun r => (keepsInv_next _).2 (writeConfig_inv h hr r d)
  cases r
  case ctrl => exact (keepsInv_next _).2 (writeCtrl_inv h hr d)
  case cmd => exact dispatchCommand_keepsInv h hr d
  case htBits | htVal | qtRam => exact (keepsInv_next _).2 (h.unseen rfl)
  case frameDim | frameCfg | fcomp | scanCfg | scomp | inBase | inLen | outBase => exact config _
  all_goals exact (keepsInv_next s).2 h

/-- No instruction of the host breaks the invariant, in any state of it. -/
theorem exec_fromHost_keepsInv {i : Instr} (hi : fromHost i = true) : KeepsInv (exec i s) := by
  have config : ∀ r d, KeepsInv (.next (writeConfig r d s)) := fun r d => (keepsInv_next _).2 (writeConfig_inv h hr r d)
  have read : ∀ r, KeepsInv (.next (readReg r s)) := fun r => (keepsInv_next _).2 (h.unseen (readReg_unseen r s))
  cases i with
  | rdStatus => exact read .status
  | rdInpos => exact read .inpos
  | rdMcucnt => exact read .mcucnt
  | rdPred j => exact read (.pred j)
  | rd off =>
    show KeepsInv (execRd off s)
    unfold execRd
    split
    · exact read _
    · exact keepsInv_refused _
  | wrCtrl d => exact (keepsInv_next _).2 (writeCtrl_inv h hr d)
  | wrCmd d => exact dispatchCommand_keepsInv h hr d
  | wrFrameDim d | wrFrameCfg d | wrFcomp0 d | wrFcomp1 d | wrFcomp2 d | wrFcomp3 d | wrScanCfg d | wrScomp j d
  | wrInBase d | wrInLen d | wrOutBase d => exact config _ d
  | wrHtBits t n d | wrHtVal t n d | wrQtRam t n d => exact (keepsInv_next _).2 (h.unseen rfl)
  | wr off d =>
    show KeepsInv (execWr off d s)
    unfold execWr
    split
    · exact writeReg_keepsInv h hr _ d
    · exact keepsInv_refused _
  | nop hint => exact (keepsInv_next s).2 h
  | start => exact execStart_keepsInv h hr
  | abort arg => exact execAbort_keepsInv h hr arg
  | ack arg => exact execAck_keepsInv h hr arg
  | htCommit a8 => exact execHtCommit_keepsInv h hr a8
  | qtCommit a8 => exact execQtCommit_keepsInv h hr a8
  | illegalStart arg | illegalCommit qt argh a8 | reserved op argh a8 => exact illegal_keepsInv h hr _
  | dcSize0 | dcSize n | dcBad b | eob | zrl | runZero r | runSize r n => cases hi

end

end Sys2Proof.Machine
end

section
/-! PROOFS. The turns of a running decode keep the invariant, phase by phase (43 R171), and so does what the outside world
does besides register accesses. -/

namespace Sys2Proof.Machine

/-! ### Moves of the parts of a running decode -/

/-- Reading bits and symbols keeps the invariant: the stream stays the input destuffed, and the position does not move. -/
theorem Inv.scanned {s u : State} (h : Inv s) (hu : Scanned s u) : Inv u := by
  have hframe := hu.frame
  unfold SameButScan at hframe
  have hrun : u.seq = .busy → Running u := fun hb => by
    have hs : Running s := h.running (by rw [hframe] at hb; exact hb)
    have hstream := hu.stream hs.stream
    rw [hframe] at hstream ⊢
    exact ⟨hs.checks, hs.premises, hstream, hs.position, hs.counted, hs.unreported⟩
  exact Sound.inv (h.sound.congr (by rw [hframe]) (by rw [hframe])) hrun (by rw [hframe]; exact h.held)

/-- Two states that differ in the position, the predictors, and the buffers of the current MCU only. -/
def SameButPosition (s t : State) : Prop :=
  t = { s with
    pred := t.pred, mcucnt := t.mcucnt, m := t.m, j := t.j, k := t.k, phase := t.phase, sub := t.sub, zz := t.zz
    fbuf := t.fbuf, sbuf := t.sbuf }

/-- A decode may move to any position that the sequence passes through, with MCUCNT the number of its MCU. -/
theorem Inv.reposition {s t : State} (h : Inv s) (e : SameButPosition s t) (hp : Running s → PositionOk t)
    (hc : Running s → t.mcucnt = BitVec.ofNat 32 t.m) : Inv t := by
  unfold SameButPosition at e
  have hrun : t.seq = .busy → Running t := fun hb => by
    have hs : Running s := h.running (by rw [e] at hb; exact hb)
    have hpos := hp hs
    have hcount := hc hs
    obtain ⟨content, walk, inside, ended, cursor, start⟩ := hs.stream
    rw [e] at hpos hcount ⊢
    exact ⟨hs.checks, hs.premises, ⟨content, walk, inside, ended, cursor, start⟩, hpos, hcount, hs.unreported⟩
  exact Sound.inv (h.sound.congr (by rw [e]) (by rw [e])) hrun (by rw [e]; exact h.held)

/-- A scan has one to four components (40 R118). -/
theorem scanNs_range {s : State} (h : startChecks s = none) : 1 ≤ scanNs s ∧ scanNs s ≤ 4 := by
  obtain ⟨⟨_, ⟨h1, h4, _⟩, _⟩, _⟩ := (startChecks_none s).1 h
  exact ⟨h1, h4⟩

/-- A frame has at most four components (40 R113). -/
theorem frameNf_le {s : State} (h : startChecks s = none) : frameNf s ≤ 4 := by
  obtain ⟨⟨_, ⟨_, h4, hn⟩, _⟩, _⟩ := (startChecks_none s).1 h
  exact hn ▸ h4

/-- The end of a block leads to the DC term of the next component, or to reconstruction (43 R169, R171). -/
theorem Inv.blockDone {s : State} (h : Inv s) (hp : Running s → s.m < mcuTotal s ∧ s.sub = 0)
    (zz : Vector (Vector Half 64) 4) (k : Nat) : Inv (blockDone { s with zz := zz, k := k }) := by
  unfold Machine.blockDone
  split
  · rename_i hj
    refine h.reposition rfl (fun hs => ?_) fun hs => hs.counted
    obtain ⟨hm, hsub⟩ := hp hs
    have h4 := (scanNs_range hs.checks).2
    have hj : s.j.val + 1 < scanNs s := hj
    have hnext : (s.j + 1).val = s.j.val + 1 := Fin.val_add_one_of_lt (by
      rw [Fin.lt_def]
      show s.j.val < 3
      omega)
    exact ⟨hm, by show (s.j + 1).val < scanNs s; omega, rfl, hsub⟩
  · refine h.reposition rfl (fun hs => ?_) fun hs => hs.counted
    obtain ⟨hm, hsub⟩ := hp hs
    exact ⟨hm, by show s.sub ≤ _; omega⟩

/-- A write outside the input range does not touch the stream. -/
theorem StreamOk.write {s : State} (h : StreamOk s) (hfit : s.inBase.toNat + s.inLen.toNat ≤ 2 ^ 32) {a : Nat}
    (ha : inInput s a = false) (v : Byte) : StreamOk { s with mem := Memory.write s.mem a v } := by
  refine streamOk_mem h fun o ho => Memory.read_write_other _ _ _ _ fun he => ?_
  rw [addrAt_eq _ _ (by omega)] at he
  have hin : inInput s a = true := (inInput_iff s a).2 (by omega)
  simp [ha] at hin

/-- A byte outside the input range may be written during a decode. -/
theorem Inv.write {s : State} (h : Inv s) {a : Nat} (hlt : a < 2 ^ 32) (ha : s.seq = .busy → inInput s a = false)
    (v : Byte) : Inv { s with mem := Memory.write s.mem a v } := by
  refine (h.sound.withMemory (Memory.write_wf _ _ v hlt h.memory)).inv (fun hb => ?_) h.held
  have hrun := h.running hb
  obtain ⟨_, hfit, _⟩ := (startChecks_none s).1 hrun.checks
  exact ⟨hrun.checks, hrun.premises, hrun.stream.write hfit (ha hb) v, hrun.position, hrun.counted, hrun.unreported⟩

/-- The address of an output write lies in no input range (20 R74). -/
theorem output_not_input {s : State} (hc : startChecks s = none) (hp : brokenPremise s = none) {o : Nat}
    (ho : o < outSize s) : inInput s (addrAt s.outBase o) = false := by
  obtain ⟨_, _, hfit⟩ := (startChecks_none s).1 hc
  have hfit : s.outBase.toNat + outSize s ≤ 2 ^ 32 := hfit
  obtain ⟨hapart, _⟩ := (brokenPremise_none s).1 hp (addrAt s.outBase o)
  rw [addrAt_eq _ _ (by omega)] at hapart ⊢
  have hout : inOutput s (s.outBase.toNat + o) = true := (inOutput_iff s _).2 (by omega)
  exact Bool.eq_false_iff.2 fun hin => hapart ⟨hin, hout⟩

/-! ### The outcomes that every phase shares -/

section

variable {s : State} {r : Result} (h : Inv s)

include h

theorem EndsInError.keepsInv (hr : s.resetAsserted = false) (he : EndsInError s r) : KeepsInv r := by
  obtain ⟨u, e, hu, _, rfl⟩ := he
  have hur : u.resetAsserted = false := by
    rw [show u.resetAsserted = s.resetAsserted by rw [hu.frame]]
    exact hr
  exact (keepsInv_next _).2 ((h.scanned hu).sound.inv_raiseErr hur e)

theorem Waits.keepsInv (hw : Waits s r) : KeepsInv r := by
  obtain ⟨u, hu, _, rfl⟩ := hw
  exact (keepsInv_next _).2 ((h.scanned hu).unseen rfl)

theorem Destuffs.keepsInv (hd : Destuffs s r) : KeepsInv r := by
  obtain ⟨t, ht, _, _, rfl⟩ := hd
  exact (keepsInv_next t).2 (h.scanned ht)

end

/-! ### What a position says, phase by phase -/

theorem positionOk_dc (s : State) (hp : s.phase = .dc) :
    PositionOk s ↔ s.m < mcuTotal s ∧ s.j.val < scanNs s ∧ s.k = 0 ∧ s.sub = 0 := by rw [PositionOk, hp]

theorem positionOk_ac (s : State) (hp : s.phase = .ac) : PositionOk s ↔
    s.m < mcuTotal s ∧ s.j.val < scanNs s ∧ 1 ≤ s.k ∧ s.k ≤ 63 ∧ s.sub = 0 ∧ UnwrittenZero s := by rw [PositionOk, hp]

theorem positionOk_recon (s : State) (hp : s.phase = .recon) :
    PositionOk s ↔ s.m < mcuTotal s ∧ s.sub ≤ scanNs s + (emitList s).length := by rw [PositionOk, hp]

theorem positionOk_drain (s : State) (hp : s.phase = .drain) : PositionOk s ↔ s.m = mcuTotal s ∧ s.sub = 0 := by
  rw [PositionOk, hp]

theorem Scanned.position {s u : State} (h : Scanned s u) : u.phase = s.phase ∧ u.k = s.k ∧ u.j = s.j ∧ u.zz = s.zz := by
  rw [h.frame]
  exact ⟨rfl, rfl, rfl, rfl⟩

/-- After an MCU comes the first DC term of the next one, or the drain after the last one (43 R171). -/
theorem positionOk_nextMcu {s : State} (hm : s.m < mcuTotal s) (hc : startChecks s = none) : PositionOk (nextMcu s) := by
  by_cases hmore : s.m + 1 < mcuTotal s
  · exact (positionOk_dc (nextMcu s) (if_pos hmore)).2 ⟨hmore, (scanNs_range hc).1, rfl, rfl⟩
  · exact (positionOk_drain (nextMcu s) (if_neg hmore)).2 ⟨Nat.le_antisymm hm (Nat.le_of_not_lt hmore), rfl⟩

/-! ### The coefficients that no term has written -/

/-- The start of a block clears its coefficients (43 R171). -/
theorem beginBlock_unwritten (s : State) : UnwrittenZero (beginBlock s) := fun n _ => by
  rw [(beginBlock_writes s).1]
  show ((s.zz.set s.j.val (Vector.replicate 64 0#16)).get s.j).get n = 0#16
  rw [vec_get_set_self]
  show (Vector.replicate 64 0#16)[n.val] = 0#16
  simp

theorem UnwrittenZero.scanned {s u : State} (h : UnwrittenZero s) (hu : Scanned s u) : UnwrittenZero u := by
  obtain ⟨_, hk, hj, hzz⟩ := hu.position
  intro n hn
  rw [hj, hzz]
  exact h n (hk ▸ hn)

/-- A term that goes on to the position k and writes no coefficient from k on. -/
theorem UnwrittenZero.advance {s : State} (h : UnwrittenZero s) {zz : Vector (Vector Half 64) 4} {k : Nat}
    (hk : s.k ≤ k) (hz : SameFrom k s zz) : UnwrittenZero { s with zz := zz, k := k } := fun n hn =>
  (hz n hn).trans (h n (Nat.le_trans hk hn))

/-- The DC term writes the first coefficient only. -/
theorem sameFrom_one (s : State) (x : Half) :
    SameFrom 1 s (s.zz.set s.j.val ((s.zz.get s.j).set 0 x)) := fun p hp => by
  rw [vec_get_set_self s.zz s.j]
  exact vec_get_set_ne (s.zz.get s.j) 0 p x (Fin.ne_of_val_ne (by show 0 ≠ p.val; omega))

/-! ### The turn, phase by phase -/

theorem beginBlock_inv {s : State} (h : Inv s) (hp : s.phase = .dc) : Inv (beginBlock s) :=
  h.reposition rfl (fun hs => by
    obtain ⟨hm, hj, _, hsub⟩ := (positionOk_dc s hp).1 hs.position
    exact (positionOk_dc (beginBlock s) hp).2 ⟨hm, hj, rfl, hsub⟩) fun hs => hs.counted

/-- A DC term leads to position 1 of a block in which only position 0 is written (43 R162, R163). -/
theorem turn_dc_keepsInv {s : State} (h : Inv s) (ht : Turning s) (hp : s.phase = .dc) : KeepsInv (turn s) := by
  have hb := beginBlock_inv h hp
  rcases turn_dc s ht hp with he | hw | hd | ⟨u, x, hu, hn⟩
  · exact he.keepsInv hb ht.released
  · exact hw.keepsInv hb
  · exact hd.keepsInv hb
  · obtain ⟨hphase, hk, _, _⟩ := hu.position
    have hzero : UnwrittenZero u := (beginBlock_unwritten s).scanned hu
    rw [hn]
    refine (keepsInv_next _).2 ((hb.scanned hu).reposition rfl (fun hs => ?_) fun hs => hs.counted)
    obtain ⟨hm, hj, hk0, hsub⟩ := (positionOk_dc u (hphase.trans hp)).1 hs.position
    exact ⟨hm, hj, Nat.le_refl 1, by show 1 ≤ 63; decide, hsub, hzero.advance (by omega) (sameFrom_one u x)⟩

/-- An AC term leads to a later position, with nothing written from there on, or to the end of the block (43 R165 to
R171). -/
theorem turn_ac_keepsInv {s : State} (h : Inv s) (ht : Turning s) (hp : s.phase = .ac) : KeepsInv (turn s) := by
  have start : ∀ u, Scanned s u → Running u → u.m < mcuTotal u ∧ u.sub = 0 := fun u hu hs => by
    obtain ⟨hm, _, _, _, hsub, _⟩ := (positionOk_ac u (hu.position.1.trans hp)).1 hs.position
    exact ⟨hm, hsub⟩
  rcases turn_ac s ht hp with he | hw | hd | ⟨u, hu, hn⟩ | ⟨u, zz, n, hu, hk, _, hz, hn⟩
  · exact he.keepsInv h ht.released
  · exact hw.keepsInv h
  · exact hd.keepsInv h
  · rw [hn]
    exact (keepsInv_next _).2 ((h.scanned hu).blockDone (start u hu) u.zz u.k)
  · rw [hn]
    refine (keepsInv_next _).2 ?_
    unfold positionAt
    split
    · rename_i hle
      obtain ⟨hphase, hku, _, _⟩ := hu.position
      refine (h.scanned hu).reposition rfl (fun hs => ?_) fun hs => hs.counted
      obtain ⟨hm, hj, hk1, _, hsub, hzero⟩ := (positionOk_ac u (hphase.trans hp)).1 hs.position
      exact (positionOk_ac { u with zz := zz, k := n } (hphase.trans hp)).2
        ⟨hm, hj, by show 1 ≤ n; omega, hle, hsub, hzero.advance (by omega) hz⟩
    · exact (h.scanned hu).blockDone (start u hu) zz n

/-- RECON, one step: a component and a write bring the MCU's end nearer, and its end leads to the next MCU's first DC term
or, after the last one, to the drain (43 R171). -/
theorem turn_recon_keepsInv {s : State} (h : Inv s) (ht : Turning s) (hp : s.phase = .recon) : KeepsInv (turn s) := by
  have hrun := h.running ht.busy
  have hm := ((positionOk_recon s hp).1 hrun.position).1
  rcases turn_recon s ht hp with ⟨hlt, hn⟩ | ⟨w, hw, _, hlt, hn⟩ | ⟨o, _, hn⟩ | ⟨_, hn⟩ | ⟨_, hn⟩
  · rw [hn]
    exact (keepsInv_next _).2 (h.reposition rfl (fun _ => (positionOk_recon
      { reconComp s (Fin.ofNat 4 s.sub) with sub := s.sub + 1 } hp).2 ⟨hm, Nat.le_add_right_of_le hlt⟩)
      fun hs => hs.counted)
  · have ho := emitList_lt s (frameNf_le ht.checks) w hw
    have hwr := h.write (addrAt_lt s.outBase w.1) (fun _ => output_not_input ht.checks hrun.premises ho) w.2
    rw [hn]
    exact (keepsInv_next _).2 (hwr.reposition rfl (fun _ => (positionOk_recon
      { s with mem := Memory.write s.mem (addrAt s.outBase w.1) w.2, sub := s.sub + 1 } hp).2 ⟨hm, hlt⟩)
      fun hs => hs.counted)
  · rw [hn]
    exact (keepsInv_next _).2 (h.sound.inv_raiseErr ht.released _)
  · rw [hn]
    exact (keepsInv_next _).2 (h.unseen rfl)
  · rw [hn]
    exact (keepsInv_next _).2 (h.reposition rfl (fun _ => positionOk_nextMcu hm ht.checks) fun _ => rfl)

/-- DRAIN moves the destuffer only, or ends the decode (43 R171, R174). -/
theorem turn_drain_keepsInv {s : State} (h : Inv s) (ht : Turning s) (hp : s.phase = .drain) : KeepsInv (turn s) := by
  rcases turn_drain s ht hp with ⟨_, hn⟩ | ⟨_, he | hw | hd⟩
  · rw [hn]
    exact (keepsInv_next _).2 (Sound.rest (h.sound.congr rfl rfl) (by simp) ht.released)
  · exact he.keepsInv h ht.released
  · exact hw.keepsInv h
  · exact hd.keepsInv h

/-- The block's turn keeps the invariant, and finds START's checks passed wherever it moves (log 18). -/
theorem turn_keepsInv {s : State} (h : Inv s) : KeepsInv (turn s) := by
  by_cases hrest : s.seq ≠ .busy ∨ s.stalled = true ∨ s.resetAsserted = true
  · rw [turn_rests s hrest]
    exact (keepsInv_next s).2 h
  · simp only [not_or, ne_eq, not_not, Bool.not_eq_true] at hrest
    obtain ⟨hbusy, hmoving, hreleased⟩ := hrest
    have ht : Turning s := ⟨hbusy, hmoving, hreleased, (h.running hbusy).checks⟩
    cases hp : s.phase with
    | dc => exact turn_dc_keepsInv h ht hp
    | ac => exact turn_ac_keepsInv h ht hp
    | recon => exact turn_recon_keepsInv h ht hp
    | drain => exact turn_drain_keepsInv h ht hp

/-! ### The outside world -/

theorem hostMemRead_unseen (a : Word) (s : State) : SameButUnseen s (hostMemRead a s) := by
  unfold hostMemRead
  split <;> rfl

/-- A write of another agent lands outside the input of a running decode, or is refused (20 R74). -/
theorem hostMemWrite_keepsInv {s : State} (h : Inv s) (a : Word) (v : Byte) : KeepsInv (hostMemWrite a v s) := by
  unfold hostMemWrite
  split
  · exact keepsInv_refused _
  · rename_i hin
    split
    · exact keepsInv_refused _
    · exact (keepsInv_next _).2 (h.write a.isLt (fun hb => Bool.eq_false_iff.2 fun hi => hin ⟨hb, hi⟩) v)

theorem sound_reset : Sound State.reset where
  memory := by decide
  reserved := ⟨by decide, by decide, by decide, by decide, by decide, by decide⟩
  huffman := fun t hv => by
    rw [show State.reset.htAct.get t = HtTable.empty by revert t; decide] at hv
    cases hv
  quant := fun q hv => by
    rw [show State.reset.qtAct.get q = QtTable.empty by revert q; decide] at hv
    cases hv

/-- The reset values meet the invariant, whatever is kept of memory and of the outside world (70 R241). -/
theorem resetValues_inv {s : State} (h : Memory.wf s.mem) (asserted : Bool) :
    Inv { resetValues s with resetAsserted := asserted } := by
  have hmem : Memory.wf (if s.seq = .busy then drawOutput s else s).mem := by
    split
    · exact fillFree_wf _ _ _ _ h
    · exact h
  exact Sound.inv ((sound_reset.withMemory hmem).congr rfl rfl) (fun hb => by cases hb) fun _ => rfl

theorem releaseReset_inv {s : State} (h : Inv s) : Inv (releaseReset s) := by
  unfold releaseReset
  split
  · exact resetValues_inv h.memory false
  · exact h

/-! ### Every step -/

theorem answered_keepsInv {s : State} (h : Inv s) {i : Instr} (hi : fromHost i = true) :
    KeepsInv (perform (answered i s)) := by
  cases hr : s.resetAsserted
  · rw [perform_answered i hr]
    exact exec_fromHost_keepsInv h hr hi
  · rw [perform_unanswered i hr]
    exact (keepsInv_next s).2 h

theorem fetchAccess_keepsInv {s : State} (h : Inv s) (a : Access) : KeepsInv (perform (fetchAccess a s)) := by
  unfold fetchAccess
  cases hd : decodeAccess a with
  | ok i => exact answered_keepsInv h (decodeAccess_fromHost hd)
  | error r => exact keepsInv_refused _

theorem fetchEvent_keepsInv {s : State} (h : Inv s) (e : Event) : KeepsInv (perform (fetchEvent e s)) := by
  cases e with
  | access a => exact fetchAccess_keepsInv h a
  | command w => exact answered_keepsInv h (decodeCommand_fromHost w)
  | block => exact turn_keepsInv h
  | memRead a => exact (keepsInv_next _).2 (h.unseen (hostMemRead_unseen a s))
  | memWrite a v => exact hostMemWrite_keepsInv h a v
  | resetOn => exact (keepsInv_next _).2 (resetValues_inv h.memory true)
  | resetOff => exact (keepsInv_next _).2 (releaseReset_inv h)
  | platform rejected => exact (keepsInv_next _).2 (h.unseen rfl)

/-- A step takes the head of the agenda, or is the block's turn (log 3); both keep the invariant. -/
theorem step_keepsInv {s : State} (h : Inv s) : KeepsInv (step s) := by
  unfold step fetch
  split
  · exact turn_keepsInv h
  · rename_i e rest _
    have hrest : Inv { s with agenda := rest } := h.unseen rfl
    exact fetchEvent_keepsInv hrest e

/-- Settles O49: the invariant is kept by what the host sends, by the turns of the block and by the outside world. -/
theorem everyStepKeepsTheInvariant : Obligations.EveryStepKeepsTheInvariant := fun _ h => step_keepsInv h

end Sys2Proof.Machine
end

section
/-! PROOFS. Register accesses (20 R61): which of them are admitted, and what the head of the agenda runs. -/

namespace Sys2Proof.Machine

/-- A step with events on the agenda takes the first one (log 3). -/
theorem step_event {s : State} {e : Event} {rest : List Event} (h : s.agenda = e :: rest) :
    step s = perform (fetchEvent e { s with agenda := rest }) := by
  rw [step, fetch, h]

/-- A register access that is not an aligned word is no instruction (20 R61, 30 R81). -/
theorem decodeAccess_rejects {a : Access} (h : a.bytes ≠ 4 ∨ a.off.toNat % 4 ≠ 0) :
    ∃ r, decodeAccess a = .error r := by
  unfold decodeAccess
  by_cases hb : a.bytes ≠ 4
  · exact ⟨.notWordWide, if_pos hb⟩
  · have hoff : a.off &&& 0x3#16 ≠ 0#16 := mt (low_bits_zero a.off).1 (h.resolve_left hb)
    exact ⟨.misaligned, by rw [if_neg hb, if_pos hoff]⟩

/-- Every aligned word access is an instruction (30 R81, R95). -/
theorem decodeAccess_admits {a : Access} (hb : a.bytes = 4) (hoff : a.off.toNat % 4 = 0) :
    ∃ i, decodeAccess a = .ok i := by
  unfold decodeAccess
  rw [if_neg (not_not_intro hb), if_neg (not_not_intro ((low_bits_zero a.off).2 hoff))]
  cases a.dir
  · exact ⟨_, rfl⟩
  · exact ⟨_, rfl⟩

theorem perform_fetchAccess_rejected {a : Access} {r : Reject} (h : decodeAccess a = .error r) (s : State) :
    perform (fetchAccess a s) = .refused .accessNotAdmitted := by
  rw [fetchAccess, h, perform]

theorem perform_fetchAccess_decoded {a : Access} {i : Instr} (h : decodeAccess a = .ok i) (s : State) :
    perform (fetchAccess a s) = perform (answered i s) := by
  rw [fetchAccess, h]

/-- The meanings of RD and WR refuse a misaligned offset themselves (20 R61; log 17). -/
theorem exec_misaligned {off : BitVec 16} (h : off.toNat % 4 ≠ 0) (d : Word) (s : State) :
    exec (.rd off) s = .refused .accessNotAdmitted ∧ exec (.wr off d) s = .refused .accessNotAdmitted := by
  have ha : ¬ aligned off = true := mt (aligned_iff off).1 h
  exact ⟨if_neg ha, if_neg ha⟩

/-- Settles O5: the decoder splits the accesses at the admitted ones, and the reset input decides whether one is
answered. -/
theorem onlyAlignedWordAccessesRun : Obligations.OnlyAlignedWordAccessesRun := by
  intro s a rest hs
  have hstep : step s = perform (fetchAccess a { s with agenda := rest }) := step_event hs
  refine ⟨fun h => ?_, fun hb hoff hr => ?_, fun hb hoff hr => ?_, fun off d h => exec_misaligned h d s⟩
  · obtain ⟨r, hd⟩ := decodeAccess_rejects h
    exact hstep.trans (perform_fetchAccess_rejected hd _)
  · obtain ⟨i, hd⟩ := decodeAccess_admits hb hoff
    exact ⟨i, hd, (hstep.trans (perform_fetchAccess_decoded hd _)).trans (perform_answered i hr)⟩
  · obtain ⟨i, hd⟩ := decodeAccess_admits hb hoff
    exact (hstep.trans (perform_fetchAccess_decoded hd _)).trans (perform_unanswered i hr)

end Sys2Proof.Machine
end

section
/-! PROOFS. The MCUs of a frame tile the output range: the offsets of an MCU's writes, and the one MCU that writes an offset
(20 R64; 46 R205, R206). -/

namespace Sys2Proof.Machine

/-- Sample i of the MCU lies inside the frame (46 R205). -/
def InFrame (s : State) (i : Fin 64) : Prop := pixelX s i < frameX s ∧ pixelY s i < frameY s

/-- The offsets of one pixel: none outside the frame, else one for each component. -/
theorem mem_pixelWrites_offsets {s : State} (h4 : frameNf s ≤ 4) (i : Fin 64) (o : Nat) :
    o ∈ (pixelWrites s i).map Prod.fst ↔ InFrame s i ∧ ∃ c < frameNf s, o = pixelOffset s i + c := by
  rw [pixelWrites_offsets, pixelBytes_length s i h4]
  split
  · rename_i hi
    simp only [List.mem_map, List.mem_range, show InFrame s i from hi, true_and, eq_comm]
  · rename_i hi
    simp [show ¬ InFrame s i from hi]

/-- The offsets that an MCU writes (46 R205). -/
theorem mem_emitList_offsets {s : State} (h4 : frameNf s ≤ 4) (o : Nat) : o ∈ (emitList s).map Prod.fst ↔
    ∃ i : Fin 64, InFrame s i ∧ ∃ c < frameNf s, o = pixelOffset s i + c := by
  simp only [emitList, List.map_flatMap, List.mem_flatMap, List.mem_finRange, true_and, mem_pixelWrites_offsets h4]

/-- Two samples of an MCU that share an offset are one. -/
theorem pixelOffset_inj {s : State} {i i' : Fin 64} {c c' : Nat} (hi : InFrame s i) (hi' : InFrame s i')
    (hc : c < frameNf s) (hc' : c' < frameNf s) (h : pixelOffset s i + c = pixelOffset s i' + c') : i = i' := by
  obtain ⟨hx, hy, _⟩ := offset_unique hi.1 hi'.1 hc hc' hi.2 h
  simp only [pixelX, pixelY] at hx hy
  exact Fin.ext (by omega)

theorem pixelWrites_offsets_nodup (s : State) (i : Fin 64) : ((pixelWrites s i).map Prod.fst).Nodup := by
  rw [pixelWrites_offsets]
  split
  · exact List.nodup_range.map fun a b hab => Nat.add_left_cancel hab
  · exact List.nodup_nil

/-- An MCU writes no offset twice (46 R206). -/
theorem emitList_offsets_nodup {s : State} (h4 : frameNf s ≤ 4) : ((emitList s).map Prod.fst).Nodup := by
  rw [emitList, List.map_flatMap, List.nodup_flatMap]
  refine ⟨fun i _ => pixelWrites_offsets_nodup s i, (List.nodup_finRange 64).imp fun {i i'} hne => ?_⟩
  intro o ho ho'
  obtain ⟨hi, c, hc, he⟩ := (mem_pixelWrites_offsets h4 i o).1 ho
  obtain ⟨hi', c', hc', he'⟩ := (mem_pixelWrites_offsets h4 i' o).1 ho'
  exact hne (pixelOffset_inj hi hi' hc hc' (he.symm.trans he'))

/-! ### The MCU of a pixel -/

/-- The index of the MCU that holds the pixel at column x and row y (43 R172). -/
def mcuAt (s : State) (x y : Nat) : Nat := y / 8 * mcuCols s + x / 8

/-- The index of the pixel at column x and row y in its MCU (00 R14). -/
def sampleAt (x y : Nat) : Fin 64 := ⟨8 * (y % 8) + x % 8, by omega⟩

theorem mcuAt_col {s : State} {x : Nat} (hx : x < frameX s) (y : Nat) : mcuAt s x y % mcuCols s = x / 8 := by
  rw [mcuAt, Nat.mul_add_mod_self_right, Nat.mod_eq_of_lt (by unfold mcuCols; omega)]

theorem mcuAt_row {s : State} {x : Nat} (hx : x < frameX s) (y : Nat) : mcuAt s x y / mcuCols s = y / 8 := by
  have hcol : x / 8 < mcuCols s := by unfold mcuCols; omega
  rw [mcuAt, Nat.mul_comm, Nat.mul_add_div (by omega), Nat.div_eq_of_lt hcol, Nat.add_zero]

/-- The MCU of a pixel of the frame is one of the frame's (43 R172). -/
theorem mcuAt_lt {s : State} {x y : Nat} (hx : x < frameX s) (hy : y < frameY s) : mcuAt s x y < mcuTotal s := by
  have hcol : x / 8 < mcuCols s := by unfold mcuCols; omega
  have hrow : y / 8 + 1 ≤ mcuRows s := by unfold mcuRows; omega
  calc mcuAt s x y < (y / 8 + 1) * mcuCols s := by rw [mcuAt, Nat.succ_mul]; omega
    _ ≤ mcuRows s * mcuCols s := Nat.mul_le_mul_right _ hrow
    _ = mcuTotal s := Nat.mul_comm ..

/-- A pixel of the frame is the sample of its MCU at its own place, with the offset of its column and row. -/
theorem pixel_of_mcuAt {s : State} {x : Nat} (hx : x < frameX s) (y : Nat) :
    pixelX { s with m := mcuAt s x y } (sampleAt x y) = x ∧ pixelY { s with m := mcuAt s x y } (sampleAt x y) = y := by
  have hcol : pixelX { s with m := mcuAt s x y } (sampleAt x y) =
      8 * (mcuAt s x y % mcuCols s) + (sampleAt x y).val % 8 := rfl
  have hrow : pixelY { s with m := mcuAt s x y } (sampleAt x y) =
      8 * (mcuAt s x y / mcuCols s) + (sampleAt x y).val / 8 := rfl
  rw [hcol, hrow, mcuAt_col hx, mcuAt_row hx]
  simp only [sampleAt]
  omega

/-- The MCU of a sample's pixel is the sample's own. -/
theorem mcuAt_pixel (s : State) (m : Nat) (i : Fin 64) :
    mcuAt s (pixelX { s with m := m } i) (pixelY { s with m := m } i) = m := by
  have hcol : pixelX { s with m := m } i / 8 = m % mcuCols s := by
    show (8 * (m % mcuCols s) + i.val % 8) / 8 = _
    omega
  have hrow : pixelY { s with m := m } i / 8 = m / mcuCols s := by
    show (8 * (m / mcuCols s) + i.val / 8) / 8 = _
    omega
  rw [mcuAt, hcol, hrow, Nat.div_add_mod']

/-- Every offset of the output range belongs to a pixel and a component of the frame (46 R205). -/
theorem exists_pixel_of_lt_outSize {s : State} {o : Nat} (h : o < outSize s) :
    ∃ x y c, x < frameX s ∧ y < frameY s ∧ c < frameNf s ∧ o = (y * frameX s + x) * frameNf s + c := by
  have h : o < frameX s * frameY s * frameNf s := h
  have hN : 0 < frameNf s := Nat.pos_of_ne_zero fun h0 => by simp [h0] at h
  have hX : 0 < frameX s := Nat.pos_of_ne_zero fun h0 => by simp [h0] at h
  have hp : o / frameNf s < frameX s * frameY s := Nat.div_lt_of_lt_mul (by rwa [Nat.mul_comm])
  refine ⟨o / frameNf s % frameX s, o / frameNf s / frameX s, o % frameNf s, Nat.mod_lt _ hX,
    Nat.div_lt_of_lt_mul hp, Nat.mod_lt _ hN, ?_⟩
  rw [Nat.div_add_mod', Nat.div_add_mod']

/-- Settles O46: an offset names a pixel and a component, and the pixel names its MCU. -/
theorem everyOutputByteIsWrittenOnce : Obligations.EveryOutputByteIsWrittenOnce := by
  intro s hnf
  have h4 : frameNf s ≤ 4 := by omega
  have offsets : ∀ m o, o ∈ (emitList { s with m := m }).map Prod.fst ↔ ∃ i : Fin 64, InFrame { s with m := m } i ∧
      ∃ c < frameNf s, o = pixelOffset { s with m := m } i + c :=
    fun m => mem_emitList_offsets (s := { s with m := m }) h4
  refine ⟨fun m _ => ⟨emitList_offsets_nodup (s := { s with m := m }) h4, fun o ho => ?_⟩, fun o ho => ?_⟩
  · obtain ⟨w, hw, rfl⟩ := List.mem_map.1 ho
    exact emitList_lt { s with m := m } h4 w hw
  · obtain ⟨x, y, c, hx, hy, hc, rfl⟩ := exists_pixel_of_lt_outSize ho
    obtain ⟨hcol, hrow⟩ := pixel_of_mcuAt hx y
    refine ⟨mcuAt s x y, ⟨mcuAt_lt hx hy, (offsets _ _).2 ⟨sampleAt x y, ⟨?_, ?_⟩, c, hc, ?_⟩⟩, ?_⟩
    · rw [hcol]
      exact hx
    · rw [hrow]
      exact hy
    · rw [pixelOffset, hcol, hrow]
      rfl
    · rintro m ⟨_, hm⟩
      obtain ⟨i, hi, c', hc', he⟩ := (offsets m _).1 hm
      obtain ⟨rfl, rfl, _⟩ := offset_unique hx hi.1 hc hc' hy he
      exact (mcuAt_pixel s m i).symm

end Sys2Proof.Machine
end

section
/-! PROOFS. A sequence of writes to system memory, and what it leaves of two memories (20 R62). -/

namespace Sys2Proof.Machine

/-- The writes of a list of addresses and bytes, in its order. -/
def Memory.writeAll (m : Memory) (ws : List Host.Cell) : Memory := ws.foldl (fun m w => Memory.write m w.1 w.2) m

theorem Memory.writeAll_cons (m : Memory) (w : Host.Cell) (ws : List Host.Cell) :
    Memory.writeAll m (w :: ws) = Memory.writeAll (Memory.write m w.1 w.2) ws := rfl

theorem Memory.writeAll_wf {ws : List Host.Cell} (hws : ∀ w ∈ ws, w.1 < 2 ^ 32) : ∀ {m : Memory},
    Memory.wf m → Memory.wf (Memory.writeAll m ws) := by
  induction ws with
  | nil => exact id
  | cons w ws ih =>
    intro m hm
    exact ih (fun x hx => hws x (List.mem_cons_of_mem _ hx)) (Memory.write_wf m w.1 w.2 (hws w List.mem_cons_self) hm)

theorem Memory.read_writeAll_other {ws : List Host.Cell} {a : Nat} (h : ∀ w ∈ ws, a ≠ w.1) : ∀ m : Memory,
    Memory.read (Memory.writeAll m ws) a = Memory.read m a := by
  induction ws with
  | nil => exact fun _ => rfl
  | cons w ws ih =>
    intro m
    rw [Memory.writeAll_cons, ih (fun x hx => h x (List.mem_cons_of_mem _ hx)),
      Memory.read_write_other _ _ _ _ (h w List.mem_cons_self)]

/-- After the same writes two memories agree on a byte, or neither has changed it. -/
theorem Memory.read_writeAll_pair (ws : List Host.Cell) (a : Nat) : ∀ {m m' : Memory}, (∀ w ∈ ws, w.1 < 2 ^ 32) →
    Memory.wf m → Memory.wf m' →
    Memory.read (Memory.writeAll m' ws) a = Memory.read (Memory.writeAll m ws) a ∨
    Memory.read (Memory.writeAll m' ws) a = Memory.read m' a ∧ Memory.read (Memory.writeAll m ws) a = Memory.read m a := by
  induction ws with
  | nil => exact fun _ _ _ => .inr ⟨rfl, rfl⟩
  | cons w ws ih =>
    intro m m' hws hm hm'
    have hw := hws w List.mem_cons_self
    rcases ih (fun x hx => hws x (List.mem_cons_of_mem _ hx)) (Memory.write_wf m w.1 w.2 hw hm)
      (Memory.write_wf m' w.1 w.2 hw hm') with heq | ⟨hk', hk⟩
    · exact .inl heq
    · by_cases ha : a = w.1
      · subst ha
        rw [Memory.read_write_same m' _ _ hm'.1] at hk'
        rw [Memory.read_write_same m _ _ hm.1] at hk
        exact .inl (hk'.trans hk.symm)
      · rw [Memory.read_write_other m' _ _ _ ha] at hk'
        rw [Memory.read_write_other m _ _ _ ha] at hk
        exact .inr ⟨hk', hk⟩

/-- The writes that draw free values for n bytes at base, from draw d on. -/
def freeWrites (base : Word) (d n : Nat) : List Host.Cell :=
  (List.range n).map fun o => (addrAt base o, Config.freeByte (d + o))

theorem fillFree_eq_writeAll (m : Memory) (base : Word) (d n : Nat) :
    fillFree m base d n = Memory.writeAll m (freeWrites base d n) := by
  induction n with
  | zero => rfl
  | succ n ih =>
    have hsucc : freeWrites base d (n + 1) = freeWrites base d n ++ [(addrAt base n, Config.freeByte (d + n))] := by
      rw [freeWrites, List.range_succ, List.map_append]
      rfl
    rw [fillFree, ih, hsucc, Memory.writeAll, Memory.writeAll, List.foldl_append, List.foldl_cons, List.foldl_nil]

end Sys2Proof.Machine
end

section
/-! PROOFS. The block's turn with other contents of memory outside the input range and another agenda: it makes the same
writes, all in the output range, and leaves the same state otherwise (20 R63, R64). -/

namespace Sys2Proof.Machine

/-! ### What a turn writes -/

/-- Every write lands at an address of the output range (20 R64). -/
def OutputWrites (s : State) (ws : List Host.Cell) : Prop := ∀ w ∈ ws, ∃ o < outSize s, w.1 = addrAt s.outBase o

theorem OutputWrites.lt {s : State} {ws : List Host.Cell} (h : OutputWrites s ws) : ∀ w ∈ ws, w.1 < 2 ^ 32 := by
  intro w hw
  obtain ⟨o, _, he⟩ := h w hw
  exact he ▸ addrAt_lt s.outBase o

theorem outputWrites_nil (s : State) : OutputWrites s [] := fun _ hw => absurd hw List.not_mem_nil

theorem outputWrites_freeWrites (s : State) (d : Nat) : OutputWrites s (freeWrites s.outBase d (outSize s)) := by
  intro w hw
  obtain ⟨o, ho, rfl⟩ := List.mem_map.1 hw
  exact ⟨o, List.mem_range.1 ho, rfl⟩

/-- Memory and the output range are the same in both states. -/
def SameOutput (s t : State) : Prop := t.mem = s.mem ∧ t.outBase = s.outBase ∧ outSize t = outSize s

theorem SameOutput.refl (s : State) : SameOutput s s := ⟨rfl, rfl, rfl⟩

theorem SameOutput.trans {s t u : State} (h1 : SameOutput s t) (h2 : SameOutput t u) : SameOutput s u :=
  ⟨h2.1.trans h1.1, h2.2.1.trans h1.2.1, h2.2.2.trans h1.2.2⟩

theorem OutputWrites.mono {s t : State} (h : SameOutput s t) {ws : List Host.Cell} (hws : OutputWrites t ws) :
    OutputWrites s ws := by
  intro w hw
  obtain ⟨o, ho, he⟩ := hws w hw
  exact ⟨o, h.2.2 ▸ ho, h.2.1 ▸ he⟩

theorem SameButScan.sameOutput {s t : State} (h : SameButScan s t) : SameOutput s t := by
  unfold SameButScan at h
  rw [h]
  exact ⟨rfl, rfl, rfl⟩

theorem andThen_sameOutput {α β : Type} {s : State} {r : Decoded α} {f : α → State → Decoded β}
    (hr : SameOutput s (leftBy r)) (hf : ∀ a t, SameOutput t (leftBy (f a t))) : SameOutput s (leftBy (andThen r f)) := by
  cases r with
  | ok a t => exact hr.trans (hf a t)
  | err e t => exact hr
  | stall t => exact hr

theorem dstep_sameOutput (s : State) : SameOutput s (leftBy (dstep s)) := by
  cases hd : dstep s with
  | ok a t => exact (dstep_frame hd).scan.sameOutput
  | err e t =>
    obtain ⟨rfl, _⟩ := dstep_err hd
    exact SameOutput.refl t
  | stall t =>
    obtain ⟨rfl, _⟩ := dstep_stall hd
    exact SameOutput.refl t

theorem readBits_sameOutput (n : Nat) (s : State) : SameOutput s (leftBy (readBits n s)) := by
  obtain ⟨hok, herr, hstall⟩ := read_scanned n s
  cases hr : readBits n s with
  | ok v u => exact (hok v u hr).frame.sameOutput
  | err e u => exact (herr e u hr).1.frame.sameOutput
  | stall u => exact (hstall u hr).1.frame.sameOutput

theorem endBlock_sameOutput (s : State) : SameOutput s (endBlock s) := by
  unfold endBlock
  split <;> exact ⟨rfl, rfl, rfl⟩

theorem advanceTo_sameOutput (n : Nat) (s : State) : SameOutput s (advanceTo n s) := by
  unfold advanceTo
  split
  · exact ⟨rfl, rfl, rfl⟩
  · exact endBlock_sameOutput { s with k := n }

theorem setCoef_sameOutput (n : Nat) (v : Half) (s : State) : SameOutput s (setCoef n v s) := by
  unfold setCoef
  split <;> exact ⟨rfl, rfl, rfl⟩

theorem dcTerm_sameOutput (n : Nat) (s : State) : SameOutput s (leftBy (dcTerm n s)) := by
  refine andThen_sameOutput (readBits_sameOutput n s) fun v t => ?_
  dsimp only
  split
  · exact SameOutput.refl t
  · exact setCoef_sameOutput 0 _ { t with pred := _, phase := .ac, k := 1 }

theorem acTerm_sameOutput (r n : Nat) (s : State) : SameOutput s (leftBy (acTerm r n s)) := by
  unfold acTerm
  split
  · exact SameOutput.refl s
  · exact andThen_sameOutput (readBits_sameOutput n s) fun v t =>
      (setCoef_sameOutput _ _ t).trans (advanceTo_sameOutput _ _)

/-! ### The same answer elsewhere -/

/-- Where the first answer is a next state, it is s's with some writes to the output range, and the second answer is the
same state with the same writes to the other memory, and the other agenda. -/
def SameElsewhere (mem : List Host.Cell) (agenda : List Event) (s : State) (r r' : Result) : Prop :=
  ∀ t, r = .next t → ∃ ws, OutputWrites s ws ∧ t.mem = Memory.writeAll s.mem ws ∧
    r' = .next (inWorld (Memory.writeAll mem ws) agenda t)

section

variable {mem : List Host.Cell} {agenda : List Event} {s : State}

theorem SameElsewhere.mono {u : State} {r r' : Result} (hu : SameOutput s u) (h : SameElsewhere mem agenda u r r') :
    SameElsewhere mem agenda s r r' := by
  intro t ht
  obtain ⟨ws, hws, hm, hr⟩ := h t ht
  exact ⟨ws, hws.mono hu, hu.1 ▸ hm, hr⟩

theorem sameElsewhere_next {t : State} (h : t.mem = s.mem) :
    SameElsewhere mem agenda s (.next t) (.next (inWorld mem agenda t)) := by
  rintro u ⟨⟩
  exact ⟨[], outputWrites_nil s, h, rfl⟩

theorem sameElsewhere_refused (e e' : Refusal) : SameElsewhere mem agenda s (.refused e) (.refused e') := by
  rintro u ⟨⟩

/-- Error entry draws the same free values, for the same addresses (60 R224; 93 S5). -/
theorem raiseErr_sameElsewhere (e : Err) (s : State) :
    SameElsewhere mem agenda s (.next (raiseErr e s)) (.next (raiseErr e (inWorld mem agenda s))) := by
  cases he : e.origin.inDecode
  · rw [raiseErr_outside e _ he, raiseErr_outside e _ he]
    exact sameElsewhere_next rfl
  · rintro u ⟨⟩
    rw [raiseErr_inside e _ he, raiseErr_inside e _ he]
    refine ⟨freeWrites s.outBase s.draws (outSize s), outputWrites_freeWrites s s.draws, fillFree_eq_writeAll .., ?_⟩
    rw [← fillFree_eq_writeAll]
    rfl

/-- What a decode operation leaves as the next state, when it reads and writes no memory outside the input. -/
theorem settle_sameElsewhere {r : Decoded Unit} (h : SameOutput s (leftBy r)) :
    SameElsewhere mem agenda s (settle r) (settle (elsewhere mem agenda r)) := by
  cases r with
  | ok a t => exact sameElsewhere_next h.1
  | err e t => exact (raiseErr_sameElsewhere e t).mono h
  | stall t => exact sameElsewhere_next (t := { t with stalled := true }) h.1

theorem dstep_sameElsewhere (h : SameInput mem s) :
    SameElsewhere mem agenda s (settle (dstep s)) (settle (dstep (inWorld mem agenda s))) := by
  rw [dstep_elsewhere h]
  exact settle_sameElsewhere (dstep_sameOutput s)

/-! ### The symbols -/

/-- A symbol runs in its phase, and is refused in any other. -/
theorem inTerm_sameElsewhere {p : Phase} {r r' : Result} (h : SameElsewhere mem agenda s r r') :
    SameElsewhere mem agenda s (inTerm p s r) (inTerm p (inWorld mem agenda s) r') := by
  unfold inTerm
  rw [show (inWorld mem agenda s).seq = s.seq from rfl, show (inWorld mem agenda s).phase = s.phase from rfl]
  split
  · exact h
  · exact sameElsewhere_refused _ _

theorem dcTerm_sameElsewhere (h : SameInput mem s) (n : Nat) :
    SameElsewhere mem agenda s (settle (dcTerm n s)) (settle (dcTerm n (inWorld mem agenda s))) := by
  rw [dcTerm_elsewhere n h]
  exact settle_sameElsewhere (dcTerm_sameOutput n s)

theorem acTerm_sameElsewhere (h : SameInput mem s) (r n : Nat) :
    SameElsewhere mem agenda s (settle (acTerm r n s)) (settle (acTerm r n (inWorld mem agenda s))) := by
  rw [acTerm_elsewhere r n h]
  exact settle_sameElsewhere (acTerm_sameOutput r n s)

/-- Every symbol of a DC term (43 R162). -/
theorem exec_dc_sameElsewhere (h : SameInput mem s) (b : Byte) :
    SameElsewhere mem agenda s (exec (decodeDc b) s) (exec (decodeDc b) (inWorld mem agenda s)) := by
  unfold decodeDc
  split
  · exact inTerm_sameElsewhere (dcTerm_sameElsewhere h 0)
  · split
    · exact inTerm_sameElsewhere (dcTerm_sameElsewhere h _)
    · exact inTerm_sameElsewhere (raiseErr_sameElsewhere _ s)

theorem zrl_sameElsewhere : SameElsewhere mem agenda s (exec .zrl s) (exec .zrl (inWorld mem agenda s)) := by
  refine inTerm_sameElsewhere ?_
  rw [show (inWorld mem agenda s).k = s.k from rfl]
  split
  · exact raiseErr_sameElsewhere _ s
  · rw [advanceTo_elsewhere]
    exact sameElsewhere_next (advanceTo_sameOutput (s.k + 16) s).1

/-- Every symbol of an AC term (43 R166 to R168). -/
theorem exec_ac_sameElsewhere (h : SameInput mem s) (b : Byte) :
    SameElsewhere mem agenda s (exec (decodeAc b) s) (exec (decodeAc b) (inWorld mem agenda s)) := by
  unfold decodeAc
  split
  · refine inTerm_sameElsewhere ?_
    rw [endBlock_elsewhere]
    exact sameElsewhere_next (endBlock_sameOutput s).1
  · split
    · exact zrl_sameElsewhere
    · split
      · exact inTerm_sameElsewhere (acTerm_sameElsewhere h _ 0)
      · exact inTerm_sameElsewhere (acTerm_sameElsewhere h _ _)

/-! ### The turn, phase by phase -/

theorem leftBy_elsewhere {α : Type} (r : Decoded α) : leftBy (elsewhere mem agenda r) = inWorld mem agenda (leftBy r) := by
  cases r <;> rfl

/-- A turn in a term makes the same match (42 R156; log 4). -/
theorem termMove_sameElsewhere {dec : Byte → Instr} {bits : Byte → State → Nat} (t : HtTable) (h : SameInput mem s)
    (hbits : ∀ b u, bits b (inWorld mem agenda u) = bits b u)
    (hdec : ∀ b u, SameInput mem u → SameElsewhere mem agenda u (exec (dec b) u) (exec (dec b) (inWorld mem agenda u))) :
    SameElsewhere mem agenda s (perform (termMove dec bits t s)) (perform (termMove dec bits t (inWorld mem agenda s))) := by
  obtain ⟨hok, herr, hstall⟩ := match_scanned t s
  have hd : ∀ u, destuffed (inWorld mem agenda s) (inWorld mem agenda u) = destuffed s u := fun _ => rfl
  have hn : ∀ b u, needsData (bits b (inWorld mem agenda u)) (inWorld mem agenda u) = needsData (bits b u) u :=
    fun b u => by rw [hbits]; rfl
  unfold termMove
  rw [matchCode_elsewhere t h, leftBy_elsewhere, hd]
  split
  · exact dstep_sameElsewhere h
  · cases hm : matchCode t s with
    | ok b u =>
      have hu := (hok b u hm).frame
      simp only [elsewhere, hn]
      split
      · exact dstep_sameElsewhere h
      · exact (hdec b u (h.scanned hu)).mono hu.sameOutput
    | err e u => exact (raiseErr_sameElsewhere e u).mono (herr e u hm).1.frame.sameOutput
    | stall u => exact sameElsewhere_next (t := { u with stalled := true }) (hstall u hm).1.frame.sameOutput.1

theorem Turning.elsewhere (h : Turning s) : Turning (inWorld mem agenda s) := ⟨h.busy, h.moving, h.released, h.checks⟩

theorem turn_dc_sameElsewhere (ht : Turning s) (hp : s.phase = .dc) (h : SameInput mem s) :
    SameElsewhere mem agenda s (turn s) (turn (inWorld mem agenda s)) := by
  rw [turn_move ht, turn_move ht.elsewhere, decodeMove, decodeMove, hp, show (inWorld mem agenda s).phase = .dc from hp]
  exact (termMove_sameElsewhere (s := beginBlock s) (dcTable s s.j) h (fun _ _ => rfl)
    fun b u hu => exec_dc_sameElsewhere hu b).mono ⟨rfl, rfl, rfl⟩

theorem turn_ac_sameElsewhere (ht : Turning s) (hp : s.phase = .ac) (h : SameInput mem s) :
    SameElsewhere mem agenda s (turn s) (turn (inWorld mem agenda s)) := by
  rw [turn_move ht, turn_move ht.elsewhere, decodeMove, decodeMove, hp, show (inWorld mem agenda s).phase = .ac from hp]
  exact termMove_sameElsewhere (acTable s s.j) h (fun _ _ => rfl) fun b u hu => exec_ac_sameElsewhere hu b

/-- The writes of an MCU do not depend on memory, and each goes to its address of the output range (46 R205, R206). -/
theorem turn_recon_sameElsewhere (ht : Turning s) (hp : s.phase = .recon) :
    SameElsewhere mem agenda s (turn s) (turn (inWorld mem agenda s)) := by
  have hp' : (inWorld mem agenda s).phase = .recon := hp
  by_cases hs : s.sub < scanNs s
  · rw [turn_recon_comp ht hp hs, turn_recon_comp ht.elsewhere hp' hs]
    exact sameElsewhere_next rfl
  · cases hw : (emitList s)[s.sub - scanNs s]? with
    | none =>
      rw [List.getElem?_eq_none_iff] at hw
      have hend : scanNs s + (emitList s).length ≤ s.sub := by omega
      rw [turn_recon_end ht hp hend, turn_recon_end ht.elsewhere hp' hend]
      exact sameElsewhere_next rfl
    | some w =>
      have hns : scanNs s ≤ s.sub := by omega
      cases hb : busRejects s true (addrAt s.outBase w.1)
      · rw [turn_recon_write ht hp hns hw hb, turn_recon_write ht.elsewhere hp' hns hw hb]
        rintro u ⟨⟩
        refine ⟨[(addrAt s.outBase w.1, w.2)], fun x hx => ?_, rfl, rfl⟩
        rw [List.mem_singleton.1 hx]
        exact ⟨w.1, emitList_lt s (frameNf_le ht.checks) w (List.mem_of_getElem? hw), rfl⟩
      · have he : rejectedAccess 1#8 w.1 (inWorld mem agenda s) =
            elsewhere mem agenda (rejectedAccess (α := Unit) 1#8 w.1 s) := by
          unfold rejectedAccess
          rw [show (inWorld mem agenda s).params = s.params from rfl]
          split <;> rfl
        rw [turn_recon_rejected ht hp hns hw hb, turn_recon_rejected ht.elsewhere hp' hns hw hb, he]
        refine settle_sameElsewhere ?_
        unfold rejectedAccess
        split <;> exact SameOutput.refl s

theorem turn_drain_sameElsewhere (ht : Turning s) (hp : s.phase = .drain) (h : SameInput mem s) :
    SameElsewhere mem agenda s (turn s) (turn (inWorld mem agenda s)) := by
  rw [turn_move ht, turn_move ht.elsewhere, decodeMove, decodeMove, hp, show (inWorld mem agenda s).phase = .drain from hp]
  show SameElsewhere mem agenda s (settle (drainStep s)) (settle (drainStep (inWorld mem agenda s)))
  unfold drainStep
  rw [show (inWorld mem agenda s).endRec = s.endRec from rfl]
  split
  · exact sameElsewhere_next rfl
  · exact dstep_sameElsewhere h

/-! ### Every turn -/

/-- The block takes no turn: outside BUSY, on a stalled access, or while reset is asserted (43 R175; 20 R66; 70 R240). -/
def Rests (s : State) : Prop := s.seq ≠ .busy ∨ s.stalled = true ∨ s.resetAsserted = true

theorem turning_of_not_rests (h : ¬ Rests s) (hc : startChecks s = none) : Turning s := by
  simp only [Rests, not_or, ne_eq, not_not, Bool.not_eq_true] at h
  obtain ⟨hbusy, hmoving, hreleased⟩ := h
  exact ⟨hbusy, hmoving, hreleased, hc⟩

/-- A turn that completes finds the block at rest, or in a decode whose START checks pass (log 18). -/
theorem rests_or_turning {t : State} (h : turn s = .next t) : Rests s ∨ Turning s := by
  by_cases hr : Rests s
  · exact .inl hr
  · refine .inr (turning_of_not_rests hr ?_)
    by_contra hc
    simp only [Rests, not_or, ne_eq, not_not, Bool.not_eq_true] at hr
    obtain ⟨hbusy, hmoving, hreleased⟩ := hr
    rw [turn_invalid s hbusy hmoving hreleased hc] at h
    cases h

/-- The turn sees of memory the input bytes only, and nothing of the agenda (20 R63). -/
theorem turn_sameElsewhere (h : Turning s → SameInput mem s) :
    SameElsewhere mem agenda s (turn s) (turn (inWorld mem agenda s)) := by
  intro t htn
  rcases rests_or_turning htn with hr | ht
  · rw [turn_rests s hr] at htn
    cases htn
    exact ⟨[], outputWrites_nil s, rfl, turn_rests _ hr⟩
  · cases hp : s.phase with
    | dc => exact turn_dc_sameElsewhere ht hp (h ht) t htn
    | ac => exact turn_ac_sameElsewhere ht hp (h ht) t htn
    | recon => exact turn_recon_sameElsewhere ht hp t htn
    | drain => exact turn_drain_sameElsewhere ht hp (h ht) t htn

theorem inWorld_self (s : State) : inWorld s.mem s.agenda s = s := rfl

/-- A turn leaves the agenda alone. -/
theorem turn_agenda {t : State} (h : turn s = .next t) : t.agenda = s.agenda := by
  obtain ⟨ws, _, _, ht⟩ := turn_sameElsewhere (mem := s.mem) (agenda := s.agenda) (fun _ _ _ => rfl) t h
  rw [inWorld_self, h] at ht
  injection ht with ht
  rw [ht]
  rfl

end

/-- The input bytes lie in the input range, as START's check 11 found them (40 R122). -/
theorem Turning.sameInput {s : State} (ht : Turning s) {mem : List Host.Cell}
    (h : ∀ a, inInput s a = true → Memory.read mem a = Memory.read s.mem a) : SameInput mem s := by
  obtain ⟨_, hfit, _⟩ := (startChecks_none s).1 ht.checks
  intro o ho
  rw [addrAt_eq _ _ (by omega)]
  exact h _ ((inInput_iff s _).2 (by omega))

/-- Settles O57: the same writes, made to both memories, leave each byte equal or unchanged. -/
theorem decodeDependsOnlyOnTheInputBytes : Obligations.DecodeDependsOnlyOnTheInputBytes := by
  intro s t mem _ hs hmem hin ht
  obtain ⟨ws, hws, htm, hturn⟩ :=
    turn_sameElsewhere (mem := mem) (agenda := s.agenda) (fun h => h.sameInput hin) t ht
  have hagenda : inWorld (Memory.writeAll mem ws) s.agenda t = { t with mem := Memory.writeAll mem ws } := by
    rw [← turn_agenda ht]
    rfl
  refine ⟨Memory.writeAll mem ws, hturn.trans (congrArg _ hagenda), Memory.writeAll_wf hws.lt hmem, fun a => ?_⟩
  rw [htm]
  exact Memory.read_writeAll_pair ws a hws.lt hs hmem

/-- Settles O58: every write of a turn lands in the output range, which START's check 11 keeps below 2^32. -/
theorem decodeWritesOnlyTheOutputRange : Obligations.DecodeWritesOnlyTheOutputRange := by
  intro s t _ htn a ha
  rcases rests_or_turning htn with hr | ht
  · rw [turn_rests s hr] at htn
    cases htn
    rfl
  · obtain ⟨_, _, hfit⟩ := (startChecks_none s).1 ht.checks
    obtain ⟨ws, hws, htm, _⟩ := turn_sameElsewhere (mem := s.mem) (agenda := s.agenda) (fun _ _ _ => rfl) t htn
    rw [htm]
    refine Memory.read_writeAll_other (fun w hw => ?_) s.mem
    obtain ⟨o, ho, he⟩ := hws w hw
    exact he ▸ ne_addrAt_of_outside hfit ha o ho

end Sys2Proof.Machine
end

section
/-! PROOFS. A decode left to itself comes to rest: how many turns a position still takes, at most, and that every turn takes
one of them (43 R176; 70 R254). -/

namespace Sys2Proof.Machine

/-! ### The turns that are left -/

/-- How many turns but for destuffer steps the current MCU still takes, at most: the symbols of its blocks, the
reconstructions and output writes, and its end. -/
def mcuTurnsLeft (s : State) : Nat :=
  match s.phase with
  | .dc | .ac => 64 * (scanNs s - s.j.val) - s.k + 65 * scanNs s + 1
  | .recon => 65 * scanNs s - s.sub + 1
  | .drain => 0

/-- How many turns the MCUs after the current one take, at most, but for destuffer steps. -/
def laterTurns (s : State) : Nat := (mcuTotal s - (s.m + 1)) * (129 * scanNs s + 1)

/-- How many turns the decode still takes, at most. -/
def turnsLeft (s : State) : Nat := laterTurns s + mcuTurnsLeft s + drainCost s

theorem mcuTurnsLeft_dc {s : State} (h : s.phase = .dc) :
    mcuTurnsLeft s = 64 * (scanNs s - s.j.val) - s.k + 65 * scanNs s + 1 := by rw [mcuTurnsLeft, h]

theorem mcuTurnsLeft_ac {s : State} (h : s.phase = .ac) :
    mcuTurnsLeft s = 64 * (scanNs s - s.j.val) - s.k + 65 * scanNs s + 1 := by rw [mcuTurnsLeft, h]

theorem mcuTurnsLeft_recon {s : State} (h : s.phase = .recon) : mcuTurnsLeft s = 65 * scanNs s - s.sub + 1 := by
  rw [mcuTurnsLeft, h]

theorem mcuTurnsLeft_drain {s : State} (h : s.phase = .drain) : mcuTurnsLeft s = 0 := by rw [mcuTurnsLeft, h]

/-- Reading bits and symbols takes no turn of the position. -/
theorem Scanned.turns {s u : State} (h : Scanned s u) : laterTurns u = laterTurns s ∧ mcuTurnsLeft u = mcuTurnsLeft s := by
  rw [h.frame]
  exact ⟨rfl, rfl⟩

theorem drainCost_pos (s : State) : 0 < drainCost s := by
  unfold drainCost
  split <;> omega

/-- Before the drain the current MCU is one of the frame's (43 R171). -/
theorem PositionOk.mcu_lt {s : State} (h : PositionOk s) (hp : s.phase ≠ .drain) : s.m < mcuTotal s := by
  cases hq : s.phase with
  | dc => exact ((positionOk_dc s hq).1 h).1
  | ac => exact ((positionOk_ac s hq).1 h).1
  | recon => exact ((positionOk_recon s hq).1 h).1
  | drain => exact absurd hq hp

/-- No position takes more turns than the decode as a whole (43 R176). -/
theorem turnsLeft_le_turnBound {s : State} (h : PositionOk s) : turnsLeft s ≤ turnBound s := by
  have hdrain : drainCost s ≤ s.inLen.toNat + 2 := by
    unfold drainCost
    split <;> omega
  have hmcu : laterTurns s + mcuTurnsLeft s ≤ (129 * scanNs s + 1) * mcuTotal s := by
    by_cases hp : s.phase = .drain
    · have hm := ((positionOk_drain s hp).1 h).1
      simp [laterTurns, mcuTurnsLeft_drain hp, ← hm]
    · have hm := h.mcu_lt hp
      have hleft : mcuTurnsLeft s ≤ 129 * scanNs s + 1 := by
        unfold mcuTurnsLeft
        split <;> omega
      calc laterTurns s + mcuTurnsLeft s
          ≤ (mcuTotal s - (s.m + 1)) * (129 * scanNs s + 1) + (129 * scanNs s + 1) := Nat.add_le_add_left hleft _
        _ = (mcuTotal s - (s.m + 1) + 1) * (129 * scanNs s + 1) := (Nat.succ_mul ..).symm
        _ ≤ mcuTotal s * (129 * scanNs s + 1) := Nat.mul_le_mul_right _ (by omega)
        _ = (129 * scanNs s + 1) * mcuTotal s := Nat.mul_comm ..
  unfold turnsLeft turnBound
  omega

/-! ### Every turn takes one of them -/

/-- The turn completes, and the block is then at rest or has a turn less to take. -/
def Progresses (s : State) (r : Result) : Prop := ∃ t, r = .next t ∧ (Rests t ∨ turnsLeft t < turnsLeft s)

section

variable {s : State} {r : Result}

theorem EndsInError.progresses {s' : State} (h : EndsInError s' r) : Progresses s r := by
  obtain ⟨u, e, _, _, rfl⟩ := h
  exact ⟨_, rfl, .inl (.inl (by simp))⟩

theorem Waits.progresses {s' : State} (h : Waits s' r) : Progresses s r := by
  obtain ⟨u, _, _, rfl⟩ := h
  exact ⟨_, rfl, .inl (.inr (.inl rfl))⟩

theorem Destuffs.progresses (h : Destuffs s r) : Progresses s r := by
  obtain ⟨t, ht, hcost, _, rfl⟩ := h
  obtain ⟨hlater, hmcu⟩ := ht.turns
  exact ⟨t, rfl, .inr (by unfold turnsLeft; omega)⟩

/-- A symbol of the current MCU, read from the state u, takes a turn of the position. -/
theorem progresses_symbol {u t : State} (hu : Scanned s u) (ht : drainCost t = drainCost u ∧ laterTurns t = laterTurns u)
    (hmcu : mcuTurnsLeft t < mcuTurnsLeft u) : Progresses s (.next t) := by
  obtain ⟨hcost, hlater⟩ := ht
  obtain ⟨hlater', hmcu'⟩ := hu.turns
  have hcost' := hu.cost
  exact ⟨t, rfl, .inr (by unfold turnsLeft; omega)⟩

theorem turn_dc_progresses (h : Inv s) (ht : Turning s) (hp : s.phase = .dc) : Progresses s (turn s) := by
  have hpos := (h.running ht.busy).position
  obtain ⟨_, hj, hk, _⟩ := (positionOk_dc s hp).1 hpos
  have hbegin : turnsLeft (beginBlock s) = turnsLeft s := by
    have hmcu : mcuTurnsLeft (beginBlock s) = mcuTurnsLeft s := by
      rw [mcuTurnsLeft_dc hp, mcuTurnsLeft_dc (s := beginBlock s) hp, hk]
      rfl
    unfold turnsLeft
    rw [hmcu]
    rfl
  have hprogress : Progresses (beginBlock s) (turn s) := by
    rcases turn_dc s ht hp with he | hw | hd | ⟨u, x, hu, hn⟩
    · exact he.progresses
    · exact hw.progresses
    · exact hd.progresses
    · rw [hn]
      refine progresses_symbol hu ⟨rfl, rfl⟩ ?_
      obtain ⟨_, hmcu⟩ := hu.turns
      rw [hmcu, mcuTurnsLeft_dc (s := beginBlock s) hp, mcuTurnsLeft_ac rfl]
      obtain ⟨_, _, hju, _⟩ := hu.position
      have hns : scanNs u = scanNs s := by rw [hu.frame]; rfl
      have hjs : u.j = s.j := hju
      show 64 * (scanNs u - u.j.val) - 1 + 65 * scanNs u + 1 < 64 * (scanNs s - s.j.val) - 0 + 65 * scanNs s + 1
      rw [hns, hjs]
      omega
  obtain ⟨t, hn, hleft⟩ := hprogress
  exact ⟨t, hn, hbegin ▸ hleft⟩

/-- The end of a block leaves the turns of the blocks after it, and of RECON. -/
theorem blockDone_turns (h4 : scanNs s ≤ 4) :
    drainCost (blockDone s) = drainCost s ∧ laterTurns (blockDone s) = laterTurns s ∧
    mcuTurnsLeft (blockDone s) ≤ 64 * (scanNs s - (s.j.val + 1)) + 65 * scanNs s + 1 := by
  unfold blockDone
  split
  · rename_i hj
    have hnext : (s.j + 1).val = s.j.val + 1 := Fin.val_add_one_of_lt (by
      rw [Fin.lt_def]
      show s.j.val < 3
      omega)
    refine ⟨rfl, rfl, ?_⟩
    rw [mcuTurnsLeft_dc rfl]
    show 64 * (scanNs s - (s.j + 1).val) - 0 + 65 * scanNs s + 1 ≤ _
    omega
  · refine ⟨rfl, rfl, ?_⟩
    rw [mcuTurnsLeft_recon rfl]
    show 65 * scanNs s - s.sub + 1 ≤ _
    omega

theorem turn_ac_progresses (h : Inv s) (ht : Turning s) (hp : s.phase = .ac) : Progresses s (turn s) := by
  have hrun := h.running ht.busy
  obtain ⟨_, hj, _, hk, _, _⟩ := (positionOk_ac s hp).1 hrun.position
  have h4 := (scanNs_range hrun.checks).2
  have hmcu := mcuTurnsLeft_ac hp
  have same : ∀ u, Scanned s u → scanNs u = scanNs s ∧ u.j = s.j ∧ u.phase = .ac := fun u hu => by
    obtain ⟨hphase, _, hju, _⟩ := hu.position
    exact ⟨by rw [hu.frame]; rfl, hju, hphase.trans hp⟩
  have done : ∀ u zz k, Scanned s u → Progresses s (.next (blockDone { u with zz := zz, k := k })) := by
    intro u zz k hu
    obtain ⟨hns, hju, _⟩ := same u hu
    obtain ⟨hcost, hlater, hleft⟩ := blockDone_turns (s := { u with zz := zz, k := k }) (hns ▸ h4)
    refine progresses_symbol hu ⟨hcost, hlater⟩ (Nat.lt_of_le_of_lt hleft ?_)
    show 64 * (scanNs u - (u.j.val + 1)) + 65 * scanNs u + 1 < _
    rw [hu.turns.2, hmcu, hns, hju]
    omega
  rcases turn_ac s ht hp with he | hw | hd | ⟨u, hu, hn⟩ | ⟨u, zz, n, hu, hkn, _, _, hn⟩
  · exact he.progresses
  · exact hw.progresses
  · exact hd.progresses
  · rw [hn]
    exact done u u.zz u.k hu
  · rw [hn, positionAt]
    split
    · rename_i hle
      obtain ⟨hns, hju, hphase⟩ := same u hu
      refine progresses_symbol hu ⟨rfl, rfl⟩ ?_
      rw [hu.turns.2, hmcu, mcuTurnsLeft_ac (s := { u with zz := zz, k := n }) hphase]
      show 64 * (scanNs u - u.j.val) - n + 65 * scanNs u + 1 < _
      rw [hns, hju]
      omega
    · exact done u zz n hu

/-- The end of an MCU leaves the turns of the MCUs after it. -/
theorem nextMcu_turns (hm : s.m < mcuTotal s) :
    laterTurns (nextMcu s) + mcuTurnsLeft (nextMcu s) ≤ laterTurns s := by
  by_cases hmore : s.m + 1 < mcuTotal s
  · rw [mcuTurnsLeft_dc (s := nextMcu s) (if_pos hmore)]
    show (mcuTotal s - (s.m + 1 + 1)) * (129 * scanNs s + 1) + (64 * (scanNs s - 0) - 0 + 65 * scanNs s + 1) ≤
      (mcuTotal s - (s.m + 1)) * (129 * scanNs s + 1)
    rw [show mcuTotal s - (s.m + 1) = mcuTotal s - (s.m + 1 + 1) + 1 by omega,
      Nat.succ_mul (mcuTotal s - (s.m + 1 + 1))]
    omega
  · rw [mcuTurnsLeft_drain (s := nextMcu s) (if_neg hmore)]
    show (mcuTotal s - (s.m + 1 + 1)) * _ + 0 ≤ _
    rw [show mcuTotal s - (s.m + 1 + 1) = 0 by omega]
    omega

theorem turn_recon_progresses (h : Inv s) (ht : Turning s) (hp : s.phase = .recon) : Progresses s (turn s) := by
  have hrun := h.running ht.busy
  obtain ⟨hm, _⟩ := (positionOk_recon s hp).1 hrun.position
  have hmcu := mcuTurnsLeft_recon hp
  have advance : ∀ t : State, t.phase = .recon → t.sub = s.sub + 1 → scanNs t = scanNs s →
      drainCost t = drainCost s ∧ laterTurns t = laterTurns s → s.sub < 65 * scanNs s → Progresses s (.next t) := by
    intro t hpt hsub hns hsame hlt
    refine progresses_symbol (Scanned.refl s) hsame ?_
    rw [mcuTurnsLeft_recon hpt, hmcu, hsub, hns]
    omega
  rcases turn_recon s ht hp with ⟨hlt, hn⟩ | ⟨w, _, _, hlt, hn⟩ | ⟨o, _, hn⟩ | ⟨_, hn⟩ | ⟨_, hn⟩
  · rw [hn]
    exact advance _ hp rfl rfl ⟨rfl, rfl⟩ (by omega)
  · have hlen := emitList_length s (frameNf_le ht.checks)
    obtain ⟨⟨_, ⟨_, _, hnf⟩, _⟩, _⟩ := (startChecks_none s).1 ht.checks
    rw [hn]
    exact advance _ hp rfl rfl ⟨rfl, rfl⟩ (by omega)
  · exact ⟨_, hn, .inl (.inl (by simp))⟩
  · exact ⟨_, hn, .inl (.inr (.inl rfl))⟩
  · have hnext := nextMcu_turns hm
    have hcost : drainCost (nextMcu s) = drainCost s := rfl
    exact ⟨_, hn, .inr (by unfold turnsLeft; omega)⟩

theorem turn_drain_progresses (ht : Turning s) (hp : s.phase = .drain) : Progresses s (turn s) := by
  rcases turn_drain s ht hp with ⟨_, hn⟩ | ⟨_, he | hw | hd⟩
  · exact ⟨_, hn, .inl (.inl (by simp))⟩
  · exact he.progresses
  · exact hw.progresses
  · exact hd.progresses

/-- A running decode makes progress at every turn (43 R176). -/
theorem turn_progresses (h : Inv s) (ht : Turning s) : Progresses s (turn s) := by
  cases hp : s.phase with
  | dc => exact turn_dc_progresses h ht hp
  | ac => exact turn_ac_progresses h ht hp
  | recon => exact turn_recon_progresses h ht hp
  | drain => exact turn_drain_progresses ht hp

end

/-! ### A decode left to itself -/

theorem runDecode_succ {s t : State} (h : turn s = .next t) (n : Nat) : runDecode (n + 1) s = runDecode n t := by
  rw [runDecode, h]

theorem runDecode_rests {s : State} (h : Rests s) : ∀ n, runDecode n s = .next s := by
  intro n
  induction n with
  | zero => rfl
  | succ n ih => rw [runDecode_succ (turn_rests s h), ih]

/-- With as many turns as are left, a decode comes to rest (43 R176). -/
theorem runDecode_comes_to_rest : ∀ (n : Nat) {s : State}, Inv s → Rests s ∨ turnsLeft s ≤ n →
    ∃ t, runDecode n s = .next t ∧ Rests t := by
  intro n
  induction n with
  | zero =>
    intro s _ h
    refine ⟨s, rfl, h.resolve_right fun hle => ?_⟩
    have := drainCost_pos s
    unfold turnsLeft at hle
    omega
  | succ n ih =>
    intro s hs h
    by_cases hr : Rests s
    · exact ⟨s, runDecode_rests hr _, hr⟩
    · have ht : Turning s := turning_of_not_rests hr (hs.running (by
        by_contra hb
        exact hr (.inl hb))).checks
      obtain ⟨u, hn, hleft⟩ := turn_progresses hs ht
      have hu : Inv u := (turn_keepsInv hs).2 u hn
      have hle := h.resolve_left hr
      rw [runDecode_succ hn]
      exact ih hu (hleft.imp id fun hlt => by omega)

theorem runDecode_add {s t : State} {n : Nat} (h : runDecode n s = .next t) (k : Nat) :
    runDecode (n + k) s = runDecode k t := by
  induction n generalizing s with
  | zero =>
    cases h
    rw [Nat.zero_add]
  | succ n ih =>
    rw [Nat.add_right_comm]
    rw [runDecode] at h ⊢
    cases hn : turn s with
    | next u =>
      rw [hn] at h
      exact ih h
    | fault f =>
      rw [hn] at h
      cases h
    | refused e =>
      rw [hn] at h
      cases h

/-- A decode comes to rest in one state only, whatever the number of turns. -/
theorem rest_unique {s t t' : State} {n n' : Nat} (h : runDecode n s = .next t) (hr : Rests t)
    (h' : runDecode n' s = .next t') (hr' : Rests t') : t = t' := by
  have hsame : (.next t : Result) = .next t' := by
    calc .next t = runDecode (n + n') s := by rw [runDecode_add h, runDecode_rests hr]
      _ = runDecode (n' + n) s := by rw [Nat.add_comm]
      _ = .next t' := by rw [runDecode_add h', runDecode_rests hr']
  injection hsame

/-- Nothing of the agenda reaches the block's turn. -/
theorem turn_otherAgenda {s t : State} (h : turn s = .next t) (agenda : List Event) :
    turn { s with agenda := agenda } = .next { t with agenda := agenda } := by
  obtain ⟨ws, _, htm, hn⟩ := turn_sameElsewhere (mem := s.mem) (agenda := agenda) (fun _ _ _ => rfl) t h
  rw [← htm] at hn
  exact hn

theorem runDecode_otherAgenda {s t : State} {n : Nat} (h : runDecode n s = .next t) (agenda : List Event) :
    runDecode n { s with agenda := agenda } = .next { t with agenda := agenda } := by
  induction n generalizing s with
  | zero =>
    cases h
    rfl
  | succ n ih =>
    rw [runDecode] at h
    cases hn : turn s with
    | next u =>
      rw [hn] at h
      exact (runDecode_succ (turn_otherAgenda hn agenda) n).trans (ih h)
    | fault f =>
      rw [hn] at h
      cases h
    | refused e =>
      rw [hn] at h
      cases h

theorem run_succ_of_next {M : Host.Core} {s t : M.State} (h : M.step s = .next t) (n : Nat) :
    M.run (n + 1) s = M.run n t := by
  rw [Host.Core.run, h]

theorem run_succ_of_fault {M : Host.Core} {s : M.State} {f : M.Fault} (h : M.step s = .fault f) (n : Nat) :
    M.run (n + 1) s = .fault f := by
  rw [Host.Core.run, h]

theorem run_succ_of_refused {M : Host.Core} {s : M.State} {e : M.Refusal} (h : M.step s = .refused e) (n : Nat) :
    M.run (n + 1) s = .refused e := by
  rw [Host.Core.run, h]

theorem step_turn {s : State} (h : s.agenda = []) : step s = turn s := by
  rw [step, fetch, h, turn]

/-- With an empty agenda the machine's steps are the block's turns (log 3). -/
theorem runDecode_of_run {s t : State} {n : Nat} (hs : s.agenda = []) (h : core.run n s = .next t) :
    runDecode n s = .next t := by
  induction n generalizing s with
  | zero => exact h
  | succ n ih =>
    have hstep : core.step s = turn s := step_turn hs
    cases hn : turn s with
    | next u =>
      rw [hn] at hstep
      rw [runDecode_succ hn]
      exact ih ((turn_agenda hn).trans hs) ((run_succ_of_next hstep n).symm.trans h)
    | fault f =>
      rw [hn] at hstep
      exact nomatch (run_succ_of_fault hstep n).symm.trans h
    | refused e =>
      rw [hn] at hstep
      exact nomatch (run_succ_of_refused hstep n).symm.trans h

/-- The byte of a running decode is the one that stands there when the decode has reached DONE (log 15). -/
theorem blockByte_done {s t : State} {n : Nat} (h : Inv s) (hb : s.seq = .busy) (hn : runDecode n s = .next t)
    (hd : t.seq = .done) (a d : Nat) : blockByte a d s = Memory.read t.mem a := by
  obtain ⟨u, hu, hr⟩ := runDecode_comes_to_rest (turnBound s) h (.inr (turnsLeft_le_turnBound (h.running hb).position))
  have hrt : Rests t := .inl (by rw [hd]; decide)
  obtain rfl := rest_unique hu hr hn hrt
  rw [blockByte, hu]
  exact if_pos hd

end Sys2Proof.Machine
end

section
/-! PROOFS. The accesses of other agents to system memory and the platform's answers (20 R66, R70, R74). -/

namespace Sys2Proof.Machine

/-- A write that breaks no launch premise lands, and changes no other byte. -/
theorem hostMemWrite_lands {s : State} (hm : Memory.wf s.mem) {a : Word}
    (h : s.seq = .busy → inInput s a.toNat = false ∧ inOutput s a.toNat = false) (v : Byte) :
    ∃ mem, hostMemWrite a v s = .next { s with mem := mem } ∧ Memory.read mem a.toNat = v ∧
      ∀ x, x ≠ a.toNat → Memory.read mem x = Memory.read s.mem x := by
  have hin : ¬ (s.seq = .busy ∧ inInput s a.toNat = true) := fun g => by simp [h g.1] at g
  have hout : ¬ (s.seq = .busy ∧ inOutput s a.toNat = true) := fun g => by simp [h g.1] at g
  refine ⟨Memory.write s.mem a.toNat v, ?_, Memory.read_write_same _ _ _ hm.1,
    fun x hx => Memory.read_write_other _ _ _ _ hx⟩
  rw [hostMemWrite, if_neg hin, if_neg hout]

/-- A read of an output byte during a decode gives the byte before the decode or the block's (20 R70 item 5; log 15). -/
theorem hostMemRead_output {s : State} {a : Word} (hb : s.seq = .busy) (ho : inOutput s a.toNat = true) :
    ∃ x, hostMemRead a s = { s with memData := x, draws := s.draws + 2 } ∧
      (x = Memory.read s.before a.toNat ∨ x = blockByte a.toNat (s.draws + 1) s) := by
  refine ⟨_, if_pos ⟨hb, ho⟩, ?_⟩
  split
  · exact .inl rfl
  · exact .inr rfl

/-- Every other read gives the byte of memory. -/
theorem hostMemRead_plain {s : State} {a : Word} (h : s.seq = .busy → inOutput s a.toNat = false) :
    hostMemRead a s = { s with memData := Memory.read s.mem a.toNat } :=
  if_neg fun g => by simp [h g.1] at g

/-- The platform rejects an access exactly where a region of the list rejects its direction (20 R66; log 13). -/
theorem busRejects_iff (s : State) (write : Bool) (x : Nat) : busRejects s write x = true ↔ ∃ g ∈ s.busMap,
    g.base ≤ x ∧ x < g.base + g.size ∧ (write = true → g.rejectsWrites = true) ∧
      (write = false → g.rejectsReads = true) := by
  simp only [busRejects, List.any_eq_true, Bool.and_eq_true, decide_eq_true_eq, and_assoc]
  cases write <;> simp

/-- Settles O53: the byte that the block writes is well defined, since a decode comes to rest within its bound. -/
theorem otherAgentsShareTheMemory : Obligations.OtherAgentsShareTheMemory := by
  intro s rest a v regions hm
  refine ⟨fun hs => ?_, fun hs => ?_, fun hs => ?_⟩
  · have hstep : step s = hostMemWrite a v { s with agenda := rest } := step_event hs
    refine ⟨fun hb hin => ?_, fun hb hin hout => ?_, fun h => ?_⟩
    · exact hstep.trans (if_pos ⟨hb, hin⟩)
    · have hnin : ¬ (s.seq = .busy ∧ inInput s a.toNat = true) := fun g => by simp [hin] at g
      exact hstep.trans ((if_neg hnin).trans (if_pos ⟨hb, hout⟩))
    · obtain ⟨mem, hw, hread⟩ := hostMemWrite_lands (s := { s with agenda := rest }) hm h v
      exact ⟨mem, hstep.trans hw, hread⟩
  · have hstep : step s = .next (hostMemRead a { s with agenda := rest }) := step_event hs
    have plain : (s.seq = .busy → inOutput s a.toNat = false) →
        step s = .next { s with agenda := rest, memData := Memory.read s.mem a.toNat } := fun h =>
      hstep.trans (congrArg _ (hostMemRead_plain (s := { s with agenda := rest }) h))
    refine ⟨fun hb hout => ?_, fun _ hout => plain fun _ => hout, fun hb => plain fun h => absurd h hb⟩
    obtain ⟨x, hread, hx⟩ := hostMemRead_output (s := { s with agenda := rest }) hb hout
    refine ⟨x, hstep.trans (congrArg _ hread), fun hinv n t hrun hdone => hx.imp id fun hbyte => ?_⟩
    have hs' : Inv { s with agenda := rest } := hinv.unseen rfl
    have hdecode : runDecode n { s with agenda := [] } = .next t := runDecode_of_run rfl hrun
    rw [hbyte]
    exact blockByte_done hs' hb (runDecode_otherAgenda hdecode rest) hdone _ _
  · exact ⟨_, step_event hs, rfl, busRejects_iff { s with agenda := rest, busMap := regions }⟩

end Sys2Proof.Machine
end

section
/-! PROOFS. Decoding after encoding (O1): the round trips of Laws/PerInstr.lean, constructor by constructor. -/

namespace Sys2Proof.Machine

open Laws

/-- Settles O1, by the round trip of each constructor. -/
theorem decodeOfEncodeGivesTheInstruction : Obligations.DecodeOfEncodeGivesTheInstruction := by
  intro i
  cases i with
  | rdStatus => exact RoundTrip.rdStatus
  | rdInpos => exact RoundTrip.rdInpos
  | rdMcucnt => exact RoundTrip.rdMcucnt
  | rdPred j => exact RoundTrip.rdPred j
  | rd off => exact RoundTrip.rd off
  | wrCtrl d => exact RoundTrip.wrCtrl d
  | wrCmd d => exact RoundTrip.wrCmd d
  | wrFrameDim d => exact RoundTrip.wrFrameDim d
  | wrFrameCfg d => exact RoundTrip.wrFrameCfg d
  | wrFcomp0 d => exact RoundTrip.wrFcomp0 d
  | wrFcomp1 d => exact RoundTrip.wrFcomp1 d
  | wrFcomp2 d => exact RoundTrip.wrFcomp2 d
  | wrFcomp3 d => exact RoundTrip.wrFcomp3 d
  | wrScanCfg d => exact RoundTrip.wrScanCfg d
  | wrScomp j d => exact RoundTrip.wrScomp j d
  | wrInBase d => exact RoundTrip.wrInBase d
  | wrInLen d => exact RoundTrip.wrInLen d
  | wrOutBase d => exact RoundTrip.wrOutBase d
  | wrHtBits t n d => exact RoundTrip.wrHtBits t n d
  | wrHtVal t v d => exact RoundTrip.wrHtVal t v d
  | wrQtRam q k d => exact RoundTrip.wrQtRam q k d
  | wr off d => exact RoundTrip.wr off d
  | nop hint => exact RoundTrip.nop hint
  | start => exact RoundTrip.start
  | abort arg => exact RoundTrip.abort arg
  | ack arg => exact RoundTrip.ack arg
  | htCommit a8 => exact RoundTrip.htCommit a8
  | qtCommit a8 => exact RoundTrip.qtCommit a8
  | illegalStart arg => exact RoundTrip.illegalStart arg
  | illegalCommit qt argh a8 => exact RoundTrip.illegalCommit qt argh a8
  | reserved op argh a8 => exact RoundTrip.reserved op argh a8
  | dcSize0 => exact RoundTrip.dcSize0
  | dcSize n => exact RoundTrip.dcSize n
  | dcBad byte => exact RoundTrip.dcBad byte
  | eob => exact RoundTrip.eob
  | zrl => exact RoundTrip.zrl
  | runZero r => exact RoundTrip.runZero r
  | runSize r n => exact RoundTrip.runSize r n

end Sys2Proof.Machine
end

section
/-! PROOFS. Encoding after decoding (O2): every row of the decoder names the instruction whose encoding the word is, format
by format (30 R81, R83, R88, R89, R95). -/

namespace Sys2Proof.Machine

/-- i is well-formed and e is its encoding. -/
def EncodesTo (i : Instr) (e : Encoded) : Prop := i.wellFormed = true ∧ encode i = e

/-- One row of a decoder: its own instruction, and the rows after it. -/
theorem EncodesTo.ite {c : Prop} [Decidable c] {i j : Instr} {e : Encoded} (hi : c → EncodesTo i e)
    (hj : ¬ c → EncodesTo j e) : EncodesTo (if c then i else j) e :=
  iteInduction (motive := (EncodesTo · e)) hi hj

/-! ### Fields of an offset -/

/-- A word that reads c under a mask agrees with c on every field that the mask covers (30 R95). -/
theorem field_of_masked {n : Nat} {x mask c : BitVec n} (h : x &&& mask = c) (lo w : Nat)
    (hm : mask.extractLsb' lo w = BitVec.allOnes w) : x.toNat / 2 ^ lo % 2 ^ w = c.toNat / 2 ^ lo % 2 ^ w := by
  have hf : x.extractLsb' lo w = c.extractLsb' lo w := by
    rw [← h, BitVec.extractLsb'_and, hm, BitVec.and_allOnes]
  simpa [BitVec.extractLsb'_toNat, Nat.shiftRight_eq_div_pow] using congrArg BitVec.toNat hf

theorem offField_val (n : Nat) [NeZero n] (off : BitVec 16) (lo : Nat) :
    (offField n off lo).val = off.toNat / 2 ^ lo % n := by
  simp [offField, Nat.shiftRight_eq_div_pow]

theorem ofNat_eq_of_toNat {n v : Nat} {x : BitVec n} (h : v = x.toNat) : BitVec.ofNat n v = x := by
  rw [h, BitVec.ofNat_toNat, BitVec.setWidth_eq]

/-- An offset in a row of four registers, PRED0..3 or SCOMP0..3, is its base and the register's number (10 R20). -/
theorem fourRegisters_offset {off : BitVec 16} {base : Nat} (h : off &&& 0xFFF3#16 = BitVec.ofNat 16 base)
    (hbase : base % 16 = 0 ∧ base < 2 ^ 16) : BitVec.ofNat 16 (base + 4 * (offField 4 off 2).val) = off := by
  have high := field_of_masked h 4 12 (by decide)
  have low := field_of_masked h 0 2 (by decide)
  refine ofNat_eq_of_toNat ?_
  simp only [offField_val, BitVec.toNat_ofNat] at *
  omega

/-- An HT_BITS offset is its base, its table and its code length (10 R36). -/
theorem htBits_offset {off : BitVec 16} (h : off &&& 0xC7C3#16 = 0x4000#16) :
    BitVec.ofNat 16 (0x4000 + 0x800 * (offField 8 off 11).val + 4 * (offField 16 off 2).val) = off := by
  have high := field_of_masked h 14 2 (by decide)
  have mid := field_of_masked h 6 5 (by decide)
  have low := field_of_masked h 0 2 (by decide)
  refine ofNat_eq_of_toNat ?_
  simp only [offField_val, BitVec.toNat_ofNat] at *
  omega

/-- An HT_VAL offset is its base, its table and its entry (10 R36). -/
theorem htVal_offset {off : BitVec 16} (h : off &&& 0xC403#16 = 0x4400#16) :
    BitVec.ofNat 16 (0x4000 + 0x800 * (offField 8 off 11).val + 0x400 + 4 * (offField 256 off 2).val) = off := by
  have high := field_of_masked h 14 2 (by decide)
  have mid := field_of_masked h 10 1 (by decide)
  have low := field_of_masked h 0 2 (by decide)
  refine ofNat_eq_of_toNat ?_
  simp only [offField_val, BitVec.toNat_ofNat] at *
  omega

/-- A QT_RAM offset is its base, its table and its entry (10 R37). -/
theorem qtRam_offset {off : BitVec 16} (h : off &&& 0xFC03#16 = 0x8000#16) :
    BitVec.ofNat 16 (0x8000 + 0x100 * (offField 4 off 8).val + 4 * (offField 64 off 2).val) = off := by
  have high := field_of_masked h 10 6 (by decide)
  have low := field_of_masked h 0 2 (by decide)
  refine ofNat_eq_of_toNat ?_
  simp only [offField_val, BitVec.toNat_ofNat] at *
  omega

/-! ### Register accesses -/

/-- Every aligned read is the encoding of its row; the catch-all row takes what the rows before it leave (30 R95). -/
theorem decodeRd_encodesTo {off : BitVec 16} (ha : off &&& 0x3#16 = 0#16) : EncodesTo (decodeRd off) (encRd off) := by
  refine .ite (· ▸ ⟨rfl, rfl⟩) fun status => ?_
  refine .ite (· ▸ ⟨rfl, rfl⟩) fun inpos => ?_
  refine .ite (· ▸ ⟨rfl, rfl⟩) fun mcucnt => ?_
  refine .ite (fun h => ⟨rfl, congrArg encRd (fourRegisters_offset h (by decide))⟩) fun pred => ?_
  exact ⟨by simp [Instr.wellFormed, rdOffsetFree, *], rfl⟩

/-- Every aligned write is the encoding of its row; the catch-all row takes what the rows before it leave (30 R95). -/
theorem decodeWr_encodesTo {off : BitVec 16} (ha : off &&& 0x3#16 = 0#16) (d : Word) :
    EncodesTo (decodeWr off d) (encWr off d) := by
  refine .ite (· ▸ ⟨rfl, rfl⟩) fun ctrl => ?_
  refine .ite (· ▸ ⟨rfl, rfl⟩) fun cmd => ?_
  refine .ite (· ▸ ⟨rfl, rfl⟩) fun frameDim => ?_
  refine .ite (· ▸ ⟨rfl, rfl⟩) fun frameCfg => ?_
  refine .ite (· ▸ ⟨rfl, rfl⟩) fun fcomp0 => ?_
  refine .ite (· ▸ ⟨rfl, rfl⟩) fun fcomp1 => ?_
  refine .ite (· ▸ ⟨rfl, rfl⟩) fun fcomp2 => ?_
  refine .ite (· ▸ ⟨rfl, rfl⟩) fun fcomp3 => ?_
  refine .ite (· ▸ ⟨rfl, rfl⟩) fun scanCfg => ?_
  refine .ite (fun h => ⟨rfl, congrArg (encWr · d) (fourRegisters_offset h (by decide))⟩) fun scomp => ?_
  refine .ite (· ▸ ⟨rfl, rfl⟩) fun inBase => ?_
  refine .ite (· ▸ ⟨rfl, rfl⟩) fun inLen => ?_
  refine .ite (· ▸ ⟨rfl, rfl⟩) fun outBase => ?_
  refine .ite (fun h => ⟨rfl, congrArg (encWr · d) (htBits_offset h)⟩) fun htBits => ?_
  refine .ite (fun h => ⟨rfl, congrArg (encWr · d) (htVal_offset h)⟩) fun htVal => ?_
  refine .ite (fun h => ⟨rfl, congrArg (encWr · d) (qtRam_offset h)⟩) fun qtRam => ?_
  exact ⟨by simp [Instr.wellFormed, wrOffsetFree, *], rfl⟩

/-- An access that decodes is an aligned word, and the row of its direction (20 R61, 30 R81). -/
theorem decodeAccess_ok {a : Access} {i : Instr} (h : decodeAccess a = .ok i) :
    a.bytes = 4 ∧ a.off &&& 0x3#16 = 0#16 ∧
      ((a.dir = .rd ∧ decodeRd a.off = i) ∨ (a.dir = .wr ∧ decodeWr a.off a.data = i)) := by
  unfold decodeAccess at h
  split_ifs at h with hb ha
  refine ⟨not_not.1 hb, not_not.1 ha, ?_⟩
  cases hd : a.dir with
  | rd => exact .inl ⟨rfl, by simpa [hd] using h⟩
  | wr => exact .inr ⟨rfl, by simpa [hd] using h⟩

/-! ### Command words and symbol bytes -/

/-- A command word is its three fields (30 R82). -/
theorem cmdWord_fields (w : Word) : cmdWord (cmdOp w) (cmdArgh w) (cmdArg8 w) = w := by
  unfold cmdWord cmdOp cmdArgh cmdArg8
  rw [BitVec.extractLsb'_append_extractLsb'_eq_extractLsb' (show 24 = 8 + 16 from rfl),
    BitVec.extractLsb'_append_extractLsb'_eq_extractLsb' (show 8 = 0 + 8 from rfl)]
  exact extract_all w

/-- The opcodes without a row of their own are the reserved ones (30 R83, R86). -/
theorem reservedOp_of_ne : ∀ op : Byte, op ≠ 0x00#8 ∧ op ≠ 0x01#8 ∧ op ≠ 0x02#8 ∧ op ≠ 0x03#8 ∧ op ≠ 0x10#8 ∧
    op ≠ 0x11#8 → reservedOp op = true := by decide

/-- Every command word is the encoding of its row: each row keeps the argument bits that its fields leave open (30 R83). -/
theorem decodeCommand_encodesTo (w : Word) : EncodesTo (decodeCommand w) (.cmd w) := by
  have whole {op : Byte} (h : cmdOp w = op) : Encoded.cmd (op ++ cmdArg w) = .cmd w := by
    rw [← h, ← Laws.cmdWord_split]
  have fields {op : Byte} {argh : Half} (h : cmdOp w = op) (ha : cmdArgh w = argh) :
      Encoded.cmd (cmdWord op argh (cmdArg8 w)) = .cmd w := by rw [← h, ← ha, cmdWord_fields]
  unfold decodeCommand
  split_ifs with nop start abort ack htCommit qtCommit illegalStart illegalHt illegalQt
  · exact ⟨rfl, whole nop⟩
  · exact start ▸ ⟨rfl, rfl⟩
  · exact ⟨rfl, whole abort⟩
  · exact ⟨rfl, whole ack⟩
  · exact ⟨rfl, fields htCommit.1 htCommit.2⟩
  · exact ⟨rfl, fields qtCommit.1 qtCommit.2⟩
  · exact ⟨bne_iff_ne.2 fun h => start ((Laws.eq_start_iff w).2 ⟨illegalStart, h⟩), whole illegalStart⟩
  · exact ⟨bne_iff_ne.2 fun h => htCommit ⟨illegalHt, h⟩, fields illegalHt rfl⟩
  · exact ⟨bne_iff_ne.2 fun h => qtCommit ⟨illegalQt, h⟩, fields illegalQt rfl⟩
  · exact ⟨reservedOp_of_ne _ ⟨nop, illegalStart, abort, ack, illegalHt, illegalQt⟩, fields rfl rfl⟩

/-- Every DC symbol byte is the encoding of its row (30 R88). -/
theorem decodeDc_encodesTo (b : Byte) : EncodesTo (decodeDc b) (.dcSymbol b) := by
  revert b
  unfold EncodesTo
  decide

/-- Every AC symbol byte is the encoding of its row (30 R89). -/
theorem decodeAc_encodesTo (b : Byte) : EncodesTo (decodeAc b) (.acSymbol b) := by
  revert b
  unfold EncodesTo
  decide

/-- Settles O2, format by format; the data of a read is the one part of a word that no row keeps. -/
theorem encodeOfDecodeGivesTheWord : Obligations.EncodeOfDecodeGivesTheWord := by
  intro e i h
  cases e with
  | mmio a =>
    obtain ⟨dir, off, bytes, d⟩ := a
    obtain ⟨rfl, ha, ⟨rfl, rfl⟩ | ⟨rfl, rfl⟩⟩ := decodeAccess_ok h
    · exact (decodeRd_encodesTo ha).imp_right fun he => .inr ⟨off, d, rfl, he⟩
    · exact (decodeWr_encodesTo ha d).imp_right .inl
  | cmd w =>
    obtain rfl := Except.ok.inj h
    exact (decodeCommand_encodesTo w).imp_right .inl
  | dcSymbol b =>
    obtain rfl := Except.ok.inj h
    exact (decodeDc_encodesTo b).imp_right .inl
  | acSymbol b =>
    obtain rfl := Except.ok.inj h
    exact (decodeAc_encodesTo b).imp_right .inl

end Sys2Proof.Machine
end

section
/-! PROOFS. The fields of the frame and scan registers (O4): a register put together from its fields reads each of them back
(30 R87). -/

namespace Sys2Proof.Machine

theorem frameDim_fields {s : State} {height width : Half} (h : s.frameDim = height ++ width) :
    frameY s = height.toNat ∧ frameX s = width.toNat := by
  simp (disch := decide) only [frameY, frameX, h, extract_append_high, extract_append_low, extract_all, Nat.reduceSub,
    and_self]

theorem frameCfg_fields {s : State} {nf p : Byte} (h : s.frameCfg = 0#16 ++ nf ++ p) :
    frameNf s = nf.toNat ∧ frameP s = p := by
  simp (disch := decide) only [frameNf, frameNfByte, frameP, h, extract_append_high, extract_append_low, extract_all,
    Nat.reduceSub, and_self]

theorem fcomp_fields {s : State} {c : Fin 4} {tq id : Byte} {h v : BitVec 4}
    (hr : s.fcomp.get c = 0#8 ++ tq ++ h ++ v ++ id) :
    fcompTq s c = tq.toNat ∧ fcompH s c = h ∧ fcompV s c = v ∧ fcompId s c = id := by
  simp (disch := decide) only [fcompTq, fcompH, fcompV, fcompId, hr, extract_append_high, extract_append_low,
    extract_all, Nat.reduceSub, and_self]

theorem scanCfg_fields {s : State} {ns : Byte} (h : s.scanCfg = 0#24 ++ ns) : scanNs s = ns.toNat := by
  simp (disch := decide) only [scanNs, scanNsByte, h, extract_append_low, extract_all]

theorem scomp_fields {s : State} {c : Fin 4} {td ta : BitVec 4} {cs : Byte}
    (h : s.scomp.get c = 0#16 ++ td ++ ta ++ cs) :
    scompTd s c = td.toNat ∧ scompTa s c = ta.toNat ∧ scompId s c = cs := by
  simp (disch := decide) only [scompTd, scompTa, scompId, h, extract_append_high, extract_append_low, extract_all,
    Nat.reduceSub, and_self]

/-- Settles O4, register by register. -/
theorem frameAndScanFieldsReadBack : Obligations.FrameAndScanFieldsReadBack := by
  unfold Obligations.FrameAndScanFieldsReadBack
  intros
  exact ⟨frameDim_fields, frameCfg_fields, fcomp_fields, scanCfg_fields, scomp_fields⟩

end Sys2Proof.Machine
end

section
/-! PROOFS. What a step runs (O6): the instruction at the head of the agenda, or the block's turn (30 R81, R82; log 3). -/

namespace Sys2Proof.Machine

theorem fetchEvent_access {a : Access} {i : Instr} (h : decode (.mmio a) = .ok i) (s : State) :
    fetchEvent (.access a) s = answered i s := by
  rw [decode] at h
  rw [fetchEvent, fetchAccess, h]

theorem fetchEvent_command {w : Word} {i : Instr} (h : decode (.cmd w) = .ok i) (s : State) :
    fetchEvent (.command w) s = answered i s := by
  rw [fetchEvent, Except.ok.inj h]

/-- A step with an event of the host at the head of the agenda runs its instruction, or nothing while reset is asserted
(70 R240; log 25). -/
theorem step_answered {s : State} {e : Event} {rest : List Event} {i : Instr} (hs : s.agenda = e :: rest)
    (he : ∀ t, fetchEvent e t = answered i t) :
    (s.resetAsserted = false → step s = exec i { s with agenda := rest }) ∧
    (s.resetAsserted = true → step s = .next { s with agenda := rest }) := by
  rw [step_event hs, he]
  exact ⟨perform_answered (s := { s with agenda := rest }) i,
    perform_unanswered (s := { s with agenda := rest }) i⟩

/-- Settles O6: both events of the host are answered with the instruction that their word decodes to. -/
theorem stepRunsTheDecodedInstruction : Obligations.StepRunsTheDecodedInstruction :=
  fun _ _ _ => ⟨fun _ hs hd => step_answered hs (fetchEvent_access hd),
    fun _ hs hd => step_answered hs (fetchEvent_command hd), step_event, step_turn⟩

end Sys2Proof.Machine
end

section
/-! PROOFS. Register reads (O8 to O10): the register an offset names, the status word bit by bit, and the progress registers
in and outside BUSY (40 R101, R107, R108). -/

namespace Sys2Proof.Machine

/-- RD reads the register that an aligned offset names (40 R101). -/
theorem exec_rd_at {off : BitVec 16} {r : Reg} (h : aligned off = true ∧ regAt off = r) (s : State) :
    exec (.rd off) s = .next (readReg r s) := by
  obtain ⟨ha, rfl⟩ := h
  exact if_pos ha

/-- Settles O8: the register map gives the register, and the read of that register gives the value. -/
theorem readReturnsTheRegister : Obligations.ReadReturnsTheRegister := by
  intro s
  have errcode : readReg .errcode s = { s with readData := 0#28 ++ s.errcode } :=
    congrArg (answer · s) (setWidth_eq_append (n := 28) s.errcode)
  have byte (v : Byte) : answer (v.zeroExtend 32) s = { s with readData := 0#24 ++ v } :=
    congrArg (answer · s) (setWidth_eq_append (n := 24) v)
  have half (v : Half) : answer (v.zeroExtend 32) s = { s with readData := 0#16 ++ v } :=
    congrArg (answer · s) (setWidth_eq_append (n := 16) v)
  refine ⟨?_, ⟨tvalidWord s, exec_rd_at (r := .tvalid) (by decide) s, tvalidWord_ht s, tvalidWord_qt s,
      tvalidWord_reserved s⟩, exec_rd_at (r := .status) (by decide) s, exec_rd_at (r := .inpos) (by decide) s,
    exec_rd_at (r := .mcucnt) (by decide) s, fun j => exec_rd_at (regAt_pred j) s,
    fun t i => (exec_rd_at (regAt_htBits t i) s).trans (congrArg _ (byte _)),
    fun t v => (exec_rd_at (regAt_htVal t v) s).trans (congrArg _ (byte _)),
    fun q k => (exec_rd_at (regAt_qtRam q k) s).trans (congrArg _ (half _)),
    fun off h4 h => exec_rd_at (regAt_reserved off h4 h) s⟩
  refine (Prod.forall (p := fun p => p ∈ _ → exec (.rd p.1) s = .next { s with readData := p.2 })).1 ?_
  simp only [List.forall_mem_cons]
  exact ⟨exec_rd_at (r := .id) (by decide) s, exec_rd_at (r := .ctrl) (by decide) s,
    exec_rd_at (r := .cmd) (by decide) s, (exec_rd_at (r := .errcode) (by decide) s).trans (congrArg _ errcode),
    exec_rd_at (r := .errinfo) (by decide) s, exec_rd_at (r := .errpos) (by decide) s,
    exec_rd_at (r := .frameDim) (by decide) s, exec_rd_at (r := .frameCfg) (by decide) s,
    exec_rd_at (r := .fcomp 0) (by decide) s, exec_rd_at (r := .fcomp 1) (by decide) s,
    exec_rd_at (r := .fcomp 2) (by decide) s, exec_rd_at (r := .fcomp 3) (by decide) s,
    exec_rd_at (r := .scanCfg) (by decide) s,
    exec_rd_at (r := .scomp 0) (by decide) s, exec_rd_at (r := .scomp 1) (by decide) s,
    exec_rd_at (r := .scomp 2) (by decide) s, exec_rd_at (r := .scomp 3) (by decide) s,
    exec_rd_at (r := .inBase) (by decide) s, exec_rd_at (r := .inLen) (by decide) s,
    exec_rd_at (r := .outBase) (by decide) s, List.forall_mem_nil _⟩

/-! ### The status word (40 R107) -/

theorem statusWord_state (s : State) : (statusWord s).extractLsb' 0 2 = encSeq s.seq := by
  rw [statusWord, extract_append_low _ _ _ _ (by decide), extract_all]

theorem statusWord_flags (s : State) : (statusWord s).getLsbD 2 = irq s ∧ (statusWord s).getLsbD 3 = s.ign ∧
    (statusWord s).getLsbD 4 = s.mkrValid := by
  simp only [statusWord, BitVec.getLsbD_append]
  simp

theorem statusWord_marker (s : State) : (statusWord s).extractLsb' 8 8 = s.mkr := by
  simp (disch := decide) only [statusWord, extract_append_high, extract_append_low, Nat.reduceSub, extract_all]

theorem statusWord_zeros (s : State) :
    (statusWord s).extractLsb' 5 3 = 0#3 ∧ (statusWord s).extractLsb' 16 16 = 0#16 := by
  simp (disch := decide) only [statusWord, extract_append_high, extract_append_low, Nat.reduceSub, extract_all, and_self]

theorem irq_iff (s : State) : irq s = true ↔ s.irqEn = true ∧ (s.seq = .done ∨ s.seq = .error) := by
  simp [irq]

/-- In a running decode nothing is reported but IGN (40 R107). -/
theorem statusWord_running {s : State} (h : Running s) (hb : s.seq = .busy) :
    statusWord s = 0#28 ++ BitVec.ofBool s.ign ++ 1#3 := by
  obtain ⟨_, _, _, _, hvalid, hmkr⟩ := h.unreported
  rw [statusWord, irq, hmkr, hvalid, hb]
  cases s.ign <;> cases s.irqEn <;> decide

/-- Settles O9, field by field of the status word. -/
theorem statusReadsTheStatusWord : Obligations.StatusReadsTheStatusWord := by
  intro s
  obtain ⟨hirq, hign, hvalid⟩ := statusWord_flags s
  obtain ⟨hlow, hhigh⟩ := statusWord_zeros s
  exact ⟨statusWord s, rfl, statusWord_state s, hirq ▸ irq_iff s, hign, hvalid, hlow, statusWord_marker s, hhigh,
    fun hi hb => statusWord_running (hi.running hb) hb⟩

/-! ### The progress registers (40 R108) -/

theorem answerProgress_busy {s : State} (h : s.seq = .busy) (value free : Word) :
    answerProgress value free s = { s with readData := free, draws := s.draws + 1 } := if_pos h

theorem answerProgress_rest {s : State} (h : s.seq ≠ .busy) (value free : Word) :
    answerProgress value free s = { s with readData := value } := if_neg h

/-- Settles O10: the three reads are one read, by whether the block is BUSY. -/
theorem progressReadsAreFreeWhileBusy : Obligations.ProgressReadsAreFreeWhileBusy := fun _ =>
  ⟨fun h => ⟨congrArg _ (answerProgress_rest h _ _), congrArg _ (answerProgress_rest h _ _),
      fun _ => congrArg _ (answerProgress_rest h _ _)⟩,
    fun h => ⟨congrArg _ (answerProgress_busy h _ _), congrArg _ (answerProgress_busy h _ _),
      fun _ => congrArg _ (answerProgress_busy h _ _)⟩⟩

end Sys2Proof.Machine
end

section
/-! PROOFS. Register writes (O11 to O14): the dispatch over the register map, CTRL, the configuration registers and the
staging RAMs (40 R102 to R106). -/

namespace Sys2Proof.Machine

/-- WR writes the register that an aligned offset names (40 R102). -/
theorem exec_wr_at {off : BitVec 16} {r : Reg} (h : aligned off = true ∧ regAt off = r) (d : Word) (s : State) :
    exec (.wr off d) s = writeReg r d s := by
  obtain ⟨ha, rfl⟩ := h
  exact if_pos ha

/-- The registers that a write leaves alone: the read-only ones, and what no register stands at (10 R20). -/
def Reg.readOnly : Reg → Bool
  | .id | .status | .errcode | .errinfo | .errpos | .inpos | .mcucnt | .tvalid | .pred _ | .reserved => true
  | _ => false

/-- A write to a read-only register has no effect, not even on IGN (40 R102). -/
theorem writeReg_readOnly {r : Reg} (h : r.readOnly = true) (d : Word) (s : State) : writeReg r d s = .next s := by
  cases r with
  | id | status | errcode | errinfo | errpos | inpos | mcucnt | tvalid | pred | reserved => rfl
  | ctrl | cmd | frameDim | frameCfg | fcomp | scanCfg | scomp | inBase | inLen | outBase | htBits | htVal | qtRam =>
    cases h

theorem regAt_readOnly : ([0x000#16, 0x00C#16, 0x010#16, 0x014#16, 0x018#16, 0x01C#16, 0x020#16, 0x05C#16, 0x060#16,
    0x064#16, 0x068#16, 0x06C#16].all fun off => aligned off && (regAt off).readOnly) = true := by decide

/-- Settles O11: the register map gives the register, and each register's write is the instruction's own. -/
theorem writeDispatchesByOffset : Obligations.WriteDispatchesByOffset := by
  intro s d
  refine ⟨exec_wr_at (r := .ctrl) (by decide) d s, exec_wr_at (r := .cmd) (by decide) d s,
    exec_wr_at (r := .frameDim) (by decide) d s, exec_wr_at (r := .frameCfg) (by decide) d s,
    exec_wr_at (r := .fcomp 0) (by decide) d s, exec_wr_at (r := .fcomp 1) (by decide) d s,
    exec_wr_at (r := .fcomp 2) (by decide) d s, exec_wr_at (r := .fcomp 3) (by decide) d s,
    exec_wr_at (r := .scanCfg) (by decide) d s, fun j => exec_wr_at (regAt_scomp j) d s,
    exec_wr_at (r := .inBase) (by decide) d s, exec_wr_at (r := .inLen) (by decide) d s,
    exec_wr_at (r := .outBase) (by decide) d s, fun t i => exec_wr_at (regAt_htBits t i) d s,
    fun t v => exec_wr_at (regAt_htVal t v) d s, fun q k => exec_wr_at (regAt_qtRam q k) d s, ?_,
    fun off h4 h => exec_wr_at (regAt_reserved off h4 h) d s⟩
  intro off hoff
  obtain ⟨ha, hr⟩ := Bool.and_eq_true_iff.1 (List.all_eq_true.1 regAt_readOnly off hoff)
  exact (exec_wr_at ⟨ha, rfl⟩ d s).trans (writeReg_readOnly hr d s)

/-! ### CTRL (40 R103) -/

/-- The low two bits of a word are a given pair. -/
theorem lowBits_eq_iff (d : Word) (a b : Bool) :
    d.extractLsb' 0 2 = BitVec.ofBool a ++ BitVec.ofBool b ↔ d.getLsbD 1 = a ∧ d.getLsbD 0 = b := by
  have h : d.extractLsb' 0 2 = BitVec.ofBool (d.getLsbD 1) ++ BitVec.ofBool (d.getLsbD 0) := by
    apply BitVec.eq_of_getLsbD_eq
    intro i hi
    simp only [BitVec.getLsbD_append, BitVec.getLsbD_extractLsb']
    interval_cases i <;> simp
  rw [h]
  generalize d.getLsbD 1 = x, d.getLsbD 0 = y
  revert x y a b
  decide

/-- IGN after a write of CTRL while BUSY: set where one of the two mode bits would change. -/
theorem ign_of_modeBits (d : Word) (ign sat rgbEn : Bool) :
    (ign || d.getLsbD 0 != rgbEn || d.getLsbD 1 != sat) =
      if d.extractLsb' 0 2 = BitVec.ofBool sat ++ BitVec.ofBool rgbEn then ign else true := by
  simp only [lowBits_eq_iff]
  generalize d.getLsbD 0 = x, d.getLsbD 1 = y
  revert ign sat rgbEn x y
  decide

/-- Settles O12: the two cases of the write, BUSY or not. -/
theorem controlWriteKeepsTheModeWhileBusy : Obligations.ControlWriteKeepsTheModeWhileBusy := by
  intro s d
  show Host.Outcome.next (writeCtrl d s) = _
  rw [writeCtrl, ign_of_modeBits]

/-! ### The configuration registers (40 R104) -/

theorem configIgnored_iff (s : State) : configIgnored s = true ↔
    s.seq = .busy ∨ (s.seq = .done ∨ s.seq = .error) ∧ s.params.pCfgWrites = .ignored := by
  unfold configIgnored
  cases s.seq <;> simp

theorem writeConfig_ignored {s : State} (h : configIgnored s = true) (r : Reg) (d : Word) :
    writeConfig r d s = { s with ign := true } := if_pos h

theorem writeConfig_taken {s : State} (h : ¬ configIgnored s = true) (r : Reg) (d : Word) :
    writeConfig r d s = setConfig r (d &&& fieldMask r) s := if_neg h

/-- A register without reserved bits stores the whole word. -/
theorem writeConfig_whole {s : State} (h : ¬ configIgnored s = true) {r : Reg} (hr : fieldMask r = 0xFFFFFFFF#32)
    (d : Word) : writeConfig r d s = setConfig r d s := by
  rw [writeConfig_taken h, hr, show 0xFFFFFFFF#32 = BitVec.allOnes 32 from rfl, BitVec.and_allOnes]

/-- Settles O13: each of the instructions is the one configuration write, for its own register. -/
theorem configurationWritesAreIgnoredWhileBusy : Obligations.ConfigurationWritesAreIgnoredWhileBusy := by
  intro s d ignoring
  refine ⟨fun hi => ?_, rfl, fun hi => ?_⟩
  · have ignores (r : Reg) : Host.Outcome.next (writeConfig r d s) = (.next { s with ign := true } : Result) :=
      congrArg _ (writeConfig_ignored ((configIgnored_iff s).2 hi) r d)
    simp only [List.forall_mem_cons]
    exact ⟨ignores .frameDim, ignores .frameCfg, ignores (.fcomp 0), ignores (.fcomp 1), ignores (.fcomp 2),
      ignores (.fcomp 3), ignores .scanCfg, ignores (.scomp 0), ignores (.scomp 1), ignores (.scomp 2),
      ignores (.scomp 3), ignores .inBase, ignores .inLen, ignores .outBase, List.forall_mem_nil _⟩
  · have hc := mt (configIgnored_iff s).1 hi
    have masked (r : Reg) : Host.Outcome.next (writeConfig r d s) = (.next (setConfig r (d &&& fieldMask r) s) : Result) :=
      congrArg _ (writeConfig_taken hc r d)
    have whole (r : Reg) (hr : fieldMask r = 0xFFFFFFFF#32) :
        Host.Outcome.next (writeConfig r d s) = (.next (setConfig r d s) : Result) :=
      congrArg _ (writeConfig_whole hc hr d)
    exact ⟨whole .frameDim rfl, masked .frameCfg, masked (.fcomp 0), masked (.fcomp 1), masked (.fcomp 2),
      masked (.fcomp 3), masked .scanCfg, fun j => masked (.scomp j), whole .inBase rfl, whole .inLen rfl,
      whole .outBase rfl⟩

/-! ### The staging RAMs (40 R105, R106) -/

/-- What an entry reads as after a write: the written value at its key, and at every other key what it held. -/
theorem ramRead_ramWrite {w : Nat} (ram : List (Nat × BitVec w)) (key x : Nat) (v d : BitVec w) :
    ramRead (ramWrite ram key v) x d = if x = key then v else ramRead ram x d := by
  split
  · rename_i h
    rw [h, ramRead_ramWrite_same]
  · rename_i h
    exact ramRead_ramWrite_other ram key x v d h

theorem countKey_inj (t t' : Fin 8) (i i' : Fin 16) : countKey t' i'.val = countKey t i.val ↔ t' = t ∧ i' = i := by
  simp only [countKey, Fin.ext_iff]
  omega

theorem valueKey_inj (t t' : Fin 8) (v v' : Fin 256) : valueKey t' v'.val = valueKey t v.val ↔ t' = t ∧ v' = v := by
  simp only [valueKey, Fin.ext_iff]
  omega

theorem quantKey_inj (q q' : Fin 4) (k k' : Fin 64) : quantKey q' k'.val = quantKey q k.val ↔ q' = q ∧ k' = k := by
  simp only [quantKey, Fin.ext_iff]
  omega

/-- Settles O14: a write reads back at its own key, and every entry has a key of its own. -/
theorem stagingWritesReadBack : Obligations.StagingWritesReadBack := by
  refine fun s d => ⟨fun t i => ⟨_, rfl, fun t' i' => ?_⟩, fun t v => ⟨_, rfl, fun t' v' => ?_⟩,
    fun q k => ⟨_, rfl, fun q' k' => ?_⟩⟩
  · simp only [stagedCountOf, ramRead_ramWrite, countKey_inj]
  · simp only [stagedValueOf, ramRead_ramWrite, valueKey_inj]
  · simp only [stagedQuantOf, ramRead_ramWrite, quantKey_inj]

end Sys2Proof.Machine
end

section
/-! PROOFS. The commands (O15 to O18): WR CMD runs what its word decodes to, which states accept a command, the errors of
illegal words, and ABORT (40 R109, R110, R124, R125, R128). -/

namespace Sys2Proof.Machine

/-- A command that runs in IDLE only, in IDLE (40 R109). -/
theorem inIdle_idle {s : State} (h : s.seq = .idle) (r : Result) : inIdle s r = r := if_pos h

/-- A command that runs in IDLE only, in another state (40 R109). -/
theorem inIdle_ignored {s : State} (h : s.seq ≠ .idle) (r : Result) : inIdle s r = .next { s with ign := true } := if_neg h

/-- A command whose answer in IDLE completes, completes in every state. -/
theorem inIdle_completes (s t : State) : ∃ u, inIdle s (.next t) = .next u := by
  unfold inIdle
  split
  · exact ⟨t, rfl⟩
  · exact ⟨_, rfl⟩

/-! ### WR CMD -/

/-- DISPATCH and the decoder read a command word alike (30 R83, 40 R109). -/
theorem dispatchCommand_eq_exec (w : Word) (s : State) : dispatchCommand w s = exec (decodeCommand w) s := by
  unfold dispatchCommand decodeCommand
  simp only [Laws.eq_start_iff]
  by_cases hnop : cmdOp w = 0x00#8
  · simp only [hnop, if_true]
    rfl
  by_cases habort : cmdOp w = 0x02#8
  · simp [habort]
    rfl
  by_cases hack : cmdOp w = 0x03#8
  · simp [hack]
    rfl
  by_cases hstart : cmdOp w = 0x01#8
  · by_cases harg : cmdArg w = 0#24 <;> simp [hstart, harg] <;> rfl
  by_cases hht : cmdOp w = 0x10#8
  · by_cases harg : cmdArgh w = 0#16 <;> simp [hht, harg] <;> rfl
  by_cases hqt : cmdOp w = 0x11#8
  · by_cases harg : cmdArgh w = 0#16 <;> simp [hqt, harg] <;> rfl
  · simp [hnop, habort, hack, hstart, hht, hqt]
    rfl

theorem execAck_completes (arg : BitVec 24) (s : State) : ∃ t, execAck arg s = .next t := by
  unfold execAck
  cases s.seq <;> exact ⟨_, rfl⟩

/-- Only the START of a launch can be refused, and START runs in IDLE only (log 14). -/
theorem dispatchCommand_completes {w : Word} {s : State} (h : s.seq ≠ .idle ∨ w ≠ 0x01000000#32) :
    ∃ t, dispatchCommand w s = .next t := by
  unfold dispatchCommand
  split_ifs with hnop habort hack hstart harg
  · exact ⟨s, rfl⟩
  · exact ⟨_, rfl⟩
  · exact execAck_completes _ s
  · exact inIdle_completes s _
  · have hw : w = 0x01000000#32 := (Laws.eq_start_iff w).2 ⟨hstart, not_not.1 harg⟩
    exact ⟨_, inIdle_ignored (h.resolve_right (not_not_intro hw)) _⟩
  all_goals exact inIdle_completes s _

/-- Settles O15: the dispatch of WR CMD is the decoder's, command by command. -/
theorem commandWriteRunsTheCommand : Obligations.CommandWriteRunsTheCommand := by
  intro s w
  refine ⟨fun i hi => ?_, dispatchCommand_completes, fun hnop => if_pos hnop⟩
  obtain rfl := Except.ok.inj hi
  exact dispatchCommand_eq_exec w s

/-! ### Acceptance and illegal words -/

theorem execAck_busy {s : State} (h : s.seq = .busy) (arg : BitVec 24) : execAck arg s = .next (ignored s) := by
  rw [execAck, h]

theorem execAck_idle {s : State} (h : s.seq = .idle) (arg : BitVec 24) : execAck arg s = .next s := by
  rw [execAck, h]

theorem execAck_ended {s : State} (h : s.seq = .done ∨ s.seq = .error) (arg : BitVec 24) :
    execAck arg s = .next { s with seq := .idle, ign := false } := by
  rcases h with h | h <;> rw [execAck, h] <;> rfl

/-- Settles O16: NOP and ACK state by state; the other commands of the matrix run in IDLE only. -/
theorem commandsAreAcceptedByState : Obligations.CommandsAreAcceptedByState := by
  intro s arg qt op a8 argh
  refine ⟨rfl, fun h => execAck_ended h arg, fun h => execAck_idle h arg, fun h => execAck_busy h arg, fun h => ?_⟩
  have ignores := inIdle_ignored h
  simp only [List.forall_mem_cons]
  exact ⟨ignores _, ignores _, ignores _, ignores _, ignores _, ignores _, List.forall_mem_nil _⟩

/-- ERRINFO is its origin and detail, and then its unit (60 R222). -/
theorem info_of_front {e : Err} {front : BitVec 24} (h : e.origin.num ++ 0#8 ++ e.detail = front) :
    e.info = front ++ e.unit :=
  congrArg (· ++ e.unit) h

theorem illegalErr_info (op : Byte) : (illegalErr op 0#8).info = 0x040000#24 ++ op :=
  info_of_front (show 4#8 ++ 0#8 ++ 0#8 = 0x040000#24 by decide)

/-- A command that only raises an error, in IDLE (40 R128, 60 R224). -/
theorem inIdle_raises {s : State} (h : s.seq = .idle) {e : Err} (he : e.origin.inDecode = false) {info : Word}
    (hi : e.info = info) : inIdle s (.next (raiseErr e s)) =
      .next { s with errcode := e.code.num, errinfo := info, errpos := e.pos, seq := .error } := by
  rw [inIdle_idle h, raiseErr_outside e s he, hi]

/-- Settles O17: each of these words raises its error in IDLE, outside a decode. -/
theorem illegalCommandsRaiseInIdle : Obligations.IllegalCommandsRaiseInIdle := fun _ _ op _ _ h =>
  ⟨inIdle_raises h (e := illegalErr 0x01#8 1#8) rfl (by decide),
    inIdle_raises h (e := illegalErr 0x10#8 1#8) rfl (by decide),
    inIdle_raises h (e := illegalErr 0x11#8 1#8) rfl (by decide),
    inIdle_raises h (e := illegalErr op 0#8) rfl (illegalErr_info op)⟩

/-! ### ABORT (40 R124) -/

theorem execAbort_rest {s : State} (h : s.seq ≠ .busy) (arg : BitVec 24) :
    exec (.abort arg) s = .next { s with seq := .idle } := by
  show execAbort arg s = _
  rw [execAbort, if_neg h, returnToIdle]

theorem execAbort_busy {s : State} (h : s.seq = .busy) (arg : BitVec 24) :
    exec (.abort arg) s = .next (returnToIdle (cutDecode s)) := by
  show execAbort arg s = _
  rw [execAbort, if_pos h]

/-- Settles O18: cutting a decode short draws the results, and then every byte of the output range. -/
theorem abortStopsTheDecode : Obligations.AbortStopsTheDecode := by
  refine fun s arg hm => ⟨fun h => execAbort_rest h arg, fun h =>
    ⟨fillFree s.mem s.outBase (s.draws + 8) (outSize s), s.draws + 8 + outSize s, execAbort_busy h arg, by omega,
      fillFree_wf _ _ _ _ hm, fun o ho => ?_, fillFree_read_outside _ _ _ _⟩⟩
  obtain ⟨n, hlow, hhigh, hread⟩ := fillFree_read_inside s.mem hm s.outBase (s.draws + 8) (outSize s) o ho
  exact ⟨n, by omega, hhigh, hread⟩

end Sys2Proof.Machine
end

section
/-! PROOFS. START (O19 to O22): the first check that fails raises its error, a broken memory premise refuses the launch, and
else the decode is launched (40 R111 to R123, 20 R74). -/

namespace Sys2Proof.Machine

/-! ### The checks that fail -/

theorem check1_fails {s : State} (h : ¬ Pass1 s) : check1 s = some (startErr .unsupportedFeature 1#8 0#8) := if_pos h

theorem check2_fails {s : State} (h : ¬ Pass2 s) :
    check2 s = some (startErr .unsupportedFeature 2#8 (BitVec.ofNat 8 (frameNf s))) := by
  rw [check2, if_pos (by unfold Pass2 at h; omega), frameNf, BitVec.ofNat_toNat, BitVec.setWidth_eq]

theorem check3_fails {s : State} (h : ¬ Pass3 s) : check3 s = some (startErr .unsupportedFeature 3#8 0#8) :=
  if_pos (by unfold Pass3 at h; omega)

theorem scanNsByte_eq (s : State) : scanNsByte s = BitVec.ofNat 8 (scanNs s) := by
  rw [scanNs, BitVec.ofNat_toNat, BitVec.setWidth_eq]

theorem check7_badCount {s : State} (h : scanNs s < 1 ∨ 4 < scanNs s) :
    check7 s = some (startErr .malformedHeader 7#8 (BitVec.ofNat 8 (scanNs s))) := by
  rw [check7, if_pos h, scanNsByte_eq]

theorem check7_otherCount {s : State} (h1 : 1 ≤ scanNs s) (h4 : scanNs s ≤ 4) (h : scanNs s ≠ frameNf s) :
    check7 s = some (startErr .unsupportedFeature 7#8 (BitVec.ofNat 8 (scanNs s))) := by
  rw [check7, if_neg (by omega), if_pos h, scanNsByte_eq]

theorem dcPresent_iff (s : State) (j : Fin 4) : DcPresent s j ↔ (dcTable s j).valid = true := Iff.rfl

theorem acPresent_iff (s : State) (j : Fin 4) : AcPresent s j ↔ (acTable s j).valid = true := Iff.rfl

theorem missingTable_dc {s : State} {j : Fin 4} (h : ¬ DcPresent s j) :
    missingTable s j = some (startErr .missingTable 10#8 (BitVec.ofNat 8 j.val)) :=
  if_pos (by simpa [dcPresent_iff] using h)

theorem missingTable_ac {s : State} {j : Fin 4} (hd : DcPresent s j) (h : ¬ AcPresent s j) :
    missingTable s j = some (startErr .missingTable 10#8 (BitVec.ofNat 8 (0x10 + j.val))) := by
  rw [dcPresent_iff] at hd
  rw [missingTable, if_neg (by simp [hd]), if_pos (by simpa [acPresent_iff] using h), byteOf]

theorem missingTable_quant {s : State} {j : Fin 4} (h4 : Pass4 s) (hn : Named s j) (hd : DcPresent s j)
    (ha : AcPresent s j) (h : ¬ QtPresent s j) :
    missingTable s j = some (startErr .missingTable 10#8 (BitVec.ofNat 8 (0x20 + j.val))) := by
  rw [dcPresent_iff] at hd
  rw [acPresent_iff] at ha
  rw [missingTable, if_neg (by simp [hd]), if_neg (by simp [ha]),
    if_pos (by simpa [← quantTable_valid s j h4 hn] using h), byteOf]

theorem check11_input {s : State} (h : 2 ^ 32 < s.inBase.toNat + s.inLen.toNat) :
    check11 s = some (startErr .addressRange 11#8 0#8) := if_pos h

theorem check11_output {s : State} (hin : s.inBase.toNat + s.inLen.toNat ≤ 2 ^ 32)
    (h : 2 ^ 32 < s.outBase.toNat + outSize s) : check11 s = some (startErr .addressRange 11#8 1#8) := by
  rw [check11, if_neg (by omega), if_pos h]

/-! ### The first check that fails -/

theorem findSome_cons_or {α β : Type} (f : α → Option β) (a : α) (l : List α) :
    (a :: l).findSome? f = (f a).or (l.findSome? f) := by
  rw [List.findSome?_cons]
  cases f a <;> rfl

/-- The checks of START in their order: the first one that fails gives the error (40 R111). -/
theorem startChecks_eq (s : State) : startChecks s = (check1 s).or ((check2 s).or ((check3 s).or ((check4 s).or
    ((check5 s).or ((check6 s).or ((check7 s).or ((check8 s).or ((check9 s).or ((check10 s).or (check11 s)))))))))) := by
  simp only [startChecks, findSome_cons_or, List.findSome?_nil, Option.or_none]

/-- Settles O19: the first of checks 1 to 5 that fails. -/
theorem startRefusesABadFrame : Obligations.StartRefusesABadFrame := by
  intro s hs
  have fails (code : ErrorCode) {d u : Byte} (h : startChecks s = some (startErr code d u)) : StartFails s code.num d u :=
    startFails_of_check s hs code d u h
  refine ⟨fun h1 => fails .unsupportedFeature ?_, fun h1 h2 => fails .unsupportedFeature ?_,
    fun h1 h2 h3 => fails .unsupportedFeature ?_, fun h1 h2 h3 c hn hc hd => fails .malformedHeader ?_,
    fun h1 h2 h3 h4 c hn hc hd => fails .unsupportedFeature ?_⟩
  · rw [startChecks_eq, check1_fails h1, Option.some_or]
  · simp only [startChecks_eq, (check1_none s).2 h1, check2_fails h2, Option.none_or, Option.some_or]
  · simp only [startChecks_eq, (check1_none s).2 h1, (check2_none s).2 h2, check3_fails h3, Option.none_or, Option.some_or]
  · simp only [startChecks_eq, (check1_none s).2 h1, (check2_none s).2 h2, (check3_none s).2 h3,
      check4_first s c hn hc hd, Option.none_or, Option.some_or, byteOf]
  · simp only [startChecks_eq, (check1_none s).2 h1, (check2_none s).2 h2, (check3_none s).2 h3, (check4_none s).2 h4,
      check5_first s c hn hc hd, Option.none_or, Option.some_or, byteOf]

/-- What checks 1 to 5 leave of START's checks when they pass. -/
theorem startChecks_from6 {s : State} (h1 : Pass1 s) (h2 : Pass2 s) (h3 : Pass3 s) (h4 : Pass4 s) (h5 : Pass5 s) :
    startChecks s = (check6 s).or ((check7 s).or ((check8 s).or ((check9 s).or ((check10 s).or (check11 s))))) := by
  simp only [startChecks_eq, (check1_none s).2 h1, (check2_none s).2 h2, (check3_none s).2 h3, (check4_none s).2 h4,
    (check5_none s).2 h5, Option.none_or]

/-- Settles O20: the first of checks 6 to 10 that fails, check 10 in the order of a component's three tables. -/
theorem startRefusesABadScanOrMissingTable : Obligations.StartRefusesABadScanOrMissingTable := by
  intro s hs h1 h2 h3 h4 h5
  have fails (code : ErrorCode) {d u : Byte} (h : (check6 s).or ((check7 s).or ((check8 s).or ((check9 s).or
      ((check10 s).or (check11 s))))) = some (startErr code d u)) : StartFails s code.num d u :=
    startFails_of_check s hs code d u ((startChecks_from6 h1 h2 h3 h4 h5).trans h)
  refine ⟨fun c hn hc hd => fails .malformedTable ?_, fun h6 h => fails .malformedHeader ?_,
    fun h6 hlow hhigh h => fails .unsupportedFeature ?_,
    fun h6 h7 j hn hj hi => fails .malformedHeader ?_,
    fun h6 h7 h8 j hn hj hi => fails .malformedTable ?_, fun h6 h7 h8 h9 j hn hi => ?_⟩
  · simp only [check6_first s c hn hc hd, Option.some_or, byteOf]
  · simp only [(check6_none s).2 h6, check7_badCount h, Option.none_or, Option.some_or]
  · simp only [(check6_none s).2 h6, check7_otherCount hlow hhigh h, Option.none_or, Option.some_or]
  · simp only [(check6_none s).2 h6, (check7_none s).2 h7, check8_first s j hn hj hi, Option.none_or, Option.some_or,
      byteOf]
  · simp only [(check6_none s).2 h6, (check7_none s).2 h7, (check8_none s).2 h8, check9_first s j hn hj hi,
      Option.none_or, Option.some_or, byteOf]
  · have missing {u : Byte} (h : missingTable s j = some (startErr .missingTable 10#8 u)) : StartFails s 6#4 10#8 u := by
      refine fails .missingTable ?_
      simp only [(check6_none s).2 h6, (check7_none s).2 h7, (check8_none s).2 h8, (check9_none s).2 h9,
        check10_first s j _ h4 h8 hn hi h, Option.none_or, Option.some_or]
    exact ⟨fun h => missing (missingTable_dc h), fun hd h => missing (missingTable_ac hd h),
      fun hd ha h => missing (missingTable_quant h4 (h8 j hn) hd ha h)⟩

/-! ### Check 11, the memory premises and the launch -/

theorem startChecks_from11 {s : State} (h : SetupPasses s) : startChecks s = check11 s := by
  obtain ⟨⟨h1, h2, h3, h4, h5, h6⟩, h7, h8, h9, h10⟩ := h
  simp only [startChecks_from6 h1 h2 h3 h4 h5, (check6_none s).2 h6, (check7_none s).2 h7, (check8_none s).2 h8,
    (check9_none s).2 h9, (check10_none s h4 h8).2 h10, Option.none_or]

/-- A START that passes every check and breaks a memory premise is refused (20 R74; log 14). -/
theorem start_refused {s : State} {r : Refusal} (hs : s.seq = .idle) (hc : startChecks s = none)
    (hp : brokenPremise s = some r) : exec .start s = .refused r := by
  show inIdle s (runStart s) = _
  rw [inIdle_idle hs, runStart]
  simp only [startChecks_clear, hc, brokenPremise_clear, hp]

theorem brokenPremise_some {s : State} {r : Refusal} (h : brokenPremise s = some r) :
    r = .rangesOverlap ∨ r = .windowOverlap := by
  unfold brokenPremise at h
  split_ifs at h
  · exact .inl (Option.some.inj h).symm
  · exact .inr (Option.some.inj h).symm

/-- Settles O21: the two sums of check 11, and the premise that a launch with overlapping ranges breaks. -/
theorem startRefusesBadRanges : Obligations.StartRefusesBadRanges := by
  intro s hs hset
  have fails {u : Byte} (h : check11 s = some (startErr .addressRange 11#8 u)) : StartFails s 9#4 11#8 u :=
    startFails_of_check s hs .addressRange _ _ ((startChecks_from11 hset).trans h)
  refine ⟨fun h => fails (check11_input h), fun hin h => fails (check11_output hin h), fun h11 hr => ?_⟩
  obtain ⟨r, hp⟩ := Option.ne_none_iff_exists'.1 (mt (brokenPremise_none s).1 hr)
  have hstart := start_refused hs ((startChecks_none s).2 ⟨hset, h11⟩) hp
  rcases brokenPremise_some hp with rfl | rfl
  · exact .inl hstart
  · exact .inr hstart

/-- Settles O22: no check fails and no premise is broken, so START launches. -/
theorem startLaunchesTheDecode : Obligations.StartLaunchesTheDecode := fun s hs hset h11 hr =>
  start_launches s hs ((startChecks_none s).2 ⟨hset, h11⟩) ((brokenPremise_none s).2 hr)

end Sys2Proof.Machine
end

section
/-! PROOFS. The commits (O23, O24): the fields of the operand byte, the outcomes of each commit one by one, and the table
that becomes active (40 R126, R127; 30 R84, R85). -/

namespace Sys2Proof.Machine

/-- Error entry of a commit, which is not during a decode (60 R224). -/
theorem raiseErr_commit (d u : Byte) (s : State) : raiseErr (commitErr d u) s =
    { s with errcode := 4#4, errinfo := (commitErr d u).info, errpos := 0#32, seq := .error } :=
  raiseErr_outside _ _ rfl

theorem commitErr_info (d u : Byte) : (commitErr d u).info = 0x0200#16 ++ d ++ u :=
  info_of_front (e := commitErr d u) (congrArg (· ++ d) (show 2#8 ++ 0#8 = 0x0200#16 by decide))

/-- Detail 1: the operand byte has a field that the commit does not take (60 R222). -/
theorem commitErr_info_field (a8 : Byte) : (commitErr 1#8 a8).info = 0x020001#24 ++ a8 :=
  info_of_front (show 2#8 ++ 0#8 ++ 1#8 = 0x020001#24 by decide)

/-- Detail 2: the operand byte names no table (60 R222). -/
theorem commitErr_info_tableId (a8 : Byte) : (commitErr 2#8 a8).info = 0x020002#24 ++ a8 :=
  info_of_front (show 2#8 ++ 0#8 ++ 2#8 = 0x020002#24 by decide)

/-! ### HT_COMMIT (40 R126) -/

theorem runHtCommit_header {a8 : Byte} (h : htHeaderMbz a8 ≠ 0#3) (s : State) :
    runHtCommit a8 s = raiseErr (commitErr 1#8 a8) s := if_pos h

theorem runHtCommit_tableId {a8 : Byte} (h0 : htHeaderMbz a8 = 0#3) (h : 3 < htHeaderTh a8) (s : State) :
    runHtCommit a8 s = raiseErr (commitErr 2#8 a8) s := by
  rw [runHtCommit, if_neg (not_not_intro h0), if_pos h]

/-- With a good operand byte, the commit does what BUILD says. -/
theorem runHtCommit_build {a8 : Byte} (h0 : htHeaderMbz a8 = 0#3) (h : htHeaderTh a8 ≤ 3) (s : State) :
    (∀ d, build (stagedCounts s (htIndex a8)) (stagedValues s (htIndex a8)) = .error d →
      runHtCommit a8 s = raiseErr (commitErr d (byteOf (htIndex a8).val)) (invalidateHt (htIndex a8) s)) ∧
    (∀ u, build (stagedCounts s (htIndex a8)) (stagedValues s (htIndex a8)) = .ok u →
      runHtCommit a8 s = setHt (htIndex a8) u s) := by
  rw [runHtCommit, if_neg (not_not_intro h0), if_neg (by omega)]
  exact ⟨fun d hd => by rw [hd], fun u hu => by rw [hu]⟩

theorem build_valid {bits vals : List Byte} {t : HtTable} (h : build bits vals = .ok t) : t.valid = true := by
  obtain ⟨_, codes, _, rfl⟩ := build_ok h
  rfl

theorem execHtCommit_idle {s : State} (h : s.seq = .idle) (a8 : Byte) :
    exec (.htCommit a8) s = .next (runHtCommit a8 s) := inIdle_idle h _

/-- Settles O23: the operand byte's fields decide first, and then BUILD. -/
theorem huffmanCommitBuildsTheTable : Obligations.HuffmanCommitBuildsTheTable := by
  intro s mbz tc th hs a8 t r
  obtain ⟨hmbz, hth, htc⟩ := htHeader_fields mbz tc th
  have ht : htIndex a8 = t := by rw [htIndex, hth, htc]
  rw [execHtCommit_idle hs]
  refine ⟨fun h => ?_, fun h0 h => ?_, fun h0 h d hd => ?_, fun h0 h u hu => ⟨build_valid hu, ?_⟩⟩
  · rw [runHtCommit_header (hmbz.trans_ne h), raiseErr_commit, commitErr_info_field]
  · rw [runHtCommit_tableId (hmbz.trans h0) (hth ▸ h), raiseErr_commit, commitErr_info_tableId]
  · rw [(runHtCommit_build (hmbz.trans h0) (hth ▸ h) s).1 d (ht ▸ hd), raiseErr_commit, commitErr_info, ht]
    rfl
  · rw [(runHtCommit_build (hmbz.trans h0) (hth ▸ h) s).2 u (ht ▸ hu), ht]
    rfl

/-! ### QT_COMMIT (40 R127) -/

theorem runQtCommit_precision {a8 : Byte} (h : 1 < qtHeaderPq a8) (s : State) :
    runQtCommit a8 s = raiseErr (commitErr 1#8 a8) s := if_pos h

theorem runQtCommit_tableId {a8 : Byte} (h1 : qtHeaderPq a8 ≤ 1) (h : 3 < qtHeaderTq a8) (s : State) :
    runQtCommit a8 s = raiseErr (commitErr 2#8 a8) s := by
  rw [runQtCommit, if_neg (by omega), if_pos h]

/-- With a good operand byte, the commit fails where an 8-bit table has a wider entry, and else takes the table. -/
theorem runQtCommit_entries {a8 : Byte} (h1 : qtHeaderPq a8 ≤ 1) (h : qtHeaderTq a8 ≤ 3) (s : State) :
    (qtHeaderPq a8 = 0 ∧ quantTooWide s (qtIndex a8) = true → runQtCommit a8 s =
      raiseErr (commitErr 3#8 (byteOf (qtIndex a8).val)) (invalidateQt (qtIndex a8) s)) ∧
    (¬ (qtHeaderPq a8 = 0 ∧ quantTooWide s (qtIndex a8) = true) → runQtCommit a8 s = setQt (qtIndex a8)
      (committedQuant s (qtIndex a8) (if qtHeaderPq a8 = 0 then .bits8 else .bits16)) s) := by
  rw [runQtCommit, if_neg (by omega), if_neg (by omega)]
  exact ⟨fun hw => if_pos hw, fun hw => if_neg hw⟩

theorem execQtCommit_idle {s : State} (h : s.seq = .idle) (a8 : Byte) :
    exec (.qtCommit a8) s = .next (runQtCommit a8 s) := inIdle_idle h _

/-- ERRINFO of a table with an entry that is too wide: its unit is the table id (40 R127). -/
theorem tooWide_info : ∀ tq : BitVec 4, tq.toNat ≤ 3 →
    (commitErr 3#8 (byteOf (Fin.ofNat 4 tq.toNat).val)).info = 0x020003#24 ++ 0#4 ++ tq := by decide

/-- Settles O24: the operand byte's fields decide first, and then the width of the staged entries. -/
theorem quantCommitTakesTheTable : Obligations.QuantCommitTakesTheTable := by
  intro s pq tq hs a8 q
  obtain ⟨hpq, htq⟩ := qtHeader_fields pq tq
  have hq : qtIndex a8 = q := by rw [qtIndex, htq]
  have zero : qtHeaderPq a8 = 0 ↔ pq = 0#4 := by rw [hpq, BitVec.toNat_eq, BitVec.toNat_ofNat]
  rw [execQtCommit_idle hs]
  refine ⟨fun h => ?_, fun h1 h => ?_, fun h0 h hw => ?_, fun h1 h hw => ?_⟩
  · rw [runQtCommit_precision (hpq ▸ h), raiseErr_commit, commitErr_info_field]
  · rw [runQtCommit_tableId (hpq ▸ h1) (htq ▸ h), raiseErr_commit, commitErr_info_tableId]
  · have hz := zero.2 h0
    rw [(runQtCommit_entries (by omega) (htq ▸ h) s).1 ⟨hz, (quantTooWide_iff s _).2 (hq ▸ hw)⟩, raiseErr_commit, hq,
      tooWide_info tq h]
    rfl
  · have hfit : ¬ (qtHeaderPq a8 = 0 ∧ quantTooWide s (qtIndex a8) = true) := fun ⟨hz, hwide⟩ => by
      obtain ⟨k, hk⟩ := (quantTooWide_iff s q).1 (hq ▸ hwide)
      exact absurd (hw (zero.1 hz) k) (by omega)
    refine ⟨_, by rw [(runQtCommit_entries (hpq ▸ h1) (htq ▸ h) s).2 hfit, hq, setQt], rfl, ?_,
      committedQuant_get s q _⟩
    simp [committedQuant, zero]

end Sys2Proof.Machine
end

section
/-! PROOFS. The setup of a running decode (O54): no step that leaves the block BUSY changes it, whoever makes the step (20
R72, 70 R246). -/

namespace Sys2Proof.Machine

/-- The setup of a decode: the configuration registers, the conversion mode, the active tables, the parameters, and memory
as it stood before (20 R72, 70 R246; log 15). -/
structure Setup where
  frameDim : Word
  frameCfg : Word
  fcomp : Vector Word 4
  scanCfg : Word
  scomp : Vector Word 4
  inBase : Word
  inLen : Word
  outBase : Word
  rgbEn : Bool
  sat : Bool
  htAct : Vector HtTable 8
  qtAct : Vector QtTable 4
  params : Params
  before : List Host.Cell

/-- The setup that a state holds. -/
def State.setup (s : State) : Setup :=
  ⟨s.frameDim, s.frameCfg, s.fcomp, s.scanCfg, s.scomp, s.inBase, s.inLen, s.outBase, s.rgbEn, s.sat, s.htAct, s.qtAct,
    s.params, s.before⟩

/-- The next state, if there is one and it is BUSY, has the setup of s. -/
def KeepsSetup (s : State) (r : Result) : Prop := ∀ t, r = .next t → t.seq = .busy → t.setup = s.setup

section

variable {s t : State}

theorem keepsSetup_same (h : t.setup = s.setup) : KeepsSetup s (.next t) := by
  rintro _ ⟨⟩ _
  exact h

theorem keepsSetup_rest (h : t.seq ≠ .busy) : KeepsSetup s (.next t) := by
  rintro _ ⟨⟩ hb
  exact absurd hb h

theorem keepsSetup_refused (r : Refusal) : KeepsSetup s (.refused r) := fun _ h => by cases h

/-! ### The block's turn -/

theorem Scanned.setup (h : Scanned s t) : t.setup = s.setup :=
  (congrArg State.setup h.frame).trans rfl

theorem EndsInError.keepsSetup {u : State} {r : Result} (h : EndsInError u r) : KeepsSetup s r := by
  obtain ⟨v, e, _, _, rfl⟩ := h
  exact keepsSetup_rest (by simp)

theorem Waits.keepsSetup {r : Result} (h : Waits s r) : KeepsSetup s r := by
  obtain ⟨u, hu, _, rfl⟩ := h
  exact keepsSetup_same hu.setup

theorem Destuffs.keepsSetup {r : Result} (h : Destuffs s r) : KeepsSetup s r := by
  obtain ⟨u, hu, _, _, rfl⟩ := h
  exact keepsSetup_same hu.setup

theorem blockDone_setup (s : State) : (blockDone s).setup = s.setup := by
  unfold blockDone
  split <;> rfl

theorem positionAt_setup (n : Nat) (s : State) : (positionAt n s).setup = s.setup := by
  unfold positionAt
  split
  · rfl
  · exact blockDone_setup { s with k := n }

theorem Turning.keepsSetup (ht : Turning s) : KeepsSetup s (turn s) := by
  cases hp : s.phase with
  | dc =>
    rcases turn_dc s ht hp with he | hw | hd | ⟨u, x, hu, hn⟩
    · exact he.keepsSetup
    · exact hw.keepsSetup
    · exact hd.keepsSetup
    · exact hn ▸ keepsSetup_same hu.setup
  | ac =>
    rcases turn_ac s ht hp with he | hw | hd | ⟨u, hu, hn⟩ | ⟨u, zz, n, hu, _, _, _, hn⟩
    · exact he.keepsSetup
    · exact hw.keepsSetup
    · exact hd.keepsSetup
    · exact hn ▸ keepsSetup_same ((blockDone_setup u).trans hu.setup)
    · exact hn ▸ keepsSetup_same ((positionAt_setup n { u with zz := zz }).trans hu.setup)
  | recon =>
    rcases turn_recon s ht hp with ⟨_, hn⟩ | ⟨w, _, _, _, hn⟩ | ⟨o, _, hn⟩ | ⟨_, hn⟩ | ⟨_, hn⟩
    · exact hn ▸ keepsSetup_same rfl
    · exact hn ▸ keepsSetup_same rfl
    · exact hn ▸ keepsSetup_rest (by simp)
    · exact hn ▸ keepsSetup_same rfl
    · exact hn ▸ keepsSetup_same rfl
  | drain =>
    rcases turn_drain s ht hp with ⟨_, hn⟩ | ⟨_, he | hw | hd⟩
    · exact hn ▸ keepsSetup_rest (by simp)
    · exact he.keepsSetup
    · exact hw.keepsSetup
    · exact hd.keepsSetup

theorem Rests.keepsSetup (hr : Rests s) : KeepsSetup s (turn s) := turn_rests s hr ▸ keepsSetup_same rfl

theorem turn_keepsSetup (s : State) : KeepsSetup s (turn s) := fun t htn =>
  (rests_or_turning htn).elim (fun hr => hr.keepsSetup t htn) fun ht => ht.keepsSetup t htn

/-! ### The instructions of the host -/

theorem readReg_keepsSetup (r : Reg) (s : State) : KeepsSetup s (.next (readReg r s)) := by
  have progress (value free : Word) : (answerProgress value free s).setup = s.setup := by
    unfold answerProgress
    split <;> rfl
  cases r
  case inpos | mcucnt | pred => exact keepsSetup_same (progress _ _)
  all_goals exact keepsSetup_same rfl

variable (hb : s.seq = .busy)

include hb

theorem writeCtrl_keepsSetup (d : Word) : KeepsSetup s (.next (writeCtrl d s)) := by
  rw [writeCtrl, if_pos hb]
  exact keepsSetup_same rfl

theorem writeConfig_keepsSetup (r : Reg) (d : Word) : KeepsSetup s (.next (writeConfig r d s)) := by
  rw [writeConfig_ignored ((configIgnored_iff s).2 (.inl hb))]
  exact keepsSetup_same rfl

/-- A command that runs in IDLE only is ignored in a decode (40 R109). -/
theorem inIdle_keepsSetup (r : Result) : KeepsSetup s (inIdle s r) := by
  rw [inIdle_ignored (by simp [hb])]
  exact keepsSetup_same rfl

theorem execAck_keepsSetup (arg : BitVec 24) : KeepsSetup s (execAck arg s) := by
  rw [execAck_busy hb]
  exact keepsSetup_same rfl

theorem dispatchCommand_keepsSetup (w : Word) : KeepsSetup s (dispatchCommand w s) := by
  unfold dispatchCommand
  split_ifs
  · exact keepsSetup_same rfl
  · exact keepsSetup_rest (by simp)
  · exact execAck_keepsSetup hb _
  all_goals exact inIdle_keepsSetup hb _

theorem writeReg_keepsSetup (r : Reg) (d : Word) : KeepsSetup s (writeReg r d s) := by
  cases r
  case ctrl => exact writeCtrl_keepsSetup hb d
  case cmd => exact dispatchCommand_keepsSetup hb d
  case frameDim | frameCfg | fcomp | scanCfg | scomp | inBase | inLen | outBase => exact writeConfig_keepsSetup hb _ d
  all_goals exact keepsSetup_same rfl

theorem exec_fromHost_keepsSetup {i : Instr} (hi : fromHost i = true) : KeepsSetup s (exec i s) := by
  cases i with
  | rdStatus => exact readReg_keepsSetup .status s
  | rdInpos => exact readReg_keepsSetup .inpos s
  | rdMcucnt => exact readReg_keepsSetup .mcucnt s
  | rdPred j => exact readReg_keepsSetup (.pred j) s
  | rd off =>
    show KeepsSetup s (execRd off s)
    unfold execRd
    split
    · exact readReg_keepsSetup _ s
    · exact keepsSetup_refused _
  | wrCtrl d => exact writeCtrl_keepsSetup hb d
  | wrCmd d => exact dispatchCommand_keepsSetup hb d
  | wrFrameDim d | wrFrameCfg d | wrFcomp0 d | wrFcomp1 d | wrFcomp2 d | wrFcomp3 d | wrScanCfg d | wrScomp j d
  | wrInBase d | wrInLen d | wrOutBase d => exact writeConfig_keepsSetup hb _ d
  | wrHtBits t n d | wrHtVal t n d | wrQtRam t n d => exact keepsSetup_same rfl
  | wr off d =>
    show KeepsSetup s (execWr off d s)
    unfold execWr
    split
    · exact writeReg_keepsSetup hb _ d
    · exact keepsSetup_refused _
  | nop hint => exact keepsSetup_same rfl
  | abort arg => exact keepsSetup_rest (by simp)
  | ack arg => exact execAck_keepsSetup hb arg
  | start | htCommit a8 | qtCommit a8 | illegalStart arg | illegalCommit qt argh a8 | reserved op argh a8 =>
    exact inIdle_keepsSetup hb _
  | dcSize0 | dcSize n | dcBad b | eob | zrl | runZero r | runSize r n => cases hi

theorem answered_keepsSetup {i : Instr} (hi : fromHost i = true) : KeepsSetup s (perform (answered i s)) := by
  cases hr : s.resetAsserted
  · exact perform_answered i hr ▸ exec_fromHost_keepsSetup hb hi
  · exact perform_unanswered i hr ▸ keepsSetup_same rfl

/-! ### Every step -/

theorem fetchAccess_keepsSetup (a : Access) : KeepsSetup s (perform (fetchAccess a s)) := by
  cases hd : decodeAccess a with
  | ok i => exact perform_fetchAccess_decoded hd s ▸ answered_keepsSetup hb (decodeAccess_fromHost hd)
  | error r => exact perform_fetchAccess_rejected hd s ▸ keepsSetup_refused _

theorem fetchEvent_keepsSetup (e : Event) : KeepsSetup s (perform (fetchEvent e s)) := by
  cases e with
  | access a => exact fetchAccess_keepsSetup hb a
  | command w => exact answered_keepsSetup hb (decodeCommand_fromHost w)
  | block => exact turn_keepsSetup s
  | memRead a =>
    refine keepsSetup_same ?_
    unfold hostMemRead
    split <;> rfl
  | memWrite a v =>
    show KeepsSetup s (hostMemWrite a v s)
    unfold hostMemWrite
    split_ifs
    · exact keepsSetup_refused _
    · exact keepsSetup_refused _
    · exact keepsSetup_same rfl
  | resetOn => exact keepsSetup_rest (t := assertReset s) (by simp [assertReset, resetValues, State.reset])
  | resetOff =>
    show KeepsSetup s (.next (releaseReset s))
    unfold releaseReset
    split
    · exact keepsSetup_rest (by simp [resetValues, State.reset])
    · exact keepsSetup_same rfl
  | platform rejected => exact keepsSetup_same rfl

theorem step_keepsSetup : KeepsSetup s (step s) := by
  unfold step fetch
  split
  · exact turn_keepsSetup s
  · rename_i e rest _
    exact fetchEvent_keepsSetup (s := { s with agenda := rest }) hb e

end

/-- Settles O54: the turns of the block, what the host sends and the outside world keep the setup. -/
theorem setupIsFixedWhileBusy : Obligations.SetupIsFixedWhileBusy := by
  intro s t hb hstep htb
  have h := step_keepsSetup hb t hstep htb
  simpa only [State.setup, Setup.mk.injEq] using h

end Sys2Proof.Machine
end

section
/-! PROOFS. The destuffer (O26 to O29): a step case by case on what the reads of ip and ip + 1 answer, and how FILL, PEEK and
READ end (41 R140 to R144). -/

namespace Sys2Proof.Machine

/-! ### One destuffer step, by what its reads answer -/

/-- The read of an offset that no wrap of the address concerns, when the platform accepts it (41 R140). -/
theorem inputByte_accepted {s : State} {i : Nat} (hfit : s.inBase.toNat + i < 2 ^ 32)
    (h : busRejects s false (s.inBase.toNat + i) = false) :
    inputByte i s = .ok (Memory.read s.mem (s.inBase.toNat + i)) s := by
  rw [← addrAt_eq _ _ hfit] at h ⊢
  exact inputByte_read h

theorem uintToBits_byte (b : Byte) : uintToBits b.toNat 8 =
    [b.getLsbD 7, b.getLsbD 6, b.getLsbD 5, b.getLsbD 4, b.getLsbD 3, b.getLsbD 2, b.getLsbD 1, b.getLsbD 0] := rfl

section

variable {s : State}

theorem dstep_atEnd (h : s.inLen.toNat ≤ s.ip) : dstep s = .ok () (endAt s.inLen.toNat false 0#8 s) := if_pos h

theorem dstep_data {b : Byte} (hip : s.ip < s.inLen.toNat) (h1 : inputByte s.ip s = .ok b s) (hb : b ≠ 0xFF#8) :
    dstep s = .ok () (pushByte b 1 s) := by
  rw [dstep, if_neg (by omega), h1]
  exact if_pos hb

theorem dstep_lastFF (hip : s.ip < s.inLen.toNat) (h1 : inputByte s.ip s = .ok 0xFF#8 s)
    (hlast : s.inLen.toNat ≤ s.ip + 1) : dstep s = .ok () (endAt s.ip false 0#8 s) := by
  rw [dstep, if_neg (by omega), h1]
  exact if_pos hlast

/-- After a 0xFF that is not the last byte, the next byte decides (41 R141, R142). -/
theorem dstep_afterFF {c : Byte} (hip : s.ip + 1 < s.inLen.toNat) (h1 : inputByte s.ip s = .ok 0xFF#8 s)
    (h2 : inputByte (s.ip + 1) s = .ok c s) :
    dstep s = if c = 0x00#8 then .ok () (pushByte 0xFF#8 2 s) else .ok () (endAt s.ip true c s) := by
  rw [dstep, if_neg (by omega), h1]
  simp only [andThen]
  rw [if_neg (by decide), if_neg (by omega), h2]

end

/-- Settles O26: the platform accepts the reads that the case needs, so each answers its byte, and the bytes decide. -/
theorem destufferStepFollowsTheBytes : Obligations.DestufferStepFollowsTheBytes := by
  intro s hfit readable b c
  have read : ∀ i, readable i → inputByte i s = .ok (Memory.read s.mem (s.inBase.toNat + i)) s :=
    fun i ⟨hi, hr⟩ => inputByte_accepted (by omega) hr
  refine ⟨dstep_atEnd, fun h hb => ?_, fun h hb hlast => ?_, fun h h' hb hc => ?_, fun h h' hb hc => ?_⟩
  · rw [dstep_data h.1 (read _ h) hb, pushByte, uintToBits_byte]
  · exact dstep_lastFF h.1 (hb ▸ read _ h) hlast
  · rw [dstep_afterFF h'.1 (hb ▸ read _ h) (read _ h'), ← Nat.add_assoc, if_pos hc]
    rfl
  · rw [dstep_afterFF h'.1 (hb ▸ read _ h) (read _ h'), ← Nat.add_assoc, if_neg hc]
    rfl

/-! ### Rejected reads -/

theorem rejectedAccess_error {α : Type} {s : State} (h : s.params.pBus = .error) (unit : Byte) (pos : Nat) :
    (rejectedAccess unit pos s : Decoded α) = .err ⟨.busError, .dma, 0#8, unit, BitVec.ofNat 32 pos⟩ s := by
  rw [rejectedAccess, h]

theorem rejectedAccess_stall {α : Type} {s : State} (h : s.params.pBus = .stall) (unit : Byte) (pos : Nat) :
    (rejectedAccess unit pos s : Decoded α) = .stall s := by
  rw [rejectedAccess, h]

/-- Settles O27: the two reads a destuffer step can make, each rejected or not. -/
theorem rejectedReadIsABusError : Obligations.RejectedReadIsABusError := by
  refine ⟨fun s i hi => ?_, ?_⟩
  · refine ⟨fun h hp => ?_, fun h hp => ?_, inputByte_accepted hi⟩
    · rw [inputByte_rejected (addrAt_eq _ _ hi ▸ h), rejectedAccess_error hp]
    · rw [inputByte_rejected (addrAt_eq _ _ hi ▸ h), rejectedAccess_stall hp]
  · intro s hfit rejected stopsAt first second
    have addr : ∀ i < s.inLen.toNat, addrAt s.inBase i = s.inBase.toNat + i := fun i hi => addrAt_eq _ _ (by omega)
    have stops : ∀ i, dstep s = rejectedAccess 0#8 i s → stopsAt i := fun i h =>
      ⟨fun hp => h.trans (rejectedAccess_error hp _ _), fun hp => h.trans (rejectedAccess_stall hp _ _)⟩
    have accepted : ∀ i < s.inLen.toNat, ¬ rejected i → busRejects s false (addrAt s.inBase i) = false :=
      fun i hi h => addr i hi ▸ Bool.eq_false_iff.2 fun hr => h ⟨hi, hr⟩
    refine ⟨fun ⟨hip, hr⟩ => ?_, fun ⟨h1, hb, hip, hr⟩ => ?_, fun h1 h2 => dstep_completes (fun hip => ?_) fun hip hb => ?_⟩
    · exact stops _ (dstep_rejected_first hip (addr _ hip ▸ hr))
    · have hlt : s.ip < s.inLen.toNat := by omega
      exact stops _ (dstep_rejected_second hip (accepted _ hlt h1) (addr _ hlt ▸ hb) (addr _ hip ▸ hr))
    · exact accepted _ hip h1
    · exact accepted _ hip fun h => h2 ⟨h1, addr s.ip (by omega) ▸ hb, h⟩

/-! ### FILL, PEEK and READ -/

theorem readBits_err {n : Nat} {s t : State} {e : Err} (h0 : n ≠ 0) (h : peek n s = .err e t) :
    readBits n s = .err e t := by
  rw [readBits_peek h0, h]
  rfl

theorem readBits_stall {n : Nat} {s t : State} (h0 : n ≠ 0) (h : peek n s = .stall t) : readBits n s = .stall t := by
  rw [readBits_peek h0, h]
  rfl

/-- Settles O28: FILL step by step, and PEEK and READ by what FILL answers. -/
theorem bitReadsFillAsNeeded : Obligations.BitReadsFillAsNeeded := by
  intro s n
  refine ⟨fill_done, fun hbits hend => ?_, fun h => ⟨peek_there h, readBits_there h⟩,
    fun u h => ⟨peek_fill h, fun h0 => readBits_fill h0 h⟩,
    fun e u h => ⟨peek_err h, fun h0 => readBits_err h0 (peek_err h)⟩,
    fun u h => ⟨peek_stall h, fun h0 => readBits_stall h0 (peek_stall h)⟩, if_pos rfl⟩
  rw [fill_step hbits hend]
  refine ⟨fun u h => ?_, fun e u h => ?_, fun u h => ?_⟩ <;> rw [h] <;> rfl

theorem endedAtRestart_iff (e : EndRec) :
    endedAtRestart e = true ↔ e.marker = true ∧ 0xD0 ≤ e.mbyte.toNat ∧ e.mbyte.toNat ≤ 0xD7 := by
  simp [endedAtRestart, BitVec.le_def, and_assoc]

/-- Settles O29: PEEK, and READ with it, fails with the error of the end of the data, whose code the restart marker
decides. -/
theorem endOfDataInsideAFieldFails : Obligations.EndOfDataInsideAFieldFails := by
  intro s n hend hbits h0 restart err
  have fails : peek n s = .err (endErr s) s ∧ readBits n s = .err (endErr s) s :=
    ⟨peek_ended hend hbits, readBits_err h0 (peek_ended hend hbits)⟩
  have code : endErr s = err (if endedAtRestart s.endRec then .unsupportedFeature else .truncated) := rfl
  refine ⟨fun h => ?_, fun h => ?_⟩
  · rwa [code, if_pos ((endedAtRestart_iff _).2 h)] at fails
  · rwa [code, if_neg (mt (endedAtRestart_iff _).1 h)] at fails

end Sys2Proof.Machine
end

section
/-! PROOFS. The turns of the block that match a symbol (O7) and those of DRAIN (O48): a destuffer step where data is needed,
else what the match or the end record says (41 R145; 42 R156; 43 R162, R165, R171, R174; log 4). -/

namespace Sys2Proof.Machine

/-! ### A term's turn, by what its match needs and answers -/

theorem destuffed_iff (s t : State) : destuffed s t = true ↔ t.ip ≠ s.ip ∨ t.endRec ≠ s.endRec := by
  simp [destuffed]

theorem needsData_iff (n : Nat) (s : State) :
    needsData n s = true ↔ s.dbits.length < s.cur + n ∧ s.endRec.ended = false := by
  simp [needsData]

section

variable {dec : Byte → Instr} {bits : Byte → State → Nat} {t : HtTable} {s : State}

/-- MATCH, or the READ of the additional bits of the symbol it finds, needs a destuffer step (41 R143, 42 R156). -/
def TermNeedsData (bits : Byte → State → Nat) (t : HtTable) (s : State) : Prop :=
  destuffed s (leftBy (matchCode t s)) = true ∨ ∃ b u, matchCode t s = .ok b u ∧ needsData (bits b u) u = true

/-- Only data that has not ended is needed. -/
theorem TermNeedsData.not_ended (h : TermNeedsData bits t s) : s.endRec.ended = false := by
  by_contra hn
  have hm := not_destuffed (t := t) (Bool.not_eq_false _ ▸ hn)
  rcases h with h | ⟨b, u, hr, hu⟩
  · rw [h] at hm
    cases hm
  · rw [hr, ← Bool.not_eq_true, destuffed_iff] at hm
    have he : u.endRec = s.endRec := by tauto
    exact hn (he ▸ ((needsData_iff _ _).1 hu).2)

theorem termMove_needing (h : TermNeedsData bits t s) : termMove dec bits t s = dataMove s := by
  unfold termMove
  split
  · rfl
  · rename_i hm
    obtain ⟨b, u, hr, hu⟩ := h.resolve_left hm
    rw [hr]
    exact if_pos hu

theorem termMove_ok {b : Byte} {u : State} (hm : ¬ destuffed s (leftBy (matchCode t s)) = true)
    (hr : matchCode t s = .ok b u) (hu : ¬ needsData (bits b u) u = true) : termMove dec bits t s = .run (dec b) u := by
  rw [termMove, if_neg hm, hr]
  exact if_neg hu

theorem termMove_err {e : Err} {u : State} (hm : ¬ destuffed s (leftBy (matchCode t s)) = true)
    (hr : matchCode t s = .err e u) : termMove dec bits t s = .settled (.next (raiseErr e u)) := by
  rw [termMove, if_neg hm, hr]

theorem termMove_stall {u : State} (hm : ¬ destuffed s (leftBy (matchCode t s)) = true)
    (hr : matchCode t s = .stall u) : termMove dec bits t s = .settled (.next { u with stalled := true }) := by
  rw [termMove, if_neg hm, hr]

end

/-- MATCH does not move the zigzag position (42 R156). -/
theorem matchCode_k {t : HtTable} {s u : State} {b : Byte} (h : matchCode t s = .ok b u) : u.k = s.k := by
  have hf := ((match_scanned t s).1 b u h).frame
  unfold SameButScan at hf
  rw [hf]

theorem decodeMove_dc {s : State} (h : s.phase = .dc) :
    decodeMove s = termMove decodeDc dcBits (dcTable s s.j) (beginBlock s) := by
  rw [decodeMove, h]

theorem decodeMove_ac {s : State} (h : s.phase = .ac) : decodeMove s = termMove decodeAc acBits (acTable s s.j) s := by
  rw [decodeMove, h]

/-- Settles O7: a DC and an AC term make the same move, from their own table, with their own decoder and their own count of
additional bits. -/
theorem turnRunsTheMatchedSymbol : Obligations.TurnRunsTheMatchedSymbol := by
  intro s hb hm hr hc term
  have ht : Turning s := ⟨hb, hm, hr, hc⟩
  have main : ∀ (dec : Byte → Instr) (bits : Byte → State → Nat) (t : HtTable) (v : State) (symbol : Byte → Encoded)
      (n : Byte → Nat), decodeMove s = termMove dec bits t v → (∀ b, decode (symbol b) = .ok (dec b)) →
      (∀ b u, matchCode t v = .ok b u → bits b u = n b) → term t v symbol n := by
    intro dec bits t v symbol n hmove hdec hn r hmatch moved short
    have turn_eq : turn s = perform (termMove dec bits t v) := hmove ▸ turn_move ht
    have moved_iff : destuffed v (leftBy (matchCode t v)) = true ↔ moved := hmatch ▸ destuffed_iff v _
    have short_iff : ∀ b u, r = .ok b u → (needsData (bits b u) u = true ↔ short b u) :=
      fun b u h => hn b u (hmatch.trans h) ▸ needsData_iff _ u
    refine ⟨fun h => ?_, fun h => ⟨fun b u i hok hs hi => ?_, fun e u he => ?_, fun u hw => ?_⟩⟩
    · have needs : TermNeedsData bits t v :=
        h.imp moved_iff.2 fun ⟨b, u, hok, hs⟩ => ⟨b, u, hmatch.trans hok, (short_iff b u hok).2 hs⟩
      have step_eq : turn s = settle (dstep v) := turn_eq.trans (congrArg perform (termMove_needing needs))
      exact ⟨needs.not_ended, fun u hd => ⟨step_eq.trans (congrArg settle hd),
          fun hmv => (matchCode_dstep needs.not_ended hd (moved_iff.2 hmv)).trans hmatch⟩,
        fun e u hd => step_eq.trans (congrArg settle hd), fun u hd => step_eq.trans (congrArg settle hd)⟩
    · cases (hdec b).symm.trans hi
      exact turn_eq.trans (congrArg perform (termMove_ok (mt moved_iff.1 h) (hmatch.trans hok) (mt (short_iff b u hok).1 hs)))
    · exact turn_eq.trans (congrArg perform (termMove_err (mt moved_iff.1 h) (hmatch.trans he)))
    · exact turn_eq.trans (congrArg perform (termMove_stall (mt moved_iff.1 h) (hmatch.trans hw)))
  exact ⟨fun hp => main decodeDc dcBits _ _ _ _ (decodeMove_dc hp) (fun _ => rfl) fun _ _ _ => rfl,
    fun hp => main decodeAc acBits _ _ _ _ (decodeMove_ac hp) (fun _ => rfl) fun b u h => by rw [acBits, matchCode_k h]⟩

/-! ### DRAIN -/

theorem turn_drain_move {s : State} (h : Turning s) (h4 : s.phase = .drain) : turn s = settle (drainStep s) := by
  rw [turn_move h, decodeMove, h4]
  rfl

/-- Settles O48: the turn is the drain step, and a destuffer step fails with BusError only. -/
theorem drainEndsInDone : Obligations.DrainEndsInDone := by
  intro s hb hm hr hc hp
  rw [turn_drain_move ⟨hb, hm, hr, hc⟩ hp, drainStep]
  refine ⟨fun he => ?_, fun he => ?_⟩
  · rw [if_pos he]
    rfl
  · rw [if_neg (by simp [he])]
    refine ⟨fun u hd => ?_, fun e u hd => ⟨(dstep_err hd).2.1, ?_⟩, fun u hd => ?_⟩ <;> rw [hd] <;> rfl

end Sys2Proof.Machine
end

section
/-! PROOFS. The code matcher (O30 to O34): when BUILD succeeds and which codes it makes, and what MATCH does where a code
of the table starts at the cursor and where none does (42 R150 to R157). -/

namespace Sys2Proof.Machine

/-! ### BUILD -/

theorem build_tooManyCodes {bits : List Byte} (h : 256 < totalCodes bits) (vals : List Byte) :
    build bits vals = .error 3#8 := if_pos h

theorem build_unfit {bits : List Byte} (hn : totalCodes bits ≤ 256)
    (h : ∃ b, 1 ≤ b ∧ b ≤ bits.length ∧ ¬ CodesFit bits b) (vals : List Byte) : build bits vals = .error 4#8 := by
  rw [build, if_neg (by omega), buildCodes_unfit bits vals h]

theorem build_fit {bits : List Byte} (hn : totalCodes bits ≤ 256)
    (h : ∀ b, 1 ≤ b → b ≤ bits.length → CodesFit bits b) (vals : List Byte) :
    build bits vals = .ok ⟨true, bits, vals.take (totalCodes bits), maxLength 1 (bits.map BitVec.toNat),
      (List.range' 1 bits.length).flatMap (codesAt bits vals)⟩ := by
  rw [build, if_neg (by omega), buildCodes_fit bits vals h]

/-- Settles O30: BUILD counts the codes, then checks every length, and its maxlen is `maxLength` of the counts. -/
theorem buildSucceedsWhenTheCodesFit : Obligations.BuildSucceedsWhenTheCodesFit := by
  intro bits vals hl n
  refine ⟨fun hn => build_tooManyCodes hn vals, fun hn h => build_unfit hn (hl ▸ h) vals, fun hn h =>
    ⟨_, build_fit hn (hl ▸ h) vals, rfl, rfl, rfl, ?_⟩⟩
  obtain ⟨hle, hmax, hused⟩ := maxLength_bits bits
  exact ⟨hl ▸ hle, fun b hb _ => hmax b hb, hused⟩

/-- All codes are shorter than the first length past the counts. -/
theorem shorterCodes_all (bits : List Byte) : shorterCodes bits (bits.length + 1) = totalCodes bits := by
  rw [shorterCodes, Nat.add_sub_cancel, List.take_length, totalCodes]

/-- Settles O31: the codes of a built table are those of each length in turn, so there are as many as the counts say, and
the e-th of a length stands after all shorter ones. -/
theorem builtCodesAreCanonical : Obligations.BuiltCodesAreCanonical := by
  intro bits vals t hl _ h
  obtain ⟨hcodes, -⟩ := built_codes h
  rw [hcodes]
  refine ⟨?_, fun b e hb hb16 he => codes_get bits vals _ b e hb (hl ▸ hb16) he⟩
  rw [codesBelow_length, shorterCodes_all, totalCodes]

theorem built_maxlen_le {bits vals : List Byte} {t : HtTable} (h : build bits vals = .ok t) :
    t.maxlen ≤ bits.length := by
  obtain ⟨-, codes, -, rfl⟩ := build_ok h
  exact (maxLength_bits bits).1

/-- Settles O32: the bounds of a built table's codes, and the order of the canonical list, in which every code lies above
the extensions of the codes before it. -/
theorem builtCodesArePrefixFree : Obligations.BuiltCodesArePrefixFree := by
  intro bits vals t hl h
  refine ⟨fun c hc => ?_, fun p q c c' hp hq => ?_⟩
  · obtain ⟨hpos, hmax, -, hfit⟩ := built_code_bounds h hc
    exact ⟨hpos, hmax, hl ▸ built_maxlen_le h, hfit⟩
  · rw [(built_codes h).1] at hp hq
    exact codes_prefix_free hp hq

/-! ### MATCH where a code starts at the cursor -/

section

variable {t : HtTable} {s u : State}

/-- MATCH passes the first n lengths, when their bits are there and none of their codes is at the cursor (42 R156). -/
theorem matchCode_skip {n : Nat} (hn : n ≤ t.maxlen) (hbits : s.cur + n ≤ s.dbits.length)
    (hno : ∀ c ∈ t.codes, c.len ≤ n → ¬ CodeAtCursor c s) :
    matchCode t s = matchFrom t.codes (t.maxlen - n) (n + 1) { s with c0 := s.cur } := by
  have h := matchFrom_skip t.codes { s with c0 := s.cur } (t.maxlen - n) n 1
    (fun c hc _ hlt => hno c hc (by omega)) (show s.cur + 1 + n ≤ s.dbits.length + 1 by omega)
  rwa [Nat.add_sub_cancel' hn, Nat.add_comm 1 n] at h

/-- MATCH comes to the length n + 1 when the shorter ones are passed so (42 R156). -/
theorem matchCode_next {n : Nat} (hn : n < t.maxlen) (hbits : s.cur + n ≤ s.dbits.length)
    (hno : ∀ c ∈ t.codes, c.len ≤ n → ¬ CodeAtCursor c s) :
    matchCode t s = matchFrom t.codes (t.maxlen - (n + 1) + 1) (n + 1) { s with c0 := s.cur } := by
  rw [matchCode_skip hn.le hbits hno, show t.maxlen - n = t.maxlen - (n + 1) + 1 by omega]

/-- A search whose bits are the number of a code ends with that code's value (42 R156). -/
theorem matchFrom_found {codes : List Code} {fuel L : Nat} {v : Byte} (hbits : s.cur + L ≤ s.dbits.length)
    (hf : findCode codes L (bitsAtCursor L s) = some v) :
    matchFrom codes (fuel + 1) L s = .ok v { s with cur := s.cur + L } := by
  rw [bitsAtCursor] at hf
  rw [matchFrom, peek_there hbits]
  simp only [andThen, hf]

/-- Two codes of a built table that are both at the cursor are the same (42 R154 item 2). -/
theorem codeAtCursor_unique {bits vals : List Byte} (hl : bits.length = 16) (h : build bits vals = .ok t) {c c' : Code}
    (hc : c ∈ t.codes) (hc' : c' ∈ t.codes) (hle : c.len ≤ c'.len) (hbits : s.cur + c'.len ≤ s.dbits.length)
    (hcur : CodeAtCursor c s) (hcur' : CodeAtCursor c' s) : c = c' := by
  by_contra hne
  obtain ⟨p, hp⟩ := List.mem_iff_getElem?.1 hc
  obtain ⟨q, hq⟩ := List.mem_iff_getElem?.1 hc'
  have hpq : p ≠ q := by
    rintro rfl
    exact hne (Option.some.inj (hp.symm.trans hq))
  have hpre := bitsAtCursor_prefix s c.len c'.len hle hbits
  rw [hcur, hcur'] at hpre
  exact (builtCodesArePrefixFree bits vals t hl h).2 p q c c' hp hq hpq hle hpre.symm

end

/-- Settles O33: MATCH passes the shorter lengths, whose codes the cursor's own code excludes, and finds that code at its
length. -/
theorem matchFindsTheCode : Obligations.MatchFindsTheCode := by
  intro s t c htb hv hc hbits hcur
  obtain ⟨bits, vals, hl, -, hb⟩ := htb hv
  obtain ⟨hpos, hmax, -⟩ := built_code_bounds hb hc
  have hno : ∀ c' ∈ t.codes, c'.len ≤ c.len - 1 → ¬ CodeAtCursor c' s := fun c' hc' hlen hcur' => by
    obtain rfl := codeAtCursor_unique hl hb hc' hc (by omega) hbits hcur' hcur
    omega
  have hfind : findCode t.codes c.len (bitsAtCursor c.len s) = some c.value :=
    findCode_some hc rfl hcur.symm fun c' hc' hlen hcode =>
      codeAtCursor_unique hl hb hc' hc hlen.le hbits (by rw [CodeAtCursor, hlen, hcode]) hcur
  have hnext := matchCode_next (n := c.len - 1) (by omega) (by omega) hno
  rw [Nat.sub_add_cancel hpos] at hnext
  exact hnext.trans (matchFrom_found hbits hfind)

/-! ### MATCH where no code starts at the cursor -/

section

variable {t : HtTable} {s u : State}

/-- A search whose bits are missing fails with the error of the end of the data, once the data has ended (42 R156). -/
theorem matchFrom_ended {codes : List Code} {fuel L : Nat} (he : s.endRec.ended = true)
    (hbits : s.dbits.length < s.cur + L) : matchFrom codes (fuel + 1) L s = .err (endErr s) s := by
  rw [matchFrom, peek_ended he hbits]
  rfl

/-- A search whose bits are missing takes one destuffer step and goes on, while the data lasts (42 R156). -/
theorem matchFrom_step {codes : List Code} {fuel L : Nat} (he : s.endRec.ended = false)
    (hbits : s.dbits.length < s.cur + L) :
    matchFrom codes (fuel + 1) L s = andThen (dstep s) fun _ v => matchFrom codes (fuel + 1) L v := by
  rw [matchFrom, peek, fill_step hbits he]
  cases dstep s <;> rfl

/-- The bits at the cursor stay where they are in a destuffer step (41 R141). -/
theorem bitsAtCursor_dstep {a : Unit} (h : dstep s = .ok a u) {n : Nat} (hbits : s.cur + n ≤ s.dbits.length) :
    bitsAtCursor n u = bitsAtCursor n s := by
  obtain ⟨hcur, l, hl⟩ := dstep_prefix h
  rw [bitsAtCursor, hcur, hl, List.drop_append_of_le_length (by omega),
    List.take_append_of_le_length (by rw [List.length_drop]; omega), bitsAtCursor]

/-- A destuffer step keeps a record of the code's start that is at the cursor. -/
theorem dstep_c0_cur {a : Unit} (h : dstep { s with c0 := s.cur } = .ok a u) : { u with c0 := u.cur } = u := by
  have hu : u = { s with c0 := s.cur, ip := u.ip, dbits := u.dbits, src := u.src, endRec := u.endRec } := dstep_frame h
  rw [hu]

/-- MATCH without enough bits takes one destuffer step and starts again, while the data lasts: it passes the same lengths
again and comes to the length whose bits were missing (42 R156). -/
theorem matchCode_step {n : Nat} (hn : n < t.maxlen) (hbits : s.dbits.length = s.cur + n)
    (hno : ∀ c ∈ t.codes, c.len ≤ n → ¬ CodeAtCursor c s) (he : s.endRec.ended = false) :
    matchCode t s = andThen (dstep { s with c0 := s.cur }) fun _ v => matchCode t v := by
  have hmissing : s.dbits.length < s.cur + (n + 1) := by omega
  refine (matchCode_next hn hbits.ge hno).trans ((matchFrom_step (s := { s with c0 := s.cur }) he hmissing).trans ?_)
  cases hd : dstep { s with c0 := s.cur } with
  | err e u => rfl
  | stall u => rfl
  | ok a u =>
    obtain ⟨hcur, l, hl⟩ := dstep_prefix hd
    have hbits' : u.cur + n ≤ u.dbits.length := by
      rw [hcur, hl, List.length_append, hbits]
      exact Nat.le_add_right _ _
    have hno' : ∀ c ∈ t.codes, c.len ≤ n → ¬ CodeAtCursor c u := fun c hc hlen => by
      rw [CodeAtCursor, bitsAtCursor_dstep hd (show s.cur + c.len ≤ s.dbits.length by omega)]
      exact hno c hc hlen
    simp only [andThen]
    rw [matchCode_next hn hbits' hno', dstep_c0_cur hd]

end

/-- Settles O34: MATCH passes every length whose bits are there. With maxlen bits no length is left; with fewer, the next
length meets the end of the data or takes a destuffer step. -/
theorem matchFailsOrReadsOn : Obligations.MatchFailsOrReadsOn := by
  intro s t _ _ hcur hno
  obtain ⟨n, hn⟩ := Nat.exists_eq_add_of_le hcur
  have hnoShort : ∀ c ∈ t.codes, c.len ≤ n → ¬ CodeAtCursor c s := fun c hc hlen => hno c hc (by omega)
  refine ⟨fun hbits => ?_, fun hbits he => ?_, fun hbits he => ?_⟩
  · rw [matchCode_skip le_rfl hbits fun c hc hlen => hno c hc (by omega), Nat.sub_self]
    rfl
  · have hmissing : s.dbits.length < s.cur + (n + 1) := by omega
    rw [show s.dbits.length - s.cur = n by omega]
    exact ⟨_, peek_ended he hmissing,
      (matchCode_next (by omega) hn.ge hnoShort).trans (matchFrom_ended he hmissing)⟩
  · rw [matchCode_step (by omega) hn hnoShort he]
    refine ⟨fun u hd => ?_, fun e u hd => ?_, fun u hd => ?_⟩ <;> rw [hd] <;> rfl

end Sys2Proof.Machine
end

section
/-! PROOFS. The symbols of a term (O35 to O39): the value of the additional bits, what a symbol answers once its bits are in
D, and that it fills D first (43 R160 to R170). -/

namespace Sys2Proof.Machine

/-! ### EXTEND -/

theorem extend_none (mode : PExtend) (v : Nat) : extend mode v 0 = 0 := if_pos rfl

/-- A number whose high bit is 1 stands for itself (43 R160). -/
theorem extend_high {n v : Nat} (mode : PExtend) (hn : 1 ≤ n) (h : 2 ^ (n - 1) ≤ v) : extend mode v n = v := by
  unfold extend
  rw [if_neg (by omega), if_pos h]

theorem extend_low_negComplement {n v : Nat} (hn : 1 ≤ n) (h : v < 2 ^ (n - 1)) :
    extend .negComplement v n = (v : Int) - 2 ^ n + 1 := by
  rw [extend, if_neg (by omega), if_neg (by omega)]
  ring

theorem extend_low_bitNot {n v : Nat} (hn : 1 ≤ n) (h : v < 2 ^ (n - 1)) : extend .bitNot v n = -(v : Int) - 1 := by
  rw [extend, if_neg (by omega), if_neg (by omega)]

/-- There are twice as many numbers of n bits as of one bit fewer. -/
theorem two_pow_succ_pred {n : Nat} (hn : 1 ≤ n) : (2 : Int) ^ n = 2 * 2 ^ (n - 1) := by
  rw [← pow_succ', Nat.sub_add_cancel hn]

/-- The value of n additional bits is below 2^n in magnitude, for either complement (43 R161). -/
theorem extend_natAbs_lt (mode : PExtend) {n v : Nat} (h : v < 2 ^ n) : (extend mode v n).natAbs < 2 ^ n := by
  rcases Nat.eq_zero_or_pos n with rfl | hn
  · simp [extend_none]
  · have hpow := two_pow_succ_pred hn
    have hv : (v : Int) < 2 ^ n := by exact_mod_cast h
    zify
    rw [abs_lt]
    rcases Nat.lt_or_ge v (2 ^ (n - 1)) with hlow | hhigh
    · have hlow' : (v : Int) < 2 ^ (n - 1) := by exact_mod_cast hlow
      cases mode
      · rw [extend_low_negComplement hn hlow]
        omega
      · rw [extend_low_bitNot hn hlow]
        omega
    · rw [extend_high mode hn hhigh]
      omega

/-- The value of at most 15 additional bits fits 16 bits, and never is -32768 (43 R161). -/
theorem extend_fits (mode : PExtend) {n v : Nat} (hn : n ≤ 15) (h : v < 2 ^ n) :
    -32767 ≤ extend mode v n ∧ extend mode v n ≤ 32767 := by
  have hlt := extend_natAbs_lt mode h
  have hle : 2 ^ n ≤ 2 ^ 15 := Nat.pow_le_pow_right (by decide) hn
  omega

/-- Settles O35: the high bit decides, and each reading of a 0 there has its own range. -/
theorem extendGivesTheSignedValue : Obligations.ExtendGivesTheSignedValue := by
  intro mode v n hn hv
  have hvn : (v : Int) < 2 ^ n := by exact_mod_cast hv
  refine ⟨?_, fun h1 hhigh => ?_, fun h1 hlow hm => ?_, fun h1 hlow hm => ?_, extend_fits mode hn hv⟩
  · rintro rfl
    exact extend_none mode v
  · have hhigh' : (2 : Int) ^ (n - 1) ≤ v := by exact_mod_cast hhigh
    rw [extend_high mode h1 hhigh]
    omega
  · have hlow' : (v : Int) < 2 ^ (n - 1) := by exact_mod_cast hlow
    have hpow := two_pow_succ_pred h1
    rw [hm, extend_low_negComplement h1 hlow]
    omega
  · have hlow' : (v : Int) < 2 ^ (n - 1) := by exact_mod_cast hlow
    rw [hm, extend_low_bitNot h1 hlow]
    omega

/-! ### A symbol in its phase -/

section

variable {s : State} {p : Phase}

theorem inTerm_here (hb : s.seq = .busy) (hp : s.phase = p) (r : Result) : inTerm p s r = r := if_pos ⟨hb, hp⟩

theorem inTerm_outside (h : s.seq ≠ .busy ∨ s.phase ≠ p) (r : Result) :
    inTerm p s r = .refused .symbolOutsideDecode := by
  rw [inTerm, if_neg (by tauto)]

end

/-! ### Filling D -/

/-- What a DC symbol does with its additional bits (43 R162, R163). -/
def dcFinish (n v : Nat) (s : State) : Decoded Unit :=
  let p := (s.pred.get s.j).toInt + extend s.params.pExtend v n
  if p < -32768 ∨ 32767 < p then .err (termErr .overflow s) s
  else .ok () (setCoef 0 (coef p) { s with pred := s.pred.set s.j.val (coef p), phase := .ac, k := 1 })

/-- What an AC symbol does with its additional bits (43 R168). -/
def acFinish (r n v : Nat) (s : State) : Decoded Unit :=
  .ok () (advanceTo (s.k + r + 1) (setCoef (s.k + r) (coef (extend s.params.pExtend v n)) s))

theorem dcTerm_eq (n : Nat) (s : State) : dcTerm n s = andThen (readBits n s) (dcFinish n) := rfl

theorem acTerm_pastEnd {r : Nat} {s : State} (h : 63 < s.k + r) (n : Nat) :
    acTerm r n s = .err (termErr .corruptBitstream s) s := if_pos h

theorem acTerm_eq {r : Nat} {s : State} (h : s.k + r ≤ 63) (n : Nat) :
    acTerm r n s = andThen (readBits n s) (acFinish r n) := if_neg (by omega)

/-- The instruction i reads n bits in the state s and goes on with them. -/
def ReadsThen (n : Nat) (f : Nat → State → Decoded Unit) (i : Instr) (s : State) : Prop :=
  exec i s = settle (andThen (readBits n s) f)

section

variable {n : Nat} {f : Nat → State → Decoded Unit} {i : Instr} {s : State}

/-- An instruction that reads bits answers the same in the state that FILL leaves (41 R143). -/
theorem ReadsThen.filled {u : State} (h : ReadsThen n f i s) (hu : ReadsThen n f i u) (h0 : n ≠ 0)
    (hf : fill n s = .ok () u) : exec i s = exec i u := by
  rw [h, hu, readBits_fill h0 hf]

theorem ReadsThen.failed {e : Err} {u : State} (h : ReadsThen n f i s) (h0 : n ≠ 0) (hp : peek n s = .err e u) :
    exec i s = .next (raiseErr e u) := by
  rw [h, readBits_err h0 hp]
  rfl

theorem ReadsThen.waits {u : State} (h : ReadsThen n f i s) (h0 : n ≠ 0) (hf : fill n s = .stall u) :
    exec i s = .next { u with stalled := true } := by
  rw [h, readBits_stall h0 (peek_stall hf)]
  rfl

end

theorem exec_dcSize_reads {s : State} (hb : s.seq = .busy) (hp : s.phase = .dc) (n : BitVec 4) :
    ReadsThen n.toNat (dcFinish n.toNat) (.dcSize n) s :=
  inTerm_here hb hp _

theorem exec_runSize_reads {s : State} (hb : s.seq = .busy) (hp : s.phase = .ac) {r : BitVec 4}
    (hk : s.k + r.toNat ≤ 63) (n : BitVec 4) : ReadsThen n.toNat (acFinish r.toNat n.toNat) (.runSize r n) s := by
  rw [ReadsThen, ← acTerm_eq hk]
  exact inTerm_here hb hp _

/-- FILL moves no part of the position (41 R143). -/
theorem fill_position {n : Nat} {s u : State} {a : Unit} (h : fill n s = .ok a u) :
    u.seq = s.seq ∧ u.phase = s.phase ∧ u.k = s.k := by
  have hu : SameButStream s u := fill_frame.1 u a h
  unfold SameButStream at hu
  rw [hu]
  exact ⟨rfl, rfl, rfl⟩

/-- Settles O36: both symbols read their bits first, and the position at which they do is the one before FILL. -/
theorem symbolsFillTheirBitsFirst : Obligations.SymbolsFillTheirBitsFirst := by
  intro s r n hn runs
  have h0 : n.toNat ≠ 0 := fun h => hn (BitVec.eq_of_toNat_eq h)
  have main : ∀ (p : Phase) (i : Instr) (f : Nat → State → Decoded Unit) (a : State → Result),
      (∀ t, exec i t = inTerm p t (a t)) → (∀ t, t.seq = .busy → t.phase = p → (p = .ac → t.k + r.toNat ≤ 63) →
        ReadsThen n.toNat f i t) → runs p i := by
    intro p i f a hi reads
    refine ⟨fun h => (hi s).trans (inTerm_outside h _), fun hb hp hk => ?_⟩
    have hs := reads s hb hp hk
    refine ⟨fun u hu => ?_, fun e u hu => hs.failed h0 (peek_err hu), fun u hu => hs.waits h0 hu,
      fun hend hbits => ⟨_, peek_ended hend hbits, hs.failed h0 (peek_ended hend hbits)⟩⟩
    obtain ⟨hseq, hphase, hku⟩ := fill_position hu
    exact hs.filled (reads u (hseq.trans hb) (hphase.trans hp) (hku ▸ hk)) h0 hu
  exact ⟨main .dc _ _ _ (fun _ => rfl) fun t hb hp _ => exec_dcSize_reads hb hp n,
    main .ac _ _ _ (fun _ => rfl) fun t hb hp hk => exec_runSize_reads hb hp (hk rfl) n⟩

/-! ### Terms whose bits are in D -/

/-- n bits make a number below 2^n (00 R12). -/
theorem bitsAtCursor_lt (n : Nat) (s : State) : bitsAtCursor n s < 2 ^ n :=
  (bitsToUint_lt _).trans_le (Nat.pow_le_pow_right (by decide) (List.length_take_le ..))

/-- A value in 16 bits is the one its 16-bit form holds. -/
theorem coef_toInt {v : Int} (hlow : -32768 ≤ v) (hhigh : v ≤ 32767) : (coef v).toInt = v := by
  rw [coef, BitVec.toInt_ofInt, Int.bmod_eq_of_le (by omega) (by omega)]

theorem setCoef_of_lt {n : Nat} (h : n < 64) (v : Half) (s : State) :
    setCoef n v s = { s with zz := s.zz.set s.j.val ((s.zz.get s.j).set n v) } := dif_pos h

theorem dcTerm_there {n : Nat} {s : State} (h : s.cur + n ≤ s.dbits.length) :
    dcTerm n s = dcFinish n (bitsAtCursor n s) { s with cur := s.cur + n } := by
  rw [dcTerm_eq, readBits_there h]
  rfl

theorem acTerm_there {r n : Nat} {s : State} (hk : s.k + r ≤ 63) (h : s.cur + n ≤ s.dbits.length) :
    acTerm r n s = acFinish r n (bitsAtCursor n s) { s with cur := s.cur + n } := by
  rw [acTerm_eq hk, readBits_there h]
  rfl

/-- Settles O37: a DC symbol is a DC term of its size, and the sum decides how the term ends. -/
theorem dcTermAddsTheDifference : Obligations.DcTermAddsTheDifference := by
  intro s n hb hp hbits u p term
  have main : ∀ i, exec i s = inTerm .dc s (settle (dcTerm n.toNat s)) → term i := by
    intro i hi
    rw [inTerm_here hb hp, dcTerm_there hbits] at hi
    refine ⟨fun hlow hhigh => ⟨coef p, coef_toInt hlow hhigh, hi.trans ?_⟩, fun h => hi.trans ?_⟩
    · rw [dcFinish, if_neg (show ¬ (p < -32768 ∨ 32767 < p) by omega), setCoef_of_lt (by decide)]
      rfl
    · rw [dcFinish, if_pos h]
      rfl
  refine ⟨main _ rfl, fun hn => main _ ?_, fun b => inTerm_here hb hp _⟩
  rw [hn]
  rfl

/-- Settles O38: the bounds of ZRL decide whether it skips or fails. -/
theorem endOfBlockAndZeroRuns : Obligations.EndOfBlockAndZeroRuns := by
  intro s hb hp
  have zrl : exec .zrl s = settle (if 63 < s.k + 15 then .err (termErr .corruptBitstream s) s
      else .ok () (advanceTo (s.k + 16) s)) := inTerm_here hb hp _
  refine ⟨inTerm_here hb hp _, fun h => ?_, fun h => ?_⟩
  · rw [zrl, if_neg (by omega)]
    rfl
  · rw [zrl, if_pos h]
    rfl

/-- Settles O39: an AC symbol is an AC term of its run and size, and its value fits the coefficient. -/
theorem acTermPlacesTheValueAfterTheRun : Obligations.AcTermPlacesTheValueAfterTheRun := by
  intro s r n hb hp term
  have main : ∀ i, exec i s = inTerm .ac s (settle (acTerm r.toNat n.toNat s)) → term i := by
    intro i hi
    rw [inTerm_here hb hp] at hi
    refine ⟨fun h => ?_, fun pos hpos hbits => ?_⟩
    · rw [hi, acTerm_pastEnd h]
      rfl
    · have hlt := pos.isLt
      have hfits := extend_fits s.params.pExtend (show n.toNat ≤ 15 by omega) (bitsAtCursor_lt n.toNat s)
      refine ⟨_, coef_toInt (by omega) hfits.2, ?_⟩
      rw [hi, acTerm_there (by omega) hbits, acFinish]
      show settle (.ok () (advanceTo (s.k + r.toNat + 1) (setCoef (s.k + r.toNat) _ _))) = _
      rw [hpos, setCoef_of_lt hlt]
      rfl
  refine ⟨main _ rfl, fun hn => main _ ?_⟩
  rw [hn]
  rfl

end Sys2Proof.Machine
end

section
/-! PROOFS. RECON, turn by turn (O60) and as a whole (O47): the components, the writes in their order, and the end of the MCU
or the first rejected write (43 R171; 44 R183; 46 R205; 60 R223). -/

namespace Sys2Proof.Machine

/-! ### One turn of RECON -/

/-- The quantization table of a scan component is that of the frame component with its id (44 R183). -/
theorem quantTable_eq {s : State} (hc : startChecks s = none) {j c : Fin 4} (hlt : c.val < frameNf s)
    (hid : scompId s j = fcompId s c) : quantTable s j = s.qtAct.get (Fin.ofNat 4 (fcompTq s c)) := by
  obtain ⟨⟨⟨_, _, _, h4, _⟩, _⟩, _⟩ := (startChecks_none s).1 hc
  rw [quantTable, fcOf_eq s j c h4 hlt hid.symm]

/-- A write of the MCU does not wrap around the top of memory, since check 11 passed (40 R122). -/
theorem emit_addrAt {s : State} (hc : startChecks s = none) {w : Nat × Byte} (hw : w ∈ emitList s) :
    addrAt s.outBase w.1 = s.outBase.toNat + w.1 := by
  obtain ⟨_, _, hfit⟩ := (startChecks_none s).1 hc
  have hfit : s.outBase.toNat + outSize s ≤ 2 ^ 32 := hfit
  have hlt := emitList_lt s (frameNf_le hc) w hw
  exact addrAt_eq _ _ (by omega)

theorem settle_rejected_error {s : State} (h : s.params.pBus = .error) (unit : Byte) (pos : Nat) :
    settle (rejectedAccess unit pos s) = .next (raiseErr ⟨.busError, .dma, 0#8, unit, BitVec.ofNat 32 pos⟩ s) := by
  rw [rejectedAccess_error h]
  rfl

theorem settle_rejected_stall {s : State} (h : s.params.pBus = .stall) (unit : Byte) (pos : Nat) :
    settle (rejectedAccess unit pos s) = .next { s with stalled := true } := by
  rw [rejectedAccess_stall h]
  rfl

/-- Settles O60: `sub` says which component, write or end the turn is. -/
theorem reconstructionGoesStepByStep : Obligations.ReconstructionGoesStepByStep := by
  intro s hb hm hr hc hp hmem
  have ht : Turning s := ⟨hb, hm, hr, hc⟩
  refine ⟨fun j c hj hsub hlt hid => ?_, fun o b hs hw => ?_, fun h => turn_recon_end ht hp h⟩
  · have hcomp : Fin.ofNat 4 s.sub = j := by rw [hsub, Fin.ofNat_val_eq_self]
    rw [turn_recon_comp ht hp (hsub ▸ hj), hcomp, ← quantTable_eq hc hlt hid]
    rfl
  · have haddr := emit_addrAt hc (List.mem_of_getElem? hw)
    refine ⟨fun hok => ⟨_, turn_recon_write ht hp hs hw (haddr ▸ hok), ?_, fun a ha => ?_⟩, fun hrej => ?_⟩
    · rw [haddr, Memory.read_write_same _ _ _ hmem.1]
    · rw [haddr, Memory.read_write_other _ _ _ _ ha]
    · rw [turn_recon_rejected ht hp hs hw (haddr ▸ hrej)]
      exact ⟨fun h => settle_rejected_error h _ _, fun h => settle_rejected_stall h _ _⟩

/-! ### Turns with nothing between them -/

theorem runDecode_one (s : State) : runDecode 1 s = turn s := by
  rw [runDecode]
  cases turn s <;> rfl

/-- A last turn, after the turns before it. -/
theorem runDecode_snoc {s t : State} {n : Nat} (h : runDecode n s = .next t) : runDecode (n + 1) s = turn t := by
  rw [runDecode_add h, runDecode_one]

/-- With an empty agenda the block's turns are the machine's steps (log 3). -/
theorem run_of_runDecode {s t : State} {n : Nat} (hs : s.agenda = []) (h : runDecode n s = .next t) :
    core.run n s = .next t := by
  induction n generalizing s with
  | zero => exact h
  | succ n ih =>
    cases hn : turn s with
    | next u =>
      rw [runDecode_succ hn] at h
      have hstep : core.step s = .next u := (step_turn hs).trans hn
      rw [run_succ_of_next hstep]
      exact ih ((turn_agenda hn).trans hs) h
    | fault f =>
      rw [runDecode, hn] at h
      cases h
    | refused e =>
      rw [runDecode, hn] at h
      cases h

/-! ### The components -/

/-- The values of `new` at the first n components, those of `old` at the others. -/
def firstNew {α : Type} (n : Nat) (new : Fin 4 → α) (old : Vector α 4) : Vector α 4 :=
  Vector.ofFn fun j => if j.val < n then new j else old.get j

section

variable {α : Type} {n : Nat} {new : Fin 4 → α} {old : Vector α 4}

theorem firstNew_get (j : Fin 4) : (firstNew n new old).get j = if j.val < n then new j else old.get j :=
  Vector.getElem_ofFn j.isLt

theorem firstNew_zero : firstNew 0 new old = old :=
  Vector.ext fun i hi => (Vector.getElem_ofFn hi).trans (if_neg (Nat.not_lt_zero i))

theorem firstNew_set (hn : n < 4) : (firstNew n new old).set n (new ⟨n, hn⟩) = firstNew (n + 1) new old := by
  refine Vector.ext fun i hi => ?_
  rw [Vector.getElem_set]
  simp only [firstNew, Vector.getElem_ofFn]
  by_cases h : n = i
  · subst h
    rw [if_pos rfl, if_pos (Nat.lt_succ_self n)]
  · simp only [if_neg h, show i < n + 1 ↔ i < n by omega]

end

/-- F[j] of a component: its own coefficients, dequantized with its own table (44 R183). -/
def componentF (s : State) (j : Fin 4) : Vector Int 64 := dequant s.params (s.zz.get j) (quantTable s j).q

/-- S[j] of a component (43 R171). -/
def componentS (s : State) (j : Fin 4) : Vector Int 64 := idct s.params.pIdct (componentF s j)

/-- The state with the first n components of the MCU reconstructed (43 R171). -/
def reconFirst (s : State) (n : Nat) : State :=
  { s with fbuf := firstNew n (componentF s) s.fbuf, sbuf := firstNew n (componentS s) s.sbuf, sub := n }

theorem reconFirst_zero {s : State} (h0 : s.sub = 0) : reconFirst s 0 = s := by
  rw [reconFirst, firstNew_zero, firstNew_zero, ← h0]

theorem reconFirst_succ (s : State) {n : Nat} (hn : n < 4) :
    { reconComp (reconFirst s n) (Fin.ofNat 4 n) with sub := n + 1 } = reconFirst s (n + 1) := by
  have hj : Fin.ofNat 4 n = ⟨n, hn⟩ := Fin.ext (Nat.mod_eq_of_lt hn)
  rw [hj, reconFirst, reconFirst, ← firstNew_set hn, ← firstNew_set hn]
  rfl

/-- The buffers of a component that is reconstructed (43 R171; 44 R183). -/
theorem reconFirst_new (s : State) {n : Nat} {j : Fin 4} (hj : j.val < n) :
    (reconFirst s n).fbuf.get j = componentF s j ∧
      (reconFirst s n).sbuf.get j = idct s.params.pIdct ((reconFirst s n).fbuf.get j) := by
  have hF : (reconFirst s n).fbuf.get j = componentF s j := (firstNew_get j).trans (if_pos hj)
  have hS : (reconFirst s n).sbuf.get j = componentS s j := (firstNew_get j).trans (if_pos hj)
  rw [hF, hS, componentS]
  exact ⟨rfl, rfl⟩

/-- The buffers of the other components stay (43 R171). -/
theorem reconFirst_old (s : State) {n : Nat} {j : Fin 4} (hj : n ≤ j.val) :
    (reconFirst s n).fbuf.get j = s.fbuf.get j ∧ (reconFirst s n).sbuf.get j = s.sbuf.get j :=
  ⟨(firstNew_get j).trans (if_neg (by omega)), (firstNew_get j).trans (if_neg (by omega))⟩

section

variable {s : State}

theorem Turning.reconFirst (ht : Turning s) (n : Nat) : Turning (reconFirst s n) :=
  ⟨ht.busy, ht.moving, ht.released, ht.checks⟩

/-- RECON's first turns reconstruct the components, one by one (43 R171; log 4). -/
theorem runDecode_components (ht : Turning s) (hp : s.phase = .recon) (h0 : s.sub = 0) {n : Nat} (hn : n ≤ scanNs s) :
    runDecode n s = .next (reconFirst s n) := by
  have h4 := (scanNs_range ht.checks).2
  induction n with
  | zero => rw [reconFirst_zero h0, runDecode]
  | succ n ih =>
    rw [runDecode_snoc (ih (by omega)), turn_recon_comp (ht.reconFirst n) hp (show n < scanNs s by omega)]
    exact congrArg _ (reconFirst_succ s (by omega))

end

/-! ### The writes -/

/-- Memory after writes to the output buffer, in their order (46 R205). -/
def emitted (base : Word) (mem : Memory) (ws : List (Nat × Byte)) : Memory :=
  ws.foldl (fun mem w => Memory.write mem (addrAt base w.1) w.2) mem

/-- The writes that stand at the place `sub` counts are made in as many turns, when the platform rejects none (46 R205; log
4). -/
theorem runDecode_writes : ∀ (ws before after : List (Nat × Byte)) {s : State}, Turning s → s.phase = .recon →
    emitList s = before ++ ws ++ after → s.sub = scanNs s + before.length →
    (∀ w ∈ ws, busRejects s true (addrAt s.outBase w.1) = false) →
    runDecode ws.length s = .next { s with mem := emitted s.outBase s.mem ws, sub := s.sub + ws.length } := by
  intro ws
  induction ws with
  | nil => exact fun _ _ _ _ _ _ _ _ => rfl
  | cons w ws ih =>
    intro before after s ht hp he hsub hok
    have hw : (emitList s)[s.sub - scanNs s]? = some w := by simp [he, hsub]
    have hturn := turn_recon_write ht hp (by omega) hw (hok w List.mem_cons_self)
    let t : State := { s with mem := Memory.write s.mem (addrAt s.outBase w.1) w.2, sub := s.sub + 1 }
    have hrest := ih (before ++ [w]) after (s := t) ⟨ht.busy, ht.moving, ht.released, ht.checks⟩ hp
      (show emitList s = _ by simp [he]) (show s.sub + 1 = scanNs s + _ by simp [hsub, Nat.add_assoc])
      fun x hx => hok x (List.mem_cons_of_mem _ hx)
    rw [List.length_cons, runDecode_succ hturn, hrest]
    show Host.Outcome.next { s with mem := _, sub := s.sub + 1 + ws.length } = _
    rw [Nat.add_assoc, Nat.add_comm 1]
    rfl

/-- Writes of an MCU that START's checks let begin land where the spec says, and change no other byte (46 R205, R206). -/
theorem emitted_read {s : State} (hc : startChecks s = none) (hm : Memory.wf s.mem) {ws : List (Nat × Byte)}
    (hws : ws.Sublist (emitList s)) : Memory.wf (emitted s.outBase s.mem ws) ∧
    (∀ w ∈ ws, Memory.read (emitted s.outBase s.mem ws) (s.outBase.toNat + w.1) = w.2) ∧
    ∀ a, (∀ w ∈ ws, a ≠ s.outBase.toNat + w.1) → Memory.read (emitted s.outBase s.mem ws) a = Memory.read s.mem a := by
  have haddr : ∀ w ∈ ws, addrAt s.outBase w.1 = s.outBase.toNat + w.1 := fun w hw => emit_addrAt hc (hws.subset hw)
  have hnodup : (ws.map fun w => addrAt s.outBase w.1).Nodup := by
    have hfst : (ws.map Prod.fst).Nodup := (emitList_offsets_nodup (frameNf_le hc)).sublist (hws.map _)
    rw [List.map_congr_left haddr]
    simpa [Function.comp_def] using hfst.map (add_right_injective s.outBase.toNat)
  obtain ⟨hwf, hother, hsame⟩ := writes_read (addrAt s.outBase) ws s.mem hm (addrAt_lt s.outBase)
  refine ⟨hwf, fun w hw => ?_, fun a ha => hother a fun w hw => ?_⟩
  · rw [← haddr w hw]
    exact hsame hnodup w hw
  · rw [haddr w hw]
    exact ha w hw

/-! ### RECON as a whole -/

/-- The state in RECON with every component reconstructed and the writes ws made. -/
def reconEmitted (s : State) (ws : List (Nat × Byte)) : State :=
  { reconFirst s (scanNs s) with mem := emitted s.outBase s.mem ws, sub := scanNs s + ws.length }

section

variable {s : State}

/-- RECON up to some of the writes, none of which the platform rejects (43 R171; 46 R205). -/
theorem runDecode_recon (ht : Turning s) (hp : s.phase = .recon) (h0 : s.sub = 0) {ws after : List (Nat × Byte)}
    (he : emitList (reconFirst s (scanNs s)) = ws ++ after)
    (hok : ∀ w ∈ ws, busRejects s true (addrAt s.outBase w.1) = false) :
    runDecode (scanNs s + ws.length) s = .next (reconEmitted s ws) :=
  (runDecode_add (runDecode_components ht hp h0 le_rfl) _).trans
    (runDecode_writes ws [] after (ht.reconFirst (scanNs s)) hp he rfl hok)

/-- RECON as a whole, when the platform rejects no write (43 R171). -/
theorem runDecode_recon_end (ht : Turning s) (hp : s.phase = .recon) (h0 : s.sub = 0) {ws : List (Nat × Byte)}
    (he : emitList (reconFirst s (scanNs s)) = ws) (hok : ∀ w ∈ ws, busRejects s true (addrAt s.outBase w.1) = false) :
    runDecode (scanNs s + ws.length + 1) s = .next (nextMcu (reconEmitted s ws)) := by
  have hrun := runDecode_recon ht hp h0 (he.trans (List.append_nil ws).symm) hok
  rw [runDecode_snoc hrun]
  refine turn_recon_end ⟨ht.busy, ht.moving, ht.released, ht.checks⟩ hp ?_
  show scanNs s + (emitList (reconFirst s (scanNs s))).length ≤ scanNs s + ws.length
  rw [he]

/-- RECON up to the first write that the platform rejects (43 R171; 60 R223). -/
theorem runDecode_recon_rejected (ht : Turning s) (hp : s.phase = .recon) (h0 : s.sub = 0)
    {before after : List (Nat × Byte)} {w : Nat × Byte} (he : emitList (reconFirst s (scanNs s)) = before ++ w :: after)
    (hok : ∀ w ∈ before, busRejects s true (addrAt s.outBase w.1) = false)
    (hrej : busRejects s true (addrAt s.outBase w.1) = true) :
    runDecode (scanNs s + before.length + 1) s = settle (rejectedAccess 1#8 w.1 (reconEmitted s before)) := by
  rw [runDecode_snoc (runDecode_recon ht hp h0 he hok)]
  refine turn_recon_rejected ⟨ht.busy, ht.moving, ht.released, ht.checks⟩ hp (Nat.le_add_right _ _) ?_ hrej
  show (emitList (reconFirst s (scanNs s)))[scanNs s + before.length - scanNs s]? = some w
  simp [he]

end

/-- Settles O47: the components, then the writes, and then the end of the MCU or the first write that is rejected. -/
theorem reconstructionWritesTheMcu : Obligations.ReconstructionWritesTheMcu := by
  intro s hb hm hr hc hp h0 hag hmem
  have ht : Turning s := ⟨hb, hm, hr, hc⟩
  refine ⟨(reconFirst s (scanNs s)).fbuf, (reconFirst s (scanNs s)).sbuf, ?_⟩
  intro u written
  have hcu : startChecks u = none := hc
  have lands : ∀ ws, ws.Sublist (emitList u) → written (emitted s.outBase s.mem ws) ws :=
    fun ws hws => emitted_read hcu hmem hws
  have answer : ∀ w ∈ emitList u,
      busRejects s true (addrAt s.outBase w.1) = busRejects s true (s.outBase.toNat + w.1) :=
    fun w hw => congrArg (busRejects s true) (emit_addrAt hcu hw)
  refine ⟨fun j c hj hlt hid => ?_, fun j hj => reconFirst_old s hj, fun hok => ?_,
    fun before after o b he hok hrej => ?_⟩
  · rw [← quantTable_eq hc hlt hid]
    exact reconFirst_new s hj
  · refine ⟨_, lands _ (List.Sublist.refl _), run_of_runDecode hag ?_⟩
    exact runDecode_recon_end ht hp h0 rfl fun w hw => (answer w hw).trans (hok w hw)
  · have hsub : before.Sublist (emitList u) := by
      rw [he]
      exact List.sublist_append_left _ _
    have hw : (o, b) ∈ emitList u := by
      rw [he]
      exact List.mem_append_right _ List.mem_cons_self
    have hrun := runDecode_recon_rejected ht hp h0 he (fun w hw => (answer w (hsub.subset hw)).trans (hok w hw))
      ((answer _ hw).trans hrej)
    refine ⟨_, lands before hsub, fun hbus => run_of_runDecode hag ?_, fun hbus => run_of_runDecode hag ?_⟩
    · exact hrun.trans (settle_rejected_error (s := reconEmitted s before) hbus _ _)
    · exact hrun.trans (settle_rejected_stall (s := reconEmitted s before) hbus _ _)

end Sys2Proof.Machine
end

section
/-! PROOFS. What a turn of the block leaves alone (O56), and that a decode on a platform which rejects with an error does not
wait, so that it ends (O59) (43 R164, R173, R176; 20 R66). -/

namespace Sys2Proof.Machine

/-! ### The frame of a turn -/

/-- What no turn of the block changes: the parameters, the predictors but for that of the current component in a DC term, and
a decode that is under way: with P_BUS = ERROR it comes to no wait, and it does not go back to IDLE (43 R173; 20 R66). -/
structure TurnKeeps (s t : State) : Prop where
  params : t.params = s.params
  predictors : s.phase ≠ .dc → t.pred = s.pred
  otherPredictors : ∀ j : Fin 4, j ≠ s.j → t.pred.get j = s.pred.get j
  moving : s.params.pBus = .error → s.stalled = false → t.stalled = false
  started : s.seq ≠ .idle → t.seq ≠ .idle

theorem TurnKeeps.refl (s : State) : TurnKeeps s s := ⟨rfl, fun _ => rfl, fun _ _ => rfl, fun _ h => h, id⟩

section

variable {s t u : State} {r : Result}

/-- A turn that changes no predictor. -/
theorem TurnKeeps.of_same (hparams : t.params = s.params) (hpred : t.pred = s.pred)
    (hmoving : s.params.pBus = .error → s.stalled = false → t.stalled = false)
    (hstarted : s.seq ≠ .idle → t.seq ≠ .idle) : TurnKeeps s t :=
  ⟨hparams, fun _ => hpred, fun _ _ => by rw [hpred], hmoving, hstarted⟩

theorem TurnKeeps.trans_scanned (h : Scanned s u) (hk : TurnKeeps u t) : TurnKeeps s t := by
  obtain ⟨hparams, hpred, hother, hmoving, hstarted⟩ := hk
  rw [h.frame] at hparams hpred hother hmoving hstarted
  exact ⟨hparams, hpred, hother, hmoving, hstarted⟩

theorem TurnKeeps.raised (e : Err) (s : State) : TurnKeeps s (raiseErr e s) :=
  .of_same (by simp) (by simp) (fun _ h => by simpa using h) fun _ => by simp

theorem EndsInError.keeps (h : EndsInError s r) (hr : r = .next t) : TurnKeeps s t := by
  obtain ⟨u, e, hu, _, rfl⟩ := h
  cases hr
  exact .trans_scanned hu (.raised e u)

theorem TurnKeeps.stalls (hb : s.params.pBus = .stall) : TurnKeeps s { s with stalled := true } :=
  .of_same rfl rfl (fun he => by simp [hb] at he) id

theorem Waits.keeps (h : Waits s r) (hr : r = .next t) : TurnKeeps s t := by
  obtain ⟨u, hu, hb, rfl⟩ := h
  cases hr
  exact .trans_scanned hu (.stalls (hu.params_eq ▸ hb))

theorem Destuffs.keeps (h : Destuffs s r) (hr : r = .next t) : TurnKeeps s t := by
  obtain ⟨u, hu, _, _, rfl⟩ := h
  cases hr
  exact .trans_scanned hu (.refl _)

theorem TurnKeeps.blockDone (s : State) : TurnKeeps s (blockDone s) := by
  unfold Machine.blockDone
  split <;> exact .of_same rfl rfl (fun _ h => h) id

theorem TurnKeeps.positionAt (n : Nat) (s : State) (zz : Vector (Vector Half 64) 4) :
    TurnKeeps s (positionAt n { s with zz := zz }) := by
  unfold Machine.positionAt
  split
  · exact .of_same rfl rfl (fun _ h => h) id
  · obtain ⟨hparams, hpred, hother, hmoving, hstarted⟩ := TurnKeeps.blockDone { s with zz := zz, k := n }
    exact ⟨hparams, hpred, hother, hmoving, hstarted⟩

/-- A DC term changes the current component's predictor only (43 R163). -/
theorem TurnKeeps.dcTerm (hp : s.phase = .dc) (zz : Vector (Vector Half 64) 4) (x : Half) :
    TurnKeeps s { s with pred := s.pred.set s.j.val x, zz := zz, phase := .ac, k := 1 } :=
  ⟨rfl, fun h => absurd hp h, fun _ hj => vec_get_set_ne _ _ _ _ hj.symm, fun _ h => h, id⟩

/-- Every turn of a decode, phase by phase (43 R171). -/
theorem Turning.keeps (ht : Turning s) (hn : turn s = .next t) : TurnKeeps s t := by
  have eq : ∀ {v : State}, turn s = .next v → t = v := fun h => by
    rw [hn] at h
    injection h
  cases hp : s.phase with
  | dc =>
    have hbegin : TurnKeeps (beginBlock s) t := by
      rcases turn_dc s ht hp with he | hw | hd | ⟨u, x, hu, h⟩
      · exact he.keeps hn
      · exact hw.keeps hn
      · exact hd.keeps hn
      · rw [eq h]
        exact .trans_scanned hu (.dcTerm (hu.position.1.trans hp) _ x)
    obtain ⟨hparams, hpred, hother, hmoving, hstarted⟩ := hbegin
    exact ⟨hparams, hpred, hother, hmoving, hstarted⟩
  | ac =>
    rcases turn_ac s ht hp with he | hw | hd | ⟨u, hu, h⟩ | ⟨u, zz, n, hu, _, _, _, h⟩
    · exact he.keeps hn
    · exact hw.keeps hn
    · exact hd.keeps hn
    · rw [eq h]
      exact .trans_scanned hu (.blockDone u)
    · rw [eq h]
      exact .trans_scanned hu (.positionAt n u zz)
  | recon =>
    rcases turn_recon s ht hp with ⟨_, h⟩ | ⟨w, _, _, _, h⟩ | ⟨o, _, h⟩ | ⟨hb, h⟩ | ⟨_, h⟩
    · exact eq h ▸ .of_same rfl rfl (fun _ h => h) id
    · exact eq h ▸ .of_same rfl rfl (fun _ h => h) id
    · exact eq h ▸ .raised _ s
    · exact eq h ▸ .stalls hb
    · exact eq h ▸ .of_same rfl rfl (fun _ h => h) id
  | drain =>
    rcases turn_drain s ht hp with ⟨_, h⟩ | ⟨_, he | hw | hd⟩
    · exact eq h ▸ .of_same rfl rfl (fun _ h => h) fun _ => by simp
    · exact he.keeps hn
    · exact hw.keeps hn
    · exact hd.keeps hn

theorem turn_keeps (hn : turn s = .next t) : TurnKeeps s t := by
  rcases rests_or_turning hn with hr | ht
  · rw [turn_rests s hr] at hn
    cases hn
    exact .refl s
  · exact ht.keeps hn

end

/-- Settles O56: the predictors' part of the frame. -/
theorem predictorsChangeOnlyInDcTerms : Obligations.PredictorsChangeOnlyInDcTerms := fun _ _ _ hn =>
  ⟨(turn_keeps hn).predictors, (turn_keeps hn).otherPredictors⟩

/-! ### The end of a decode -/

/-- A decode that has been launched, on a platform that answers every access, and waits on none (20 R66). -/
structure Answered (s : State) : Prop where
  bus : s.params.pBus = .error
  moving : s.stalled = false
  started : s.seq ≠ .idle

theorem TurnKeeps.answered {s t : State} (h : TurnKeeps s t) (ha : Answered s) : Answered t :=
  ⟨h.params ▸ ha.bus, h.moving ha.bus ha.moving, h.started ha.started⟩

/-- What every turn keeps, a decode left to itself keeps. -/
theorem runDecode_keeps {P : State → Prop} (hturn : ∀ s t, P s → turn s = .next t → P t) {n : Nat} {s t : State}
    (hs : P s) (h : runDecode n s = .next t) : P t := by
  induction n generalizing s with
  | zero =>
    cases h
    exact hs
  | succ n ih =>
    rw [runDecode] at h
    cases hn : turn s with
    | next u =>
      rw [hn] at h
      exact ih (hturn s u hs hn) h
    | fault f =>
      rw [hn] at h
      cases h
    | refused e =>
      rw [hn] at h
      cases h

/-- A launched decode that waits on nothing rests in DONE or ERROR only. -/
theorem Answered.ended {s : State} (ha : Answered s) (hs : Inv s) (hr : Rests s) : s.seq = .done ∨ s.seq = .error := by
  have hstarted := ha.started
  rcases hr with hb | hw | hreset
  · cases hq : s.seq with
    | idle => exact absurd hq hstarted
    | busy => exact absurd hq hb
    | done => exact .inl rfl
    | error => exact .inr rfl
  · rw [ha.moving] at hw
    cases hw
  · exact absurd (hs.held hreset) hstarted

/-- Settles O59: the decode comes to rest within its bound, and it can rest in DONE or ERROR only. -/
theorem everyDecodeEnds : Obligations.EveryDecodeEnds := by
  intro s hs hb hm hbus hag
  have ha : Answered s := ⟨hbus, hm, by simp [hb]⟩
  obtain ⟨t, hn, hr⟩ := runDecode_comes_to_rest (turnBound s) hs (.inr (turnsLeft_le_turnBound (hs.running hb).position))
  have hat : Answered t := runDecode_keeps (fun _ _ h hn => (turn_keeps hn).answered h) ha hn
  have hinv : Inv t := runDecode_keeps (fun _ u h hn => (turn_keepsInv h).2 u hn) hs hn
  refine ⟨turnBound s, t, ?_, run_of_runDecode hag hn, hat.ended hinv hr⟩
  have hbound : turnBound s = (64 + 1 + 64) * scanNs s * mcuTotal s + mcuTotal s + s.inLen.toNat + 2 := by
    rw [turnBound, Nat.succ_mul]
  exact hbound.le

end Sys2Proof.Machine
end

section
/-! PROOFS. A block at rest (O55): which commands move the sequencer, that no register access but a write of CMD does, and
which steps take the block out of a resting state (40 R109; 43 R175; 60 R228, R235; 70 R240). -/

namespace Sys2Proof.Machine

/-! ### Register accesses -/

/-- The next state, if there is one, has the sequencer state of s. -/
def KeepsSeq (s : State) (r : Result) : Prop := ∀ t, r = .next t → t.seq = s.seq

section

variable {s t : State}

theorem keepsSeq_next (h : t.seq = s.seq) : KeepsSeq s (.next t) := by
  rintro _ ⟨⟩
  exact h

theorem keepsSeq_refused (r : Refusal) : KeepsSeq s (.refused r) := by
  rintro _ ⟨⟩

/-- One row of a decoder: its own instruction, and the rows after it. -/
theorem KeepsSeq.ite {c : Prop} [Decidable c] {i j : Instr} (hi : c → KeepsSeq s (exec i s))
    (hj : ¬ c → KeepsSeq s (exec j s)) : KeepsSeq s (exec (if c then i else j) s) :=
  iteInduction (motive := fun i => KeepsSeq s (exec i s)) hi hj

theorem SameButUnseen.seq (h : SameButUnseen s t) : t.seq = s.seq := by
  rw [h]

theorem readReg_keepsSeq (r : Reg) (s : State) : KeepsSeq s (.next (readReg r s)) :=
  keepsSeq_next (readReg_unseen r s).seq

theorem writeCtrl_keepsSeq (d : Word) (s : State) : KeepsSeq s (.next (writeCtrl d s)) := by
  unfold writeCtrl
  split <;> exact keepsSeq_next rfl

theorem writeConfig_keepsSeq (r : Reg) (d : Word) (s : State) : KeepsSeq s (.next (writeConfig r d s)) := by
  unfold writeConfig
  split
  · exact keepsSeq_next rfl
  · exact keepsSeq_next (setConfig_keeps r _ s).1

theorem writeReg_keepsSeq {r : Reg} (hr : r ≠ .cmd) (d : Word) (s : State) : KeepsSeq s (writeReg r d s) := by
  cases r with
  | cmd => exact absurd rfl hr
  | ctrl => exact writeCtrl_keepsSeq d s
  | frameDim | frameCfg | fcomp | scanCfg | scomp | inBase | inLen | outBase => exact writeConfig_keepsSeq _ d s
  | htBits | htVal | qtRam | id | status | errcode | errinfo | errpos | inpos | mcucnt | tvalid | pred | reserved =>
    exact keepsSeq_next rfl

end

/-- CMD stands at its own offset only (10 R20). -/
theorem off_of_regAt_cmd {off : BitVec 16} (h : regAt off = .cmd) : off = 0x008#16 := by
  unfold regAt at h
  simp only at h
  split_ifs at h
  split at h <;> cases h
  rename_i ho
  exact BitVec.eq_of_toNat_eq (by simp; omega)

theorem decodeRd_keepsSeq (off : BitVec 16) (s : State) : KeepsSeq s (exec (decodeRd off) s) := by
  unfold decodeRd
  split_ifs
  · exact readReg_keepsSeq .status s
  · exact readReg_keepsSeq .inpos s
  · exact readReg_keepsSeq .mcucnt s
  · exact readReg_keepsSeq (.pred _) s
  · show KeepsSeq s (execRd off s)
    unfold execRd
    split
    · exact readReg_keepsSeq _ s
    · exact keepsSeq_refused _

theorem decodeWr_keepsSeq {off : BitVec 16} (hoff : off ≠ 0x008#16) (d : Word) (s : State) :
    KeepsSeq s (exec (decodeWr off d) s) := by
  unfold decodeWr
  refine .ite (fun _ => writeCtrl_keepsSeq d s) fun _ => ?_
  refine .ite (fun h => absurd h hoff) fun _ => ?_
  -- the eleven rows of configuration registers, and then the three of the staging RAMs
  iterate 11 refine .ite (fun _ => writeConfig_keepsSeq _ d s) fun _ => ?_
  iterate 3 refine .ite (fun _ => keepsSeq_next rfl) fun _ => ?_
  show KeepsSeq s (execWr off d s)
  unfold execWr
  split
  · exact writeReg_keepsSeq (mt off_of_regAt_cmd hoff) d s
  · exact keepsSeq_refused _

/-- A register access is a write of CMD, which runs its command, or it does not move the sequencer (40 R102). -/
theorem access_command_or_keepsSeq {a : Access} {i : Instr} (h : decodeAccess a = .ok i) :
    (∃ w, a = ⟨.wr, 0x008#16, 4, w⟩ ∧ ∀ s, exec i s = dispatchCommand w s) ∨ ∀ s, KeepsSeq s (exec i s) := by
  obtain ⟨dir, off, bytes, w⟩ := a
  obtain ⟨rfl, _, ⟨rfl, rfl⟩ | ⟨rfl, rfl⟩⟩ := decodeAccess_ok h
  · exact .inr fun s => decodeRd_keepsSeq off s
  · by_cases hoff : off = 0x008#16
    · subst hoff
      exact .inl ⟨w, rfl, fun _ => rfl⟩
    · exact .inr fun s => decodeWr_keepsSeq hoff w s

/-! ### Commands -/

/-- The ways a command word w takes the sequencer from one state to another (40 R109). -/
inductive CommandMoves (w : Word) : SeqState → SeqState → Prop where
  | stays (q : SeqState) : CommandMoves w q q
  | fails : CommandMoves w .idle .error
  | launches (h : w = 0x01000000#32) : CommandMoves w .idle .busy
  | returns (q : SeqState) (h : cmdOp w = 0x02#8 ∨ cmdOp w = 0x03#8) : CommandMoves w q .idle

/-- The next state, if there is one, is one to which the command moves the sequencer from s. -/
def Moves (w : Word) (s : State) (r : Result) : Prop := ∀ t, r = .next t → CommandMoves w s.seq t.seq

section

variable {s t : State} {w : Word}

theorem moves_stays (h : t.seq = s.seq) : Moves w s (.next t) := by
  rintro _ ⟨⟩
  rw [h]
  exact .stays _

theorem moves_returns (ht : t.seq = .idle) (h : cmdOp w = 0x02#8 ∨ cmdOp w = 0x03#8) : Moves w s (.next t) := by
  rintro _ ⟨⟩
  rw [ht]
  exact .returns _ h

/-- A command that runs in IDLE only (40 R109). -/
theorem moves_inIdle {r : Result} (h : s.seq = .idle → Moves w s r) : Moves w s (inIdle s r) := by
  by_cases hs : s.seq = .idle
  · rw [inIdle_idle hs]
    exact h hs
  · rw [inIdle_ignored hs]
    exact moves_stays rfl

theorem moves_fails (hs : s.seq = .idle) (ht : t.seq = .error) : Moves w s (.next t) := by
  rintro _ ⟨⟩
  rw [hs, ht]
  exact .fails

/-- A command that may end in ERROR, and else does not move the sequencer. -/
theorem moves_fails_or_stays (h : t.seq = .error ∨ t.seq = s.seq) : Moves w s (inIdle s (.next t)) :=
  moves_inIdle fun hs => h.elim (moves_fails hs) moves_stays

theorem moves_start (hw : w = 0x01000000#32) : Moves w s (execStart s) := by
  refine moves_inIdle fun hs => ?_
  unfold runStart
  dsimp only
  split
  · exact moves_fails hs (by simp)
  · split
    · rintro _ ⟨⟩
    · rintro _ ⟨⟩
      rw [hs]
      exact .launches hw

theorem runHtCommit_seq (a8 : Byte) (s : State) :
    (runHtCommit a8 s).seq = .error ∨ (runHtCommit a8 s).seq = s.seq := by
  unfold runHtCommit
  split_ifs
  · exact .inl (by simp)
  · exact .inl (by simp)
  · split
    · exact .inl (by simp)
    · exact .inr rfl

theorem runQtCommit_seq (a8 : Byte) (s : State) :
    (runQtCommit a8 s).seq = .error ∨ (runQtCommit a8 s).seq = s.seq := by
  unfold runQtCommit
  split_ifs
  · exact .inl (by simp)
  · exact .inl (by simp)
  · exact .inl (by simp)
  · exact .inr rfl
  · exact .inr rfl

theorem moves_ack (hw : cmdOp w = 0x03#8) (arg : BitVec 24) : Moves w s (execAck arg s) := by
  unfold execAck
  split
  · exact moves_stays rfl
  · exact moves_stays rfl
  · exact moves_returns rfl (.inr hw)
  · exact moves_returns rfl (.inr hw)

theorem dispatchCommand_moves (w : Word) (s : State) : Moves w s (dispatchCommand w s) := by
  have illegal : ∀ e, Moves w s (inIdle s (.next (raiseErr e s))) := fun e => moves_fails_or_stays (.inl (by simp))
  unfold dispatchCommand
  split_ifs with nop abort ack start arg
  · exact moves_stays rfl
  · exact moves_returns rfl (.inl abort)
  · exact moves_ack ack _
  · exact illegal _
  · exact moves_start ((Laws.eq_start_iff w).2 ⟨start, not_not.1 arg⟩)
  · exact illegal _
  · exact moves_fails_or_stays (runHtCommit_seq _ s)
  · exact illegal _
  · exact moves_fails_or_stays (runQtCommit_seq _ s)
  · exact illegal _

end

/-! ### Every step of a block at rest -/

/-- The agenda begins with a command word, alone or written to CMD (40 R109; log 21). -/
def SendsCommand (w : Word) (s : State) : Prop := ∃ rest,
  s.agenda = .command w :: rest ∨ s.agenda = .access ⟨.wr, 0x008#16, 4, w⟩ :: rest

/-- The agenda begins with an assertion of the reset input, or the release of an asserted one (70 R240). -/
def Resets (s : State) : Prop := ∃ rest,
  s.agenda = .resetOn :: rest ∨ s.agenda = .resetOff :: rest ∧ s.resetAsserted = true

/-- The ways a step can move the sequencer of a block at rest: not at all, by a reset, or by a command that is answered. -/
def RestMoves (s t : State) : Prop :=
  t.seq = s.seq ∨ t.seq = .idle ∧ Resets s ∨
    s.resetAsserted = false ∧ ∃ w, SendsCommand w s ∧ CommandMoves w s.seq t.seq

section

variable {s t : State} {rest : List Event}

theorem KeepsSeq.restMoves {r : Result} (h : KeepsSeq s r) (hr : r = .next t) : RestMoves s t := .inl (h t hr)

/-- An instruction of the host at the head of the agenda. -/
theorem answered_restMoves {i : Instr} (ht : perform (answered i { s with agenda := rest }) = .next t)
    (h : KeepsSeq s (exec i { s with agenda := rest }) ∨
      ∃ w, SendsCommand w s ∧ Moves w s (exec i { s with agenda := rest })) : RestMoves s t := by
  cases hr : s.resetAsserted
  · rw [perform_answered (s := { s with agenda := rest }) i hr] at ht
    rcases h with h | ⟨w, hw, h⟩
    · exact h.restMoves ht
    · exact .inr (.inr ⟨hr, w, hw, h t ht⟩)
  · rw [perform_unanswered (s := { s with agenda := rest }) i hr] at ht
    cases ht
    exact .inl rfl

theorem access_restMoves {a : Access} (hs : s.agenda = .access a :: rest)
    (ht : perform (fetchAccess a { s with agenda := rest }) = .next t) : RestMoves s t := by
  cases hd : decodeAccess a with
  | error e =>
    rw [perform_fetchAccess_rejected hd] at ht
    cases ht
  | ok i =>
    rw [perform_fetchAccess_decoded hd] at ht
    refine answered_restMoves ht ?_
    rcases access_command_or_keepsSeq hd with ⟨w, rfl, hi⟩ | hi
    · exact .inr ⟨w, ⟨rest, .inr hs⟩, hi _ ▸ dispatchCommand_moves w { s with agenda := rest }⟩
    · exact .inl (hi { s with agenda := rest })

theorem hostMemWrite_keepsSeq (a : Word) (v : Byte) (s : State) : KeepsSeq s (hostMemWrite a v s) := by
  unfold hostMemWrite
  split_ifs
  · exact keepsSeq_refused _
  · exact keepsSeq_refused _
  · exact keepsSeq_next rfl

theorem releaseReset_restMoves (hs : s.agenda = .resetOff :: rest) :
    RestMoves s (releaseReset { s with agenda := rest }) := by
  unfold releaseReset
  split
  · rename_i hr
    exact .inr (.inl ⟨rfl, rest, .inr ⟨hs, hr⟩⟩)
  · exact .inl rfl

/-- Everything a step can do to the sequencer of a block that is not BUSY, event by event (43 R175). -/
theorem step_restMoves (hb : s.seq ≠ .busy) (h : step s = .next t) : RestMoves s t := by
  have rests : ∀ u : State, u.seq = s.seq → KeepsSeq s (turn u) := fun u hu => by
    rw [turn_rests u (.inl (hu ▸ hb))]
    exact keepsSeq_next hu
  cases hs : s.agenda with
  | nil => exact (rests s rfl).restMoves ((step_turn hs).symm.trans h)
  | cons e rest =>
    have ht := (step_event hs).symm.trans h
    cases e with
    | access a => exact access_restMoves hs ht
    | command w =>
      refine answered_restMoves ht (.inr ⟨w, ⟨rest, .inl hs⟩, ?_⟩)
      rw [← dispatchCommand_eq_exec]
      exact dispatchCommand_moves w { s with agenda := rest }
    | block => exact (rests { s with agenda := rest } rfl).restMoves ht
    | memRead a =>
      have hread : (hostMemRead a { s with agenda := rest }).seq = s.seq := (hostMemRead_unseen a _).seq
      exact (keepsSeq_next hread).restMoves ht
    | memWrite a v =>
      have hwrite : KeepsSeq s (hostMemWrite a v { s with agenda := rest }) := hostMemWrite_keepsSeq a v _
      exact hwrite.restMoves ht
    | resetOn =>
      cases ht
      exact .inr (.inl ⟨rfl, rest, .inl hs⟩)
    | resetOff =>
      cases ht
      exact releaseReset_restMoves hs
    | platform rejected =>
      cases ht
      exact .inl rfl

end

/-- Settles O55: of the moves of a resting block only START's leads to BUSY, and only ACK's, ABORT's and a reset's lead out
of DONE and ERROR. -/
theorem onlyTheHostMovesARestingBlock : Obligations.OnlyTheHostMovesARestingBlock := by
  refine ⟨turn_rests, fun s t h => ⟨fun hb htb => ?_, fun hd hne => ?_⟩⟩
  · rcases step_restMoves hb h with hsame | ⟨hidle, _⟩ | ⟨hr, w, ⟨rest, hw⟩, hmove⟩
    · exact absurd (hsame.symm.trans htb) hb
    · rw [htb] at hidle
      cases hidle
    · rw [htb] at hmove
      generalize hq : s.seq = q at hmove
      cases hmove with
      | stays => exact absurd hq hb
      | launches hstart =>
        subst hstart
        exact ⟨rfl, hr, rest, hw⟩
  · have hb : s.seq ≠ .busy := by rcases hd with hd | hd <;> simp [hd]
    rcases step_restMoves hb h with hsame | ⟨hidle, rest, hreset⟩ | ⟨_, w, ⟨rest, hw⟩, hmove⟩
    · exact absurd hsame hne
    · exact ⟨hidle, rest, hreset.imp id .inl⟩
    · generalize hq : s.seq = q at hmove hne
      generalize t.seq = q' at hmove hne ⊢
      cases hmove with
      | stays => exact absurd rfl hne
      | fails | launches => simp [hq] at hd
      | returns _ hop => exact ⟨rfl, rest, .inr (.inr ⟨w, hop, hw⟩)⟩

end Sys2Proof.Machine
end

section
/-! PROOFS. The dequantizer undoes the zigzag (O40): the default table is a permutation, and every product fits 32 bits
(44 R180 to R182). -/

namespace Sys2Proof.Machine

/-! ### The default zigzag table -/

/-- An index of the default zigzag table is found at the position that names it (44 R180). -/
theorem zzNat_idxOf_get : ∀ k : Fin 64, zzNat.toList.idxOf (zzNat.get k) = k.val := by decide

/-- The default zigzag table is a permutation: the position is found again from the index (44 R180). -/
theorem zzNat_injective : Injective zzNat := fun k k' h =>
  Fin.ext <| by rw [← zzNat_idxOf_get k, h, zzNat_idxOf_get k']

/-! ### The size of a product -/

/-- A coefficient times a quantizer is at most 2^15 (2^16 - 1), whichever the quantizer is (44 R182). -/
theorem dequantTerm_natAbs_le (align : PDeqAlign) (zz q : Vector Half 64) (k n : Fin 64) :
    (dequantTerm align zz q k n).natAbs ≤ 2147450880 := by
  have bound (x y : Half) : (x.toInt * y.toNat).natAbs ≤ 32768 * 65535 := by
    rw [Int.natAbs_mul]
    have hx : x.toInt.natAbs ≤ 32768 := by have := x.toInt_lt; have := x.le_toInt; omega
    exact Nat.mul_le_mul hx (Nat.le_of_lt_succ y.isLt)
  cases align with
  | freq => exact bound (zz.get k) (q.get k)
  | index => exact bound (zz.get k) (q.get n)

/-- Settles O40: the product of a zigzag position stands at its natural index (`dequant_get`), and every product fits 32
bits. -/
theorem dequantizerUndoesTheZigzag : Obligations.DequantizerUndoesTheZigzag := by
  refine ⟨rfl, zzNat_injective, by decide, fun p zz q k hp => ?_⟩
  intro n
  have hn : (dequant p zz q).get n = dequantTerm p.pDeqAlign zz q k n := dequant_get p zz q hp k
  rw [hn]
  refine ⟨fun h => ?_, fun h => ?_, dequantTerm_natAbs_le ..⟩
  · rw [h, dequantTerm]
  · rw [h, dequantTerm]

end Sys2Proof.Machine
end

section
/-! PROOFS. The inverse DCT (O41 to O43): each sample comes from the exact real value by one truncation toward zero, or is
within 1 of it under IMPL; from that, the flat block of a DC term and the width of a sample (45 R190 to R194). -/

namespace Sys2Proof.Machine

/-! ### Truncation toward zero -/

/-- A number has one truncation only (00 R11). -/
theorem IsTrunc.unique {r : ℝ} {m n : Int} (hm : IsTrunc r m) (hn : IsTrunc r n) : m = n := by
  obtain ⟨mpos, mneg⟩ := hm
  obtain ⟨npos, nneg⟩ := hn
  have close (h₁ : (m : ℝ) < n + 1) (h₂ : (n : ℝ) < m + 1) : m = n := by
    have h₁' : m < n + 1 := by exact_mod_cast h₁
    have h₂' : n < m + 1 := by exact_mod_cast h₂
    omega
  rcases le_total 0 r with h | h
  · obtain ⟨_, _⟩ := mpos h
    obtain ⟨_, _⟩ := npos h
    exact close (by linarith) (by linarith)
  · obtain ⟨_, _⟩ := mneg h
    obtain ⟨_, _⟩ := nneg h
    exact close (by linarith) (by linarith)

theorem IsTrunc.abs_sub_le_one {r : ℝ} {n : Int} (h : IsTrunc r n) : |(n : ℝ) - r| ≤ 1 := by
  obtain ⟨hpos, hneg⟩ := h
  rw [abs_le]
  rcases le_total 0 r with hr | hr
  · obtain ⟨_, _⟩ := hpos hr
    constructor <;> linarith
  · obtain ⟨_, _⟩ := hneg hr
    constructor <;> linarith

/-- The magnitude rounded down, under the number's own sign, is the truncation toward zero. -/
theorem isTrunc_sign_mul {r : ℝ} {s : Int} {m : Nat} (hs : IsSign r s) (hle : (m : ℝ) ≤ |r|) (hlt : |r| < m + 1) :
    IsTrunc r (s * m) := by
  unfold IsTrunc
  push_cast
  rcases hs with ⟨hr, rfl⟩ | ⟨rfl, rfl⟩ | ⟨hr, rfl⟩
  · rw [abs_of_pos hr] at hle hlt
    exact ⟨fun _ => by constructor <;> push_cast <;> linarith, fun h => absurd hr h.not_gt⟩
  · simp
  · rw [abs_of_neg hr] at hle hlt
    exact ⟨fun h => absurd hr h.not_gt, fun _ => by constructor <;> push_cast <;> linarith⟩

theorem IsTrunc.neg {r : ℝ} {n : Int} (h : IsTrunc r n) : IsTrunc (-r) (-n) := by
  obtain ⟨hpos, hneg⟩ := h
  unfold IsTrunc
  push_cast
  constructor <;> intro hr
  · obtain ⟨_, _⟩ := hneg (by linarith)
    constructor <;> linarith
  · obtain ⟨_, _⟩ := hpos (by linarith)
    constructor <;> linarith

/-- Division toward zero on the integers is the truncation of the real quotient (00 R11). -/
theorem isTrunc_tdiv (n : Int) {d : Nat} (hd : 0 < d) : IsTrunc (n / d) (n.tdiv d) := by
  have hd' : (0 : ℝ) < d := by exact_mod_cast hd
  have natural (k : Nat) : IsTrunc ((k : ℝ) / d) ((k / d : Nat) : Int) := by
    have hlt : (k : ℝ) < (k / d : Nat) * d + d := by exact_mod_cast Nat.lt_div_mul_add hd
    refine ⟨fun _ => ⟨Nat.cast_div_le, ?_⟩, fun h => ?_⟩
    · rw [div_lt_iff₀ hd', add_one_mul]
      exact hlt
    · have hk : k = 0 := by
        rw [div_le_iff₀ hd', zero_mul] at h
        exact_mod_cast h.antisymm k.cast_nonneg
      simp [hk]
  obtain ⟨k, rfl | rfl⟩ := n.eq_nat_or_neg
  · exact natural k
  · have := (natural k).neg
    rwa [Int.neg_tdiv, Int.cast_neg, neg_div]

/-! ### The exact value and the model's truncation of it -/

/-- The exact value at column x and row y, before the truncation (45 R190). -/
noncomputable def exactSample (literal : Bool) (F : Vector Int 64) (x y : Nat) : ℝ := (idctSum literal F x y).val / 16

theorem exactSample_eq_sum (literal : Bool) (F : Vector Int 64) (x y : Nat) :
    exactSample literal F x y = (∑ n, idctTerm literal F x y n) / 16 := by
  rw [exactSample, idctSum_val, Fin.sum_univ_def]

/-- The magnitude of an exact value (45 R194). -/
theorem abs_exactSample_le (literal : Bool) (F : Vector Int 64) (x y : Nat) :
    |exactSample literal F x y| ≤ absSum F / 4 := by
  have h := idctSum_bound literal F x y
  rw [exactSample, abs_div, abs_of_pos (by norm_num : (0 : ℝ) < 16)]
  linarith

theorem exactSample_sign (literal : Bool) (F : Vector Int 64) (x y : Nat) :
    IsSign (exactSample literal F x y) (idctSum literal F x y).sign := by
  unfold exactSample
  rcases (idctSum literal F x y).sign_spec with ⟨h, e⟩ | ⟨h, e⟩ | ⟨h, e⟩
  · exact .inl ⟨by linarith, e⟩
  · exact .inr (.inl ⟨by linarith, e⟩)
  · exact .inr (.inr ⟨by linarith, e⟩)

theorem exactSample_nonneg (literal : Bool) (F : Vector Int 64) (x y : Nat) :
    0 ≤ exactSample literal F x y ↔ 0 ≤ (idctSum literal F x y).sign := by
  rw [Surd3.sign_nonneg, exactSample]
  constructor <;> intro h <;> linarith

/-- The model's single rounding is the truncation of the exact value (45 R191). -/
theorem truncSixteenth_isTrunc (literal : Bool) (F : Vector Int 64) (x y : Nat) :
    IsTrunc (exactSample literal F x y) (truncSixteenth F (idctSum literal F x y)) := by
  obtain ⟨hle, hlt⟩ := magnitude_spec F _ (idctSum_bound literal F x y)
  have habs : |exactSample literal F x y| = |(idctSum literal F x y).val| / 16 := by
    rw [exactSample, abs_div, abs_of_pos (by norm_num : (0 : ℝ) < 16)]
  exact isTrunc_sign_mul (exactSample_sign ..) (by linarith) (by linarith)

/-- The exact value is an integer when it is its own truncation. -/
theorem isWhole_iff (literal : Bool) (F : Vector Int 64) (x y : Nat) :
    isWhole F (idctSum literal F x y) = true ↔
      exactSample literal F x y = truncSixteenth F (idctSum literal F x y) := by
  rw [exactSample]
  generalize idctSum literal F x y = a
  have hval : (a.sub (.ofInt (16 * truncSixteenth F a))).val = a.val - 16 * truncSixteenth F a := by
    rw [Surd3.val_sub, Surd3.val_ofInt]
    push_cast
    rfl
  have hzero : (a.sub (.ofInt (16 * truncSixteenth F a))).sign = 0 ↔ a.val - 16 * truncSixteenth F a = 0 := by
    rw [← hval]
    rcases (a.sub (.ofInt (16 * truncSixteenth F a))).sign_spec with ⟨h, e⟩ | ⟨h, e⟩ | ⟨h, e⟩
    · simp [e, h.ne']
    · simp [e, h]
    · simp [e, h.ne]
  rw [isWhole, beq_iff_eq, hzero]
  constructor <;> intro h <;> linarith

/-- One of the m integers from l up, when all of them are within 1 of r. -/
theorem abs_add_mod_sub_le_one {l : Int} {r : ℝ} {m : Nat} (p : Nat) (hm : 0 < m) (hlow : r - 1 ≤ l)
    (hhigh : l + m ≤ r + 2) : |((l + (p % m : Nat) : Int) : ℝ) - r| ≤ 1 := by
  have hp : ((p % m : Nat) : ℝ) + 1 ≤ m := by exact_mod_cast Nat.mod_lt p hm
  have hp₀ : (0 : ℝ) ≤ (p % m : Nat) := Nat.cast_nonneg _
  rw [Int.cast_add, Int.cast_natCast, abs_le]
  constructor <;> linarith

/-- The free choice of IMPL keeps the sample within 1 of the exact value: it is one of three integers when the exact value
is an integer, and of two when it is not (45 R190, log 23). -/
theorem implSample_near (F : Vector Int 64) (x y i : Nat) :
    |(implSample F (idctSum false F x y) i : ℝ) - exactSample false F x y| ≤ 1 := by
  obtain ⟨hpos, hneg⟩ := truncSixteenth_isTrunc false F x y
  unfold implSample implLow
  by_cases hw : isWhole F (idctSum false F x y) = true
  · have hr := (isWhole_iff false F x y).1 hw
    rw [if_pos (.inl hw), if_pos hw]
    refine abs_add_mod_sub_le_one _ (by decide) ?_ ?_ <;> push_cast <;> linarith
  rw [if_neg hw]
  by_cases hs : (idctSum false F x y).sign < 0
  · have hr : exactSample false F x y < 0 := by rwa [← not_le, exactSample_nonneg, not_le]
    obtain ⟨_, _⟩ := hneg hr.le
    rw [if_pos (.inr hs)]
    refine abs_add_mod_sub_le_one _ (by decide) ?_ ?_ <;> push_cast <;> linarith
  · obtain ⟨_, _⟩ := hpos ((exactSample_nonneg ..).2 (not_lt.1 hs))
    rw [if_neg (not_or.2 ⟨hw, hs⟩)]
    refine abs_add_mod_sub_le_one _ (by decide) ?_ ?_ <;> push_cast <;> linarith

/-! ### The samples of the block -/

theorem idct_get_t81Exact (F : Vector Int 64) (i : Fin 64) :
    (idct .t81Exact F).get i = truncSixteenth F (idctSum false F (i.val % 8) (i.val / 8)) := mkBlock_get _ i

theorem idct_get_literal (F : Vector Int 64) (i : Fin 64) :
    (idct .literalSeparableExact F).get i = truncSixteenth F (idctSum true F (i.val % 8) (i.val / 8)) := mkBlock_get _ i

theorem idct_get_impl (F : Vector Int 64) (i : Fin 64) :
    (idct .impl F).get i = implSample F (idctSum false F (i.val % 8) (i.val / 8)) i := mkBlock_get _ i

/-- Every sample is within 1 of an exact value, under each reading (45 R190). -/
theorem idct_near (mode : PIdct) (F : Vector Int 64) (i : Fin 64) : ∃ literal,
    |((idct mode F).get i : ℝ) - exactSample literal F (i.val % 8) (i.val / 8)| ≤ 1 := by
  cases mode with
  | t81Exact => exact ⟨false, idct_get_t81Exact F i ▸ (truncSixteenth_isTrunc ..).abs_sub_le_one⟩
  | literalSeparableExact => exact ⟨true, idct_get_literal F i ▸ (truncSixteenth_isTrunc ..).abs_sub_le_one⟩
  | impl => exact ⟨false, idct_get_impl F i ▸ implSample_near ..⟩

/-! ### The exact value is the sum of the spec -/

/-- The weight of the frequency 0 (45 R190). -/
noncomputable def dcWeight (literal : Bool) : ℝ := if literal then 1 / 2 else 1 / √2

theorem sampleIndex_mod (x y : Fin 8) : (sampleIndex x y).val % 8 = x := by
  simp only [sampleIndex, Fin.val_ofNat]
  omega

theorem sampleIndex_div (x y : Fin 8) : (sampleIndex x y).val / 8 = y := by
  simp only [sampleIndex, Fin.val_ofNat]
  omega

theorem exactSample_isIdctSum (literal : Bool) (F : Vector Int 64) (x y : Fin 8) :
    IsIdctSum (dcWeight literal) F x y (exactSample literal F x y) := by
  have hsum : ∑ n, idctTerm literal F x y n = ∑ u, ∑ v, idctTerm literal F x y (sampleIndex u v) := by
    rw [← (finProdFinEquiv (m := 8) (n := 8)).sum_comp, Fintype.sum_prod_type, Finset.sum_comm]
    refine Finset.sum_congr rfl fun u _ => Finset.sum_congr rfl fun v _ => congrArg _ (Fin.ext ?_)
    rw [finProdFinEquiv_apply_val, sampleIndex, Fin.val_ofNat]
    dsimp only
    omega
  rw [IsIdctSum, exactSample_eq_sum, hsum, Finset.sum_div, Finset.mul_sum]
  refine Finset.sum_congr rfl fun u _ => ?_
  rw [Finset.sum_div, Finset.mul_sum]
  refine Finset.sum_congr rfl fun v _ => ?_
  rw [idctTerm, twoWeight_val, twoWeight_val, sampleIndex_mod, sampleIndex_div, sampleIndex]
  simp only [Fin.val_eq_zero_iff, dcWeight]
  ring

/-- Settles O41: the sum of the spec is the model's exact value (`exactSample_isIdctSum`), which the exact readings truncate
and IMPL approaches within 1. -/
theorem inverseDctIsTheExactSum : Obligations.InverseDctIsTheExactSum := by
  intro F x y r
  rw [idct_get_t81Exact, idct_get_impl, idct_get_literal, sampleIndex_mod, sampleIndex_div]
  refine ⟨fun h => ?_, fun h => ?_⟩
  · obtain rfl : r = exactSample false F x y := h.trans (exactSample_isIdctSum false F x y).symm
    exact ⟨truncSixteenth_isTrunc .., implSample_near ..⟩
  · obtain rfl : r = exactSample true F x y := h.trans (exactSample_isIdctSum true F x y).symm
    exact truncSixteenth_isTrunc ..

/-! ### A DC term alone -/

/-- With only a DC term, every exact value is a quarter of the DC term under the square of the DC weight (45 R192, R193). -/
theorem exactSample_of_dcOnly (literal : Bool) {F : Vector Int 64} (hF : ∀ n : Fin 64, n ≠ 0 → F.get n = 0) (x y : Nat) :
    exactSample literal F x y = F.get 0 * dcWeight literal ^ 2 / 4 := by
  have hzero (n : Fin 64) (hn : n ≠ 0) : idctTerm literal F x y n = 0 := by
    rw [idctTerm, hF n hn, Int.cast_zero, zero_mul]
  have hdc (z : Nat) : (twoWeight literal 0 z).val = 2 * dcWeight literal := by
    simp [twoWeight_val, dcWeight]
  rw [exactSample_eq_sum, Fintype.sum_eq_single 0 hzero, idctTerm, Fin.val_zero, Nat.zero_mod, Nat.zero_div, hdc, hdc]
  ring

/-- Settles O42: the squares of the DC weights are a half and a quarter, and a number has one truncation only. -/
theorem dcOnlyBlockIsFlat : Obligations.DcOnlyBlockIsFlat := by
  intro F hF i
  rw [idct_get_t81Exact, idct_get_literal]
  constructor
  · have hr : exactSample false F (i.val % 8) (i.val / 8) = F.get 0 / (8 : Nat) := by
      rw [exactSample_of_dcOnly false hF, dcWeight, if_neg Bool.false_ne_true, div_pow, Real.sq_sqrt zero_le_two]
      push_cast
      ring
    exact (truncSixteenth_isTrunc ..).unique (hr ▸ isTrunc_tdiv _ (by decide))
  · have hr : exactSample true F (i.val % 8) (i.val / 8) = F.get 0 / (16 : Nat) := by
      rw [exactSample_of_dcOnly true hF, dcWeight, if_pos rfl]
      push_cast
      ring
    exact (truncSixteenth_isTrunc ..).unique (hr ▸ isTrunc_tdiv _ (by decide))

/-! ### The width of a sample -/

theorem absSum_le {F : Vector Int 64} {b : Nat} (hF : ∀ n : Fin 64, (F.get n).natAbs ≤ b) : absSum F ≤ 64 * b := by
  have hle : ∀ c ∈ F.toList.map Int.natAbs, c ≤ b := by
    intro c hc
    obtain ⟨f, hf, rfl⟩ := List.mem_map.1 hc
    obtain ⟨n, hn, rfl⟩ := List.getElem_of_mem hf
    rw [Vector.length_toList] at hn
    exact hF ⟨n, hn⟩
  simpa [absSum] using List.sum_le_card_nsmul _ b hle

/-- Settles O43: a sample is within 1 of an exact value, which is at most 16 times the greatest coefficient (45 R194). -/
theorem samplesFitThirtySevenBits : Obligations.SamplesFitThirtySevenBits := by
  intro mode F hF i
  obtain ⟨literal, hnear⟩ := idct_near mode F i
  have habs := abs_exactSample_le literal F (i.val % 8) (i.val / 8)
  have hsum : (absSum F : ℝ) ≤ 64 * 2147450880 := by exact_mod_cast absSum_le hF
  have hlt : |((idct mode F).get i : ℝ)| < 2 ^ 35 := by
    have := abs_sub_abs_le_abs_sub ((idct mode F).get i : ℝ) (exactSample literal F (i.val % 8) (i.val / 8))
    norm_num
    linarith
  rw [← Int.cast_abs, Int.abs_eq_natAbs] at hlt
  exact_mod_cast hlt

end Sys2Proof.Machine
end

section
/-! PROOFS. The colour converter and the pixel assembler (O44, O45): the scan component of a channel, the bytes of a pixel, and
where EMIT writes them (40 R119; 43 R172; 46 R200 to R205). -/

namespace Sys2Proof.Machine

/-! ### The scan component of a frame component -/

/-- No two scan components have the same id (40 R119). -/
theorem scompId_inj {s : State} (h8 : Pass8 s) {j j' : Fin 4} (hj : j.val < scanNs s) (hj' : j'.val < scanNs s)
    (h : scompId s j = scompId s j') : j = j' := by
  obtain ⟨_, hnew⟩ := h8 j hj
  obtain ⟨_, hnew'⟩ := h8 j' hj'
  rcases lt_trichotomy j j' with hlt | heq | hgt
  · exact absurd h (hnew' j hlt)
  · exact heq
  · exact absurd h.symm (hnew j' hgt)

/-- The frame component of a scan component has its id (40 R119). -/
theorem fcOf_spec {s : State} (h4 : Pass4 s) (h8 : Pass8 s) {j : Fin 4} (hj : j.val < scanNs s) :
    (fcOf s j).val < frameNf s ∧ fcompId s (fcOf s j) = scompId s j := by
  obtain ⟨⟨c, hc, hid⟩, _⟩ := h8 j hj
  rw [fcOf_eq s j c h4 hc hid]
  exact ⟨hc, hid⟩

/-- Every frame component has a scan component: as many scan components as frame components name different ones
(40 R118, R119). -/
theorem exists_scan_of_frame {s : State} (h4 : Pass4 s) (h7 : Pass7 s) (h8 : Pass8 s) {c : Fin 4}
    (hc : c.val < frameNf s) : ∃ j : Fin 4, j.val < scanNs s ∧ scompId s j = fcompId s c := by
  obtain ⟨_, _, hn⟩ := h7
  have hmem (j : Fin 4) : j ∈ (scanComps s).toFinset ↔ j.val < scanNs s := by rw [List.mem_toFinset, mem_scanComps]
  have hmaps : Set.MapsTo (fcOf s) (scanComps s).toFinset (scanComps s).toFinset := fun j hj => by
    obtain ⟨hlt, _⟩ := fcOf_spec h4 h8 ((hmem j).1 hj)
    exact (hmem _).2 (hn ▸ hlt)
  have hinj : Set.InjOn (fcOf s) (scanComps s).toFinset := fun j hj j' hj' h => by
    obtain ⟨_, hid⟩ := fcOf_spec h4 h8 ((hmem j).1 hj)
    obtain ⟨_, hid'⟩ := fcOf_spec h4 h8 ((hmem j').1 hj')
    exact scompId_inj h8 ((hmem j).1 hj) ((hmem j').1 hj') (hid.symm.trans (h ▸ hid'))
  obtain ⟨j, hj, rfl⟩ := Finset.surjOn_of_injOn_of_card_le _ hmaps hinj le_rfl ((hmem c).2 (hn ▸ hc))
  obtain ⟨_, hid⟩ := fcOf_spec h4 h8 ((hmem j).1 hj)
  exact ⟨j, (hmem j).1 hj, hid.symm⟩

/-- The scan component of a frame component is the one with its id (46 R204). -/
theorem scOf_eq {s : State} (h8 : Pass8 s) {j c : Fin 4} (hj : j.val < scanNs s) (hid : scompId s j = fcompId s c) :
    scOf s c = j := by
  have h : scOf? s c = some j :=
    filter_find_first _ _ j hj (by simpa using hid) fun d hd => by
      simpa using fun he => (h8 j hj).2 d hd (he.trans hid.symm)
  rw [scOf, h]
  rfl

/-! ### Truncation and saturation -/

theorem isTruncRat_iff {r : ℚ} {n : Int} : IsTruncRat r n ↔ IsTrunc r n := by
  unfold IsTruncRat IsTrunc
  norm_cast

/-- The model's quotient is the truncation of the rational one (00 R11). -/
theorem truncDiv_isTrunc {r : ℚ} {n : Int} {d : Nat} (hd : 0 < d) (h : r = n / d) : IsTruncRat r (truncDiv n d) := by
  rw [isTruncRat_iff, h]
  exact_mod_cast isTrunc_tdiv n hd

/-- R' is truncated once (46 R202). -/
theorem redOf_isTrunc (y cr : Int) : IsTruncRat (y + 128 + 1402 * cr / 1000) (redOf y cr) :=
  truncDiv_isTrunc (d := 1000) (by decide) (by push_cast; ring)

/-- B' is truncated once (46 R202). -/
theorem blueOf_isTrunc (y cb : Int) : IsTruncRat (y + 128 + 1772 * cb / 1000) (blueOf y cb) :=
  truncDiv_isTrunc (d := 1000) (by decide) (by push_cast; ring)

/-- G' is truncated once, from the truncated and unsaturated R' and B' (46 R202). -/
theorem greenOf_coherent_isTrunc (y cb cr : Int) :
    IsTruncRat ((1000 * (y + 128) - 114 * blueOf y cb - 299 * redOf y cr) / 587) (greenOf .coherent y cb cr) :=
  truncDiv_isTrunc (d := 587) (by decide) (by push_cast; rfl)

/-- The literal reading of G' leaves out the level shift (46 R202). -/
theorem greenOf_literal_isTrunc (y cb cr : Int) :
    IsTruncRat ((1000 * y - 114 * blueOf y cb - 299 * redOf y cr) / 587) (greenOf .literal y cb cr) :=
  truncDiv_isTrunc (d := 587) (by decide) (by push_cast; rfl)

/-- A channel value is clamped or wraps, as CTRL.SAT says (46 R203). -/
theorem sat8_spec (sat : Bool) (v : Int) :
    (sat = true → ((sat8 sat v).toNat : Int) = min (max v 0) 255) ∧ (sat = false → ((sat8 sat v).toNat : Int) = v % 256) := by
  constructor
  · rintro rfl
    rw [sat8, if_pos rfl, BitVec.toNat_ofInt]
    omega
  · rintro rfl
    rw [sat8, if_neg Bool.false_ne_true, BitVec.toNat_ofInt]
    omega

/-! ### The bytes of a pixel -/

theorem rgbMode_iff (s : State) : rgbMode s = true ↔ frameNf s = 3 ∧ s.rgbEn = true := by
  rw [rgbMode, Bool.and_eq_true, beq_iff_eq]

/-- In RGB mode, the bytes of R', G' and B' in this order (46 R202, R204). -/
theorem pixelBytes_rgb {s : State} (h : rgbMode s = true) (i : Fin 64) : pixelBytes s i =
    [sat8 s.sat (redOf (sampleOf s 0 i) (sampleOf s 2 i)),
      sat8 s.sat (greenOf s.params.pCcG (sampleOf s 0 i) (sampleOf s 1 i) (sampleOf s 2 i)),
      sat8 s.sat (blueOf (sampleOf s 0 i) (sampleOf s 1 i))] := if_pos h

theorem frameComps_eq_take {s : State} (h : frameNf s ≤ 4) : frameComps s = comps.take (frameNf s) := by
  have : ∀ n ≤ 4, (comps.filter fun c => decide (c.val < n)) = comps.take n := by decide
  exact this _ h

theorem frameComps_getElem? {s : State} (h : frameNf s ≤ 4) {c : Fin 4} (hc : c.val < frameNf s) :
    (frameComps s)[c.val]? = some c := by
  have hcomps : ∀ c : Fin 4, comps[c.val]? = some c := by decide
  rw [frameComps_eq_take h, List.getElem?_take_of_lt hc, hcomps]

/-- Outside RGB mode, channel c is the level-shifted sample of frame component c (46 R201, R204). -/
theorem pixelBytes_passThrough {s : State} (h : frameNf s ≤ 4) (hr : ¬ rgbMode s = true) (i : Fin 64) {c : Fin 4}
    (hc : c.val < frameNf s) : (pixelBytes s i)[c.val]? = some (sat8 s.sat (sampleOf s c i + 128)) := by
  rw [pixelBytes, if_neg hr, List.getElem?_map, frameComps_getElem? h hc]
  rfl

/-- Settles O44: a channel's scan component exists by counting and is unique by its id; each byte is a truncated quotient,
clamped or wrapped. -/
theorem pixelBytesFollowTheColourRules : Obligations.PixelBytesFollowTheColourRules := by
  intro s i
  refine ⟨fun h4 h7 h8 c hc => ?_, fun hnf hrgb => ?_, fun hnf hr => ⟨pixelBytes_length s i hnf, fun c hc => ?_⟩⟩
  · obtain ⟨j, hj, hid⟩ := exists_scan_of_frame h4 h7 h8 hc
    refine ⟨j, hj, hid, fun j' hj' hid' => scompId_inj h8 hj' hj (hid'.trans hid.symm), ?_, ?_⟩
    · show sampleOf s c i = _
      rw [sampleOf, scOf_eq h8 hj hid]
    · rw [quantTable, fcOf_eq s j c h4 hc hid.symm]
  · refine ⟨_, _, _, _, _, _, pixelBytes_rgb ((rgbMode_iff s).2 ⟨hnf, hrgb⟩) i, sat8_spec .., sat8_spec .., sat8_spec ..,
      redOf_isTrunc .., blueOf_isTrunc .., fun hg => ?_, fun hg => ?_⟩
    · exact hg ▸ greenOf_coherent_isTrunc ..
    · exact hg ▸ greenOf_literal_isTrunc ..
  · exact ⟨_, pixelBytes_passThrough hnf (mt (rgbMode_iff s).1 hr) i hc, sat8_spec ..⟩

/-! ### The pixels of an MCU -/

theorem sampleIndex_surjective (i : Fin 64) : ∃ x y : Fin 8, sampleIndex x y = i :=
  ⟨⟨i.val % 8, by omega⟩, ⟨i.val / 8, by omega⟩, Fin.ext (by simp only [sampleIndex, Fin.val_ofNat]; omega)⟩

theorem pixelX_sampleIndex (s : State) (xx yy : Fin 8) :
    pixelX s (sampleIndex xx yy) = 8 * (s.m % ((frameX s + 7) / 8)) + xx := by
  rw [pixelX, mcuCols, sampleIndex_mod]

theorem pixelY_sampleIndex (s : State) (xx yy : Fin 8) :
    pixelY s (sampleIndex xx yy) = 8 * (s.m / ((frameX s + 7) / 8)) + yy := by
  rw [pixelY, mcuCols, sampleIndex_div]

/-- The writes of EMIT are those of the MCU's samples (46 R205). -/
theorem mem_emitList (s : State) (w : Nat × Byte) : w ∈ emitList s ↔ ∃ xx yy, w ∈ pixelWrites s (sampleIndex xx yy) := by
  rw [emitList, List.mem_flatMap]
  constructor
  · rintro ⟨i, _, hw⟩
    obtain ⟨xx, yy, rfl⟩ := sampleIndex_surjective i
    exact ⟨xx, yy, hw⟩
  · rintro ⟨xx, yy, hw⟩
    exact ⟨_, List.mem_finRange _, hw⟩

/-- Settles O45: a write is one of a sample's (`mem_emitList`), whose column and row give its offset (`mem_pixelWrites`). -/
theorem emitWritesThePixelsOfTheMcu : Obligations.EmitWritesThePixelsOfTheMcu := by
  intro s o b
  simp only [mem_emitList, mem_pixelWrites, pixelOffset, pixelX_sampleIndex, pixelY_sampleIndex, and_assoc,
    exists_and_left]

end Sys2Proof.Machine
end

section
/-! PROOFS. Error entry (O25): an error outside a decode changes the error registers and the state only, one inside a decode
also draws the output range afresh (60 R224). -/

namespace Sys2Proof.Machine

theorem Origin.inDecode_eq_true_iff (o : Origin) : o.inDecode = true ↔ o = .decode ∨ o = .dma := by
  cases o <;> decide

theorem Origin.inDecode_eq_false_iff (o : Origin) :
    o.inDecode = false ↔ o = .startCheck ∨ o = .tableCommit ∨ o = .illegalCommand := by
  cases o <;> decide

/-- Settles O25: the two classes of origin are the two branches of error entry, and what the second one does to memory is what
drawing free values does (`fillFree_read_inside`, `fillFree_read_outside`). -/
theorem errorEntryRecordsTheError : Obligations.ErrorEntryRecordsTheError := by
  refine ⟨by decide, by decide, fun e s hm => ⟨fun ho => ?_, fun ho => ?_⟩⟩
  · exact raiseErr_outside e s ((Origin.inDecode_eq_false_iff _).2 ho)
  · refine ⟨fillFree s.mem s.outBase s.draws (outSize s), s.draws + outSize s, ?_, fillFree_wf _ _ _ _ hm,
      fillFree_read_inside _ hm _ _ _, fillFree_read_outside _ _ _ _⟩
    rw [Bool.if_false_right, Bool.decide_eq_true]
    exact raiseErr_inside e s ((Origin.inDecode_eq_true_iff _).2 ho)

end Sys2Proof.Machine
end

section
/-! PROOFS. Reset (O50, O51, O52): the state right after reset, and what the reset input leaves in any state (70 R240 to
R242). -/

namespace Sys2Proof.Machine

/-! ### The state after reset -/

/-- Settles O50: the part of every sequencer state holds of the reset values (`sound_reset`), and they are at rest. -/
theorem resetMeetsTheInvariant : Obligations.ResetMeetsTheInvariant :=
  sound_reset.rest (by decide) rfl

/-- Settles O51: every register, valid bit, predictor and parameter here is a closed term that evaluates to its value. -/
theorem resetLeavesTheResetValues : Obligations.ResetLeavesTheResetValues := by
  unfold Obligations.ResetLeavesTheResetValues
  decide

/-! ### What a reset keeps of memory -/

/-- The output range of a decode that a reset stops holds free values, as after ABORT (70 R242). -/
theorem resetValues_mem_busy {s : State} (h : s.seq = .busy) :
    (resetValues s).mem = fillFree s.mem s.outBase s.draws (outSize s) := by
  simp [resetValues, h]

theorem resetValues_mem_rest {s : State} (h : s.seq ≠ .busy) : (resetValues s).mem = s.mem := by
  simp [resetValues, h]

theorem resetValues_wf {s : State} (hm : Memory.wf s.mem) : Memory.wf (resetValues s).mem := by
  by_cases h : s.seq = .busy
  · rw [resetValues_mem_busy h]
    exact fillFree_wf _ _ _ _ hm
  · rwa [resetValues_mem_rest h]

/-- A reset changes no byte outside the output range (20 R64; 70 R242). -/
theorem resetValues_read_outside {s : State} {a : Nat} (ha : ∀ o < outSize s, a ≠ addrAt s.outBase o) :
    Memory.read (resetValues s).mem a = Memory.read s.mem a := by
  by_cases h : s.seq = .busy
  · rw [resetValues_mem_busy h]
    exact fillFree_read_outside _ _ _ _ _ ha
  · rw [resetValues_mem_rest h]

/-! ### What a reset leaves -/

/-- The free values behind the new staging entries are ones that nothing has drawn before (10 R47; log 25). -/
theorem lt_resetValues_draws (s : State) : s.draws < (resetValues s).draws := by
  by_cases h : s.seq = .busy
  · simp only [resetValues, if_pos h, drawOutput_writes]
    omega
  · simp [resetValues, h]

/-- All that is left of the state before a reset: the parameters, memory, the outside world and the count of the free
values (70 R241; log 25). -/
theorem resetValues_eq (s : State) (asserted : Bool) : { resetValues s with resetAsserted := asserted } =
    { State.reset with
      params := s.params, busMap := s.busMap, agenda := s.agenda, readData := s.readData, memData := s.memData
      resetAsserted := asserted, mem := (resetValues s).mem, stageSeed := (resetValues s).draws
      draws := (resetValues s).draws } := by
  obtain ⟨hparams, hbus, hagenda, hread, hmem⟩ := resetValues_keeps s
  rw [← hparams, ← hbus, ← hagenda, ← hread, ← hmem]
  rfl

theorem releaseReset_asserted {s : State} (h : s.resetAsserted = true) :
    releaseReset s = { resetValues s with resetAsserted := false } := if_pos h

theorem releaseReset_released {s : State} (h : s.resetAsserted = false) : releaseReset s = s :=
  if_neg (by simp [h])

/-- Settles O52: the assertion and the release of the reset input both leave `resetValues`, and while it is asserted the block
rests (`turn_rests`) and what the host sends is not answered (`step_answered`). -/
theorem resetInputStopsAndClears : Obligations.ResetInputStopsAndClears := by
  intro s rest hm resets
  let t : State := { s with agenda := rest }
  have left (asserted : Bool) (h : step s = .next { resetValues t with resetAsserted := asserted }) : resets asserted :=
    ⟨(resetValues t).mem, (resetValues t).draws, (resetValues t).draws, h.trans (congrArg _ (resetValues_eq t asserted)),
      lt_resetValues_draws t, resetValues_wf (s := t) hm, resetValues_mem_rest (s := t),
      fun _ ha => resetValues_read_outside (s := t) ha⟩
  have release (hs : s.agenda = .resetOff :: rest) : step s = .next (releaseReset t) := step_event hs
  refine ⟨fun hs => left true (step_event hs), fun hs hr => left false ?_, fun hs hr => ?_, fun hr => ⟨?_, ?_, ?_⟩⟩
  · exact (release hs).trans (congrArg _ (releaseReset_asserted hr))
  · exact (release hs).trans (congrArg _ (releaseReset_released hr))
  · exact turn_rests s (.inr (.inr hr))
  · exact fun _ _ hs hd => (step_answered hs (fetchEvent_access hd)).2 hr
  · exact fun w hs => (step_answered hs (fetchEvent_command (w := w) rfl)).2 hr

end Sys2Proof.Machine
end
